-- ==== Sys2Proof/Word.lean ====
section
/-! DEFINITION. The words of the block: command and register words, bytes of the input
buffer, binary32 patterns, and the two channels. -/

namespace Sys2Proof

/-- A command word or a control register: 32 bits, bit 0 least significant (00_scope.md R14). -/
abbrev Word := BitVec 32

/-- One byte of the input buffer (10_state.md R51). -/
abbrev Byte := BitVec 8

/-- The bit pattern of an IEEE 754 binary32 number (00_scope.md R20). -/
abbrev F32 := BitVec 32

/-- The two channels the block holds; channel 0 is the left or only one (00_scope.md R17). -/
inductive Channel where
  | c0
  | c1
  deriving DecidableEq, Repr

/-- The channel's number. -/
def Channel.num : Channel → Nat
  | .c0 => 0
  | .c1 => 1

end Sys2Proof
end

