-- ==== Sys2Proof/Syntax.lean ====
section
/-! DEFINITION. The eighteen commands of the ASDB command set, version 1.0
(30_encoding.md R118). -/

namespace Sys2Proof

/-- One constructor per row of the opcode table; operand fields keep the width the format
gives them (30_encoding.md R112 to R116), so a field may hold a value that is illegal as an
encoding: `WellFormed` tells those apart. -/
inductive Instr where
  /-- start a frame -/
  | frst
  /-- stream reset -/
  | srst
  /-- read `n` bits, unsigned -/
  | brd (n : BitVec 6)
  /-- read `n` bits, signed -/
  | brds (n : BitVec 6)
  /-- read one bit -/
  | brb
  /-- peek `n` bits -/
  | bpk (n : BitVec 6)
  /-- byte-align the cursor -/
  | bal
  /-- bits left -/
  | blf
  /-- decode one scale-factor symbol -/
  | hsf
  /-- decode one spectral tuple of codebook `cb` -/
  | hsp (cb : BitVec 4)
  /-- scale-factor pass of channel `c` -/
  | sfd (c : Channel)
  /-- spectral-data pass of channel `c` -/
  | spd (c : Channel)
  /-- mid/side butterfly on the channel pair -/
  | ms
  /-- intensity reconstruction on the channel pair -/
  | is
  /-- LPC coefficients of TNS slot `f` of window `w` of channel `c` -/
  | tnsl (c : Channel) (w : BitVec 3) (f : BitVec 2)
  /-- apply the TNS filters of channel `c` -/
  | tns (c : Channel)
  /-- inverse-quantize channel `c` -/
  | iq (c : Channel)
  /-- synthesis filterbank of channel `c` -/
  | fb (c : Channel)
  deriving DecidableEq, Repr

end Sys2Proof
end

