-- ==== Sys2Proof/WellFormed.lean ====
section
/-! DEFINITION. Which instructions are legal encodings: the operand ranges of
30_encoding.md R113, R115, R116 and R119. -/

namespace Sys2Proof

/-- The legal bit counts of BRD, BRDS and BPK (30_encoding.md R113). -/
abbrev legalCount (n : BitVec 6) : Prop := n.toNat ≤ 32

/-- The legal codebooks of HSP (30_encoding.md R115). -/
abbrev legalCodebook (cb : BitVec 4) : Prop := 1 ≤ cb.toNat ∧ cb.toNat ≤ 11

/-- The legal filter slots of TNSL (30_encoding.md R116). -/
abbrev legalSlot (f : BitVec 2) : Prop := f.toNat ≤ 2

/-- An instruction whose word is a legal encoding (30_encoding.md R119). -/
def WellFormed : Instr → Bool
  | .frst => true
  | .srst => true
  | .brd n => decide (legalCount n)
  | .brds n => decide (legalCount n)
  | .brb => true
  | .bpk n => decide (legalCount n)
  | .bal => true
  | .blf => true
  | .hsf => true
  | .hsp cb => decide (legalCodebook cb)
  | .sfd _ => true
  | .spd _ => true
  | .ms => true
  | .is => true
  | .tnsl _ _ f => decide (legalSlot f)
  | .tns _ => true
  | .iq _ => true
  | .fb _ => true

end Sys2Proof
end

