-- ==== Sys2Proof/Decode.lean ====
section
/-! DEFINITION. The command decoder, total on 32-bit words and rejecting by name, and after
it the encoder, both from 30_encoding.md R110 to R124. -/

namespace Sys2Proof

/-- Why a word is an illegal encoding (30_encoding.md R119). -/
inductive DecodeError where
  /-- OP is none of the eighteen opcode values -/
  | unknownOpcode
  /-- a bit the format requires to be 0 is 1 -/
  | reservedBits
  /-- BRD, BRDS or BPK with n above 32 -/
  | badCount
  /-- HSP with cb outside 1..11 -/
  | badCodebook
  /-- TNSL with f = 3 -/
  | badSlot
  deriving DecidableEq, Repr

/-- OP = bits [31:24] (30_encoding.md R111). -/
def opField (w : Word) : BitVec 8 := w.extractLsb' 24 8

/-- The channel named by bit [0] (30_encoding.md R114). -/
def channelOfBit (b : BitVec 1) : Channel := if b = 1#1 then .c1 else .c0

/-- The bit that names a channel. -/
def Channel.bit : Channel → BitVec 1
  | .c0 => 0#1
  | .c1 => 1#1

/-- Format Z: bits [23:0] are 0 (30_encoding.md R112). -/
def decodeZ (w : Word) (i : Instr) : Except DecodeError Instr :=
  if w.extractLsb' 0 24 = 0#24 then .ok i else .error .reservedBits

/-- Format N: n = bits [5:0], bits [23:6] are 0 (30_encoding.md R113). -/
def decodeN (w : Word) (mk : BitVec 6 → Instr) : Except DecodeError Instr :=
  if w.extractLsb' 6 18 ≠ 0#18 then .error .reservedBits
  else if legalCount (w.extractLsb' 0 6) then .ok (mk (w.extractLsb' 0 6))
  else .error .badCount

/-- Format C: c = bit [0], bits [23:1] are 0 (30_encoding.md R114). -/
def decodeC (w : Word) (mk : Channel → Instr) : Except DecodeError Instr :=
  if w.extractLsb' 1 23 = 0#23 then .ok (mk (channelOfBit (w.extractLsb' 0 1)))
  else .error .reservedBits

/-- Format B: cb = bits [3:0], bits [23:4] are 0 (30_encoding.md R115). -/
def decodeB (w : Word) (mk : BitVec 4 → Instr) : Except DecodeError Instr :=
  if w.extractLsb' 4 20 ≠ 0#20 then .error .reservedBits
  else if legalCodebook (w.extractLsb' 0 4) then .ok (mk (w.extractLsb' 0 4))
  else .error .badCodebook

/-- Format T: f = bits [5:4], w = bits [3:1], c = bit [0], bits [23:6] are 0
(30_encoding.md R116). -/
def decodeT (w : Word) (mk : Channel → BitVec 3 → BitVec 2 → Instr) :
    Except DecodeError Instr :=
  if w.extractLsb' 6 18 ≠ 0#18 then .error .reservedBits
  else if legalSlot (w.extractLsb' 4 2) then
    .ok (mk (channelOfBit (w.extractLsb' 0 1)) (w.extractLsb' 1 3) (w.extractLsb' 4 2))
  else .error .badSlot

/-- The command a word encodes, or the name of what makes it illegal: the rows of
30_encoding.md R118, then the operand ranges of R119. -/
def decode (w : Word) : Except DecodeError Instr :=
  match (opField w).toNat with
  | 0x01 => decodeZ w .frst
  | 0x02 => decodeZ w .srst
  | 0x10 => decodeN w .brd
  | 0x11 => decodeN w .brds
  | 0x12 => decodeZ w .brb
  | 0x13 => decodeN w .bpk
  | 0x14 => decodeZ w .bal
  | 0x15 => decodeZ w .blf
  | 0x20 => decodeZ w .hsf
  | 0x21 => decodeB w .hsp
  | 0x28 => decodeC w .sfd
  | 0x29 => decodeC w .spd
  | 0x30 => decodeZ w .ms
  | 0x31 => decodeZ w .is
  | 0x38 => decodeT w .tnsl
  | 0x39 => decodeC w .tns
  | 0x40 => decodeC w .iq
  | 0x48 => decodeC w .fb
  | _ => .error .unknownOpcode

/-- A word's low `nbits` bits as the value the host writes to CMD. -/
def tableWord (nbits w : Nat) : Word := BitVec.ofNat 32 (w % 2 ^ nbits)

/-- The instruction the decoder reads from a word numbered as the opcode table numbers it.
No memory holds a command word (10_state.md R33), so nothing is laid out in bytes. -/
def decodeTableWord (nbits w : Nat) : Option Instr :=
  match decode (tableWord nbits w) with
  | .ok i => some i
  | .error _ => none

/-- OP in [31:24] and the 24-bit argument field (30_encoding.md R111, R122). -/
def opWord (op : BitVec 8) (arg : BitVec 24) : Word := op ++ arg

/-- The word of an instruction (30_encoding.md R112 to R118, R122). -/
def encode : Instr → Word
  | .frst => opWord 0x01#8 0#24
  | .srst => opWord 0x02#8 0#24
  | .brd n => opWord 0x10#8 (n.setWidth 24)
  | .brds n => opWord 0x11#8 (n.setWidth 24)
  | .brb => opWord 0x12#8 0#24
  | .bpk n => opWord 0x13#8 (n.setWidth 24)
  | .bal => opWord 0x14#8 0#24
  | .blf => opWord 0x15#8 0#24
  | .hsf => opWord 0x20#8 0#24
  | .hsp cb => opWord 0x21#8 (cb.setWidth 24)
  | .sfd c => opWord 0x28#8 (c.bit.setWidth 24)
  | .spd c => opWord 0x29#8 (c.bit.setWidth 24)
  | .ms => opWord 0x30#8 0#24
  | .is => opWord 0x31#8 0#24
  | .tnsl c w f => opWord 0x38#8 ((f ++ (w ++ c.bit)).setWidth 24)
  | .tns c => opWord 0x39#8 (c.bit.setWidth 24)
  | .iq c => opWord 0x40#8 (c.bit.setWidth 24)
  | .fb c => opWord 0x48#8 (c.bit.setWidth 24)

end Sys2Proof
end

