-- ==== Sys2Proof/Config.lean ====
section
/-! DEFINITION. What an implementation fixes: the memory spaces and their sizes, the numeric
parameters of 00_scope.md R8 to R10, the type of the parameter record of R10 and R12, and the
free values the spec leaves unspecified. -/

namespace Sys2Proof

/-! ### Sizes fixed by the source or by decision -/

/-- IBUF_BYTES, the size of the input buffer; OPEN with 1 ≤ IBUF_BYTES ≤ 2^28, here the
default (00_scope.md R10). DESIGN CHOICE, log 6. -/
def Config.ibufBytes : Nat := 8192

/-- TNS_MAX_ORDER (00_scope.md R8). -/
def Config.tnsMaxOrder : Nat := 20

/-- SF_DELTA (00_scope.md R8). -/
def Config.sfDelta : Int := 60

/-- NOISE_SEED_OFFSET = 90 + 256 (00_scope.md R8). -/
def Config.noiseSeedOffset : Int := 346

/-- NOISE_FIRST_BITS (00_scope.md R8). -/
def Config.noiseFirstBits : Nat := 9

/-! ### Memory spaces -/

/-- The fifteen memory spaces (10_state.md R50). -/
inductive Space where
  | ibuf | cb | sf | msu | pred | swbl | swbs | qspec | spec | ovl | tout | tnsn | tnsf
  | tnsc | lpcbuf
  deriving DecidableEq, Repr

/-- The width in bits of one element of a space (10_state.md R50). -/
@[reducible] def Space.width : Space → Nat
  | .ibuf => 8
  | .cb => 4
  | .sf => 32
  | .msu => 1
  | .pred => 1
  | .swbl => 16
  | .swbs => 16
  | .qspec => 16
  | .spec => 32
  | .ovl => 32
  | .tout => 32
  | .tnsn => 2
  | .tnsf => 14
  | .tnsc => 4
  | .lpcbuf => 32

/-- The number of elements of a space (10_state.md R50). -/
def Space.size : Space → Nat
  | .ibuf => Config.ibufBytes
  | .cb => 1024
  | .sf => 1024
  | .msu => 512
  | .pred => 128
  | .swbl => 64
  | .swbs => 16
  | .qspec => 2048
  | .spec => 2048
  | .ovl => 2048
  | .tout => 2048
  | .tnsn => 16
  | .tnsf => 64
  | .tnsc => 2048
  | .lpcbuf => 21

/-- The spaces whose elements are +0.0 after reset (10_state.md R59, R60, R62, R71); the
contents of every other space are unspecified then. -/
def Space.zeroed : Space → Bool
  | .ovl => true
  | .tout => true
  | .lpcbuf => true
  | _ => false

/-- The spaces the host may write (10_state.md R50, column "host"). -/
def Space.hostWritable : Space → Bool
  | .ovl => false
  | .tout => false
  | .lpcbuf => false
  | _ => true

/-! ### Huffman code tables -/

/-- The eleven spectral codebooks (00_scope.md R18). -/
inductive SpecBook where
  | b1 | b2 | b3 | b4 | b5 | b6 | b7 | b8 | b9 | b10 | b11
  deriving DecidableEq, Repr

/-- The twelve code tables of HCB (41_huffman.md R160). -/
inductive Book where
  | sf
  | spectral (b : SpecBook)
  deriving DecidableEq, Repr

/-- One entry (len, code, sym) of a code table (41_huffman.md R160). -/
structure HuffEntry where
  len : Nat
  code : Nat
  sym : Nat
  deriving DecidableEq, Repr

/-- A code table is a finite set of entries (41_huffman.md R160). -/
abbrev HuffTable := List HuffEntry

/-- DIM[b], the number of values of a tuple (41_huffman.md R163). -/
def SpecBook.dim : SpecBook → Nat
  | .b1 | .b2 | .b3 | .b4 => 4
  | .b5 | .b6 | .b7 | .b8 | .b9 | .b10 | .b11 => 2

/-- SGN[b]: do codewords of the book carry signed values, so that no sign bits follow
(41_huffman.md R163)? -/
def SpecBook.signed : SpecBook → Bool
  | .b1 | .b2 | .b5 | .b6 => true
  | .b3 | .b4 | .b7 | .b8 | .b9 | .b10 | .b11 => false

/-- LAV[b], the largest absolute value (41_huffman.md R163). -/
def SpecBook.lav : SpecBook → Nat
  | .b1 | .b2 => 1
  | .b3 | .b4 => 2
  | .b5 | .b6 => 4
  | .b7 | .b8 => 7
  | .b9 | .b10 => 12
  | .b11 => 16

/-- NSYM[b], the number of symbols of a table (41_huffman.md R163). -/
def Book.nsym : Book → Nat
  | .sf => 121
  | .spectral .b1 | .spectral .b2 | .spectral .b3 | .spectral .b4 | .spectral .b5
  | .spectral .b6 => 81
  | .spectral .b7 | .spectral .b8 => 64
  | .spectral .b9 | .spectral .b10 => 169
  | .spectral .b11 => 289

/-! ### The parameter record -/

/-- The frame lengths the block knows (00_scope.md R8). -/
inductive FrameLen where
  | long1024
  | small960
  deriving DecidableEq, Repr

/-- FL (00_scope.md R8). -/
def FrameLen.lines : FrameLen → Nat
  | .long1024 => 1024
  | .small960 => 960

/-- Everything a model takes as an argument: the decided parameters of 00_scope.md R10 and
the ROM parameters of R12. Every command is a function of such a record; the block's own is
`blockParams` of `Machine/Rom.lean`. -/
structure Params where
  /-- ESC_MAX_N (00_scope.md R10) -/
  escMaxN : Nat
  /-- SF_GAIN_MIN (00_scope.md R10) -/
  sfGainMin : Int
  /-- SF_GAIN_MAX (00_scope.md R10) -/
  sfGainMax : Int
  /-- IS_INVERT_ON_ALL1 (00_scope.md R10) -/
  isInvertOnAll1 : Bool
  /-- HCB (41_huffman.md R160) -/
  hcb : Book → HuffTable
  /-- MAXLEN (41_huffman.md R163) -/
  maxLen : Book → Nat
  /-- UNPACK (41_huffman.md R166) -/
  unpack : SpecBook → Nat → List Int
  /-- POW43 (45_invquant.md R253) -/
  pow43 : Nat → F32
  /-- EXP2Q (45_invquant.md R254) -/
  exp2q : Int → F32
  /-- ISROM (43_stereo.md R217) -/
  isrom : Int → F32
  /-- TNSROM(RES, CMP, q) (44_tns.md R232) -/
  tnsrom : Bool → Bool → Nat → F32
  /-- WINL(shape, n), one table for each frame length (46_filterbank.md R262) -/
  winl : FrameLen → Bool → Nat → F32
  /-- WINS(shape, n), one table for each frame length (46_filterbank.md R263) -/
  wins : FrameLen → Bool → Nat → F32
  /-- IMDCT_L: FL inputs to 2·FL outputs; `none` is a NaN whose pattern is not specified
  (46_filterbank.md R264) -/
  imdctL : FrameLen → List F32 → List (Option F32)
  /-- IMDCT_S: SL inputs to 2·SL outputs (46_filterbank.md R264) -/
  imdctS : FrameLen → List F32 → List (Option F32)

/-! ### Free values -/

/-- One NaN pattern, by its sign and its non-zero fraction less one: every binary32 NaN is
one of these and none else is. -/
structure NaNPattern where
  sign : Bool
  payload : Fin 8388607
  deriving DecidableEq, Repr, Inhabited

/-- FREE VALUE: the contents an element of a space holds after reset where the spec calls
them unspecified (10_state.md R71; 93_implementation_defined.md U1). Log 3. -/
opaque Config.powerOn : Space → Nat → Nat

/-- FREE VALUE: the sign and payload of the n-th NaN the block produces (00_scope.md R21:
"a model draws them"; 93_implementation_defined.md U2). Log 4. -/
opaque Config.freeNaN : Nat → NaNPattern

/-- FREE VALUE: the contents of the code-table ROM, which the spec leaves OPEN without a
default (00_scope.md R12; 41_huffman.md R160); `Rom.hcb` holds them to the constraints of R161.
Log 5. -/
opaque Config.hcb : Book → HuffTable

end Sys2Proof
end

