-- ==== Sys2Proof/Machine/State.lean ====
section
/-! DEFINITION. The state of the block as plain data (10_state.md), the reasons a step can
stop, and the state after reset. -/

namespace Sys2Proof.Machine

open Sys2Proof

/-- The block's own faults, codes 1 to 4 of STATUS.FAULT (60_exceptions.md R300). -/
inductive BlockFault where
  | endOfStream
  | formatError
  | unsupportedProfile
  | cmdError
  deriving DecidableEq, Repr

/-- The four result registers (10_state.md R30). -/
structure Results where
  res0 : Word
  res1 : Word
  res2 : Word
  res3 : Word
  deriving DecidableEq, Repr

/-- The control registers that hold state (10_state.md R34 to R46). STATUS is held by its
one field FAULT: `none` is code 0. -/
structure Csr where
  fault : Option BlockFault
  finfo : Word
  fpos : Word
  bitpos : Word
  ilen : Word
  cfg : Word
  bands : Word
  ics0 : Word
  ics1 : Word
  grp0 : Word
  grp1 : Word
  gg0 : Word
  gg1 : Word
  cpe : Word
  pshape : Word
  deriving DecidableEq, Repr

/-- The listed elements of one memory space: (index, value) pairs. -/
abbrev Cells (w : Nat) := List (Nat × BitVec w)

/-- The fifteen memory spaces (10_state.md R50). -/
structure Mem where
  ibuf : List Host.Cell
  cb : Cells 4
  sf : Cells 32
  msu : Cells 1
  pred : Cells 1
  swbl : Cells 16
  swbs : Cells 16
  qspec : Cells 16
  spec : Cells 32
  ovl : Cells 32
  tout : Cells 32
  tnsn : Cells 2
  tnsf : Cells 14
  tnsc : Cells 4
  lpcbuf : Cells 32
  deriving DecidableEq, Repr

/-- One access of the host (10_state.md R35, R72; 20_memory.md R91). -/
inductive HostAccess where
  /-- write `w` to control register number `n`; number 0 is CMD, so this issues a command -/
  | writeReg (n : Nat) (w : Word)
  /-- read control register number `n` -/
  | readReg (n : Nat)
  /-- write the value `v` to element `i` of a memory space -/
  | writeMem (sp : Space) (i : Nat) (v : Nat)
  /-- read element `i` of a memory space -/
  | readMem (sp : Space) (i : Nat)
  deriving DecidableEq, Repr

/-- The state: what 10_state.md gives the block, and two fields of the model's own, the
host's accesses not yet made (log 1) and the number of NaN patterns drawn (log 4). -/
structure State where
  regs : Results
  csr : Csr
  mem : Mem
  host : List HostAccess
  nanDraws : Nat
  deriving DecidableEq, Repr

/-- The machine stops. -/
inductive Fault where
  /-- An element that does not exist was accessed. Raised by the element accesses of
  `Machine/Ops.lean` (20_memory.md R82 lets a model make this "a fault of its own that no run
  reaches"). Safe. -/
  | noElement (sp : Space) (i : Nat)
  deriving DecidableEq, Repr

/-- No meaning. -/
inductive Refusal where
  /-- The instruction is not modelled yet. Raised by `exec`'s refused arms; there is none. Safe. -/
  | notModelled (mnemonic : String)
  /-- A host access the spec gives the host no move for (10_state.md R48, R72). Raised by
  `hostAccess`. Safe. -/
  | noHostMove (a : HostAccess)
  deriving DecidableEq, Repr

/-- Every result register is 0 (10_state.md R32). -/
def Results.reset : Results := { res0 := 0, res1 := 0, res2 := 0, res3 := 0 }

/-- Every control register is 0 (10_state.md R71; 70_reset_and_hazards.md R341). -/
def Csr.reset : Csr :=
  { fault := none, finfo := 0, fpos := 0, bitpos := 0, ilen := 0, cfg := 0, bands := 0,
    ics0 := 0, ics1 := 0, grp0 := 0, grp1 := 0, gg0 := 0, gg1 := 0, cpe := 0, pshape := 0 }

/-- Nothing is listed: OVL, TOUT and LPCBUF read +0.0, every other element its unspecified
power-on contents (10_state.md R71). -/
def Mem.reset : Mem :=
  { ibuf := [], cb := [], sf := [], msu := [], pred := [], swbl := [], swbs := [],
    qspec := [], spec := [], ovl := [], tout := [], tnsn := [], tnsf := [], tnsc := [],
    lpcbuf := [] }

/-- The machine right after hardware reset (10_state.md R71): the block waits for the host's
first write (70_reset_and_hazards.md R342). -/
def State.reset : State :=
  { regs := Results.reset, csr := Csr.reset, mem := Mem.reset, host := [], nanDraws := 0 }

end Sys2Proof.Machine
end

