-- ==== Sys2Proof/Machine/Flags.lean ====
section
/-! DEFINITION. STATUS.FAULT, the block's only status flag (10_state.md R36). There are no
arithmetic condition codes and no floating-point exception flags. -/

namespace Sys2Proof.Machine

open Sys2Proof

/-- The code of a fault (60_exceptions.md R300). -/
def BlockFault.code : BlockFault → Word
  | .endOfStream => 1
  | .formatError => 2
  | .unsupportedProfile => 3
  | .cmdError => 4

/-- STATUS as the host reads it: FAULT in [2:0], the rest 0 (10_state.md R36). -/
def Csr.status (r : Csr) : Word :=
  match r.fault with
  | none => 0
  | some f => f.code

/-- STATUS.FAULT, FINFO and FPOS, the registers fault entry and fault return write. -/
def Csr.setFault (r : Csr) (f : Option BlockFault) (info pos : Word) : Csr :=
  { r with fault := f, finfo := info, fpos := pos }

/-- FRST's part of these registers (47_control.md R291, 60_exceptions.md R315): codes 1, 2 and
4 are cleared, code 3 survives. -/
def Csr.clearsOnFrameStart (r : Csr) : Bool := r.fault != some .unsupportedProfile

end Sys2Proof.Machine
end

