-- ==== Sys2Proof/Machine/Flt.lean ====
section
/-! DEFINITION. IEEE 754 binary32 arithmetic, rounded to nearest with ties to even,
subnormals supported, no traps and no flags (00_scope.md R20, R21). Every finite number is a
whole multiple of 2^-149, so operands become integers, the result is computed exactly, and one
rounding packs it. An operation answers `none` where IEEE 754 makes the result a NaN, whose
pattern the spec leaves open. -/

namespace Sys2Proof.Machine.Flt

open Sys2Proof

/-- The sign bit. -/
def neg (a : F32) : Bool := a.getMsbD 0

/-- The exponent field, bits [30:23]. -/
def expField (a : F32) : Nat := a.toNat / 2 ^ 23 % 2 ^ 8

/-- The fraction field, bits [22:0]. -/
def fracField (a : F32) : Nat := a.toNat % 2 ^ 23

/-- A NaN: exponent all ones, fraction not zero. -/
def isNaN (a : F32) : Bool := expField a == 255 && fracField a != 0

/-- An infinity: exponent all ones, fraction zero. -/
def isInf (a : F32) : Bool := expField a == 255 && fracField a == 0

/-- Neither a NaN nor an infinity. -/
def isFinite (a : F32) : Bool := expField a != 255

/-- The magnitude of a finite number in units of 2^-149. -/
def units (a : F32) : Nat :=
  if expField a = 0 then fracField a else (2 ^ 23 + fracField a) * 2 ^ (expField a - 1)

/-- The value of a finite number in units of 2^-149. -/
def value (a : F32) : Int := if neg a then -(units a : Int) else (units a : Int)

/-- The pattern of +infinity. -/
def infPattern : Nat := 0x7F800000

/-- `m / 2^sh` rounded to the nearest integer, ties to even. -/
def roundShift (m sh : Nat) : Nat :=
  let q := m / 2 ^ sh
  let r := m % 2 ^ sh
  if 2 ^ sh < 2 * r ∨ (2 * r = 2 ^ sh ∧ q % 2 = 1) then q + 1 else q

/-- How far the unit in the last place of n / 2^k lies above 2^-149: the exponent field of the
result, less one when it is normal. -/
def ulpExp (n k : Nat) : Nat := Nat.log2 n - (k + 23)

/-- The pattern of the non-negative number n · 2^-(149 + k) rounded to binary32, to nearest,
ties to even, to +infinity on overflow. -/
def roundMag (n k : Nat) : Nat :=
  let e := ulpExp n k
  min (e * 2 ^ 23 + roundShift n (k + e)) infPattern

/-- A pattern from a sign and the pattern of a magnitude. -/
def withSign (s : Bool) (mag : Nat) : F32 := BitVec.ofNat 32 ((if s then 2 ^ 31 else 0) + mag)

/-- `fneg` flips the sign bit, of a NaN too. -/
def fneg (a : F32) : F32 := a ^^^ 0x80000000#32

/-- The sum of two finite numbers: exact, then one rounding; an exact zero is +0 unless both
operands are -0 or negative. -/
def addFinite (a b : F32) : F32 :=
  let v := value a + value b
  if v = 0 then withSign (neg a && neg b) 0
  else withSign (decide (v < 0)) (roundMag v.natAbs 0)

/-- `fadd`; `none` is a NaN result. -/
def add? (a b : F32) : Option F32 :=
  if isNaN a || isNaN b then none
  else if isInf a then
    if isInf b && neg a != neg b then none else some a
  else if isInf b then some b
  else some (addFinite a b)

/-- `fsub` is `fadd` of the negated second operand (IEEE 754; log 14). -/
def sub? (a b : F32) : Option F32 := add? a (fneg b)

/-- `fmul`; `none` is a NaN result. -/
def mul? (a b : F32) : Option F32 :=
  let s := neg a != neg b
  if isNaN a || isNaN b then none
  else if isInf a || isInf b then
    if (isFinite a && units a == 0) || (isFinite b && units b == 0) then none
    else some (withSign s infPattern)
  else some (withSign s (roundMag (units a * units b) 149))

/-- The pattern of a NaN. -/
def ofNaN (p : NaNPattern) : F32 :=
  BitVec.ofNat 32 ((if p.sign then 2 ^ 31 else 0) + 255 * 2 ^ 23 + (p.payload.val + 1))

end Sys2Proof.Machine.Flt
end

