-- ==== Sys2Proof/Machine/Ops.lean ====
section
/-! DEFINITION. The named operations over the memory spaces and registers, the command monad,
taking a fault and returning from one, and the stream primitives ReadBits and PeekBits. -/

namespace Sys2Proof.Machine

open Sys2Proof

/-! ### Lists of cells in canonical form -/

/-- Indices strictly rising. -/
def Cells.rising {w : Nat} : Cells w → Bool
  | [] => true
  | [_] => true
  | (i, _) :: (j, v) :: rest => decide (i < j) && Cells.rising ((j, v) :: rest)

/-- The listed value of element `i`, if any. -/
def Cells.lookup {w : Nat} : Cells w → Nat → Option (BitVec w)
  | [], _ => none
  | (j, v) :: rest, i => if i = j then some v else Cells.lookup rest i

/-- List the value `v` for element `i`, in its place. -/
def Cells.insert {w : Nat} (i : Nat) (v : BitVec w) : Cells w → Cells w
  | [] => [(i, v)]
  | (j, u) :: rest =>
    if i < j then (i, v) :: (j, u) :: rest
    else if i = j then (i, v) :: rest
    else (j, u) :: Cells.insert i v rest

/-- List nothing for element `i`. -/
def Cells.erase {w : Nat} (i : Nat) : Cells w → Cells w
  | [] => []
  | (j, u) :: rest => if i = j then rest else (j, u) :: Cells.erase i rest

/-- Values for the elements from `base` on, in a row; a zero is listed unless `skipZero`. -/
def Cells.run {w : Nat} (skipZero : Bool) : Nat → List (BitVec w) → Cells w
  | _, [] => []
  | base, v :: vs =>
    if skipZero && v == 0 then Cells.run skipZero (base + 1) vs
    else (base, v) :: Cells.run skipZero (base + 1) vs

/-- Replace the elements `base` to `base + vs.length - 1` by `vs`. -/
def Cells.splice {w : Nat} (skipZero : Bool) (base : Nat) (vs : List (BitVec w))
    (m : Cells w) : Cells w :=
  m.filter (fun c => decide (c.1 < base)) ++
    (Cells.run skipZero base vs ++ m.filter (fun c => decide (base + vs.length ≤ c.1)))

/-! ### The memory spaces -/

/-- The listed elements of a space. -/
def Mem.cells (m : Mem) : (sp : Space) → Cells sp.width
  | .ibuf => m.ibuf
  | .cb => m.cb
  | .sf => m.sf
  | .msu => m.msu
  | .pred => m.pred
  | .swbl => m.swbl
  | .swbs => m.swbs
  | .qspec => m.qspec
  | .spec => m.spec
  | .ovl => m.ovl
  | .tout => m.tout
  | .tnsn => m.tnsn
  | .tnsf => m.tnsf
  | .tnsc => m.tnsc
  | .lpcbuf => m.lpcbuf

/-- Replace the listed elements of a space. -/
def Mem.setCells (m : Mem) : (sp : Space) → Cells sp.width → Mem
  | .ibuf, l => { m with ibuf := l }
  | .cb, l => { m with cb := l }
  | .sf, l => { m with sf := l }
  | .msu, l => { m with msu := l }
  | .pred, l => { m with pred := l }
  | .swbl, l => { m with swbl := l }
  | .swbs, l => { m with swbs := l }
  | .qspec, l => { m with qspec := l }
  | .spec, l => { m with spec := l }
  | .ovl, l => { m with ovl := l }
  | .tout, l => { m with tout := l }
  | .tnsn, l => { m with tnsn := l }
  | .tnsf, l => { m with tnsf := l }
  | .tnsc, l => { m with tnsc := l }
  | .lpcbuf, l => { m with lpcbuf := l }

/-- What an unlisted element reads as: +0.0 in OVL, TOUT and LPCBUF, the unspecified power-on
contents elsewhere (10_state.md R71; 93_implementation_defined.md U1; log 3). -/
def unlisted (sp : Space) (i : Nat) : BitVec sp.width :=
  if sp.zeroed then 0 else BitVec.ofNat sp.width (Config.powerOn sp i)

/-- The value of element `i` of a space (20_memory.md R80, R91). -/
def Mem.read (m : Mem) (sp : Space) (i : Nat) : BitVec sp.width :=
  ((m.cells sp).lookup i).getD (unlisted sp i)

/-- Write element `i` of a space. In a space whose unlisted elements are known to read 0, a 0
is not listed; elsewhere a listed element is one the host or a command has written. -/
def Mem.write (m : Mem) (sp : Space) (i : Nat) (v : BitVec sp.width) : Mem :=
  m.setCells sp
    (if sp.zeroed && v == 0 then (m.cells sp).erase i else (m.cells sp).insert i v)

/-- Write the elements from `base` on, in a row. -/
def Mem.writeRun (m : Mem) (sp : Space) (base : Nat) (vs : List (BitVec sp.width)) : Mem :=
  m.setCells sp ((m.cells sp).splice sp.zeroed base vs)

/-- The canonical form of one space: indices strictly rising and inside the space, and no
listed element equal to what an unlisted one is known to read as. -/
def Mem.spaceWf (m : Mem) (sp : Space) : Bool :=
  (m.cells sp).rising && (m.cells sp).all fun c =>
    decide (c.1 < sp.size) && !(sp.zeroed && c.2 == 0)

/-- The canonical form of the whole memory. -/
def Memory.wf (m : Mem) : Bool :=
  m.spaceWf .ibuf && m.spaceWf .cb && m.spaceWf .sf && m.spaceWf .msu && m.spaceWf .pred &&
  m.spaceWf .swbl && m.spaceWf .swbs && m.spaceWf .qspec && m.spaceWf .spec &&
  m.spaceWf .ovl && m.spaceWf .tout && m.spaceWf .tnsn && m.spaceWf .tnsf &&
  m.spaceWf .tnsc && m.spaceWf .lpcbuf

/-- The value of element `i` of a space of the state. -/
def State.elem (s : State) (sp : Space) (i : Nat) : BitVec sp.width := s.mem.read sp i

/-! ### The command monad -/

/-- What ends a command early: a fault of the block, or an element that does not exist. -/
inductive Stop where
  | raised (f : BlockFault)
  | noElement (sp : Space) (i : Nat)
  deriving DecidableEq, Repr

/-- The body of a command: it runs on the state, and where it stops early the state is as it
was at that point, nothing undone (60_exceptions.md R312). -/
abbrev Cmd (α : Type) := EStateM Stop State α

/-- `raise F` (00_scope.md R15); what it records is `takeFault`'s. -/
def raise {α : Type} (f : BlockFault) : Cmd α := throw (.raised f)

/-- Raise CmdError, FormatError … unless `ok` holds. -/
def check (ok : Bool) (f : BlockFault) : Cmd Unit := if ok then pure () else raise f

/-- Do `f` for every element of a list, in order. -/
def each {α : Type} (f : α → Cmd Unit) : List α → Cmd Unit
  | [] => pure ()
  | a :: as => do
    f a
    each f as

/-- Do `f` for every element of a list, in order, carrying a value along. -/
def carry {α β : Type} (f : β → α → Cmd β) : β → List α → Cmd β
  | b, [] => pure b
  | b, a :: as => do
    let b' ← f b a
    carry f b' as

/-- Read element `i` of a space; an element that does not exist stops the machine
(20_memory.md R82; log 12). -/
def load (sp : Space) (i : Nat) : Cmd (BitVec sp.width) := do
  let s ← get
  if i < sp.size then pure (s.elem sp i) else throw (.noElement sp i)

/-- Write element `i` of a space; an element that does not exist stops the machine. -/
def store (sp : Space) (i : Nat) (v : BitVec sp.width) : Cmd Unit := do
  let s ← get
  if i < sp.size then set { s with mem := s.mem.write sp i v } else throw (.noElement sp i)

/-- Write elements `base`, `base + 1`, … of a space. -/
def storeRun (sp : Space) (base : Nat) (vs : List (BitVec sp.width)) : Cmd Unit := do
  let s ← get
  if base + vs.length ≤ sp.size then set { s with mem := s.mem.writeRun sp base vs }
  else throw (.noElement sp (base + vs.length - 1))

/-! ### Result registers -/

/-- `x[0] <- v` (00_scope.md R15). -/
def setRes0 (v : Word) : Cmd Unit :=
  modify fun s => { s with regs := { s.regs with res0 := v } }

/-- `x[0..3] <- …`, four scalar writes (00_scope.md R21). -/
def setResAll (v0 v1 v2 v3 : Word) : Cmd Unit :=
  modify fun s => { s with regs := { res0 := v0, res1 := v1, res2 := v2, res3 := v3 } }

/-! ### Floating-point operations with free NaN patterns -/

/-- A floating-point result: the number IEEE 754 gives, or the next free NaN pattern
(00_scope.md R21; log 4). The second component counts the patterns drawn. -/
def resolve (r : Option F32) (k : Nat) : F32 × Nat :=
  (match r with
   | some v => v
   | none => Flt.ofNaN (Config.freeNaN k),
   match r with
   | some _ => k
   | none => k + 1)

/-- `fadd(a,b)`. -/
def fadd (a b : F32) : Nat → F32 × Nat := resolve (Flt.add? a b)

/-- `fsub(a,b)`. -/
def fsub (a b : F32) : Nat → F32 × Nat := resolve (Flt.sub? a b)

/-- `fmul(a,b)`. -/
def fmul (a b : F32) : Nat → F32 × Nat := resolve (Flt.mul? a b)

/-- A list of floating-point results, in order. -/
def mapDraw {α : Type} (f : α → Nat → F32 × Nat) : List α → Nat → List F32 × Nat
  | [], k => ([], k)
  | a :: as, k =>
    let r := f a k
    let rs := mapDraw f as r.2
    (r.1 :: rs.1, rs.2)

/-- Run a floating-point computation inside a command. -/
def drawing {α : Type} (f : Nat → α × Nat) : Cmd α := fun s =>
  let r := f s.nanDraws
  .ok r.1 { s with nanDraws := r.2 }

/-! ### Taking a fault and returning from one -/

/-- FAULT ENTRY (60_exceptions.md R311): STATUS.FAULT, FINFO and FPOS are written and, for
FormatError, every element of TOUT becomes +0.0 (R304). Nothing else changes: no mode, no
saved register, no jump. -/
def takeFault (f : BlockFault) (w : Word) (s : State) : State :=
  { s with
    csr := s.csr.setFault (some f) w s.csr.bitpos
    mem := if f = .formatError then s.mem.setCells .tout [] else s.mem }

/-- RETURN FROM A FAULT, the effect of FRST (47_control.md R291; 60_exceptions.md R315):
nothing while UnsupportedProfile is pending, else the fault registers and BITPOS become 0.
Nothing is restored, since nothing was saved. -/
def frameStart (s : State) : State :=
  if s.csr.clearsOnFrameStart then
    { s with csr := { s.csr.setFault none 0 0 with bitpos := 0 } }
  else s

/-- STREAM RESET, the effect of SRST (47_control.md R292): every control and result register
0, OVL, TOUT and LPCBUF +0.0; the other memories keep their contents. -/
def streamReset (s : State) : State :=
  { s with
    regs := Results.reset
    csr := Csr.reset
    mem := { s.mem with ovl := [], tout := [], lpcbuf := [] } }

/-- How a command body ends: normally, in a fault of the block that is recorded, or with the
machine stopped. -/
def finish (w : Word) : EStateM.Result Stop State Unit → Host.Outcome State Fault Refusal
  | .ok _ s => .next s
  | .error (.raised f) s => .next (takeFault f w s)
  | .error (.noElement sp i) _ => .fault (.noElement sp i)

/-- Run the command word `w` with body `m`. While a fault is pending the command is refused:
no state changes at all (60_exceptions.md R313). -/
def runCmd (w : Word) (m : Cmd Unit) (s : State) : Host.Outcome State Fault Refusal :=
  match s.csr.fault with
  | some _ => .next s
  | none => finish w (m s)

/-- A word that is an illegal encoding (30_encoding.md R119; 60_exceptions.md R310): CmdError,
or refused while a fault is pending. -/
def illegalWord (w : Word) (s : State) : Host.Outcome State Fault Refusal :=
  runCmd w (raise .cmdError) s

/-! ### The input stream -/

/-- BitAt(k), as a number: bit 7 - (k mod 8) of IBUF[k div 8] (20_memory.md R83). -/
def bitAt (s : State) (k : Nat) : Nat := (s.elem .ibuf (k / 8)).toNat / 2 ^ (7 - k % 8) % 2

/-- The n-bit field at stream position k, its first bit most significant (20_memory.md R84). -/
def fieldAt (s : State) (k : Nat) : Nat → Nat
  | 0 => 0
  | n + 1 => 2 * fieldAt s k n + bitAt s (k + n)

/-- BitsLeft() = max(8·ILEN - BITPOS, 0) (40_bitreader.md R140). -/
def bitsLeft (s : State) : Nat := 8 * s.csr.ilen.toNat - s.csr.bitpos.toNat

/-- BITPOS <- v. -/
def setBitpos (v : Nat) (s : State) : State :=
  { s with csr := { s.csr with bitpos := BitVec.ofNat 32 v } }

/-- PeekBits(n) (40_bitreader.md R143): EndOfStream when n > BitsLeft(). -/
def peekBits (n : Nat) : Cmd Nat := do
  let s ← get
  if bitsLeft s < n then raise .endOfStream
  else if n = 0 ∨ s.csr.bitpos.toNat + n ≤ 8 * Config.ibufBytes then
    pure (fieldAt s s.csr.bitpos.toNat n)
  else throw (.noElement .ibuf ((s.csr.bitpos.toNat + n - 1) / 8))

/-- ReadBits(n) (40_bitreader.md R142): as PeekBits, then BITPOS <- BITPOS + n. -/
def readBits (n : Nat) : Cmd Nat := do
  let v ← peekBits n
  modify fun s => setBitpos (s.csr.bitpos.toNat + n) s
  pure v

end Sys2Proof.Machine
end

