-- ==== Sys2Proof/Machine/BitReader.lean ====
section
/-! DEFINITION. The bit-reader commands BRD, BRDS, BRB, BPK, BAL and BLF (40_bitreader.md).
Their common steps (R151) are `runCmd`'s refusal, the encoding check, the body. -/

namespace Sys2Proof.Machine

open Sys2Proof

/-- `sext_n(v)` of an n-bit value, 0 for n = 0 (40_bitreader.md R145). -/
def sext (n v : Nat) : Int :=
  if n = 0 then 0 else if v < 2 ^ (n - 1) then (v : Int) else (v : Int) - 2 ^ n

/-- The body of BRD (40_bitreader.md R144). -/
def brdCmd (n : BitVec 6) : Cmd Unit := do
  check (decide (legalCount n)) .cmdError
  let v ← readBits n.toNat
  setRes0 (BitVec.ofNat 32 v)

/-- The body of BRDS (40_bitreader.md R145). -/
def brdsCmd (n : BitVec 6) : Cmd Unit := do
  check (decide (legalCount n)) .cmdError
  let v ← readBits n.toNat
  setRes0 (BitVec.ofInt 32 (sext n.toNat v))

/-- The body of BRB (40_bitreader.md R146). -/
def brbCmd : Cmd Unit := do
  let v ← readBits 1
  setRes0 (BitVec.ofNat 32 v)

/-- The body of BPK (40_bitreader.md R147). -/
def bpkCmd (n : BitVec 6) : Cmd Unit := do
  check (decide (legalCount n)) .cmdError
  let v ← peekBits n.toNat
  setRes0 (BitVec.ofNat 32 v)

/-- The body of BAL (40_bitreader.md R149). -/
def balCmd : Cmd Unit := do
  let s ← get
  let pos := s.csr.bitpos.toNat
  if pos % 8 = 0 then pure ()
  else if bitsLeft s < 8 - pos % 8 then raise .endOfStream
  else set (setBitpos (pos + (8 - pos % 8)) s)

/-- The body of BLF (40_bitreader.md R150). -/
def blfCmd : Cmd Unit := do
  let s ← get
  setRes0 (BitVec.ofNat 32 (bitsLeft s))

/-- BRD n: read an unsigned field. -/
def execBrd (n : BitVec 6) (s : State) : Host.Outcome State Fault Refusal :=
  runCmd (encode (.brd n)) (brdCmd n) s

/-- BRDS n: read a signed field. -/
def execBrds (n : BitVec 6) (s : State) : Host.Outcome State Fault Refusal :=
  runCmd (encode (.brds n)) (brdsCmd n) s

/-- BRB: read one bit as a Boolean. -/
def execBrb (s : State) : Host.Outcome State Fault Refusal := runCmd (encode .brb) brbCmd s

/-- BPK n: peek at an unsigned field, consuming nothing. -/
def execBpk (n : BitVec 6) (s : State) : Host.Outcome State Fault Refusal :=
  runCmd (encode (.bpk n)) (bpkCmd n) s

/-- BAL: byte-align the cursor. -/
def execBal (s : State) : Host.Outcome State Fault Refusal := runCmd (encode .bal) balCmd s

/-- BLF: bits left. -/
def execBlf (s : State) : Host.Outcome State Fault Refusal := runCmd (encode .blf) blfCmd s

end Sys2Proof.Machine
end

