-- ==== Sys2Proof/Machine/Control.lean ====
section
/-! DEFINITION. The control commands FRST and SRST (47_control.md). They are the only commands
that execute while a fault is pending, and they raise none (R290). -/

namespace Sys2Proof.Machine

open Sys2Proof

/-- FRST: start a frame (47_control.md R291). -/
def execFrst (s : State) : Host.Outcome State Fault Refusal := .next (frameStart s)

/-- SRST: stream reset (47_control.md R292). -/
def execSrst (s : State) : Host.Outcome State Fault Refusal := .next (streamReset s)

end Sys2Proof.Machine
end

