-- ==== Sys2Proof/Machine/Operands.lean ====
section
/-! DEFINITION. The implicit operands of the commands: fields of the control registers
(10_state.md R36 to R46), elements of the memory spaces at their linear indices (R50), codebook
identifiers (00_scope.md R18) and the channel geometry (10_state.md R65 to R70). The explicit
operand fields n, cb, c, w, f are taken out of the word by the decoder. -/

namespace Sys2Proof.Machine

open Sys2Proof

/-! ### Fields of the control registers -/

/-- `v[hi:lo]` as an unsigned integer (00_scope.md R14). -/
def field (v : Word) (hi lo : Nat) : Nat := v.toNat / 2 ^ lo % 2 ^ (hi + 1 - lo)

/-- `v[i]`, one bit (00_scope.md R14). -/
def flag (v : Word) (i : Nat) : Bool := field v i i == 1

/-- The frame length CFG.SMALL selects (10_state.md R40). -/
def Csr.frameLen (r : Csr) : FrameLen := if flag r.cfg 0 then .small960 else .long1024

/-- FL (00_scope.md R8). -/
def Csr.fl (r : Csr) : Nat := r.frameLen.lines

/-- SL = FL / 8 (00_scope.md R9). -/
def Csr.sl (r : Csr) : Nat := r.fl / 8

/-- FLAT = (FL - SL) / 2 (00_scope.md R9). -/
def Csr.flat (r : Csr) : Nat := (r.fl - r.sl) / 2

/-- CFG.ERHCR (10_state.md R40). -/
def Csr.erhcr (r : Csr) : Bool := flag r.cfg 1

/-- CFG.ERRVLC (10_state.md R40). -/
def Csr.errvlc (r : Csr) : Bool := flag r.cfg 2

/-- ICSc (10_state.md R42). -/
def Csr.ics (r : Csr) : Channel → Word
  | .c0 => r.ics0
  | .c1 => r.ics1

/-- GRPc (10_state.md R43). -/
def Csr.grp (r : Csr) : Channel → Word
  | .c0 => r.grp0
  | .c1 => r.grp1

/-- GGc[7:0], the global gain (10_state.md R44). -/
def Csr.globalGain (r : Csr) : Channel → Nat
  | .c0 => field r.gg0 7 0
  | .c1 => field r.gg1 7 0

/-- The four window sequences (10_state.md R42). -/
inductive WindowSeq where
  | onlyLong
  | longStart
  | eightShort
  | longStop
  deriving DecidableEq, Repr

/-- ICSc.WSEQ (10_state.md R42). -/
def Csr.wseq (r : Csr) (c : Channel) : WindowSeq :=
  match field (r.ics c) 1 0 with
  | 0 => .onlyLong
  | 1 => .longStart
  | 2 => .eightShort
  | _ => .longStop

/-- ICSc.WSEQ = 2, the short-window frames. -/
def Csr.short (r : Csr) (c : Channel) : Bool := r.wseq c == .eightShort

/-- ICSc.WSHAPE (10_state.md R42). -/
def Csr.wshape (r : Csr) (c : Channel) : Bool := flag (r.ics c) 2

/-- ICSc.MAXSFB (10_state.md R42). -/
def Csr.maxsfb (r : Csr) (c : Channel) : Nat := field (r.ics c) 8 3

/-- ICSc.NGRP (10_state.md R42). -/
def Csr.ngrp (r : Csr) (c : Channel) : Nat := field (r.ics c) 12 9

/-- GLEN(c,g) (10_state.md R43). -/
def Csr.glen (r : Csr) (c : Channel) (g : Nat) : Nat := field (r.grp c) (4 * g + 3) (4 * g)

/-- CPE.MSMODE (10_state.md R45). -/
def Csr.msmode (r : Csr) : Nat := field r.cpe 1 0

/-- CPE.COMMONWIN (10_state.md R45). -/
def Csr.commonwin (r : Csr) : Bool := flag r.cpe 2

/-- PSHAPE[c] (10_state.md R46). -/
def Csr.prevShape (r : Csr) (c : Channel) : Bool := flag r.pshape c.num

/-- PSHAPE[c] <- v (46_filterbank.md R270). -/
def Csr.setPrevShape (r : Csr) (c : Channel) (v : Bool) : Csr :=
  { r with
    pshape :=
      let keep := r.pshape &&& ~~~(1#32 <<< c.num)
      if v then keep ||| 1#32 <<< c.num else keep }

/-! ### Elements at the linear indices of 10_state.md R50 -/

/-- The codebook identifiers (00_scope.md R18). -/
inductive Codebook where
  | zero
  | spectral (b : SpecBook)
  | reserved
  | noise
  | intensity2
  | intensity
  deriving DecidableEq, Repr

/-- The identifier a 4-bit number stands for (00_scope.md R18). -/
def codebookOf (v : BitVec 4) : Codebook :=
  match v.toNat with
  | 0 => .zero
  | 1 => .spectral .b1
  | 2 => .spectral .b2
  | 3 => .spectral .b3
  | 4 => .spectral .b4
  | 5 => .spectral .b5
  | 6 => .spectral .b6
  | 7 => .spectral .b7
  | 8 => .spectral .b8
  | 9 => .spectral .b9
  | 10 => .spectral .b10
  | 11 => .spectral .b11
  | 12 => .reserved
  | 13 => .noise
  | 14 => .intensity2
  | _ => .intensity

/-- The index of band b of group g of channel c in CB and SF: 512·c + 64·g + b. -/
def bandIx (c : Channel) (g b : Nat) : Nat := 512 * c.num + 64 * g + b

/-- The index of line p of channel c in QSPEC, SPEC, OVL and TOUT: 1024·c + p. -/
def lineIx (c : Channel) (p : Nat) : Nat := 1024 * c.num + p

/-- The index of slot f of window w of channel c in TNSF: 32·c + 4·w + f. -/
def slotIx (c : Channel) (w f : Nat) : Nat := 32 * c.num + 4 * w + f

/-- CB[c][g][b] (10_state.md R52). -/
def State.cb (s : State) (c : Channel) (g b : Nat) : Codebook :=
  codebookOf (s.elem .cb (bandIx c g b))

/-- SF[c][g][b] as a signed integer (10_state.md R53). -/
def State.sf (s : State) (c : Channel) (g b : Nat) : Int := (s.elem .sf (bandIx c g b)).toInt

/-- MSU[g][b] (10_state.md R54). -/
def State.msu (s : State) (g b : Nat) : Bool := s.elem .msu (64 * g + b) == 1#1

/-- TNSN[c][w] (10_state.md R61). -/
def State.tnsn (s : State) (c : Channel) (w : Nat) : Nat := (s.elem .tnsn (8 * c.num + w)).toNat

/-- The descriptor of a filter slot (10_state.md R61). -/
structure TnsSlot where
  len : Nat
  order : Nat
  down : Bool
  res : Bool
  cmp : Bool
  deriving DecidableEq, Repr

/-- TNSF[c][w][f]: LEN [5:0], ORDER [10:6], DIR [11], RES [12], CMP [13] (10_state.md R61). -/
def State.tnsf (s : State) (c : Channel) (w f : Nat) : TnsSlot :=
  let d := (s.elem .tnsf (slotIx c w f)).setWidth 32
  { len := field d 5 0, order := field d 10 6, down := flag d 11, res := flag d 12,
    cmp := flag d 13 }

/-- TNSC[c][w][f][k] (10_state.md R61). -/
def State.tnsc (s : State) (c : Channel) (w f k : Nat) : Nat :=
  (s.elem .tnsc (32 * slotIx c w f + k)).toNat

/-! ### Channel geometry -/

/-- NWIN(c) (10_state.md R65). -/
def Csr.nwin (r : Csr) (c : Channel) : Nat := if r.short c then 8 else 1

/-- WL(c) (10_state.md R65). -/
def Csr.wl (r : Csr) (c : Channel) : Nat := if r.short c then r.sl else r.fl

/-- NSWB(c) (10_state.md R66). -/
def Csr.nswb (r : Csr) (c : Channel) : Nat :=
  if r.short c then field r.bands 11 8 else field r.bands 5 0

/-- MAXTNS(c) (10_state.md R66). -/
def Csr.maxtns (r : Csr) (c : Channel) : Nat :=
  if r.short c then field r.bands 27 24 else field r.bands 21 16

/-- OFF(c)[i] (10_state.md R66). -/
def State.off (s : State) (c : Channel) (i : Nat) : Nat :=
  if s.csr.short c then (s.elem .swbs i).toNat else (s.elem .swbl i).toNat

/-- GSTART(c,g) (10_state.md R67). -/
def Csr.gstart (r : Csr) (c : Channel) : Nat → Nat
  | 0 => 0
  | g + 1 => r.gstart c g + r.glen c g

/-- LINE(c,g,w,i) (10_state.md R68). -/
def Csr.line (r : Csr) (c : Channel) (g w i : Nat) : Nat := (r.gstart c g + w) * r.wl c + i

/-- lo, lo + 1, …, hi - 1. -/
def upTo (lo hi : Nat) : List Nat := List.range' lo (hi - lo)

/-- The bands of a channel in loop order: groups outermost, bands rising inside a group. -/
def Csr.bandList (r : Csr) (c : Channel) : List (Nat × Nat) :=
  (upTo 0 (r.ngrp c)).flatMap fun g => (upTo 0 (r.maxsfb c)).map fun b => (g, b)

/-- The line indices of band b in window w of group g. -/
def State.windowLines (s : State) (c : Channel) (g w b : Nat) : List Nat :=
  (upTo (s.off c b) (s.off c (b + 1))).map (s.csr.line c g w)

/-- The line indices of band b of group g, window after window. -/
def State.bandLines (s : State) (c : Channel) (g b : Nat) : List Nat :=
  (upTo 0 (s.csr.glen c g)).flatMap fun w => s.windowLines c g w b

/-- MSBIT(g,b) (10_state.md R69); MSMODE = 3 is faulted on first. -/
def State.msbit (s : State) (g b : Nat) : Bool :=
  match s.csr.msmode with
  | 0 => false
  | 1 => s.msu g b
  | _ => true

/-- Checks (1) to (6) of GeomCheck(c), in their order (10_state.md R70). -/
def State.geomOk (s : State) (c : Channel) : Bool :=
  let r := s.csr
  (decide (1 ≤ r.ngrp c) && decide (r.ngrp c ≤ r.nwin c)) &&
  ((upTo 0 (r.ngrp c)).all (fun g => decide (1 ≤ r.glen c g)) &&
    decide (r.gstart c (r.ngrp c) = r.nwin c)) &&
  decide (r.maxsfb c ≤ r.nswb c) &&
  decide (s.off c 0 = 0) &&
  ((upTo 0 (r.nswb c)).all (fun i => decide (s.off c i < s.off c (i + 1))) &&
    decide (s.off c (r.nswb c) ≤ r.wl c)) &&
  (r.bandList c).all (fun gb => s.cb c gb.1 gb.2 != .reserved)

/-- GeomCheck(c): FormatError unless every check holds; no state changes (10_state.md R70). -/
def geomCheck (c : Channel) : Cmd Unit := do
  let s ← get
  check (s.geomOk c) .formatError

/-- Element p of channel c in QSPEC or SPEC; a channel has 1024 of them (10_state.md R50). -/
def loadLine (sp : Space) (c : Channel) (p : Nat) : Cmd (BitVec sp.width) :=
  if p < 1024 then load sp (lineIx c p) else throw (.noElement sp (lineIx c p))

/-- Write element p of channel c in QSPEC or SPEC. -/
def storeLine (sp : Space) (c : Channel) (p : Nat) (v : BitVec sp.width) : Cmd Unit :=
  if p < 1024 then store sp (lineIx c p) v else throw (.noElement sp (lineIx c p))

/-- Write elements p, p + 1, … of channel c, all inside the channel. -/
def storeLines (sp : Space) (c : Channel) (p : Nat) (vs : List (BitVec sp.width)) : Cmd Unit :=
  if p + vs.length ≤ 1024 then storeRun sp (lineIx c p) vs
  else throw (.noElement sp (lineIx c (p + vs.length - 1)))

end Sys2Proof.Machine
end

