-- ==== Sys2Proof/Machine/Rom.lean ====
section
/-! DEFINITION. The default of every ROM parameter that has one (00_scope.md R12): the real
number a rule names, rounded once to binary32. Roots are integer roots with a sticky bit, so
they are rounded correctly; sines, cosines and Bessel sums are computed in fixed point with
640 fraction bits (log 7). -/

namespace Sys2Proof.Machine.Rom

open Sys2Proof

/-! ### Roots and powers of two -/

/-- The bits of the integer p-th root of n, from bit b - 1 down to bit 0, added to acc. -/
def rootBits (p n : Nat) : Nat → Nat → Nat
  | 0, acc => acc
  | b + 1, acc =>
    if (acc + 2 ^ b) ^ p ≤ n then rootBits p n b (acc + 2 ^ b) else rootBits p n b acc

/-- The integer p-th root of n, rounded down. -/
def iroot (p n : Nat) : Nat := rootBits p n (Nat.log2 n / p + 1) 0

/-- The binary32 pattern of n^(1/p) · 2^-(149 + t), correctly rounded: the integer root, and a
last bit that says whether it is inexact. -/
def roundRoot (p n t : Nat) : F32 :=
  let r := iroot p n
  BitVec.ofNat 32 (Flt.roundMag (2 * r + if r ^ p = n then 0 else 1) (t + 1))

/-- The quotient n / d with a last bit that says whether it is inexact. -/
def stickyDiv (n d : Nat) : Nat := 2 * (n / d) + if n % d = 0 then 0 else 1

/-- POW43(m) = m^(4/3) rounded to binary32 (45_invquant.md R253). -/
def pow43 (m : Nat) : F32 := roundRoot 3 (m ^ 4 * 2 ^ (3 * (149 + 8))) 8

/-- 2^(n/4) rounded to binary32: +infinity from n = 512 on, +0.0 below n = -640. -/
def exp2Quarter (n : Int) : F32 :=
  if 512 ≤ n then BitVec.ofNat 32 Flt.infPattern
  else if n < -640 then 0
  else roundRoot 4 (2 ^ (n + 4 * (149 + 16)).toNat) 16

/-- SF_BIAS (00_scope.md R10), the default 0. DESIGN CHOICE, log 6. -/
def sfBias : Int := 0

/-- EXP2Q(sf) = 2^((sf - SF_BIAS)/4) (45_invquant.md R254). -/
def exp2q (sf : Int) : F32 := exp2Quarter (sf - sfBias)

/-- ISROM(pos) = 2^(-pos/4) (43_stereo.md R217). -/
def isrom (pos : Int) : F32 := exp2Quarter (-pos)

/-! ### The TNS coefficient tables -/

/-- TNSROM(0, 0, ·) and TNSROM(0, 1, ·), TNSROM(1, 0, ·), TNSROM(1, 1, ·) as the table of
44_tns.md R233 lists them. -/
def tnsTable : Bool → Bool → List F32
  | false, false => [0x00000000, 0x3EDE2602, 0x3F48261C, 0x3F7994E0, 0xBF7C1C5C, 0xBF5DB3D7,
      0xBF248DBB, 0xBEAF1D44]
  | false, true => [0x00000000, 0x3EDE2602, 0xBF248DBB, 0xBEAF1D44]
  | true, false => [0x00000000, 0x3E54E6CD, 0x3ED03FC9, 0x3F167918, 0x3F3E3EBD, 0x3F5DB3D7,
      0x3F737871, 0x3F7E98FD, 0xBF7EE86F, 0xBF763A35, 0xBF65296C, 0xBF4C4ADB, 0xBF2C7751,
      0xBF06C442, 0xBEB8F4AB, 0xBE3C28D5]
  | true, true => [0x00000000, 0x3E54E6CD, 0x3ED03FC9, 0x3F167918, 0xBF2C7751, 0xBF06C442,
      0xBEB8F4AB, 0xBE3C28D5]

/-- TNSROM(RES, CMP, q) (44_tns.md R233); never read for q beyond the table (R231). -/
def tnsrom (res cmp : Bool) (q : Nat) : F32 := (tnsTable res cmp).getD q 0

/-! ### Fixed-point trigonometry -/

/-- The number of fraction bits of the fixed-point values below. -/
def fracBits : Nat := 640

/-- π in fixed point, rounded down. -/
def piFix : Nat :=
  0x3243f6a8885a308d313198a2e03707344a4093822299f31d0082efa98ec4e6c89452821e638d01377be5466cf34e90c6cc0ac29b7c97c50dd3f84d5b5b54709179216d5d98979fb1bd1310ba698dfb5ac

/-- The alternating Taylor sum of the cosine: from term number k on, of the `fuel` terms left,
where x2 is the square of the angle. -/
def cosSeries (x2 : Nat) : Nat → Nat → Nat → Int
  | 0, _, _ => 0
  | fuel + 1, k, term =>
    (term : Int) -
      cosSeries x2 fuel (k + 1) (term * x2 / 2 ^ fracBits / ((2 * k + 1) * (2 * k + 2)))

/-- cos(j·π/d) in fixed point, for 0 ≤ j ≤ d/2; 80 terms of the series. -/
def cosFirst (j d : Nat) : Int :=
  let x := piFix * j / d
  cosSeries (x * x / 2 ^ fracBits) 80 0 (2 ^ fracBits)

/-- cos(j·π/d) in fixed point, for any j, by the symmetries of the cosine. -/
def cosFix (j d : Nat) : Int :=
  let a := j % (2 * d)
  let b := if d < a then 2 * d - a else a
  if d < 2 * b then -cosFirst (d - b) d else cosFirst b d

/-- A positive fixed-point number rounded to binary32, its last bit taken as inexact. -/
def roundFix (x : Nat) : F32 :=
  BitVec.ofNat 32 (Flt.roundMag (2 * (x * 2 ^ 149) + 1) (fracBits + 1))

/-! ### Windows -/

/-- sin((π/(2·m))·(n + ½)), the sine window of length m (46_filterbank.md R262, R263). -/
def sineWin (m n : Nat) : F32 := roundFix (cosFix (2 * m - (2 * n + 1)) (4 * m)).natAbs

/-- Σ y^j/(j!)² from term number j on, `fuel` terms: the modified Bessel function I0 of an
argument whose half has the square y. -/
def besselSeries (y : Nat) : Nat → Nat → Nat → Nat
  | 0, _, _ => 0
  | fuel + 1, j, term =>
    term + besselSeries y fuel (j + 1) (term * y / 2 ^ fracBits / ((j + 1) * (j + 1)))

/-- k(p) of the Kaiser-Bessel-derived window of length m with parameter α
(46_filterbank.md R262): the square of half the argument of I0 is (π·α)²·p·(m - p)/m². -/
def kaiser (m alpha p : Nat) : Nat :=
  let pa := piFix * alpha
  besselSeries (pa * pa * (p * (m - p)) / (m * m) / 2 ^ fracBits) 180 0 (2 ^ fracBits)

/-- The sums Σ_{p=0}^{n} k(p) for n = 0, 1, …, given the values k(0), k(1), …. -/
def prefixSums : Nat → List Nat → List Nat
  | _, [] => []
  | acc, k :: ks => (acc + k) :: prefixSums (acc + k) ks

/-- The prefix sums of k(0) … k(m). -/
def kaiserSums (m alpha : Nat) : List Nat :=
  prefixSums 0 ((List.range (m + 1)).map (kaiser m alpha))

/-- The prefix sums of the four Kaiser-Bessel-derived windows, each computed once. -/
def kbdSums1024 : Array Nat := (kaiserSums 1024 4).toArray
/-- As `kbdSums1024`, for FL = 960. -/
def kbdSums960 : Array Nat := (kaiserSums 960 4).toArray
/-- As `kbdSums1024`, for SL = 128 and α = 6. -/
def kbdSums128 : Array Nat := (kaiserSums 128 6).toArray
/-- As `kbdSums1024`, for SL = 120 and α = 6. -/
def kbdSums120 : Array Nat := (kaiserSums 120 6).toArray

/-- sqrt(Σ_{p≤n} k(p) / Σ_{p≤m} k(p)), the Kaiser-Bessel-derived window of length m, from its
prefix sums (46_filterbank.md R262, R263). -/
def kbdWin (sums : Array Nat) (m n : Nat) : F32 :=
  roundRoot 2 (sums.getD n 0 * 2 ^ (2 * (149 + 8)) / sums.getD m 1) 8

/-- WINL (46_filterbank.md R262): shape 0 sine, shape 1 Kaiser-Bessel-derived with α = 4. -/
def winl (fl : FrameLen) (shape : Bool) (n : Nat) : F32 :=
  match shape, fl with
  | false, fl => sineWin fl.lines n
  | true, .long1024 => kbdWin kbdSums1024 1024 n
  | true, .small960 => kbdWin kbdSums960 960 n

/-- WINS (46_filterbank.md R263): the same with SL for FL and α = 6. -/
def wins (fl : FrameLen) (shape : Bool) (n : Nat) : F32 :=
  match shape, fl with
  | false, fl => sineWin (fl.lines / 8) n
  | true, .long1024 => kbdWin kbdSums128 128 n
  | true, .small960 => kbdWin kbdSums120 120 n

/-! ### The inverse transform -/

/-- A sum in units of 2^-(149 + 640), divided by m and rounded once to binary32; a zero result
is +0.0 (46_filterbank.md R264; log 8). -/
def roundSum (t : Int) (m : Nat) : F32 :=
  let mag := Flt.roundMag (stickyDiv t.natAbs m) (fracBits + 1)
  if mag = 0 then 0 else Flt.withSign (decide (t < 0)) mag

/-- The inputs that are not zero, as (k, value in units of 2^-149). -/
def lineValues (xs : List F32) : List (Nat × Int) :=
  (xs.zipIdx.map fun p => (p.2, Flt.value p.1)).filter fun p => p.2 != 0

/-- cos(j·π/(4·m)) for j = 0 … 8·m - 1, each computed once. -/
def cosTable (m : Nat) : Array Int :=
  ((List.range (8 * m)).map fun j => cosFix j (4 * m)).toArray

/-- One output z[n] of the transform of m inputs (46_filterbank.md R264), with
(2π/N)·(n + n0)·(k + ½) = (2n + m + 1)·(2k + 1)·π/(4·m) and 2/N = 1/m. -/
def imdctOut (m : Nat) (cos : Array Int) (vals : List (Nat × Int)) (n : Nat) : F32 :=
  roundSum
    (vals.foldl
      (fun t p => t + p.2 * cos.getD ((2 * n + m + 1) * (2 * p.1 + 1) % (8 * m)) 0) 0) m

/-- The reference transform (46_filterbank.md R264): every output a NaN when some input is not
finite, else the exact sum rounded once. -/
def imdct (m : Nat) (xs : List F32) : List (Option F32) :=
  let ins := (List.range m).map fun k => xs.getD k 0
  if ins.all Flt.isFinite then
    let vals := lineValues ins
    let cos := cosTable m
    (List.range (2 * m)).map fun n => some (imdctOut m cos vals n)
  else List.replicate (2 * m) none

/-! ### UNPACK and MAXLEN -/

/-- UNPACK[b](s) (41_huffman.md R166), values in stream order. -/
def unpack (b : SpecBook) (s : Nat) : List Int :=
  match b with
  | .b1 | .b2 => [(s / 27 : Int) - 1, (s / 9 % 3 : Int) - 1, (s / 3 % 3 : Int) - 1, (s % 3 : Int) - 1]
  | .b3 | .b4 => [(s / 27 : Int), (s / 9 % 3 : Int), (s / 3 % 3 : Int), (s % 3 : Int)]
  | .b5 | .b6 => [(s / 9 : Int) - 4, (s % 9 : Int) - 4]
  | .b7 | .b8 => [(s / 8 : Int), (s % 8 : Int)]
  | .b9 | .b10 => [(s / 13 : Int), (s % 13 : Int)]
  | .b11 => [(s / 17 : Int), (s % 17 : Int)]

/-- MAXLEN[b] (41_huffman.md R163), the listed defaults. -/
def maxLen : Book → Nat
  | .sf => 19
  | .spectral .b1 => 11
  | .spectral .b2 => 9
  | .spectral .b3 => 16
  | .spectral .b4 => 12
  | .spectral .b5 => 13
  | .spectral .b6 => 11
  | .spectral .b7 => 12
  | .spectral .b8 => 10
  | .spectral .b9 => 15
  | .spectral .b10 => 12
  | .spectral .b11 => 12

/-! ### The code tables -/

/-- Is the codeword of `e` a prefix of the codeword of `e'` (41_huffman.md R161)? -/
def isPrefix (e e' : HuffEntry) : Bool :=
  decide (e.len ≤ e'.len) && e'.code / 2 ^ (e'.len - e.len) == e.code

/-- The ranges of one entry (41_huffman.md R160). -/
def entryOk (b : Book) (e : HuffEntry) : Bool :=
  decide (1 ≤ e.len) && decide (e.len ≤ maxLen b) && decide (e.code < 2 ^ e.len) &&
    decide (e.sym < b.nsym)

/-- The constraints on a code table (41_huffman.md R160, R161): entries in range, no codeword a
prefix of another, one codeword for every symbol, some codeword of the greatest length. -/
def validTable (b : Book) (t : HuffTable) : Bool :=
  t.all (entryOk b) &&
  decide (t.Pairwise fun e e' => isPrefix e e' = false ∧ isPrefix e' e = false) &&
  (List.range b.nsym).all (fun s => t.countP (fun e => e.sym == s) == 1) &&
  t.any fun e => e.len == maxLen b

/-- The length of all but one codeword of `sampleTable`. -/
def sampleLen (b : Book) : Nat := Nat.log2 (b.nsym - 1) + 1

/-- Some table that meets the constraints, so that `hcb` always does: equally long codewords and
one of the greatest length. It is nobody's table and no statement uses its contents (log 5). -/
def sampleTable (b : Book) : HuffTable :=
  (List.range (b.nsym - 1)).map (fun i => { len := sampleLen b, code := i, sym := i }) ++
    [{ len := maxLen b, code := (b.nsym - 1) * 2 ^ (maxLen b - sampleLen b), sym := b.nsym - 1 }]

/-- HCB (41_huffman.md R160): the free contents of the ROM, which satisfy the constraints of
R161, "a parameter that breaks one is not this hardware" (log 5). -/
def hcb (b : Book) : HuffTable :=
  if validTable b (Config.hcb b) then Config.hcb b else sampleTable b

end Sys2Proof.Machine.Rom

namespace Sys2Proof.Machine

open Sys2Proof

/-- The block's own parameters: the spec's default wherever it gives one, and the code-table
ROM, which has none, as a free value (00_scope.md R10, R12; logs 5 to 8). -/
def blockParams : Params where
  escMaxN := 8
  sfGainMin := 0
  sfGainMax := 255
  isInvertOnAll1 := true
  hcb := Rom.hcb
  maxLen := Rom.maxLen
  unpack := Rom.unpack
  pow43 := Rom.pow43
  exp2q := Rom.exp2q
  isrom := Rom.isrom
  tnsrom := Rom.tnsrom
  winl := Rom.winl
  wins := Rom.wins
  imdctL := fun fl => Rom.imdct fl.lines
  imdctS := fun fl => Rom.imdct (fl.lines / 8)

end Sys2Proof.Machine
end

