-- ==== Sys2Proof/Machine/Filterbank.lean ====
section
/-! DEFINITION. The synthesis filterbank FB (46_filterbank.md). -/

namespace Sys2Proof.Machine

open Sys2Proof

/-- What windowing does at one position of a long block (46_filterbank.md R265). -/
inductive Piece where
  /-- u = +0.0, nothing is added -/
  | zero
  /-- u = z -/
  | copy
  /-- u = z · w -/
  | mul (w : F32)
  deriving DecidableEq, Repr

/-- The first half of the window, position n (46_filterbank.md R265). -/
def risePiece (p : Params) (r : Csr) (seq : WindowSeq) (prev : Bool) (n : Nat) : Piece :=
  match seq with
  | .longStop =>
    if n < r.flat then .zero
    else if n < r.flat + r.sl then .mul (p.wins r.frameLen prev (n - r.flat))
    else .copy
  | .onlyLong | .longStart | .eightShort => .mul (p.winl r.frameLen prev n)

/-- The second half of the window, position FL + m (46_filterbank.md R265). -/
def fallPiece (p : Params) (r : Csr) (seq : WindowSeq) (cur : Bool) (m : Nat) : Piece :=
  match seq with
  | .longStart =>
    if m < r.flat then .copy
    else if m < r.flat + r.sl then .mul (p.wins r.frameLen cur (r.sl - 1 - (m - r.flat)))
    else .zero
  | .onlyLong | .longStop | .eightShort => .mul (p.winl r.frameLen cur (r.fl - 1 - m))

/-- TOUT at a position of the first half: the old overlap, with the windowed value added unless
there is none (46_filterbank.md R268). -/
def overlapAdd (old : F32) (u : Piece) (z : F32) (k : Nat) : F32 × Nat :=
  match u with
  | .zero => (old, k)
  | .copy => fadd old z k
  | .mul w =>
    let x := fmul z w k
    fadd old x.1 x.2

/-- The new overlap at a position of the second half (46_filterbank.md R268). -/
def newTail (u : Piece) (z : F32) (k : Nat) : F32 × Nat :=
  match u with
  | .zero => (0, k)
  | .copy => (z, k)
  | .mul w => fmul z w k

/-- The outputs of a transform, the pattern of each NaN drawn (46_filterbank.md R264). -/
def transform (zs : List (Option F32)) : Nat → List F32 × Nat := mapDraw resolve zs

/-- The frame of a long sequence: TOUT and the new OVL, each FL values
(46_filterbank.md R265, R268). -/
def longFrame (p : Params) (r : Csr) (c : Channel) (xs old : List F32) (k : Nat) :
    (List F32 × List F32) × Nat :=
  let z := transform (p.imdctL r.frameLen xs) k
  let out := mapDraw
    (fun n => overlapAdd (old.getD n 0) (risePiece p r (r.wseq c) (r.prevShape c) n)
      (z.1.getD n 0)) (upTo 0 r.fl) z.2
  let tail := mapDraw
    (fun m => newTail (fallPiece p r (r.wseq c) (r.wshape c) m) (z.1.getD (r.fl + m) 0))
    (upTo 0 r.fl) out.2
  ((out.1, tail.1), tail.2)

/-- The outputs of the eight short transforms, window after window (46_filterbank.md R267). -/
def shortTransforms (p : Params) (r : Csr) (xs : List F32) : List (Option F32) :=
  (upTo 0 8).flatMap fun w => p.imdctS r.frameLen ((xs.drop (w * r.sl)).take r.sl)

/-- The windowed values a position of the short pattern receives, each as a transform output
and its window factor, the earlier block's falling half first (46_filterbank.md R267). -/
def contributions (p : Params) (r : Csr) (c : Channel) (z : List F32) (t : Nat) :
    List (F32 × F32) :=
  if t < r.flat ∨ r.flat + 9 * r.sl ≤ t then []
  else
    let j := (t - r.flat) / r.sl
    let n := (t - r.flat) % r.sl
    let fall :=
      if 1 ≤ j then
        [(z.getD ((j - 1) * (2 * r.sl) + (r.sl + n)) 0,
          p.wins r.frameLen (r.wshape c) (r.sl - 1 - n))]
      else []
    let rise :=
      if j ≤ 7 then
        [(z.getD (j * (2 * r.sl) + n) 0,
          p.wins r.frameLen (if j = 0 then r.prevShape c else r.wshape c) n)]
      else []
    fall ++ rise

/-- acc <- fadd(acc, z·w) for each contribution in order (46_filterbank.md R268). -/
def addContributions : List (F32 × F32) → F32 → Nat → F32 × Nat
  | [], acc, k => (acc, k)
  | x :: xs, acc, k =>
    let m := fmul x.1 x.2 k
    let r := fadd acc m.1 m.2
    addContributions xs r.1 r.2

/-- The new overlap from none, one or two contributions: +0.0, the one, or their sum
(46_filterbank.md R268). -/
def sumContributions : List (F32 × F32) → Nat → F32 × Nat
  | [], k => (0, k)
  | x :: xs, k =>
    let m := fmul x.1 x.2 k
    addContributions xs m.1 m.2

/-- The frame of an EIGHT_SHORT sequence (46_filterbank.md R267, R268). -/
def shortFrame (p : Params) (r : Csr) (c : Channel) (xs old : List F32) (k : Nat) :
    (List F32 × List F32) × Nat :=
  let z := transform (shortTransforms p r xs) k
  let out := mapDraw (fun t => addContributions (contributions p r c z.1 t) (old.getD t 0))
    (upTo 0 r.fl) z.2
  let tail := mapDraw (fun m => sumContributions (contributions p r c z.1 (r.fl + m)))
    (upTo 0 r.fl) out.2
  ((out.1, tail.1), tail.2)

/-- The first FL elements of channel c of a space of numbers. -/
def State.lines (s : State) (sp : Space) (c : Channel) : List (BitVec sp.width) :=
  (upTo 0 s.csr.fl).map fun i => s.elem sp (lineIx c i)

/-- One frame of channel c (46_filterbank.md R266). -/
def fbFrame (p : Params) (c : Channel) (s : State) (k : Nat) : (List F32 × List F32) × Nat :=
  if s.csr.short c then shortFrame p s.csr c (s.lines .spec c) (s.lines .ovl c) k
  else longFrame p s.csr c (s.lines .spec c) (s.lines .ovl c) k

/-- The body of FB (46_filterbank.md R266, R268, R270). -/
def fbCmd (p : Params) (c : Channel) : Cmd Unit := do
  let s ← get
  let r ← drawing (fbFrame p c s)
  storeLines .tout c 0 r.1
  storeLines .ovl c 0 r.2
  modify fun t => { t with csr := t.csr.setPrevShape c (s.csr.wshape c) }

/-- FB c: synthesize one frame of channel c. -/
def execFb (c : Channel) (s : State) : Host.Outcome State Fault Refusal :=
  runCmd (encode (.fb c)) (fbCmd blockParams c) s

end Sys2Proof.Machine
end

