-- ==== Sys2Proof/Machine/InvQuant.lean ====
section
/-! DEFINITION. The inverse quantizer IQ (45_invquant.md). -/

namespace Sys2Proof.Machine

open Sys2Proof

/-- Deq(q, sf): power times gain, one rounding, then the sign (45_invquant.md R250). -/
def deq (p : Params) (q sf : Int) (k : Nat) : F32 × Nat :=
  let r := fmul (p.pow43 q.natAbs) (p.exp2q sf) k
  (if q < 0 then Flt.fneg r.1 else r.1, r.2)

/-- SPEC[c][i] <- Deq(QSPEC[c][i], sf). -/
def deqLine (p : Params) (c : Channel) (sf : Int) (i : Nat) : Cmd Unit := do
  let q ← loadLine .qspec c i
  let v ← drawing (deq p q.toInt sf)
  storeLine .spec c i v

/-- SPEC[c][LINE(c,g,w,i)] <- +0.0 for lo ≤ i < hi. -/
def zeroLines (c : Channel) (g w lo hi : Nat) : Cmd Unit := do
  let s ← get
  storeLines .spec c (s.csr.line c g w lo) (List.replicate (hi - lo) 0)

/-- One band in one window of IQ (45_invquant.md R251, R252). -/
def iqBand (p : Params) (c : Channel) (gw : Nat × Nat) (b : Nat) : Cmd Unit := do
  let s ← get
  match s.cb c gw.1 b with
  | .spectral _ => each (deqLine p c (s.sf c gw.1 b)) (s.windowLines c gw.1 gw.2 b)
  | .noise => pure ()
  | .zero | .reserved | .intensity2 | .intensity =>
    zeroLines c gw.1 gw.2 (s.off c b) (s.off c (b + 1))

/-- One window of IQ: its bands, then the lines above the last one (45_invquant.md R251). -/
def iqWindow (p : Params) (c : Channel) (gw : Nat × Nat) : Cmd Unit := do
  let s ← get
  each (iqBand p c gw) (upTo 0 (s.csr.maxsfb c))
  zeroLines c gw.1 gw.2 (s.off c (s.csr.maxsfb c)) (s.csr.wl c)

/-- The windows of a channel as (group, window of the group), in loop order. -/
def Csr.windowList (r : Csr) (c : Channel) : List (Nat × Nat) :=
  (upTo 0 (r.ngrp c)).flatMap fun g => (upTo 0 (r.glen c g)).map fun w => (g, w)

/-- The body of IQ (45_invquant.md R251). -/
def iqCmd (p : Params) (c : Channel) : Cmd Unit := do
  geomCheck c
  let s ← get
  each (iqWindow p c) (s.csr.windowList c)

/-- IQ c: dequantize channel c. -/
def execIq (c : Channel) (s : State) : Host.Outcome State Fault Refusal :=
  runCmd (encode (.iq c)) (iqCmd blockParams c) s

end Sys2Proof.Machine
end

