-- ==== Sys2Proof/Machine/Huffman.lean ====
section
/-! DEFINITION. The Huffman decoder: HuffDecode, Escape, HuffSpec and the commands HSF and HSP
(41_huffman.md). -/

namespace Sys2Proof.Machine

open Sys2Proof

/-- The symbol of the entry (len, code, s) of a table, if there is one (41_huffman.md R164). -/
def symbolOf (t : HuffTable) (len code : Nat) : Option Nat :=
  (t.find? fun e => e.len == len && e.code == code).map (·.sym)

/-- HuffDecode's loop with `left` more codeword lengths to try, `len` bits read so far and
their value `acc` (41_huffman.md R164). -/
def huffLoop (t : HuffTable) : Nat → Nat → Nat → Cmd Nat
  | 0, _, _ => raise .formatError
  | left + 1, len, acc => do
    let b ← readBits 1
    match symbolOf t (len + 1) (2 * acc + b) with
    | some s => pure s
    | none => huffLoop t left (len + 1) (2 * acc + b)

/-- HuffDecode(b) (41_huffman.md R164, R165). -/
def huffDecode (p : Params) (b : Book) : Cmd Nat := huffLoop (p.hcb b) (p.maxLen b) 0 0

/-- The sign bits of an unsigned tuple: one for each value that is not 0, in tuple order
(41_huffman.md R167). -/
def signBits : List Int → Cmd (List Int)
  | [] => pure []
  | v :: vs => do
    if v = 0 then
      let rest ← signBits vs
      pure (v :: rest)
    else
      let b ← readBits 1
      let rest ← signBits vs
      pure ((if b = 1 then -v else v) :: rest)

/-- The prefix of an escape code: N ones ended by a zero, with `left` more ones allowed
(41_huffman.md R169). -/
def escapePrefix : Nat → Nat → Cmd Nat
  | left, n => do
    let b ← readBits 1
    if b = 1 then
      match left with
      | 0 => raise .formatError
      | left' + 1 => escapePrefix left' (n + 1)
    else pure n

/-- Escape(): the magnitude 2^(N+4) + word (41_huffman.md R169). -/
def escape (p : Params) : Cmd Int := do
  let n ← escapePrefix p.escMaxN 0
  let word ← readBits (n + 4)
  pure (2 ^ (n + 4) + (word : Int))

/-- The escape codes of a codebook 11 tuple, in tuple order (41_huffman.md R168, R170). -/
def escapes (p : Params) : List Int → Cmd (List Int)
  | [] => pure []
  | v :: vs => do
    if v.natAbs = 16 then
      let m ← escape p
      let rest ← escapes p vs
      pure ((if v < 0 then -m else m) :: rest)
    else
      let rest ← escapes p vs
      pure (v :: rest)

/-- The DIM[b] values of a symbol (41_huffman.md R166). -/
def tupleOf (p : Params) (b : SpecBook) (s : Nat) : List Int :=
  (List.range b.dim).map fun j => (p.unpack b s).getD j 0

/-- HuffSpec(b): one tuple with its sign bits and escape codes (41_huffman.md R170). -/
def huffSpec (p : Params) (b : SpecBook) : Cmd (List Int) := do
  let s ← huffDecode p (.spectral b)
  let v ← if b.signed then pure (tupleOf p b s) else signBits (tupleOf p b s)
  if b = .b11 then escapes p v else pure v

/-- The body of HSF (41_huffman.md R173). -/
def hsfCmd (p : Params) : Cmd Unit := do
  let s ← huffDecode p .sf
  setRes0 (BitVec.ofNat 32 s)

/-- The body of HSP (41_huffman.md R174): a fault leaves x[0..3] unchanged (R175), values
beyond the tuple are 0. -/
def hspCmd (p : Params) (cb : BitVec 4) : Cmd Unit :=
  match codebookOf cb with
  | .spectral b => do
    let v ← huffSpec p b
    setResAll (BitVec.ofInt 32 (v.getD 0 0)) (BitVec.ofInt 32 (v.getD 1 0))
      (BitVec.ofInt 32 (v.getD 2 0)) (BitVec.ofInt 32 (v.getD 3 0))
  | _ => raise .cmdError

/-- HSF: decode one scale-factor symbol. -/
def execHsf (s : State) : Host.Outcome State Fault Refusal :=
  runCmd (encode .hsf) (hsfCmd blockParams) s

/-- HSP cb: decode one spectral tuple. -/
def execHsp (cb : BitVec 4) (s : State) : Host.Outcome State Fault Refusal :=
  runCmd (encode (.hsp cb)) (hspCmd blockParams cb) s

end Sys2Proof.Machine
end

