-- ==== Sys2Proof/Machine/Passes.lean ====
section
/-! DEFINITION. The channel passes SFD and SPD (42_icstream_passes.md). A fault inside a pass
is not rolled back (R190, R198). -/

namespace Sys2Proof.Machine

open Sys2Proof

/-- The counters of the scale-factor loop (42_icstream_passes.md R192; 10_state.md R63). -/
structure SfCounters where
  gain : Int
  pos : Int
  noise : Int
  first : Bool
  deriving DecidableEq, Repr

/-- The counters as SFD seeds them from globalGain (42_icstream_passes.md R192). -/
def SfCounters.seed (globalGain : Nat) : SfCounters :=
  { gain := globalGain, pos := 0, noise := globalGain - Config.noiseSeedOffset, first := true }

/-- A scale-factor delta: Huffman symbol - 60 (42_icstream_passes.md R192). -/
def sfDelta (p : Params) : Cmd Int := do
  let s ← huffDecode p .sf
  pure ((s : Int) - Config.sfDelta)

/-- SF[c][g][b] <- v. -/
def storeSf (c : Channel) (gb : Nat × Nat) (v : Int) : Cmd Unit :=
  store .sf (bandIx c gb.1 gb.2) (BitVec.ofInt 32 v)

/-- One band of the scale-factor loop (42_icstream_passes.md R192 to R194). -/
def sfdBand (p : Params) (c : Channel) (k : SfCounters) (gb : Nat × Nat) : Cmd SfCounters := do
  let s ← get
  match s.cb c gb.1 gb.2 with
  | .zero => do
    storeSf c gb 0
    pure k
  | .intensity2 | .intensity => do
    let d ← sfDelta p
    storeSf c gb (k.pos + d)
    pure { k with pos := k.pos + d }
  | .noise => do
    let d ← if k.first then (fun v : Nat => (v : Int)) <$> readBits Config.noiseFirstBits
            else sfDelta p
    storeSf c gb (k.noise + d)
    pure { k with noise := k.noise + d, first := false }
  | .spectral _ | .reserved => do
    let d ← sfDelta p
    check (decide (p.sfGainMin ≤ k.gain + d) && decide (k.gain + d ≤ p.sfGainMax)) .formatError
    storeSf c gb (k.gain + d)
    pure { k with gain := k.gain + d }

/-- The body of SFD (42_icstream_passes.md R190, R191). -/
def sfdCmd (p : Params) (c : Channel) : Cmd Unit := do
  let s ← get
  check (!s.csr.errvlc) .unsupportedProfile
  geomCheck c
  let _ ← carry (sfdBand p c) (SfCounters.seed (s.csr.globalGain c)) (s.csr.bandList c)

/-- QSPEC[c][LINE(c, g, w, i + j)] <- v[j] for each j (42_icstream_passes.md R196). -/
def storeTuple (c : Channel) (g w i : Nat) (v : List Int) : Cmd Unit := do
  let s ← get
  each (fun x => storeLine .qspec c (s.csr.line c g w (i + x.2)) (BitVec.ofInt 16 x.1)) v.zipIdx

/-- The tuples of band lo … hi - 1 in window w of group g (42_icstream_passes.md R196). -/
def spdWindow (p : Params) (c : Channel) (b : SpecBook) (g lo hi w : Nat) : Cmd Unit :=
  each (fun k => do
    let v ← huffSpec p b
    storeTuple c g w (lo + k * b.dim) v) (upTo 0 ((hi - lo) / b.dim))

/-- One band of the spectral loop (42_icstream_passes.md R196, R197). -/
def spdBand (p : Params) (c : Channel) (gb : Nat × Nat) : Cmd Unit := do
  let s ← get
  match s.cb c gb.1 gb.2 with
  | .spectral b => do
    let lo := s.off c gb.2
    let hi := s.off c (gb.2 + 1)
    check (decide ((hi - lo) % b.dim = 0)) .formatError
    each (spdWindow p c b gb.1 lo hi) (upTo 0 (s.csr.glen c gb.1))
  | .zero | .reserved | .noise | .intensity2 | .intensity => pure ()

/-- The body of SPD (42_icstream_passes.md R190, R195): all FL entries are cleared first. -/
def spdCmd (p : Params) (c : Channel) : Cmd Unit := do
  let s ← get
  check (!s.csr.erhcr) .unsupportedProfile
  geomCheck c
  storeLines .qspec c 0 (List.replicate s.csr.fl 0)
  each (spdBand p c) (s.csr.bandList c)

/-- SFD c: decode every scale factor of channel c. -/
def execSfd (c : Channel) (s : State) : Host.Outcome State Fault Refusal :=
  runCmd (encode (.sfd c)) (sfdCmd blockParams c) s

/-- SPD c: decode every spectral coefficient of channel c. -/
def execSpd (c : Channel) (s : State) : Host.Outcome State Fault Refusal :=
  runCmd (encode (.spd c)) (spdCmd blockParams c) s

end Sys2Proof.Machine
end

