-- ==== Sys2Proof/Machine/Stereo.lean ====
section
/-! DEFINITION. Stereo reconstruction: MS and IS (43_stereo.md). -/

namespace Sys2Proof.Machine

open Sys2Proof

/-- PairCheck() (43_stereo.md R210). -/
def Csr.pairOk (r : Csr) : Bool :=
  r.commonwin && r.wseq .c0 == r.wseq .c1 && r.maxsfb .c0 == r.maxsfb .c1 &&
  r.ngrp .c0 == r.ngrp .c1 && (upTo 0 (r.ngrp .c0)).all fun g => r.glen .c0 g == r.glen .c1 g

/-- Steps (3) to (5) of MS and IS (43_stereo.md R211). -/
def stereoChecks : Cmd Unit := do
  let s ← get
  check s.csr.pairOk .cmdError
  check (decide (s.csr.msmode ≠ 3)) .formatError
  geomCheck .c0
  geomCheck .c1

/-- The condition under which MS changes a band (43_stereo.md R212). -/
def State.msApplies (s : State) (gb : Nat × Nat) : Bool :=
  s.msbit gb.1 gb.2 &&
    match s.cb .c1 gb.1 gb.2 with
    | .noise | .intensity2 | .intensity => false
    | .zero | .spectral _ | .reserved => true

/-- The condition under which IS changes a band (43_stereo.md R215). -/
def State.isApplies (s : State) (gb : Nat × Nat) : Bool :=
  match s.cb .c1 gb.1 gb.2 with
  | .intensity2 | .intensity => true
  | .zero | .spectral _ | .reserved | .noise => false

/-- The butterfly on one line: both new values from the old l and r (43_stereo.md R212,
R213 a). -/
def butterfly (i : Nat) : Cmd Unit := do
  let l ← loadLine .spec .c0 i
  let r ← loadLine .spec .c1 i
  let a ← drawing (fadd r l)
  let b ← drawing (fsub l r)
  storeLine .spec .c0 i a
  storeLine .spec .c1 i b

/-- One band of MS. -/
def msBand (gb : Nat × Nat) : Cmd Unit := do
  let s ← get
  if s.msApplies gb then each butterfly (s.bandLines .c0 gb.1 gb.2) else pure ()

/-- The body of MS (43_stereo.md R211, R212). -/
def msCmd : Cmd Unit := do
  stereoChecks
  let s ← get
  each msBand (s.csr.bandList .c0)

/-- Does the band's MS-used bit count as 1 in the sign rule (43_stereo.md R218)? -/
def State.msUsed (p : Params) (s : State) (gb : Nat × Nat) : Bool :=
  match s.csr.msmode with
  | 1 => s.msu gb.1 gb.2
  | 2 => p.isInvertOnAll1
  | _ => false

/-- ISSIGN(g,b) = -1 (43_stereo.md R218). -/
def State.isNegative (p : Params) (s : State) (gb : Nat × Nat) : Bool :=
  (s.cb .c1 gb.1 gb.2 == .intensity2) != s.msUsed p gb

/-- The factor m of an intensity band (43_stereo.md R215, R217, R218). -/
def State.isFactor (p : Params) (s : State) (gb : Nat × Nat) : F32 :=
  let m := p.isrom (s.sf .c1 gb.1 gb.2)
  if s.isNegative p gb then Flt.fneg m else m

/-- SPEC[1][i] <- fmul(SPEC[0][i], m). -/
def scaleLine (m : F32) (i : Nat) : Cmd Unit := do
  let l ← loadLine .spec .c0 i
  let v ← drawing (fmul l m)
  storeLine .spec .c1 i v

/-- One band of IS: the prediction flags are cleared, the right lines rebuilt
(43_stereo.md R215, R216). -/
def isBand (p : Params) (gb : Nat × Nat) : Cmd Unit := do
  let s ← get
  if s.isApplies gb then do
    store .pred (64 * Channel.c0.num + gb.2) 0
    store .pred (64 * Channel.c1.num + gb.2) 0
    each (scaleLine (s.isFactor p gb)) (s.bandLines .c0 gb.1 gb.2)
  else pure ()

/-- The body of IS (43_stereo.md R211, R215). -/
def isCmd (p : Params) : Cmd Unit := do
  stereoChecks
  let s ← get
  each (isBand p) (s.csr.bandList .c0)

/-- MS: the mid/side butterfly. -/
def execMs (s : State) : Host.Outcome State Fault Refusal := runCmd (encode .ms) msCmd s

/-- IS: intensity reconstruction. -/
def execIs (s : State) : Host.Outcome State Fault Refusal :=
  runCmd (encode .is) (isCmd blockParams) s

end Sys2Proof.Machine
end

