-- ==== Sys2Proof/Machine/Tns.lean ====
section
/-! DEFINITION. Temporal noise shaping: TNSL and TNS (44_tns.md). -/

namespace Sys2Proof.Machine

open Sys2Proof

/-- The width W = 3 + RES - CMP of a transmitted index (44_tns.md R231). -/
def TnsSlot.indexWidth (d : TnsSlot) : Nat :=
  3 + (if d.res then 1 else 0) - (if d.cmp then 1 else 0)

/-- SlotCheck(c,w,f): ORDER ≤ 20 and every index inside its width (44_tns.md R231). -/
def State.slotOk (s : State) (c : Channel) (w f : Nat) : Bool :=
  let d := s.tnsf c w f
  decide (d.order ≤ Config.tnsMaxOrder) &&
    (upTo 0 d.order).all fun k => decide (s.tnsc c w f k < 2 ^ d.indexWidth)

/-- decodeCoef of a slot: c[0 .. ORDER-1] (44_tns.md R232). -/
def State.slotCoefs (p : Params) (s : State) (c : Channel) (w f : Nat) : List F32 :=
  let d := s.tnsf c w f
  (upTo 0 d.order).map fun k => p.tnsrom d.res d.cmp (s.tnsc c w f k)

/-- 1.0. -/
def one : F32 := 0x3F800000#32

/-- Step m of the recursion: every b[i] from the a of the step before, then they replace it,
and a[m] <- c[m-1] (44_tns.md R234). -/
def lpcStep (cm : F32) (m : Nat) (a : List F32) (k : Nat) : List F32 × Nat :=
  let b := mapDraw
    (fun i k =>
      let r := fmul cm (a.getD (m - i) 0) k
      fadd (a.getD i 0) r.1 r.2) (upTo 1 m) k
  (a.take 1 ++ (b.1 ++ (cm :: a.drop (m + 1))), b.2)

/-- The steps m, m + 1, … of the recursion. -/
def lpcLoop : Nat → List F32 → List F32 → Nat → List F32 × Nat
  | _, [], a, k => (a, k)
  | m, cm :: cs, a, k =>
    let r := lpcStep cm m a k
    lpcLoop (m + 1) cs r.1 r.2

/-- LpcFrom(c, ORDER): a[0..20] from c[0 .. ORDER-1] (44_tns.md R234). -/
def lpcFrom (cs : List F32) (k : Nat) : List F32 × Nat :=
  lpcLoop 1 cs (one :: List.replicate 20 0) k

/-- The body of TNSL (44_tns.md R236). -/
def tnslCmd (p : Params) (c : Channel) (w : BitVec 3) (f : BitVec 2) : Cmd Unit := do
  check (decide (legalSlot f)) .cmdError
  let s ← get
  check (decide (w.toNat < s.csr.nwin c)) .cmdError
  check (s.slotOk c w.toNat f.toNat) .formatError
  let lpc ← drawing (lpcFrom (s.slotCoefs p c w.toNat f.toNat))
  storeRun .lpcbuf 0 lpc

/-- The state of the filter: the circular buffer of 2·order outputs and its index
(44_tns.md R238). -/
structure ArState where
  buf : List F32
  si : Nat
  deriving DecidableEq, Repr

/-- y <- fsub(y, fmul(state[si + j], lpc[j+1])) for j = j0, j0 + 1, … (44_tns.md R238). -/
def arTaps (buf : List F32) (si : Nat) (lpc : List F32) : List Nat → F32 → Nat → F32 × Nat
  | [], y, k => (y, k)
  | j :: js, y, k =>
    let m := fmul (buf.getD (si + j) 0) (lpc.getD (j + 1) 0) k
    let r := fsub y m.1 m.2
    arTaps buf si lpc js r.1 r.2

/-- Store the output y twice, order places apart, the index moving down and wrapping to
order - 1 (44_tns.md R238). -/
def ArState.push (a : ArState) (order : Nat) (y : F32) : ArState :=
  let si := if a.si = 0 then order - 1 else a.si - 1
  { buf := (a.buf.set si y).set (si + order) y, si := si }

/-- One line of the filter (44_tns.md R238). -/
def arLine (c : Channel) (lpc : List F32) (order : Nat) (a : ArState) (i : Nat) :
    Cmd ArState := do
  let x ← loadLine .spec c i
  let y ← drawing (arTaps a.buf a.si lpc (upTo 0 order) x)
  storeLine .spec c i y
  pure (a.push order y)

/-- ArFilter over the lines in traversal order, the state zero at the start
(44_tns.md R238). -/
def arFilter (c : Channel) (lpc : List F32) (order : Nat) (lines : List Nat) : Cmd Unit := do
  let _ ← carry (arLine c lpc order) { buf := List.replicate (2 * order) 0, si := 0 } lines

/-- The band range of a slot clipped to MAXTNS(c) and MAXSFB, as line numbers within the
window (44_tns.md R237). -/
def State.slotRange (s : State) (c : Channel) (top bottom : Nat) : Nat × Nat :=
  let lim := min (s.csr.maxtns c) (s.csr.maxsfb c)
  (s.off c (min bottom lim), s.off c (min top lim))

/-- The lines of a slot in traversal order (44_tns.md R237). -/
def State.slotLines (s : State) (c : Channel) (w : Nat) (down : Bool) (r : Nat × Nat) :
    List Nat :=
  let up := (upTo r.1 r.2).map (w * s.csr.wl c + ·)
  if down then up.reverse else up

/-- One slot of the walk; the value carried is `bottom` (44_tns.md R237). -/
def tnsSlot (p : Params) (c : Channel) (w top f : Nat) : Cmd Nat := do
  let s ← get
  let d := s.tnsf c w f
  let bottom := top - d.len
  if d.order = 0 then pure bottom
  else do
    let lpc ← drawing (lpcFrom (s.slotCoefs p c w f))
    storeRun .lpcbuf 0 lpc
    arFilter c lpc d.order (s.slotLines c w d.down (s.slotRange c top bottom))
    pure bottom

/-- The slots of one window (44_tns.md R237). -/
def tnsWindow (p : Params) (c : Channel) (w : Nat) : Cmd Unit := do
  let s ← get
  let _ ← carry (tnsSlot p c w) (s.csr.nswb c) (upTo 0 (s.tnsn c w))

/-- SlotCheck of every slot in use, before anything is written (44_tns.md R240). -/
def State.slotsOk (s : State) (c : Channel) : Bool :=
  (upTo 0 (s.csr.nwin c)).all fun w => (upTo 0 (s.tnsn c w)).all fun f => s.slotOk c w f

/-- The body of TNS (44_tns.md R240). -/
def tnsCmd (p : Params) (c : Channel) : Cmd Unit := do
  geomCheck c
  let s ← get
  check (s.slotsOk c) .formatError
  each (tnsWindow p c) (upTo 0 (s.csr.nwin c))

/-- TNSL c, w, f: the LPC coefficients of one filter slot. -/
def execTnsl (c : Channel) (w : BitVec 3) (f : BitVec 2) (s : State) :
    Host.Outcome State Fault Refusal :=
  runCmd (encode (.tnsl c w f)) (tnslCmd blockParams c w f) s

/-- TNS c: apply every TNS filter of channel c. -/
def execTns (c : Channel) (s : State) : Host.Outcome State Fault Refusal :=
  runCmd (encode (.tns c)) (tnsCmd blockParams c) s

end Sys2Proof.Machine
end

