-- ==== Sys2Proof/Machine/Dispatch.lean ====
section
/-! DEFINITION. One arm per command: its meaning. -/

namespace Sys2Proof.Machine

open Sys2Proof

/-- The effect of a command on the state. -/
def exec (i : Instr) (s : State) : Host.Outcome State Fault Refusal :=
  match i with
  | .frst => Sys2Proof.Machine.execFrst s
  | .srst => Sys2Proof.Machine.execSrst s
  | .brd n => Sys2Proof.Machine.execBrd n s
  | .brds n => Sys2Proof.Machine.execBrds n s
  | .brb => Sys2Proof.Machine.execBrb s
  | .bpk n => Sys2Proof.Machine.execBpk n s
  | .bal => Sys2Proof.Machine.execBal s
  | .blf => Sys2Proof.Machine.execBlf s
  | .hsf => Sys2Proof.Machine.execHsf s
  | .hsp cb => Sys2Proof.Machine.execHsp cb s
  | .sfd c => Sys2Proof.Machine.execSfd c s
  | .spd c => Sys2Proof.Machine.execSpd c s
  | .ms => Sys2Proof.Machine.execMs s
  | .is => Sys2Proof.Machine.execIs s
  | .tnsl c w f => Sys2Proof.Machine.execTnsl c w f s
  | .tns c => Sys2Proof.Machine.execTns c s
  | .iq c => Sys2Proof.Machine.execIq c s
  | .fb c => Sys2Proof.Machine.execFb c s

end Sys2Proof.Machine
end

