-- ==== Sys2Proof/Machine/HostPort.lean ====
section
/-! DEFINITION. The host's accesses to the control registers and the memory spaces other than
a command (10_state.md R34, R35, R48, R72). -/

namespace Sys2Proof.Machine

open Sys2Proof

/-- The bits of a register the host may set; a register that is not read-write has none
(10_state.md R38 to R45, R48). -/
def writableBits : Nat → Word
  | 4 => 0xFFFFFFFF#32
  | 5 => 0xFFFFFFFF#32
  | 6 => 0x00000007#32
  | 7 => 0x0F3F0F3F#32
  | 8 => 0x00001FFF#32
  | 9 => 0x00001FFF#32
  | 10 => 0xFFFFFFFF#32
  | 11 => 0xFFFFFFFF#32
  | 12 => 0x000000FF#32
  | 13 => 0x000000FF#32
  | 14 => 0x00000007#32
  | _ => 0#32

/-- The registers the host may write other than CMD (10_state.md R34). -/
def hostWritableReg (n : Nat) : Bool := decide (4 ≤ n ∧ n ≤ 14)

/-- The host's write replaces a read-write register; any other register ignores it
(10_state.md R48). -/
def Csr.hostWrite (r : Csr) (n : Nat) (w : Word) : Csr :=
  match n with
  | 4 => { r with bitpos := w }
  | 5 => { r with ilen := w }
  | 6 => { r with cfg := w }
  | 7 => { r with bands := w }
  | 8 => { r with ics0 := w }
  | 9 => { r with ics1 := w }
  | 10 => { r with grp0 := w }
  | 11 => { r with grp1 := w }
  | 12 => { r with gg0 := w }
  | 13 => { r with gg1 := w }
  | 14 => { r with cpe := w }
  | _ => r

/-- Is the register write a move the host has: no reserved bit of a read-write register set,
and ILEN at most IBUF_BYTES (10_state.md R39, R48, R72)? -/
def regMoveOk (n : Nat) (w : Word) : Bool :=
  !hostWritableReg n ||
    (w &&& ~~~(writableBits n) == 0#32 && (n != 5 || decide (w.toNat ≤ Config.ibufBytes)))

/-- Is the memory write a move the host has: a writable space, an existing element, a value of
the element's type (10_state.md R72)? -/
def memMoveOk (sp : Space) (i v : Nat) : Bool :=
  sp.hostWritable && decide (i < sp.size) && decide (v < 2 ^ sp.width)

/-- HostRead of a control register (10_state.md R34, R35, R47, R48, R72). -/
def hostReadReg (s : State) (n : Nat) : Word :=
  match n with
  | 1 => s.csr.status
  | 2 => s.csr.finfo
  | 3 => s.csr.fpos
  | 4 => s.csr.bitpos
  | 5 => s.csr.ilen
  | 6 => s.csr.cfg
  | 7 => s.csr.bands
  | 8 => s.csr.ics0
  | 9 => s.csr.ics1
  | 10 => s.csr.grp0
  | 11 => s.csr.grp1
  | 12 => s.csr.gg0
  | 13 => s.csr.gg1
  | 14 => s.csr.cpe
  | 15 => s.csr.pshape
  | 16 => s.regs.res0
  | 17 => s.regs.res1
  | 18 => s.regs.res2
  | 19 => s.regs.res3
  | _ => 0

/-- HostRead of a memory element (10_state.md R72); an element that does not exist has no
value. -/
def hostReadMem (s : State) (sp : Space) (i : Nat) : Option (BitVec sp.width) :=
  if i < sp.size then some (s.elem sp i) else none

/-- A host access that is not a command. A read changes nothing; a write replaces one element
or register, whether or not a fault is pending (10_state.md R72); a move the host does not
have is refused by name (log 10). -/
def hostAccess (a : HostAccess) (s : State) : Host.Outcome State Fault Refusal :=
  match a with
  | .readReg _ => .next s
  | .readMem sp i => if i < sp.size then .next s else .refused (.noHostMove a)
  | .writeReg n w =>
    if regMoveOk n w then .next { s with csr := s.csr.hostWrite n w }
    else .refused (.noHostMove a)
  | .writeMem sp i v =>
    if memMoveOk sp i v then
      .next { s with mem := s.mem.write sp i (BitVec.ofNat sp.width v) }
    else .refused (.noHostMove a)

end Sys2Proof.Machine
end

