-- ==== Sys2Proof/Machine/Step.lean ====
section
/-! DEFINITION. One step: the host's oldest access that is not yet made. The block has no
program counter and fetches nothing (10_state.md R33); a command is the word the host writes to
CMD (R35), executed to its end within the step (20_memory.md R90). -/

namespace Sys2Proof.Machine

open Sys2Proof

/-- The effect of writing a word to CMD (10_state.md R35): the command it encodes, or what an
illegal word does (60_exceptions.md R310, R313). -/
def command (w : Word) (s : State) : Host.Outcome State Fault Refusal :=
  match decode w with
  | .ok i => exec i s
  | .error _ => illegalWord w s

/-- One access of the host; a write to CMD executes a command. -/
def access (a : HostAccess) (s : State) : Host.Outcome State Fault Refusal :=
  match a with
  | .writeReg 0 w => command w s
  | .writeReg (n + 1) w => hostAccess (.writeReg (n + 1) w) s
  | .readReg n => hostAccess (.readReg n) s
  | .writeMem sp i v => hostAccess (.writeMem sp i v) s
  | .readMem sp i => hostAccess (.readMem sp i) s

/-- One step: the oldest pending host access is made. With none pending the block waits and
nothing happens (70_reset_and_hazards.md R342). -/
def step (s : State) : Host.Outcome State Fault Refusal :=
  match s.host with
  | [] => .next s
  | a :: rest => access a { s with host := rest }

/-- The state in which the host's next access writes the word to CMD, so that the next step
executes exactly it (log 1). -/
def State.withFetchWord (s : State) (nbits w : Nat) : State :=
  { s with host := .writeReg 0 (tableWord nbits w) :: s.host }

end Sys2Proof.Machine
end

