-- ==== Sys2Proof/Safety.lean ====
section
/-! DEFINITION. What every state of a run satisfies. -/

namespace Sys2Proof.Machine

open Sys2Proof

/-- Reserved bits read as 0 (10_state.md R34), ILEN is at most IBUF_BYTES (R39), and FINFO and
FPOS read 0 while no fault is pending (R37). -/
structure Csr.Ok (r : Csr) : Prop where
  ilen : r.ilen.toNat ≤ Config.ibufBytes
  cfg : r.cfg &&& ~~~(writableBits 6) = 0
  bands : r.bands &&& ~~~(writableBits 7) = 0
  ics0 : r.ics0 &&& ~~~(writableBits 8) = 0
  ics1 : r.ics1 &&& ~~~(writableBits 9) = 0
  gg0 : r.gg0 &&& ~~~(writableBits 12) = 0
  gg1 : r.gg1 &&& ~~~(writableBits 13) = 0
  cpe : r.cpe &&& ~~~(writableBits 14) = 0
  pshape : r.pshape &&& ~~~(3#32) = 0
  finfo : r.fault = none → r.finfo = 0
  fpos : r.fault = none → r.fpos = 0

/-- The invariant: the control registers are as above and the memory is in canonical form. -/
structure State.Ok (s : State) : Prop where
  csr : s.csr.Ok
  mem : Memory.wf s.mem = true

/-- A step that stops the machine with a fault: an element that does not exist was accessed. -/
def stopsWithFault (s : State) : Prop := ∃ f, step s = .fault f

end Sys2Proof.Machine
end

