-- ==== Sys2Proof/Safety/Reference.lean ====
section
/-! DEFINITION. The vocabulary of the statements: what the rules of the spec say of the stream,
the geometry, the filters and the filterbank, as relations between states and values, beside
the functions of the machine that compute them. -/

namespace Sys2Proof.Machine.Ref

open Sys2Proof

/-! ### Runs -/

/-- No fault is pending (60_exceptions.md R313) and ILEN is legal (10_state.md R39). -/
def Ready (s : State) : Prop := s.csr.fault = none ∧ s.csr.ilen.toNat ≤ Config.ibufBytes

/-- The state in which fault `f` of the command word `w`, detected in `s`, is recorded
(60_exceptions.md R311). -/
def recorded (f : BlockFault) (w : Word) (s : State) : State :=
  { s with csr := { s.csr with fault := some f, finfo := w, fpos := s.csr.bitpos } }

/-- The state with the cursor at position k, nothing else changed. -/
def withCursor (k : Nat) (s : State) : State :=
  { s with csr := { s.csr with bitpos := BitVec.ofNat 32 k } }

/-- The state with the value v in x[0], nothing else changed. -/
def withRes0 (v : Word) (s : State) : State := { s with regs := { s.regs with res0 := v } }

/-- The state `t` in which FormatError of the command word `w`, detected in `s`, is recorded:
TOUT is +0.0 everywhere and nothing else differs (60_exceptions.md R304, R311). -/
def FormatFault (w : Word) (s t : State) : Prop :=
  t.regs = s.regs ∧ t.csr = (recorded .formatError w s).csr ∧ t.host = s.host ∧
    (∀ i < 2048, t.elem .tout i = 0) ∧ ∀ sp i, sp ≠ .tout → t.elem sp i = s.elem sp i

/-- The state `t` after the command word `w`, started in `s`, has ended in fault `f` with the
cursor at k' and nothing written but the elements `out`; FormatError zeroes TOUT
(60_exceptions.md R304, R311, R312). -/
def FaultedAt (f : BlockFault) (w : Word) (k' : Nat) (s t : State) (out : Space → Nat → Prop) :
    Prop :=
  t.regs = s.regs ∧ t.csr = (recorded f w (withCursor k' s)).csr ∧ t.host = s.host ∧
    (f = .formatError → ∀ i < 2048, t.elem .tout i = 0) ∧
    ∀ sp i, ¬ out sp i → ¬ (f = .formatError ∧ sp = .tout) → t.elem sp i = s.elem sp i

/-- Every element of every space outside `out` reads in `t` as it did in `s`. -/
def SameExcept (s t : State) (out : Space → Nat → Prop) : Prop :=
  ∀ sp i, ¬ out sp i → t.elem sp i = s.elem sp i

/-- Nothing but memory differs: result registers and control registers are unchanged. -/
def SameRegisters (s t : State) : Prop := t.regs = s.regs ∧ t.csr = s.csr

/-- The result of a floating-point operation: the number IEEE 754 gives, or some NaN
(00_scope.md R21). -/
def Gives (o : Option F32) (r : F32) : Prop :=
  match o with
  | some v => r = v
  | none => Flt.isNaN r = true

/-- r is the number x · 2^-(149 + k) rounded to binary32: to nearest, ties to the even fraction,
and to an infinity exactly from the rounding threshold on (00_scope.md R21; IEEE 754). -/
structure Rounded (x : Int) (k : Nat) (r : F32) : Prop where
  nearest : Flt.isFinite r = true → ∀ c, Flt.isFinite c = true →
    |x - Flt.value r * 2 ^ k| ≤ |x - Flt.value c * 2 ^ k| ∧
    (|x - Flt.value r * 2 ^ k| = |x - Flt.value c * 2 ^ k| → Flt.value c ≠ Flt.value r →
      Flt.fracField r % 2 = 0)
  overflow : Flt.isFinite r = false ↔ (2 ^ 25 - 1) * 2 ^ (252 + k) ≤ |x|
  infinite : Flt.isFinite r = false → Flt.isInf r = true

/-- r is the real number x rounded to binary32: to nearest, ties to the even fraction, subnormals
and zero included, and to an infinity exactly from the rounding threshold on (00_scope.md R21;
IEEE 754). -/
structure RoundedReal (x : ℝ) (r : F32) : Prop where
  nearest : Flt.isFinite r = true → ∀ c, Flt.isFinite c = true →
    |x - Flt.value r / 2 ^ 149| ≤ |x - Flt.value c / 2 ^ 149| ∧
    (|x - Flt.value r / 2 ^ 149| = |x - Flt.value c / 2 ^ 149| → Flt.value c ≠ Flt.value r →
      Flt.fracField r % 2 = 0)
  overflow : Flt.isFinite r = false ↔ (2 ^ 25 - 1) * 2 ^ 103 ≤ |x|
  infinite : Flt.isFinite r = false → Flt.isInf r = true

/-- r is finite and its value is the real number x to a relative 2^-24, the error of one rounding,
and an absolute tolerance. -/
def Near (r : F32) (x tol : ℝ) : Prop :=
  Flt.isFinite r = true ∧ |(Flt.value r : ℝ) / 2 ^ 149 - x| ≤ |x| / 2 ^ 24 + tol

/-! ### The command table -/

/-- `match` and `mask` of the eighteen commands, row by row (30_encoding.md R118). -/
def commandRows : List (Word × Word) :=
  [(0x01000000#32, 0xFFFFFFFF#32), (0x02000000#32, 0xFFFFFFFF#32),
   (0x10000000#32, 0xFFFFFFC0#32), (0x11000000#32, 0xFFFFFFC0#32),
   (0x12000000#32, 0xFFFFFFFF#32), (0x13000000#32, 0xFFFFFFC0#32),
   (0x14000000#32, 0xFFFFFFFF#32), (0x15000000#32, 0xFFFFFFFF#32),
   (0x20000000#32, 0xFFFFFFFF#32), (0x21000000#32, 0xFFFFFFF0#32),
   (0x28000000#32, 0xFFFFFFFE#32), (0x29000000#32, 0xFFFFFFFE#32),
   (0x30000000#32, 0xFFFFFFFF#32), (0x31000000#32, 0xFFFFFFFF#32),
   (0x38000000#32, 0xFFFFFFC0#32), (0x39000000#32, 0xFFFFFFFE#32),
   (0x40000000#32, 0xFFFFFFFE#32), (0x48000000#32, 0xFFFFFFFE#32)]

/-- The operand ranges of a row that has any (30_encoding.md R119). -/
def operandsLegal (row w : Word) : Prop :=
  (row = 0x10000000#32 ∨ row = 0x11000000#32 ∨ row = 0x13000000#32 →
    (w &&& 0x3F#32).toNat ≤ 32) ∧
  (row = 0x21000000#32 → 1 ≤ (w &&& 0xF#32).toNat ∧ (w &&& 0xF#32).toNat ≤ 11) ∧
  (row = 0x38000000#32 → (w >>> 4 &&& 3#32).toNat ≤ 2)

/-- A word that is one of the eighteen commands with legal operands (30_encoding.md R118,
R119). -/
def LegalWord (w : Word) : Prop :=
  ∃ row ∈ commandRows, w &&& row.2 = row.1 ∧ operandsLegal row.1 w

/-! ### The input stream -/

/-- Stream bit k is bit 7 - (k mod 8) of IBUF[k div 8] (20_memory.md R83). -/
def bit (s : State) (k : Nat) : Nat := ((s.elem .ibuf (k / 8)).getLsbD (7 - k % 8)).toNat

/-- The value of the n-bit field at stream position k (20_memory.md R84). -/
def bits (s : State) (k n : Nat) : Nat := ∑ i ∈ Finset.range n, bit s (k + i) * 2 ^ (n - 1 - i)

/-- Are the stream bits below position k valid ones (10_state.md R39)? -/
def InStream (s : State) (k : Nat) : Prop := k ≤ 8 * s.csr.ilen.toNat

/-- BitsLeft() computed without wrap-around (40_bitreader.md R140). -/
def left (s : State) : Int := max (8 * (s.csr.ilen.toNat : Int) - s.csr.bitpos.toNat) 0

/-- The codeword of the entry e stands at stream position k (41_huffman.md R160). -/
def CodewordAt (s : State) (k : Nat) (e : HuffEntry) : Prop := bits s k e.len = e.code

/-- A row of the table of sizes: the number of a spectral codebook and its columns DIM, SGN,
LAV, NSYM and MAXLEN (41_huffman.md R163). -/
structure BookRow where
  number : Nat
  dim : Nat
  signed : Bool
  lav : Nat
  nsym : Nat
  maxLen : Nat
  deriving DecidableEq, Repr

/-- The table of sizes, row by row (41_huffman.md R163). -/
def bookRow : SpecBook → BookRow
  | .b1 => ⟨1, 4, true, 1, 81, 11⟩
  | .b2 => ⟨2, 4, true, 1, 81, 9⟩
  | .b3 => ⟨3, 4, false, 2, 81, 16⟩
  | .b4 => ⟨4, 4, false, 2, 81, 12⟩
  | .b5 => ⟨5, 2, true, 4, 81, 13⟩
  | .b6 => ⟨6, 2, true, 4, 81, 11⟩
  | .b7 => ⟨7, 2, false, 7, 64, 12⟩
  | .b8 => ⟨8, 2, false, 7, 64, 10⟩
  | .b9 => ⟨9, 2, false, 12, 169, 15⟩
  | .b10 => ⟨10, 2, false, 12, 169, 12⟩
  | .b11 => ⟨11, 2, false, 16, 289, 12⟩

/-- NSYM of the twelve code tables (41_huffman.md R163). -/
def nsym : Book → Nat
  | .sf => 121
  | .spectral b => (bookRow b).nsym

/-- MAXLEN of the twelve code tables (41_huffman.md R163). -/
def maxLen : Book → Nat
  | .sf => 19
  | .spectral b => (bookRow b).maxLen

/-- The number of values a digit of a symbol can take: -LAV … LAV where they are signed, else
0 … LAV (41_huffman.md R163, R166). -/
def digitBase (b : SpecBook) : Nat :=
  if (bookRow b).signed then 2 * (bookRow b).lav + 1 else (bookRow b).lav + 1

/-- UNPACK[b](s): the DIM[b] digits of s in base 3, 9, 8, 13 or 17, the most significant first,
less 1 or 4 in the signed books (41_huffman.md R166). -/
def unpacked (b : SpecBook) (s : Nat) : List Int :=
  (List.range (bookRow b).dim).map fun j =>
    ((s / digitBase b ^ ((bookRow b).dim - 1 - j) % digitBase b : Nat) : Int) -
      if (bookRow b).signed then ((bookRow b).lav : Int) else 0

/-- A code-table ROM that meets the constraints of 41_huffman.md R161. -/
def LegalRom (rom : Book → HuffTable) : Prop := ∀ b, Rom.validTable b (rom b) = true

/-- The block's parameters with the code tables `rom`; `withRom Rom.hcb` is `blockParams`. -/
def withRom (rom : Book → HuffTable) : Params := { blockParams with hcb := rom }

/-- HuffDecode(b) at position k reads symbol `sym` and ends at k' (41_huffman.md R164). -/
def SymbolAt (rom : Book → HuffTable) (s : State) (b : Book) (k sym k' : Nat) : Prop :=
  ∃ e ∈ rom b, CodewordAt s k e ∧ e.sym = sym ∧ k' = k + e.len ∧ InStream s k'

/-- HuffDecode(b) at position k raises f and leaves the cursor at k': MAXLEN[b] bits without a
match, or the end of the stream before them (41_huffman.md R164, R165). -/
def SymbolFails (rom : Book → HuffTable) (s : State) (b : Book) (k : Nat) (f : BlockFault)
    (k' : Nat) : Prop :=
  match f with
  | .formatError => k' = k + maxLen b ∧ InStream s k' ∧ ∀ e ∈ rom b, ¬ CodewordAt s k e
  | .endOfStream => k' = max k (8 * s.csr.ilen.toNat) ∧ k' < k + maxLen b ∧
      ∀ e ∈ rom b, k + e.len ≤ k' → ¬ CodewordAt s k e
  | .unsupportedProfile | .cmdError => False

/-- The number of sign bits of a tuple (41_huffman.md R167). -/
def signCount (v : List Int) : Nat := v.countP (· ≠ 0)

/-- Value number j of a tuple whose sign bits start at position k (41_huffman.md R167). -/
def signedValue (s : State) (k : Nat) (v : List Int) (j : Nat) : Int :=
  if v.getD j 0 ≠ 0 ∧ bit s (k + signCount (v.take j)) = 1 then -v.getD j 0 else v.getD j 0

/-- A tuple with its sign bits applied (41_huffman.md R167). -/
def signedTuple (s : State) (k : Nat) (v : List Int) : List Int :=
  (List.range v.length).map (signedValue s k v)

/-- An escape code at k, ending at k', of magnitude m: N ≤ ESC_MAX_N = 8 ones, a zero, N + 4
bits (41_huffman.md R169). -/
def EscapeAt (s : State) (k : Nat) (m : Int) (k' : Nat) : Prop :=
  ∃ n ≤ 8, (∀ i < n, bit s (k + i) = 1) ∧ bit s (k + n) = 0 ∧
    m = 2 ^ (n + 4) + (bits s (k + n + 1) (n + 4) : Int) ∧ k' = k + (2 * n + 5) ∧ InStream s k'

/-- Escape() at position k raises f and leaves the cursor at k': FormatError on the ninth one;
EndOfStream where the prefix is not complete, or, with the prefix consumed, where fewer than
N + 4 bits follow it (41_huffman.md R169; 40_bitreader.md R142). -/
def EscapeFails (s : State) (k : Nat) (f : BlockFault) (k' : Nat) : Prop :=
  match f with
  | .formatError => k' = k + 9 ∧ InStream s k' ∧ ∀ i < 9, bit s (k + i) = 1
  | .endOfStream =>
    (k' = max k (8 * s.csr.ilen.toNat) ∧ k' < k + 9 ∧ ∀ i, k + i < k' → bit s (k + i) = 1) ∨
    ∃ n ≤ 8, (∀ i < n, bit s (k + i) = 1) ∧ bit s (k + n) = 0 ∧ k' = k + n + 1 ∧
      InStream s k' ∧ ¬ InStream s (k + (2 * n + 5))
  | .unsupportedProfile | .cmdError => False

/-- The escape codes of a codebook 11 tuple, from k to k' (41_huffman.md R168, R170). -/
def EscapesAt (s : State) : Nat → List Int → List Int → Nat → Prop
  | k, [], out, k' => out = [] ∧ k' = k
  | k, v :: vs, out, k' =>
    ∃ m k1 rest, EscapesAt s k1 vs rest k' ∧ out = m :: rest ∧
      if v.natAbs = 16 then ∃ x, EscapeAt s k x k1 ∧ m = if v < 0 then -x else x
      else m = v ∧ k1 = k

/-- One of those escape codes raises f and leaves the cursor at k' (41_huffman.md R168, R170). -/
def EscapesFail (s : State) : Nat → List Int → BlockFault → Nat → Prop
  | _, [], _, _ => False
  | k, v :: vs, f, k' =>
    if v.natAbs = 16 then
      EscapeFails s k f k' ∨ ∃ x k1, EscapeAt s k x k1 ∧ EscapesFail s k1 vs f k'
    else EscapesFail s k vs f k'

/-- HuffSpec(b) at position k reads the tuple `out` and ends at k' (41_huffman.md R166, R167,
R168, R170). -/
def TupleAt (rom : Book → HuffTable) (s : State) (b : SpecBook) (k : Nat) (out : List Int)
    (k' : Nat) : Prop :=
  ∃ sym k1 v k2, SymbolAt rom s (.spectral b) k sym k1 ∧
    (if (bookRow b).signed then v = unpacked b sym ∧ k2 = k1
     else v = signedTuple s k1 (unpacked b sym) ∧ k2 = k1 + signCount (unpacked b sym) ∧
       InStream s k2) ∧
    if b = .b11 then EscapesAt s k2 v out k' else out = v ∧ k' = k2

/-- HuffSpec(b) at position k raises f and leaves the cursor at k': in the codeword, in the sign
bits of an unsigned book, or in an escape code of codebook 11 (41_huffman.md R165, R170,
R174). -/
def TupleFails (rom : Book → HuffTable) (s : State) (b : SpecBook) (k : Nat) (f : BlockFault)
    (k' : Nat) : Prop :=
  SymbolFails rom s (.spectral b) k f k' ∨
  ∃ sym k1, SymbolAt rom s (.spectral b) k sym k1 ∧ (bookRow b).signed = false ∧
    ((¬ InStream s (k1 + signCount (unpacked b sym)) ∧ f = .endOfStream ∧
        k' = 8 * s.csr.ilen.toNat) ∨
      (InStream s (k1 + signCount (unpacked b sym)) ∧ b = .b11 ∧
        EscapesFail s (k1 + signCount (unpacked b sym)) (signedTuple s k1 (unpacked b sym)) f k'))

/-! ### Geometry -/

/-- What GeomCheck(c) requires (10_state.md R70). -/
structure Geometry (s : State) (c : Channel) : Prop where
  groups : 1 ≤ s.csr.ngrp c ∧ s.csr.ngrp c ≤ s.csr.nwin c
  lengths : (∀ g < s.csr.ngrp c, 1 ≤ s.csr.glen c g) ∧
    ∑ g ∈ Finset.range (s.csr.ngrp c), s.csr.glen c g = s.csr.nwin c
  bands : s.csr.maxsfb c ≤ s.csr.nswb c
  start : s.off c 0 = 0
  rising : (∀ i < s.csr.nswb c, s.off c i < s.off c (i + 1)) ∧
    s.off c (s.csr.nswb c) ≤ s.csr.wl c
  books : ∀ g < s.csr.ngrp c, ∀ b < s.csr.maxsfb c,
    s.elem .cb (512 * c.num + 64 * g + b) ≠ 12#4

/-- (g, w, i) is line i of the w-th window of group g (10_state.md R68). -/
def IsLine (s : State) (c : Channel) (g w i : Nat) : Prop :=
  g < s.csr.ngrp c ∧ w < s.csr.glen c g ∧ i < s.csr.wl c

/-- Line i of a window lies in band b (10_state.md R66). -/
def InBand (s : State) (c : Channel) (b i : Nat) : Prop :=
  b < s.csr.maxsfb c ∧ s.off c b ≤ i ∧ i < s.off c (b + 1)

/-- Element p of channel c of a space of lines (10_state.md R50). -/
def line (s : State) (sp : Space) (c : Channel) (p : Nat) : BitVec sp.width :=
  s.elem sp (1024 * c.num + p)

/-- The elements of channel c of a space, lines below FL. -/
def OnLines (s : State) (sp : Space) (c : Channel) (sp' : Space) (i : Nat) : Prop :=
  sp' = sp ∧ 1024 * c.num ≤ i ∧ i < 1024 * c.num + s.csr.fl

/-! ### The channel passes -/

/-- The deltas SFD adds, one for each band in loop order, read from position k to k'; `first`
says whether the next noise band is the first (42_icstream_passes.md R192, R193). -/
def DeltasAt (rom : Book → HuffTable) (s : State) (c : Channel) :
    List (Nat × Nat) → Nat → Bool → List Int → Nat → Prop
  | [], k, _, ds, k' => ds = [] ∧ k' = k
  | gb :: rest, k, first, ds, k' =>
    ∃ d k1 more, ds = d :: more ∧
      DeltasAt rom s c rest k1 (first && s.cb c gb.1 gb.2 != .noise) more k' ∧
      match s.cb c gb.1 gb.2 with
      | .zero => d = 0 ∧ k1 = k
      | .noise =>
        if first then d = bits s k 9 ∧ k1 = k + 9 ∧ InStream s k1
        else ∃ sym, SymbolAt rom s .sf k sym k1 ∧ d = sym - 60
      | .spectral _ | .reserved | .intensity2 | .intensity =>
        ∃ sym, SymbolAt rom s .sf k sym k1 ∧ d = sym - 60

/-- The class of a band's codebook: which counter its delta is added to
(42_icstream_passes.md R192). -/
inductive SfClass where
  | none
  | gain
  | position
  | noise
  deriving DecidableEq, Repr

/-- The class of a codebook. -/
def sfClass : Codebook → SfClass
  | .zero => .none
  | .spectral _ | .reserved => .gain
  | .intensity2 | .intensity => .position
  | .noise => .noise

/-- The sum of the deltas of one class over the first n bands. -/
def classSum (s : State) (c : Channel) (bands : List (Nat × Nat)) (ds : List Int)
    (cls : SfClass) (n : Nat) : Int :=
  ∑ j ∈ Finset.range n,
    if (bands[j]?.map fun gb => sfClass (s.cb c gb.1 gb.2)) = some cls then ds.getD j 0 else 0

/-- The scale factor SFD stores for band number n: its class's seed plus every delta of the
class up to and including its own (42_icstream_passes.md R192). -/
def sfValue (s : State) (c : Channel) (bands : List (Nat × Nat)) (ds : List Int) (n : Nat) :
    Int :=
  let gb := bands.getD n (0, 0)
  match sfClass (s.cb c gb.1 gb.2) with
  | .none => 0
  | .gain => s.csr.globalGain c + classSum s c bands ds .gain (n + 1)
  | .position => classSum s c bands ds .position (n + 1)
  | .noise => s.csr.globalGain c - 90 - 256 + classSum s c bands ds .noise (n + 1)

/-- Of the first n bands in loop order, those whose counter is the gain counter have it in
0 … 255 after their deltas (42_icstream_passes.md R194). -/
def GainsInRange (s : State) (c : Channel) (ds : List Int) (n : Nat) : Prop :=
  ∀ j < n, sfClass (s.cb c ((s.csr.bandList c).getD j (0, 0)).1
      ((s.csr.bandList c).getD j (0, 0)).2) = .gain →
    0 ≤ sfValue s c (s.csr.bandList c) ds j ∧ sfValue s c (s.csr.bandList c) ds j ≤ 255

/-- Of the bands in loop order, number n, whose delta is due at position k after the deltas ds
of the bands before it, ends SFD in the fault f with the cursor at k': in the codeword, in the
nine bits of a first noise band, or by a gain outside 0 … 255
(42_icstream_passes.md R192, R194). -/
def BandFails (rom : Book → HuffTable) (s : State) (c : Channel) (ds : List Int) (n k : Nat)
    (f : BlockFault) (k' : Nat) : Prop :=
  let bands := s.csr.bandList c
  let gb := bands.getD n (0, 0)
  match s.cb c gb.1 gb.2 with
  | .zero => False
  | .noise =>
    if (bands.take n).all fun gb => s.cb c gb.1 gb.2 != .noise then
      f = .endOfStream ∧ k' = k ∧ ¬ InStream s (k + 9)
    else SymbolFails rom s .sf k f k'
  | .intensity2 | .intensity => SymbolFails rom s .sf k f k'
  | .spectral _ | .reserved =>
    SymbolFails rom s .sf k f k' ∨ f = .formatError ∧ ∃ sym : Nat, SymbolAt rom s .sf k sym k' ∧
      ¬ (0 ≤ sfValue s c bands (ds ++ [(sym : Int) - 60]) n ∧
        sfValue s c bands (ds ++ [(sym : Int) - 60]) n ≤ 255)

/-- The tuples SPD decodes in the given bands, in stream order: the codebook of each and the line
of its first value (42_icstream_passes.md R196). -/
def tuplesOf (s : State) (c : Channel) (bands : List (Nat × Nat)) : List (SpecBook × Nat) :=
  bands.flatMap fun gb =>
    match s.cb c gb.1 gb.2 with
    | .spectral bk =>
      (List.range (s.csr.glen c gb.1)).flatMap fun w =>
        (List.range ((s.off c (gb.2 + 1) - s.off c gb.2) / (bookRow bk).dim)).map fun k =>
          (bk, s.csr.line c gb.1 w (s.off c gb.2 + (bookRow bk).dim * k))
    | .zero | .reserved | .noise | .intensity2 | .intensity => []

/-- The tuples of the whole channel. -/
def tuples (s : State) (c : Channel) : List (SpecBook × Nat) := tuplesOf s c (s.csr.bandList c)

/-- The values of such tuples, read from position k to k'. -/
def TuplesAt (rom : Book → HuffTable) (s : State) :
    List (SpecBook × Nat) → Nat → List (List Int) → Nat → Prop
  | [], k, vs, k' => vs = [] ∧ k' = k
  | t :: rest, k, vs, k' =>
    ∃ v k1 more, vs = v :: more ∧ TupleAt rom s t.1 k v k1 ∧ TuplesAt rom s rest k1 more k'

/-- The values vs of the tuples ts stand on their lines of QSPEC, and every other line below FL
is 0 (42_icstream_passes.md R196). -/
def TuplesStored (s t : State) (c : Channel) (ts : List (SpecBook × Nat)) (vs : List (List Int)) :
    Prop :=
  (∀ n b p, ts[n]? = some (b, p) → ∀ j < (bookRow b).dim,
    line t .qspec c (p + j) = BitVec.ofInt 16 ((vs.getD n []).getD j 0)) ∧
  ∀ p < s.csr.fl, (∀ b q j, (b, q) ∈ ts → j < (bookRow b).dim → p ≠ q + j) →
    line t .qspec c p = 0

/-- The width of a band in loop order is a whole number of tuples where it has any
(42_icstream_passes.md R196, R197). -/
def WidthFits (s : State) (c : Channel) (gb : Nat × Nat) : Prop :=
  ∀ bk, s.cb c gb.1 gb.2 = .spectral bk →
    (s.off c (gb.2 + 1) - s.off c gb.2) % (bookRow bk).dim = 0

/-- SPD's loop over the bands ends in the fault f with the cursor at k', after the tuples ts with
values vs, which were read up to position k: the width of the next band is not a whole number of
tuples, or the next tuple fails; every band before fits (42_icstream_passes.md R196, R197). -/
def SpectrumFails (rom : Book → HuffTable) (s : State) (c : Channel) (ts : List (SpecBook × Nat))
    (k : Nat) (f : BlockFault) (k' : Nat) : Prop :=
  ∃ n, (∀ gb ∈ (s.csr.bandList c).take n, WidthFits s c gb) ∧
    ((ts = tuplesOf s c ((s.csr.bandList c).take n) ∧ f = .formatError ∧ k' = k ∧
        ∃ gb, (s.csr.bandList c)[n]? = some gb ∧ ¬ WidthFits s c gb) ∨
      ∃ b q rest, tuplesOf s c ((s.csr.bandList c).take n) = ts ++ (b, q) :: rest ∧
        TupleFails rom s b k f k')

/-- The width of every spectrally coded band is a whole number of tuples
(42_icstream_passes.md R196). -/
def WidthsFit (s : State) (c : Channel) : Prop := ∀ gb ∈ s.csr.bandList c, WidthFits s c gb

/-! ### Stereo -/

/-- PairCheck() (43_stereo.md R210). -/
structure Pair (s : State) : Prop where
  common : s.csr.commonwin = true
  wseq : s.csr.wseq .c0 = s.csr.wseq .c1
  maxsfb : s.csr.maxsfb .c0 = s.csr.maxsfb .c1
  ngrp : s.csr.ngrp .c0 = s.csr.ngrp .c1
  glen : ∀ g < s.csr.ngrp .c0, s.csr.glen .c0 g = s.csr.glen .c1 g

/-- The conditions under which MS and IS run their loops (43_stereo.md R211). -/
structure StereoReady (s : State) : Prop where
  idle : s.csr.fault = none
  pair : Pair s
  mode : s.csr.msmode ≠ 3
  geom0 : Geometry s .c0
  geom1 : Geometry s .c1

/-- The codebook number of band b of group g of the right channel. -/
def rightBook (s : State) (g b : Nat) : Nat := (s.elem .cb (512 + 64 * g + b)).toNat

/-- MS changes the band (43_stereo.md R212). -/
def MsBand (s : State) (g b : Nat) : Prop :=
  (s.csr.msmode = 2 ∨ s.csr.msmode = 1 ∧ s.elem .msu (64 * g + b) = 1#1) ∧
    rightBook s g b ∉ [13, 14, 15]

/-- IS changes the band (43_stereo.md R215). -/
def IsBand (s : State) (g b : Nat) : Prop := rightBook s g b ∈ [14, 15]

/-- ISSIGN(g,b) = V · M (43_stereo.md R218). -/
def isSign (s : State) (g b : Nat) : Int :=
  (if rightBook s g b = 15 then 1 else -1) *
    if s.csr.msmode = 1 ∧ s.elem .msu (64 * g + b) = 1#1 ∨
        s.csr.msmode = 2 ∧ blockParams.isInvertOnAll1 = true then -1 else 1

/-- The factor m of an intensity band (43_stereo.md R215). -/
def isScale (s : State) (g b : Nat) : F32 :=
  let m := blockParams.isrom (s.elem .sf (512 + 64 * g + b)).toInt
  if isSign s g b = -1 then Flt.fneg m else m

/-! ### Temporal noise shaping -/

/-- SlotCheck(c,w,f) passes (44_tns.md R231). -/
def SlotValid (s : State) (c : Channel) (w f : Nat) : Prop :=
  (s.tnsf c w f).order ≤ 20 ∧ ∀ k < (s.tnsf c w f).order,
    s.tnsc c w f k <
      2 ^ (3 + (if (s.tnsf c w f).res then 1 else 0) - if (s.tnsf c w f).cmp then 1 else 0)

/-- decodeCoef, coefficient k of a slot (44_tns.md R232). -/
def coef (s : State) (c : Channel) (w f k : Nat) : F32 :=
  blockParams.tnsrom (s.tnsf c w f).res (s.tnsf c w f).cmp (s.tnsc c w f k)

/-- The successive rows a of the recursion LpcFrom(c, ORDER), row m after step m
(44_tns.md R234). -/
structure LpcRows (c : Nat → F32) (order : Nat) (a : Nat → Nat → F32) : Prop where
  lead : ∀ m ≤ order, a m 0 = 0x3F800000#32
  inner : ∀ m, 1 ≤ m → m ≤ order → ∀ i, 1 ≤ i → i < m →
    ∃ x, Gives (Flt.mul? (c (m - 1)) (a (m - 1) (m - i))) x ∧
      Gives (Flt.add? (a (m - 1) i) x) (a m i)
  last : ∀ m, 1 ≤ m → m ≤ order → a m m = c (m - 1)
  above : ∀ m ≤ order, ∀ i, m < i → a m i = 0

/-- lpc is what LpcFrom gives for a slot (44_tns.md R232, R234). -/
def LpcOf (s : State) (c : Channel) (w f : Nat) (lpc : Nat → F32) : Prop :=
  ∃ a, LpcRows (coef s c w f) (s.tnsf c w f).order a ∧
    ∀ k ≤ 20, lpc k = a (s.tnsf c w f).order k

/-- One output of the all-pole filter in direct form, nearest past output first
(44_tns.md R239). -/
def Filtered (lpc : Nat → F32) (order : Nat) (x : F32) (past : Nat → F32) (y : F32) : Prop :=
  ∃ z : Nat → F32, z 0 = x ∧ z order = y ∧
    ∀ j < order, ∃ m, Gives (Flt.mul? (past j) (lpc (j + 1))) m ∧
      Gives (Flt.sub? (z j) m) (z (j + 1))

/-- The band a slot's span starts at from above: every slot before it has used up its own span
(44_tns.md R237). -/
def slotTop (s : State) (c : Channel) (w f : Nat) : Nat :=
  s.csr.nswb c - ∑ j ∈ Finset.range f, (s.tnsf c w j).len

/-- The line number within the window at which a slot's range starts and ends, after the clip
(44_tns.md R237). -/
def slotStart (s : State) (c : Channel) (w f : Nat) : Nat :=
  s.off c (min (slotTop s c w (f + 1)) (min (s.csr.maxtns c) (s.csr.maxsfb c)))

/-- The end of that range. -/
def slotEnd (s : State) (c : Channel) (w f : Nat) : Nat :=
  s.off c (min (slotTop s c w f) (min (s.csr.maxtns c) (s.csr.maxsfb c)))

/-- Slot f of window w is in use and active (44_tns.md R237). -/
def ActiveSlot (s : State) (c : Channel) (w f : Nat) : Prop :=
  w < s.csr.nwin c ∧ f < s.tnsn c w ∧ (s.tnsf c w f).order ≠ 0

/-- The n-th line of an active slot's range in traversal order (44_tns.md R237, R239). -/
def slotLine (s : State) (c : Channel) (w f n : Nat) : Nat :=
  w * s.csr.wl c +
    if (s.tnsf c w f).down then slotEnd s c w f - 1 - n else slotStart s c w f + n

/-! ### The filterbank -/

/-- The lines FB transforms (46_filterbank.md R260). -/
def spectrum (s : State) (c : Channel) (lo n : Nat) : List F32 :=
  (List.range n).map fun k => line s .spec c (lo + k)

/-- k(p) = I0(π·α·sqrt(1 - ((2p - m)/m)²)) for 0 ≤ p ≤ m, where I0(x) = Σ (x/2)^(2j)/(j!)² is the
modified Bessel function of the first kind of order zero (46_filterbank.md R262). -/
def IsKaiser (m : ℕ) (α : ℝ) (k : ℕ → ℝ) : Prop :=
  ∀ p ≤ m, HasSum (fun j : ℕ =>
    (Real.pi * α * √(1 - ((2 * p - m) / m) ^ 2) / 2) ^ (2 * j) / (j.factorial : ℝ) ^ 2) (k p)

/-- w is the rising half of a window of length m: of the sine family for shape 0, of the
Kaiser-Bessel-derived family with parameter α for shape 1 (46_filterbank.md R262, R263), each
value to a relative 2^-24 and an absolute 2^-50. -/
structure IsWindow (m : ℕ) (α : ℝ) (w : Bool → ℕ → F32) : Prop where
  sine : ∀ n < m, Near (w false n) (Real.sin (Real.pi / (2 * m) * (n + 1 / 2))) (1 / 2 ^ 50)
  kaiser : ∀ k, IsKaiser m α k → ∀ n < m, Near (w true n)
    (√((∑ p ∈ Finset.range (n + 1), k p) / ∑ p ∈ Finset.range (m + 1), k p)) (1 / 2 ^ 50)

/-- The real number z[n] of the reference transform of the m inputs xs
(46_filterbank.md R264). -/
def IsTransform (m : ℕ) (xs : List F32) (n : ℕ) (z : ℝ) : Prop :=
  z = 2 / (2 * m) * ∑ k ∈ Finset.range m, (Flt.value (xs.getD k 0) : ℝ) / 2 ^ 149 *
    Real.cos (2 * Real.pi / (2 * m) * (n + (m + 1) / 2) * (k + 1 / 2))

/-- Adding values one after another, in the order given (46_filterbank.md R268). -/
def Added : F32 → List F32 → F32 → Prop
  | acc, [], r => r = acc
  | acc, x :: xs, r => ∃ y, Gives (Flt.add? acc x) y ∧ Added y xs r

/-- The windowed values a position t of the short pattern receives from the rising halves `r`
and the falling halves `f` of the eight blocks (46_filterbank.md R267). -/
def received (q : Csr) (r f : Nat → Nat → F32) (t : Nat) : List F32 :=
  if t < q.flat ∨ q.flat + 9 * q.sl ≤ t then []
  else
    let j := (t - q.flat) / q.sl
    let n := (t - q.flat) % q.sl
    (if 1 ≤ j then [f (j - 1) n] else []) ++ if j ≤ 7 then [r j n] else []

/-! ### What each command may write -/

/-- The spaces a command may write, the column "block writes" (10_state.md R50; 20_memory.md
R81); TOUT is also cleared by a FormatError. -/
def writes : Instr → Space → Bool
  | .sfd _, .sf => true
  | .spd _, .qspec => true
  | .iq _, .spec => true
  | .ms, .spec => true
  | .is, .spec => true
  | .is, .pred => true
  | .tns _, .spec => true
  | .tns _, .lpcbuf => true
  | .tnsl _ _ _, .lpcbuf => true
  | .fb _, .ovl => true
  | .fb _, .tout => true
  | .srst, .ovl => true
  | .srst, .tout => true
  | .srst, .lpcbuf => true
  | _, _ => false

/-- The commands that may move BITPOS (10_state.md R38; 40_bitreader.md R142, R147, R149). -/
def movesCursor : Instr → Bool
  | .frst => true
  | .srst => true
  | .brd _ => true
  | .brds _ => true
  | .brb => true
  | .bal => true
  | .hsf => true
  | .hsp _ => true
  | .sfd _ => true
  | .spd _ => true
  | _ => false

/-- The commands whose fault may leave BITPOS advanced (60_exceptions.md R312). -/
def faultMovesCursor : Instr → Bool
  | .hsf => true
  | .hsp _ => true
  | .sfd _ => true
  | .spd _ => true
  | _ => false

/-- The elements a faulting command may have written before its fault (60_exceptions.md R312). -/
def faultLeaves (i : Instr) (sp : Space) (k : Nat) : Prop :=
  match i with
  | .sfd c => sp = .sf ∧ 512 * c.num ≤ k ∧ k < 512 * c.num + 512
  | .spd c => sp = .qspec ∧ 1024 * c.num ≤ k ∧ k < 1024 * c.num + 1024
  | _ => False

/-- The commands that write x[0] (10_state.md R31). -/
def writesRes0 : Instr → Bool
  | .srst => true
  | .brd _ => true
  | .brds _ => true
  | .brb => true
  | .bpk _ => true
  | .blf => true
  | .hsf => true
  | .hsp _ => true
  | _ => false

/-- The commands that write x[1], x[2] and x[3] (10_state.md R31). -/
def writesRes123 : Instr → Bool
  | .srst => true
  | .hsp _ => true
  | _ => false

/-- Two states that agree on all a command may read: everything but the result registers, PRED
and TOUT (10_state.md R31, R50, R55). -/
def Agree (s t : State) : Prop :=
  s.csr = t.csr ∧ s.host = t.host ∧ s.nanDraws = t.nanDraws ∧
    ∀ sp, sp ≠ .pred → sp ≠ .tout → s.mem.cells sp = t.mem.cells sp

/-- One place in two runs, `v` and `v'` before, `u` and `u'` after: the runs leave the same there,
or neither changes it. -/
def SameOrKept {α : Type} (v v' u u' : α) : Prop := u' = u ∨ u = v ∧ u' = v'

/-- The same state, but that `t` may list elements beyond the last one of a space, which do not
exist (20_memory.md R80, R82). -/
def SameInside (s t : State) : Prop :=
  t.regs = s.regs ∧ t.csr = s.csr ∧ t.host = s.host ∧ t.nanDraws = s.nanDraws ∧
    ∀ sp, ∃ extra : Cells sp.width, t.mem.cells sp = s.mem.cells sp ++ extra ∧
      ∀ c ∈ extra, sp.size ≤ c.1

end Sys2Proof.Machine.Ref
end

