-- ==== Sys2Proof/Certificates/Slice0/Obligations.lean ====
section
/-! DEFINITION. The statements about the block, in the order of `OBLIGATIONS.json`. Each is for
every state and operand its hypotheses allow, states no run reaches included. -/

open Sys2Proof Sys2Proof.Machine

/-! ### Encoding -/

/-- Decoding the word of a well-formed instruction gives the instruction back, whatever its
operands (30_encoding.md R112 to R116, R118, R122). -/
def Obligations.DecodeOfEncode : Prop :=
  ∀ i : Instr, WellFormed i = true → decode (encode i) = .ok i

/-- A word the decoder accepts is the word of the instruction it names, and that instruction is
well formed: no word is a second spelling (30_encoding.md R118, R119). -/
def Obligations.EncodeOfDecode : Prop :=
  ∀ (w : Word) (i : Instr), decode w = .ok i → WellFormed i = true ∧ encode i = w

/-- The decoder maps every word to a command with its operands or to "illegal", as the match
and mask rows and the operand ranges say (30_encoding.md R124). -/
def Obligations.DecodingFollowsTheTable : Prop :=
  ∀ w : Word,
    match decode w with
    | .ok i => Ref.LegalWord w ∧ encode i = w
    | .error _ => ¬ Ref.LegalWord w

/-- The example words of 30_encoding.md R122, written out, decode to the commands they stand
for. -/
def Obligations.ExampleWordsDecode : Prop :=
  decode 0x10000008#32 = .ok (.brd 8#6) ∧ decode 0x11000020#32 = .ok (.brds 32#6) ∧
  decode 0x2100000B#32 = .ok (.hsp 11#4) ∧ decode 0x29000001#32 = .ok (.spd .c1) ∧
  decode 0x38000014#32 = .ok (.tnsl .c0 2#3 1#2) ∧ decode 0x48000000#32 = .ok (.fb .c0) ∧
  decode 0x01000000#32 = .ok .frst ∧ decode 0x02000000#32 = .ok .srst

/-! ### The step -/

/-- When the host's oldest access writes a word to CMD and the word decodes to a command, the
step is that command at the state in which the access has been made; `withFetchWord` puts such
an access first (10_state.md R33, R35). The list of accesses is the model's own (log 1). -/
def Obligations.StepRunsDecodedCommand : Prop :=
  (∀ (s : State) (w : Word) (i : Instr) (rest : List HostAccess),
    s.host = .writeReg 0 w :: rest → decode w = .ok i → step s = exec i { s with host := rest }) ∧
  ∀ (s : State) (w : Word) (i : Instr), decode w = .ok i →
    step (s.withFetchWord 32 w.toNat) = exec i s

/-- With no access pending the block waits and nothing happens
(70_reset_and_hazards.md R342). -/
def Obligations.StepWaitsForTheHost : Prop :=
  ∀ s : State, s.host = [] → step s = .next s

/-- An illegal word raises CmdError when no fault is pending and changes nothing else
(30_encoding.md R119). -/
def Obligations.IllegalWordRaisesCmdError : Prop :=
  ∀ (s : State) (w : Word) (rest : List HostAccess), s.host = .writeReg 0 w :: rest →
    ¬ Ref.LegalWord w → s.csr.fault = none →
    step s = .next (Ref.recorded .cmdError w { s with host := rest })

/-- While a fault is pending every word but the exact words FRST and SRST is refused and
changes nothing, illegal words too; the host's direct accesses do what they do without a fault
(60_exceptions.md R313). -/
def Obligations.PendingFaultRefusesCommands : Prop :=
  (∀ (s : State) (w : Word) (rest : List HostAccess), s.host = .writeReg 0 w :: rest →
    s.csr.fault ≠ none → w ≠ 0x01000000#32 → w ≠ 0x02000000#32 →
    step s = .next { s with host := rest }) ∧
  ∀ (s t : State) (a : HostAccess) (f : Option BlockFault), (∀ w, a ≠ .writeReg 0 w) →
    access a s = .next t →
    access a { s with csr := { s.csr with fault := f } } =
      .next { t with csr := { t.csr with fault := f } }

/-- The host's write of an element replaces that element and nothing else, whether or not a
fault is pending (10_state.md R72). -/
def Obligations.HostWriteReplacesOneElement : Prop :=
  ∀ (s : State) (sp : Space) (i v : Nat) (rest : List HostAccess),
    s.host = .writeMem sp i v :: rest → sp.hostWritable = true → i < sp.size →
    v < 2 ^ sp.width →
    ∃ t, step s = .next t ∧ t.elem sp i = BitVec.ofNat sp.width v ∧
      Ref.SameExcept s t (fun sp' j => sp' = sp ∧ j = i) ∧ Ref.SameRegisters s t ∧
      t.host = rest ∧ t.nanDraws = s.nanDraws

/-- The host's write of a legal value to one of the registers 4 to 14 replaces that register and
nothing else (10_state.md R34, R72). A write to a read-only register or to a number above 19 is
ignored: R48 says so and R72 gives the host no such move; that R48 is followed is the model's
reading (log 11). -/
def Obligations.HostWriteReplacesOneRegister : Prop :=
  ∀ (s : State) (n : Nat) (w : Word) (rest : List HostAccess), s.host = .writeReg n w :: rest →
    (4 ≤ n → n ≤ 14 → w &&& ~~~(writableBits n) = 0#32 →
      (n = 5 → w.toNat ≤ Config.ibufBytes) →
      ∃ t, step s = .next t ∧ hostReadReg t n = w ∧
        (∀ m, m ≠ n → hostReadReg t m = hostReadReg s m) ∧ t.mem = s.mem ∧ t.host = rest ∧
        t.nanDraws = s.nanDraws) ∧
    (1 ≤ n ∧ n ≤ 3 ∨ 15 ≤ n → step s = .next { s with host := rest })

/-- What the host reads in every control register: CMD as 0, STATUS as the code of the pending
fault, numbers 2 to 15 as the registers of the table, the result registers as numbers 16 to 19,
0 above 19; a read changes nothing (10_state.md R34 to R37, R46 to R48, R72). -/
def Obligations.HostReadsRegisters : Prop :=
  (∀ s : State, hostReadReg s 0 = 0#32 ∧
    (hostReadReg s 1 = match s.csr.fault with
      | none => 0#32
      | some .endOfStream => 1#32
      | some .formatError => 2#32
      | some .unsupportedProfile => 3#32
      | some .cmdError => 4#32) ∧
    hostReadReg s 2 = s.csr.finfo ∧ hostReadReg s 3 = s.csr.fpos ∧
    hostReadReg s 4 = s.csr.bitpos ∧ hostReadReg s 5 = s.csr.ilen ∧
    hostReadReg s 6 = s.csr.cfg ∧ hostReadReg s 7 = s.csr.bands ∧
    hostReadReg s 8 = s.csr.ics0 ∧ hostReadReg s 9 = s.csr.ics1 ∧
    hostReadReg s 10 = s.csr.grp0 ∧ hostReadReg s 11 = s.csr.grp1 ∧
    hostReadReg s 12 = s.csr.gg0 ∧ hostReadReg s 13 = s.csr.gg1 ∧
    hostReadReg s 14 = s.csr.cpe ∧ hostReadReg s 15 = s.csr.pshape ∧
    hostReadReg s 16 = s.regs.res0 ∧ hostReadReg s 17 = s.regs.res1 ∧
    hostReadReg s 18 = s.regs.res2 ∧ hostReadReg s 19 = s.regs.res3 ∧
    ∀ n, 19 < n → hostReadReg s n = 0#32) ∧
  (∀ (s : State) (n : Nat) (rest : List HostAccess), s.host = .readReg n :: rest →
    step s = .next { s with host := rest }) ∧
  ∀ (s : State) (sp : Space) (i : Nat) (rest : List HostAccess), s.host = .readMem sp i :: rest →
    i < sp.size → step s = .next { s with host := rest }

/-! ### Faults -/

/-- Fault entry: the code, the command word and the cursor are recorded, no other register
changes but the cursor; FormatError sets every element of TOUT to +0.0 and leaves OVL and
PSHAPE alone; no other fault touches TOUT (60_exceptions.md R304, R311). -/
def Obligations.FaultEntry : Prop :=
  ∀ (i : Instr) (s t : State) (f : BlockFault), exec i s = .next t → s.csr.fault = none →
    t.csr.fault = some f →
    t.regs = s.regs ∧ t.host = s.host ∧
    t.csr = { s.csr with fault := some f, finfo := encode i, fpos := t.csr.bitpos,
                         bitpos := t.csr.bitpos } ∧
    (f = .formatError → ∀ k < 2048, t.elem .tout k = 0) ∧
    (f ≠ .formatError → ∀ k, t.elem .tout k = s.elem .tout k) ∧
    ∀ k, t.elem .ovl k = s.elem .ovl k

/-- What a faulting command leaves behind: HSF, HSP, SFD and SPD may have advanced BITPOS, SFD
may have written SF of its channel and SPD QSPEC of its channel; no other command has changed
anything, and CmdError and UnsupportedProfile are raised before any change
(60_exceptions.md R312). -/
def Obligations.FaultLeavesBehind : Prop :=
  ∀ (i : Instr) (s t : State) (f : BlockFault), exec i s = .next t → s.csr.fault = none →
    t.csr.fault = some f →
    Ref.SameExcept s t (fun sp k => sp = .tout ∧ f = .formatError ∨ Ref.faultLeaves i sp k) ∧
    (Ref.faultMovesCursor i = false → t.csr.bitpos = s.csr.bitpos) ∧
    (f = .cmdError ∨ f = .unsupportedProfile → t = Ref.recorded f (encode i) s)

/-- FRST clears EndOfStream, FormatError and CmdError with FINFO and FPOS and sets BITPOS to 0;
with UnsupportedProfile pending it changes nothing; its word is 0x01000000
(47_control.md R291). -/
def Obligations.FrstStartsAFrame : Prop :=
  decode 0x01000000#32 = .ok .frst ∧ ∀ s : State, exec .frst s =
    .next (if s.csr.fault = some .unsupportedProfile then s
      else { s with csr := { s.csr with fault := none, finfo := 0#32, fpos := 0#32,
                                        bitpos := 0#32 } })

/-- SRST clears every control and result register and OVL, TOUT and LPCBUF, whatever fault is
pending; the other memories keep their contents; its word is 0x02000000
(47_control.md R292). That the pending accesses of the host stay is the model's choice
(log 20). -/
def Obligations.SrstResetsTheStream : Prop :=
  decode 0x02000000#32 = .ok .srst ∧ ∀ s : State, ∃ t, exec .srst s = .next t ∧
    t.regs = { res0 := 0#32, res1 := 0#32, res2 := 0#32, res3 := 0#32 } ∧
    (∀ n, hostReadReg t n = 0#32) ∧ t.csr.fault = none ∧ t.host = s.host ∧
    (∀ k < 2048, t.elem .ovl k = 0 ∧ t.elem .tout k = 0) ∧ (∀ k < 21, t.elem .lpcbuf k = 0) ∧
    Ref.SameExcept s t fun sp _ => sp = .ovl ∨ sp = .tout ∨ sp = .lpcbuf

/-- SRST gives every location with a specified reset value that value, and the other memories
keep their contents (70_reset_and_hazards.md R343). -/
def Obligations.SrstAgainstReset : Prop :=
  ∀ s t : State, exec .srst s = .next t →
    t.regs = State.reset.regs ∧ t.csr = State.reset.csr ∧
    ∀ sp, if sp.zeroed then ∀ k, t.elem sp k = State.reset.elem sp k
      else t.mem.cells sp = s.mem.cells sp

/-- STATUS.FAULT returns to 0 only by the words FRST and SRST: no other access of the host
clears a pending fault (47_control.md R290). -/
def Obligations.OnlyControlClearsAFault : Prop :=
  ∀ s t : State, step s = .next t → s.csr.fault ≠ none → t.csr.fault = none →
    ∃ rest, s.host = .writeReg 0 0x01000000#32 :: rest ∨
      s.host = .writeReg 0 0x02000000#32 :: rest

/-! ### The bit reader -/

/-- BRD n: x[0] is the n-bit field at the cursor, unsigned, and the cursor moves by n;
EndOfStream when n is more than the bits left, CmdError when n is above 32; the word is
0x10000000 with n in its low bits (40_bitreader.md R144). -/
def Obligations.BrdReadsAField : Prop :=
  ∀ (n : BitVec 6) (s : State), Ref.Ready s →
    (n.toNat ≤ 32 → decode (0x10000000#32 ||| n.setWidth 32) = .ok (.brd n)) ∧
    (n.toNat ≤ 32 → (n.toNat : Int) ≤ Ref.left s → exec (.brd n) s =
      .next (Ref.withRes0 (BitVec.ofNat 32 (Ref.bits s s.csr.bitpos.toNat n.toNat))
        (Ref.withCursor (s.csr.bitpos.toNat + n.toNat) s))) ∧
    (n.toNat ≤ 32 → Ref.left s < n.toNat → exec (.brd n) s =
      .next (Ref.recorded .endOfStream (0x10000000#32 ||| n.setWidth 32) s)) ∧
    (32 < n.toNat → exec (.brd n) s =
      .next (Ref.recorded .cmdError (0x10000000#32 ||| n.setWidth 32) s))

/-- BRDS n: as BRD, the field read as an n-bit two's complement number
(40_bitreader.md R145). -/
def Obligations.BrdsReadsASignedField : Prop :=
  ∀ (n : BitVec 6) (s : State), Ref.Ready s →
    (n.toNat ≤ 32 → decode (0x11000000#32 ||| n.setWidth 32) = .ok (.brds n)) ∧
    (n.toNat ≤ 32 → (n.toNat : Int) ≤ Ref.left s → exec (.brds n) s =
      .next (Ref.withRes0
        ((BitVec.ofNat n.toNat (Ref.bits s s.csr.bitpos.toNat n.toNat)).signExtend 32)
        (Ref.withCursor (s.csr.bitpos.toNat + n.toNat) s))) ∧
    (n.toNat ≤ 32 → Ref.left s < n.toNat → exec (.brds n) s =
      .next (Ref.recorded .endOfStream (0x11000000#32 ||| n.setWidth 32) s)) ∧
    (32 < n.toNat → exec (.brds n) s =
      .next (Ref.recorded .cmdError (0x11000000#32 ||| n.setWidth 32) s))

/-- BRB: x[0] is the next stream bit and the cursor moves by one; EndOfStream when none is
left, CmdError when a reserved bit of the word is set (40_bitreader.md R146). -/
def Obligations.BrbReadsABit : Prop :=
  decode 0x12000000#32 = .ok .brb ∧
  (∀ (w : Word) (s : State), opField w = 0x12#8 → w ≠ 0x12000000#32 → s.csr.fault = none →
    command w s = .next (Ref.recorded .cmdError w s)) ∧
  ∀ s : State, Ref.Ready s →
    (1 ≤ Ref.left s → exec .brb s =
      .next (Ref.withRes0 (BitVec.ofNat 32 (Ref.bit s s.csr.bitpos.toNat))
        (Ref.withCursor (s.csr.bitpos.toNat + 1) s))) ∧
    (Ref.left s < 1 → exec .brb s = .next (Ref.recorded .endOfStream 0x12000000#32 s))

/-- BPK n: as BRD, but the cursor does not move (40_bitreader.md R147). -/
def Obligations.BpkPeeksAtAField : Prop :=
  ∀ (n : BitVec 6) (s : State), Ref.Ready s →
    (n.toNat ≤ 32 → decode (0x13000000#32 ||| n.setWidth 32) = .ok (.bpk n)) ∧
    (n.toNat ≤ 32 → (n.toNat : Int) ≤ Ref.left s → exec (.bpk n) s =
      .next (Ref.withRes0 (BitVec.ofNat 32 (Ref.bits s s.csr.bitpos.toNat n.toNat)) s)) ∧
    (n.toNat ≤ 32 → Ref.left s < n.toNat → exec (.bpk n) s =
      .next (Ref.recorded .endOfStream (0x13000000#32 ||| n.setWidth 32) s)) ∧
    (32 < n.toNat → exec (.bpk n) s =
      .next (Ref.recorded .cmdError (0x13000000#32 ||| n.setWidth 32) s))

/-- BAL: an aligned cursor stays, another moves up to the next multiple of 8, or EndOfStream is
raised when the bits to skip are not there; x[0] is unchanged; CmdError when a reserved bit of
the word is set (40_bitreader.md R149). -/
def Obligations.BalAlignsTheCursor : Prop :=
  decode 0x14000000#32 = .ok .bal ∧
  (∀ (w : Word) (s : State), opField w = 0x14#8 → w ≠ 0x14000000#32 → s.csr.fault = none →
    command w s = .next (Ref.recorded .cmdError w s)) ∧
  ∀ s : State, Ref.Ready s →
    (s.csr.bitpos.toNat % 8 = 0 → exec .bal s = .next s) ∧
    (s.csr.bitpos.toNat % 8 ≠ 0 → (8 - s.csr.bitpos.toNat % 8 : Int) ≤ Ref.left s →
      exec .bal s = .next (Ref.withCursor (8 * (s.csr.bitpos.toNat / 8 + 1)) s)) ∧
    (s.csr.bitpos.toNat % 8 ≠ 0 → Ref.left s < (8 - s.csr.bitpos.toNat % 8 : Int) →
      exec .bal s = .next (Ref.recorded .endOfStream 0x14000000#32 s))

/-- BLF: x[0] is the number of bits left, 0 when the cursor is at or past the end; no fault but
CmdError when a reserved bit of the word is set (40_bitreader.md R140, R150). -/
def Obligations.BlfCountsBitsLeft : Prop :=
  decode 0x15000000#32 = .ok .blf ∧
  (∀ (w : Word) (s : State), opField w = 0x15#8 → w ≠ 0x15000000#32 → s.csr.fault = none →
    command w s = .next (Ref.recorded .cmdError w s)) ∧
  ∀ s : State, s.csr.fault = none → exec .blf s =
    .next (Ref.withRes0 (BitVec.ofInt 32 (Ref.left s)) s)

/-- No command moves BITPOS past 8·ILEN: after any command the cursor is where it was or within
the stream (40_bitreader.md R141). -/
def Obligations.CursorStaysInTheStream : Prop :=
  ∀ (i : Instr) (s t : State), exec i s = .next t →
    t.csr.bitpos = s.csr.bitpos ∨ t.csr.bitpos.toNat ≤ 8 * t.csr.ilen.toNat

/-! ### The Huffman decoder -/

/-- The block's code tables, whatever their contents, meet the constraints of 41_huffman.md
R161, with NSYM and MAXLEN of the table of R163. That the model's tables are held to them is
log 5. -/
def Obligations.CodeTablesMeetTheConstraints : Prop :=
  ∀ b : Book,
    (∀ e ∈ blockParams.hcb b, ∀ e' ∈ blockParams.hcb b, e.len ≤ e'.len →
      e'.code / 2 ^ (e'.len - e.len) = e.code → e = e') ∧
    (∀ sym < Ref.nsym b, ∃ e ∈ blockParams.hcb b, e.sym = sym ∧
      ∀ e' ∈ blockParams.hcb b, e'.sym = sym → e' = e) ∧
    (∀ e ∈ blockParams.hcb b, 1 ≤ e.len ∧ e.len ≤ Ref.maxLen b) ∧
    ∃ e ∈ blockParams.hcb b, e.len = Ref.maxLen b

/-- HSF: where a codeword of the scale-factor table stands at the cursor, inside the stream,
x[0] is its symbol and the cursor moves past it; HSF ends without a fault only then
(41_huffman.md R164, R173). -/
def Obligations.HsfReadsASymbol : Prop :=
  ∀ s : State, Ref.Ready s →
    (∀ sym k', Ref.SymbolAt Rom.hcb s .sf s.csr.bitpos.toNat sym k' → exec .hsf s =
      .next (Ref.withRes0 (BitVec.ofNat 32 sym) (Ref.withCursor k' s))) ∧
    ∀ t, exec .hsf s = .next t → t.csr.fault = none →
      ∃ sym k', Ref.SymbolAt Rom.hcb s .sf s.csr.bitpos.toNat sym k'

/-- The faults of HSF and HSP. HuffDecode, for every parameter record: FormatError after MAXLEN
bits without a match, which stay consumed; EndOfStream with the cursor at the end when fewer than
MAXLEN bits are left and no codeword that fits matches (41_huffman.md R165). HSF and the whole of
HSP, for every code-table ROM that meets R161, of which the block's is one: as there, and
EndOfStream in a sign bit or an escape code, FormatError on the ninth one of an escape prefix
(R169, R174). A fault changes nothing but STATUS, FINFO, FPOS, the cursor and, for FormatError,
TOUT (R175). -/
def Obligations.HuffDecodeFaults : Prop :=
  (∀ (p : Params) (b : Book) (w : Word) (m : Cmd Unit) (s : State), Ref.Ready s →
    (b = .sf ∧ w = 0x20000000#32 ∧ m = hsfCmd p ∨
      ∃ bk, ∃ cb : BitVec 4, b = .spectral bk ∧ cb.toNat = (Ref.bookRow bk).number ∧
        w = 0x21000000#32 ||| cb.setWidth 32 ∧ m = hspCmd p cb) →
    ((p.maxLen b : Int) ≤ Ref.left s →
      (∀ e ∈ p.hcb b, ¬ Ref.CodewordAt s s.csr.bitpos.toNat e) →
      ∃ t, runCmd w m s = .next t ∧
        Ref.FormatFault w (Ref.withCursor (s.csr.bitpos.toNat + p.maxLen b) s) t) ∧
    (Ref.left s < p.maxLen b → s.csr.bitpos.toNat ≤ 8 * s.csr.ilen.toNat →
      (∀ e ∈ p.hcb b, (e.len : Int) ≤ Ref.left s →
        ¬ Ref.CodewordAt s s.csr.bitpos.toNat e) →
      runCmd w m s =
        .next (Ref.recorded .endOfStream w (Ref.withCursor (8 * s.csr.ilen.toNat) s)))) ∧
  (∀ (rom : Book → HuffTable) (s : State) (f : BlockFault) (k' : Nat), Ref.LegalRom rom →
    Ref.Ready s →
    (Ref.SymbolFails rom s .sf s.csr.bitpos.toNat f k' →
      ∃ t, runCmd 0x20000000#32 (hsfCmd (Ref.withRom rom)) s = .next t ∧
        Ref.FaultedAt f 0x20000000#32 k' s t fun _ _ => False) ∧
    ∀ (bk : SpecBook) (cb : BitVec 4), cb.toNat = (Ref.bookRow bk).number →
      Ref.TupleFails rom s bk s.csr.bitpos.toNat f k' →
      ∃ t, runCmd (0x21000000#32 ||| cb.setWidth 32) (hspCmd (Ref.withRom rom) cb) s = .next t ∧
        Ref.FaultedAt f (0x21000000#32 ||| cb.setWidth 32) k' s t fun _ _ => False) ∧
  ∀ s : State, exec .hsf s = runCmd 0x20000000#32 (hsfCmd (Ref.withRom Rom.hcb)) s ∧
    ∀ cb, exec (.hsp cb) s =
      runCmd (0x21000000#32 ||| cb.setWidth 32) (hspCmd (Ref.withRom Rom.hcb) cb) s

/-- HSP cb: where a tuple of codebook cb stands at the cursor with its sign bits and escape
codes, x[0..3] are its values, 0 beyond them, and the cursor moves past it; HSP ends without a
fault only then (41_huffman.md R170, R174). The tuple is the symbol's digits as R166 writes them
out, with DIM, SGN and LAV of the table of R163. -/
def Obligations.HspReadsATuple : Prop :=
  ∀ (cb : BitVec 4) (b : SpecBook) (s : State), Ref.Ready s → cb.toNat = (Ref.bookRow b).number →
    (∀ v k', Ref.TupleAt Rom.hcb s b s.csr.bitpos.toNat v k' → exec (.hsp cb) s = .next
      { Ref.withCursor k' s with
        regs := { res0 := BitVec.ofInt 32 (v.getD 0 0), res1 := BitVec.ofInt 32 (v.getD 1 0),
                  res2 := BitVec.ofInt 32 (v.getD 2 0), res3 := BitVec.ofInt 32 (v.getD 3 0) } }) ∧
    ∀ t, exec (.hsp cb) s = .next t → t.csr.fault = none →
      ∃ v k', Ref.TupleAt Rom.hcb s b s.csr.bitpos.toNat v k'

/-! ### The channel passes -/

/-- SFD or SPD with the error-resilience flag of the pass set raises UnsupportedProfile before
it reads or writes anything; FRST does not clear it and SRST does, and no step ends it but the
host's write of the word SRST to CMD (60_exceptions.md R309). -/
def Obligations.UnsupportedProfileIsFatal : Prop :=
  (∀ (c : Channel) (s : State), s.csr.fault = none →
    (flag s.csr.cfg 2 = true → exec (.sfd c) s =
      .next (Ref.recorded .unsupportedProfile (0x28000000#32 ||| c.bit.setWidth 32) s)) ∧
    (flag s.csr.cfg 1 = true → exec (.spd c) s =
      .next (Ref.recorded .unsupportedProfile (0x29000000#32 ||| c.bit.setWidth 32) s))) ∧
  (∀ s : State, s.csr.fault = some .unsupportedProfile →
    exec .frst s = .next s ∧ ∃ t, exec .srst s = .next t ∧ t.csr.fault = none) ∧
  ∀ s t : State, s.csr.fault = some .unsupportedProfile → step s = .next t →
    t.csr.fault ≠ some .unsupportedProfile → ∃ rest, s.host = .writeReg 0 0x02000000#32 :: rest

/-- A channel whose geometry GeomCheck rejects makes SFD, SPD, IQ, TNS, MS and IS raise
FormatError before they read or write anything else (10_state.md R70). -/
def Obligations.GeometryFaults : Prop :=
  ∀ (c : Channel) (s : State), s.csr.fault = none → ¬ Ref.Geometry s c →
    (s.csr.errvlc = false → ∃ t, exec (.sfd c) s = .next t ∧
      Ref.FormatFault (encode (.sfd c)) s t) ∧
    (s.csr.erhcr = false → ∃ t, exec (.spd c) s = .next t ∧
      Ref.FormatFault (encode (.spd c)) s t) ∧
    (∃ t, exec (.iq c) s = .next t ∧ Ref.FormatFault (encode (.iq c)) s t) ∧
    (∃ t, exec (.tns c) s = .next t ∧ Ref.FormatFault (encode (.tns c)) s t) ∧
    (Ref.Pair s → s.csr.msmode ≠ 3 →
      (∃ t, exec .ms s = .next t ∧ Ref.FormatFault (encode .ms) s t) ∧
      ∃ t, exec .is s = .next t ∧ Ref.FormatFault (encode .is) s t)

/-- With the geometry accepted, LINE maps the lines (g, w, i) of a channel one to one onto the
indices below FL (10_state.md R65, R68). -/
def Obligations.LinesCoverTheFrame : Prop :=
  ∀ (s : State) (c : Channel), Ref.Geometry s c →
    (∀ g w i, Ref.IsLine s c g w i → s.csr.line c g w i < s.csr.fl) ∧
    (∀ g w i g' w' i', Ref.IsLine s c g w i → Ref.IsLine s c g' w' i' →
      s.csr.line c g w i = s.csr.line c g' w' i' → g = g' ∧ w = w' ∧ i = i') ∧
    ∀ p < s.csr.fl, ∃ g w i, Ref.IsLine s c g w i ∧ s.csr.line c g w i = p

/-- SFD c: where the stream holds a delta for every band and every gain stays in 0 … 255, SF of
each band is the seed of its class plus the deltas of the class so far, ZERO bands store 0, the
cursor moves past the deltas and nothing else changes. For every code-table ROM that meets
41_huffman.md R161, of which the block's is one: where a band's delta is no codeword or is cut off
by the end of the stream, or takes the gain out of range, SFD ends there in that fault, and the
scale factors of the bands before it stay written
(42_icstream_passes.md R191, R192, R193, R194, R198). -/
def Obligations.SfdStoresScaleFactors : Prop :=
  (∀ (c : Channel) (s : State) (ds : List Int) (k' : Nat), Ref.Ready s →
    s.csr.errvlc = false → Ref.Geometry s c →
    Ref.DeltasAt Rom.hcb s c (s.csr.bandList c) s.csr.bitpos.toNat true ds k' →
    Ref.GainsInRange s c ds (s.csr.bandList c).length →
    ∃ t, exec (.sfd c) s = .next t ∧ t.regs = s.regs ∧ t.host = s.host ∧
      t.csr = { s.csr with bitpos := BitVec.ofNat 32 k' } ∧
      (∀ n < (s.csr.bandList c).length,
        t.elem .sf (512 * c.num + 64 * ((s.csr.bandList c).getD n (0, 0)).1 +
          ((s.csr.bandList c).getD n (0, 0)).2) =
          BitVec.ofInt 32 (Ref.sfValue s c (s.csr.bandList c) ds n)) ∧
      Ref.SameExcept s t fun sp i => sp = .sf ∧
        ∃ g < s.csr.ngrp c, ∃ b < s.csr.maxsfb c, i = 512 * c.num + 64 * g + b) ∧
  (∀ (rom : Book → HuffTable) (c : Channel) (s : State) (n k : Nat) (ds : List Int)
    (f : BlockFault) (k' : Nat), Ref.LegalRom rom → Ref.Ready s → s.csr.errvlc = false →
    Ref.Geometry s c → n < (s.csr.bandList c).length →
    Ref.DeltasAt rom s c ((s.csr.bandList c).take n) s.csr.bitpos.toNat true ds k →
    Ref.GainsInRange s c ds n → Ref.BandFails rom s c ds n k f k' →
    ∃ t, runCmd (0x28000000#32 ||| c.bit.setWidth 32) (sfdCmd (Ref.withRom rom) c) s = .next t ∧
      (∀ j < n, t.elem .sf (512 * c.num + 64 * ((s.csr.bandList c).getD j (0, 0)).1 +
          ((s.csr.bandList c).getD j (0, 0)).2) =
        BitVec.ofInt 32 (Ref.sfValue s c (s.csr.bandList c) ds j)) ∧
      Ref.FaultedAt f (0x28000000#32 ||| c.bit.setWidth 32) k' s t fun sp i => sp = .sf ∧
        ∃ gb ∈ (s.csr.bandList c).take n, i = 512 * c.num + 64 * gb.1 + gb.2) ∧
  ∀ (c : Channel) (s : State), exec (.sfd c) s =
    runCmd (0x28000000#32 ||| c.bit.setWidth 32) (sfdCmd (Ref.withRom Rom.hcb) c) s

/-- SPD c: where every coded width is a whole number of tuples and the stream holds them all,
the values of each tuple stand on its lines, every other line below FL is 0, the cursor moves
past the tuples and nothing else changes. For every code-table ROM that meets 41_huffman.md R161,
of which the block's is one: where a band's width is not a whole number of tuples, or a tuple
fails, SPD ends there in that fault; the tuples before it stand on their lines and every other
line below FL is 0 (42_icstream_passes.md R195, R196, R197, R198). -/
def Obligations.SpdStoresTuples : Prop :=
  (∀ (c : Channel) (s : State) (vs : List (List Int)) (k' : Nat), Ref.Ready s →
    s.csr.erhcr = false → Ref.Geometry s c → Ref.WidthsFit s c →
    Ref.TuplesAt Rom.hcb s (Ref.tuples s c) s.csr.bitpos.toNat vs k' →
    ∃ t, exec (.spd c) s = .next t ∧ t.regs = s.regs ∧ t.host = s.host ∧
      t.csr = { s.csr with bitpos := BitVec.ofNat 32 k' } ∧
      Ref.TuplesStored s t c (Ref.tuples s c) vs ∧
      Ref.SameExcept s t (Ref.OnLines s .qspec c)) ∧
  (∀ (rom : Book → HuffTable) (c : Channel) (s : State) (ts : List (SpecBook × Nat))
    (vs : List (List Int)) (k : Nat) (f : BlockFault) (k' : Nat), Ref.LegalRom rom → Ref.Ready s →
    s.csr.erhcr = false → Ref.Geometry s c → Ref.TuplesAt rom s ts s.csr.bitpos.toNat vs k →
    Ref.SpectrumFails rom s c ts k f k' →
    ∃ t, runCmd (0x29000000#32 ||| c.bit.setWidth 32) (spdCmd (Ref.withRom rom) c) s = .next t ∧
      Ref.TuplesStored s t c ts vs ∧
      Ref.FaultedAt f (0x29000000#32 ||| c.bit.setWidth 32) k' s t (Ref.OnLines s .qspec c)) ∧
  ∀ (c : Channel) (s : State), exec (.spd c) s =
    runCmd (0x29000000#32 ||| c.bit.setWidth 32) (spdCmd (Ref.withRom Rom.hcb) c) s

/-! ### Stereo -/

/-- MS and IS raise CmdError when the channels are not a pair, and FormatError when they are and
the MS mask mode is 3; nothing else changes (43_stereo.md R210, R211). -/
def Obligations.StereoFaults : Prop :=
  ∀ (i : Instr) (s : State), i = .ms ∨ i = .is → s.csr.fault = none →
    (¬ Ref.Pair s → exec i s = .next (Ref.recorded .cmdError (encode i) s)) ∧
    (Ref.Pair s → s.csr.msmode = 3 →
      ∃ t, exec i s = .next t ∧ Ref.FormatFault (encode i) s t)

/-- MS: on every line of every band where MS is indicated and the right codebook is neither
noise nor intensity, the left value becomes r + l and the right one l - r, both of the old
values; every other element is unchanged (43_stereo.md R212, R213). -/
def Obligations.MsButterfly : Prop :=
  ∀ s : State, Ref.StereoReady s →
    ∃ t, exec .ms s = .next t ∧ Ref.SameRegisters s t ∧ t.host = s.host ∧
      (∀ g w i b, Ref.IsLine s .c0 g w i → Ref.InBand s .c0 b i → Ref.MsBand s g b →
        Ref.Gives (Flt.add? (Ref.line s .spec .c1 (s.csr.line .c0 g w i))
          (Ref.line s .spec .c0 (s.csr.line .c0 g w i)))
          (Ref.line t .spec .c0 (s.csr.line .c0 g w i)) ∧
        Ref.Gives (Flt.sub? (Ref.line s .spec .c0 (s.csr.line .c0 g w i))
          (Ref.line s .spec .c1 (s.csr.line .c0 g w i)))
          (Ref.line t .spec .c1 (s.csr.line .c0 g w i))) ∧
      Ref.SameExcept s t fun sp k => sp = .spec ∧ ∃ g w i b, Ref.IsLine s .c0 g w i ∧
        Ref.InBand s .c0 b i ∧ Ref.MsBand s g b ∧
        (k = s.csr.line .c0 g w i ∨ k = 1024 + s.csr.line .c0 g w i)

/-- IS: on every line of every band with an intensity codebook on the right, the right value
becomes the left one times the scale of the band with its sign, and the band's prediction flags
of both channels are cleared; every other element is unchanged
(43_stereo.md R215, R216, R218). -/
def Obligations.IsRebuildsTheRightChannel : Prop :=
  ∀ s : State, Ref.StereoReady s →
    ∃ t, exec .is s = .next t ∧ Ref.SameRegisters s t ∧ t.host = s.host ∧
      (∀ g w i b, Ref.IsLine s .c0 g w i → Ref.InBand s .c0 b i → Ref.IsBand s g b →
        Ref.Gives (Flt.mul? (Ref.line s .spec .c0 (s.csr.line .c0 g w i)) (Ref.isScale s g b))
          (Ref.line t .spec .c1 (s.csr.line .c0 g w i))) ∧
      (∀ g b, g < s.csr.ngrp .c0 → b < s.csr.maxsfb .c0 → Ref.IsBand s g b →
        t.elem .pred b = 0 ∧ t.elem .pred (64 + b) = 0) ∧
      Ref.SameExcept s t fun sp k =>
        (sp = .spec ∧ ∃ g w i b, Ref.IsLine s .c0 g w i ∧ Ref.InBand s .c0 b i ∧
          Ref.IsBand s g b ∧ k = 1024 + s.csr.line .c0 g w i) ∨
        (sp = .pred ∧ ∃ g b, g < s.csr.ngrp .c0 ∧ b < s.csr.maxsfb .c0 ∧ Ref.IsBand s g b ∧
          (k = b ∨ k = 64 + b))

/-- MS and IS never both apply to one group and band, whatever MSU and the MS mask mode hold
(43_stereo.md R219). -/
def Obligations.MsAndIsNeverBothApply : Prop :=
  ∀ (s : State) (g b : Nat), (s.msApplies (g, b) = true → ¬ Ref.IsBand s g b) ∧
    (s.isApplies (g, b) = true → ¬ Ref.MsBand s g b)

/-! ### Temporal noise shaping -/

/-- TNSL raises CmdError for a window the channel does not have, FormatError for a slot
SlotCheck rejects, and TNS raises FormatError when a slot in use is rejected; SPEC and LPCBUF
are unchanged then (44_tns.md R231, R236, R240). -/
def Obligations.SlotFaults : Prop :=
  ∀ (c : Channel) (w : BitVec 3) (f : BitVec 2) (s : State), s.csr.fault = none →
    f.toNat ≤ 2 →
    (s.csr.nwin c ≤ w.toNat → exec (.tnsl c w f) s =
      .next (Ref.recorded .cmdError (encode (.tnsl c w f)) s)) ∧
    (w.toNat < s.csr.nwin c → ¬ Ref.SlotValid s c w.toNat f.toNat →
      ∃ t, exec (.tnsl c w f) s = .next t ∧ Ref.FormatFault (encode (.tnsl c w f)) s t) ∧
    (Ref.Geometry s c → w.toNat < s.csr.nwin c → f.toNat < s.tnsn c w.toNat →
      ¬ Ref.SlotValid s c w.toNat f.toNat →
      ∃ t, exec (.tns c) s = .next t ∧ Ref.FormatFault (encode (.tns c)) s t)

/-- TNSL c, w, f: LPCBUF becomes the coefficients the recursion gives for the slot, its first
element 1.0, its element ORDER the last table value, +0.0 above; nothing else changes
(44_tns.md R232, R234, R236). -/
def Obligations.TnslComputesCoefficients : Prop :=
  ∀ (c : Channel) (w : BitVec 3) (f : BitVec 2) (s : State), s.csr.fault = none →
    f.toNat ≤ 2 → w.toNat < s.csr.nwin c → Ref.SlotValid s c w.toNat f.toNat →
    ∃ t, exec (.tnsl c w f) s = .next t ∧ Ref.SameRegisters s t ∧ t.host = s.host ∧
      Ref.LpcOf s c w.toNat f.toNat (fun k => t.elem .lpcbuf k) ∧
      t.elem .lpcbuf 0 = 0x3F800000#32 ∧
      Ref.SameExcept s t fun sp k => sp = .lpcbuf ∧ k < 21

/-- TNS c: every line in the range of an active slot becomes the output of the slot's all-pole
filter, in direct form and traversal order, over the old lines of the range; every other line
is unchanged; LPCBUF holds the coefficients of the last active slot, or is unchanged when there
is none; nothing else changes (44_tns.md R237, R239, R240, R241). -/
def Obligations.TnsFiltersTheSpectrum : Prop :=
  ∀ (c : Channel) (s : State), s.csr.fault = none → Ref.Geometry s c →
    (∀ w < s.csr.nwin c, ∀ f < s.tnsn c w, Ref.SlotValid s c w f) →
    ∃ (t : State) (lpc : Nat → Nat → Nat → F32), exec (.tns c) s = .next t ∧
      Ref.SameRegisters s t ∧ t.host = s.host ∧
      (∀ w f, Ref.ActiveSlot s c w f → Ref.LpcOf s c w f (lpc w f) ∧
        ∀ n < Ref.slotEnd s c w f - Ref.slotStart s c w f,
          Ref.Filtered (lpc w f) (s.tnsf c w f).order
            (Ref.line s .spec c (Ref.slotLine s c w f n))
            (fun j => if j < n then Ref.line t .spec c (Ref.slotLine s c w f (n - 1 - j)) else 0)
            (Ref.line t .spec c (Ref.slotLine s c w f n))) ∧
      (∀ w f, Ref.ActiveSlot s c w f →
        (∀ w' f', Ref.ActiveSlot s c w' f' → w' < w ∨ w' = w ∧ f' ≤ f) →
        ∀ k ≤ 20, t.elem .lpcbuf k = lpc w f k) ∧
      Ref.SameExcept s t fun sp k =>
        (sp = .spec ∧ ∃ w f n, Ref.ActiveSlot s c w f ∧
          n < Ref.slotEnd s c w f - Ref.slotStart s c w f ∧
          k = 1024 * c.num + Ref.slotLine s c w f n) ∨
        (sp = .lpcbuf ∧ k < 21 ∧ ∃ w f, Ref.ActiveSlot s c w f)

/-! ### The inverse quantizer -/

/-- IQ c: on a spectrally coded band each line is the power of its magnitude times the gain of
the band, with the sign of the integer; noise bands are untouched; every other line below FL is
+0.0; nothing else changes (45_invquant.md R250, R251, R252). -/
def Obligations.IqDequantizes : Prop :=
  ∀ (c : Channel) (s : State), s.csr.fault = none → Ref.Geometry s c →
    ∃ t, exec (.iq c) s = .next t ∧ Ref.SameRegisters s t ∧ t.host = s.host ∧
      (∀ g w i b bk, Ref.IsLine s c g w i → Ref.InBand s c b i → s.cb c g b = .spectral bk →
        ∃ v, Ref.Gives (Flt.mul?
            (blockParams.pow43 (Ref.line s .qspec c (s.csr.line c g w i)).toInt.natAbs)
            (blockParams.exp2q (s.sf c g b))) v ∧
          Ref.line t .spec c (s.csr.line c g w i) =
            if (Ref.line s .qspec c (s.csr.line c g w i)).toInt < 0 then Flt.fneg v else v) ∧
      (∀ g w i, Ref.IsLine s c g w i →
        (∀ b, Ref.InBand s c b i → (∀ bk, s.cb c g b ≠ .spectral bk) ∧ s.cb c g b ≠ .noise) →
        Ref.line t .spec c (s.csr.line c g w i) = 0) ∧
      Ref.SameExcept s t fun sp k => Ref.OnLines s .spec c sp k ∧
        ∀ g w i b, Ref.IsLine s c g w i → Ref.InBand s c b i → s.cb c g b = .noise →
          k ≠ 1024 * c.num + s.csr.line c g w i

/-- The sign is applied last: Deq(-q, sf) is Deq(q, sf) with its sign bit flipped, for q other
than 0 (45_invquant.md R250). A NaN is one drawn pattern on both sides (log 4). -/
def Obligations.DequantizerIsOdd : Prop :=
  ∀ (p : Params) (q sf : Int) (k : Nat), q ≠ 0 →
    (deq p (-q) sf k).1 = Flt.fneg (deq p q sf k).1 ∧ (deq p (-q) sf k).2 = (deq p q sf k).2

/-! ### The filterbank -/

/-- FB c on a long sequence: TOUT and the new OVL are the windowed transform overlapped as the
tables say, copies and zeros where they say so; PSHAPE of the channel becomes its window shape;
nothing else changes, nothing of the other channel (46_filterbank.md R265, R266, R268, R270). -/
def Obligations.FbSynthesizesALongFrame : Prop :=
  ∀ (c : Channel) (s : State), s.csr.fault = none → s.csr.wseq c ≠ .eightShort →
    ∃ (t : State) (z : Nat → F32), exec (.fb c) s = .next t ∧ t.regs = s.regs ∧
      t.host = s.host ∧
      (∀ n < 2 * s.csr.fl, Ref.Gives ((blockParams.imdctL s.csr.frameLen
        (Ref.spectrum s c 0 s.csr.fl)).getD n none) (z n)) ∧
      (∀ n < s.csr.fl,
        if s.csr.wseq c = .longStop then
          if n < s.csr.flat then Ref.line t .tout c n = Ref.line s .ovl c n
          else if n < s.csr.flat + s.csr.sl then
            ∃ u, Ref.Gives (Flt.mul? (z n) (blockParams.wins s.csr.frameLen
                (flag s.csr.pshape c.num) (n - s.csr.flat))) u ∧
              Ref.Gives (Flt.add? (Ref.line s .ovl c n) u) (Ref.line t .tout c n)
          else Ref.Gives (Flt.add? (Ref.line s .ovl c n) (z n)) (Ref.line t .tout c n)
        else
          ∃ u, Ref.Gives (Flt.mul? (z n) (blockParams.winl s.csr.frameLen
              (flag s.csr.pshape c.num) n)) u ∧
            Ref.Gives (Flt.add? (Ref.line s .ovl c n) u) (Ref.line t .tout c n)) ∧
      (∀ m < s.csr.fl,
        if s.csr.wseq c = .longStart then
          if m < s.csr.flat then Ref.line t .ovl c m = z (s.csr.fl + m)
          else if m < s.csr.flat + s.csr.sl then
            Ref.Gives (Flt.mul? (z (s.csr.fl + m)) (blockParams.wins s.csr.frameLen
              (s.csr.wshape c) (s.csr.sl - 1 - (m - s.csr.flat)))) (Ref.line t .ovl c m)
          else Ref.line t .ovl c m = 0
        else
          Ref.Gives (Flt.mul? (z (s.csr.fl + m)) (blockParams.winl s.csr.frameLen
            (s.csr.wshape c) (s.csr.fl - 1 - m))) (Ref.line t .ovl c m)) ∧
      t.csr = { s.csr with pshape := t.csr.pshape } ∧
      (∀ j < 32, t.csr.pshape.getLsbD j =
        if j = c.num then s.csr.wshape c else s.csr.pshape.getLsbD j) ∧
      Ref.SameExcept s t fun sp k => Ref.OnLines s .tout c sp k ∨ Ref.OnLines s .ovl c sp k

/-- FB c on EIGHT_SHORT: the eight windowed blocks are laid out one SL apart from FLAT on; TOUT
is the old overlap with what the position receives added in order, the new OVL what positions
from FL on receive; nothing else changes but PSHAPE of the channel
(46_filterbank.md R266, R267, R268, R270). -/
def Obligations.FbSynthesizesAShortFrame : Prop :=
  ∀ (c : Channel) (s : State), s.csr.fault = none → s.csr.wseq c = .eightShort →
    ∃ (t : State) (z r f : Nat → Nat → F32), exec (.fb c) s = .next t ∧ t.regs = s.regs ∧
      t.host = s.host ∧
      (∀ w < 8, ∀ n < 2 * s.csr.sl, Ref.Gives ((blockParams.imdctS s.csr.frameLen
        (Ref.spectrum s c (w * s.csr.sl) s.csr.sl)).getD n none) (z w n)) ∧
      (∀ w < 8, ∀ n < s.csr.sl,
        Ref.Gives (Flt.mul? (z w n) (blockParams.wins s.csr.frameLen
          (if w = 0 then flag s.csr.pshape c.num else s.csr.wshape c) n)) (r w n) ∧
        Ref.Gives (Flt.mul? (z w (s.csr.sl + n)) (blockParams.wins s.csr.frameLen
          (s.csr.wshape c) (s.csr.sl - 1 - n))) (f w n)) ∧
      (∀ n < s.csr.fl, Ref.Added (Ref.line s .ovl c n) (Ref.received s.csr r f n)
        (Ref.line t .tout c n)) ∧
      (∀ m < s.csr.fl,
        match Ref.received s.csr r f (s.csr.fl + m) with
        | [] => Ref.line t .ovl c m = 0
        | x :: xs => Ref.Added x xs (Ref.line t .ovl c m)) ∧
      t.csr = { s.csr with pshape := t.csr.pshape } ∧
      (∀ j < 32, t.csr.pshape.getLsbD j =
        if j = c.num then s.csr.wshape c else s.csr.pshape.getLsbD j) ∧
      Ref.SameExcept s t fun sp k => Ref.OnLines s .tout c sp k ∨ Ref.OnLines s .ovl c sp k

/-- The default transform of m inputs, for the four lengths the block uses. Of finite inputs every
output is the reference's real number, to a relative 2^-24 (the error of one rounding), 2^-150
(half the least number) and 2^-58 of the mean magnitude of the inputs, or an infinity of its sign,
and then that number is beyond 2^127 (that the model's fixed-point cosines are that near is
log 7); the two symmetries of the outputs hold, the sign of a zero apart (log 8). An all-zero input gives
+0.0 everywhere; an input that is not finite gives NaNs everywhere
(46_filterbank.md R264, its definition and consequences Z and S). -/
def Obligations.TransformSymmetries : Prop :=
  ∀ (m : Nat) (xs : List F32), m ∈ [1024, 960, 128, 120] → xs.length = m →
    ((∀ x ∈ xs, Flt.isFinite x = true) →
      ∀ n < 2 * m, ∃ r : F32, (Rom.imdct m xs)[n]? = some (some r) ∧
        ∀ z : ℝ, Ref.IsTransform m xs n z →
          (Flt.isFinite r = true → |(Flt.value r : ℝ) / 2 ^ 149 - z| ≤ |z| / 2 ^ 24 + 1 / 2 ^ 150 +
            (∑ k ∈ Finset.range m, |(Flt.value (xs.getD k 0) : ℝ)| / 2 ^ 149) / m / 2 ^ 58) ∧
          (Flt.isFinite r = false →
            Flt.isInf r = true ∧ 2 ^ 127 ≤ |z| ∧ (Flt.neg r = true ↔ z < 0))) ∧
    ((∀ x ∈ xs, Flt.isFinite x = true) →
      ∀ n < m / 2, ∃ a b c d : F32,
        (Rom.imdct m xs)[n]? = some (some a) ∧ (Rom.imdct m xs)[m - 1 - n]? = some (some b) ∧
        (Rom.imdct m xs)[m + n]? = some (some c) ∧
        (Rom.imdct m xs)[2 * m - 1 - n]? = some (some d) ∧
        b = (if a = 0 then 0 else Flt.fneg a) ∧ d = c) ∧
    ((∀ x ∈ xs, x = 0x00000000#32 ∨ x = 0x80000000#32) →
      ∀ n < 2 * m, (Rom.imdct m xs)[n]? = some (some 0)) ∧
    ((∃ x ∈ xs, Flt.isFinite x = false) → ∀ n < 2 * m, (Rom.imdct m xs)[n]? = some none)

/-! ### Arithmetic -/

/-- The sum and the difference of two finite numbers are the exact ones rounded to nearest, ties
to even; the sign is that of the exact result, and an exact zero is +0 unless -0 is added to -0 or
+0 subtracted from -0 (00_scope.md R21, IEEE 754; that a difference is the sum with the negated
operand is log 14). -/
def Obligations.SumIsTheNearestNumber : Prop :=
  ∀ a b : F32, Flt.isFinite a = true → Flt.isFinite b = true →
    (∃ r, Flt.add? a b = some r ∧ Ref.Rounded (Flt.value a + Flt.value b) 0 r ∧
      (Flt.value a + Flt.value b ≠ 0 → (Flt.neg r = true ↔ Flt.value a + Flt.value b < 0)) ∧
      (Flt.value a + Flt.value b = 0 →
        r = if a = 0x80000000#32 ∧ b = 0x80000000#32 then 0x80000000#32 else 0x00000000#32)) ∧
    ∃ r, Flt.sub? a b = some r ∧ Ref.Rounded (Flt.value a - Flt.value b) 0 r ∧
      (Flt.value a - Flt.value b ≠ 0 → (Flt.neg r = true ↔ Flt.value a - Flt.value b < 0)) ∧
      (Flt.value a - Flt.value b = 0 →
        r = if a = 0x80000000#32 ∧ b = 0x00000000#32 then 0x80000000#32 else 0x00000000#32)

/-- The product of two finite numbers, likewise, with the exact product in units of 2^-298; its
sign is the exclusive or of the signs (00_scope.md R21). -/
def Obligations.ProductIsTheNearestNumber : Prop :=
  ∀ a b : F32, Flt.isFinite a = true → Flt.isFinite b = true →
    ∃ r, Flt.mul? a b = some r ∧ Ref.Rounded (Flt.value a * Flt.value b) 149 r ∧
      Flt.neg r = (Flt.neg a != Flt.neg b)

/-- A sum or difference is a NaN exactly when an operand is one or two infinities cancel, a
product when an operand is one or a zero meets an infinity; else an infinite operand makes the
result that infinity, of the sign the operation gives it. Negation flips the sign bit of every
pattern and no other bit. A drawn NaN is a NaN (00_scope.md R21; log 4, log 14). -/
def Obligations.NaNResults : Prop :=
  (∀ a b : F32, Flt.add? a b = none ↔ Flt.isNaN a = true ∨ Flt.isNaN b = true ∨
    Flt.isInf a = true ∧ Flt.isInf b = true ∧ Flt.neg a ≠ Flt.neg b) ∧
  (∀ a b : F32, Flt.sub? a b = none ↔ Flt.isNaN a = true ∨ Flt.isNaN b = true ∨
    Flt.isInf a = true ∧ Flt.isInf b = true ∧ Flt.neg a = Flt.neg b) ∧
  (∀ a b : F32, Flt.mul? a b = none ↔ Flt.isNaN a = true ∨ Flt.isNaN b = true ∨
    Flt.isInf a = true ∧ b.setWidth 31 = 0#31 ∨ Flt.isInf b = true ∧ a.setWidth 31 = 0#31) ∧
  (∀ a b r : F32, Flt.add? a b = some r →
    (Flt.isInf a = true → r = a) ∧ (Flt.isInf b = true → r = b)) ∧
  (∀ a b r : F32, Flt.sub? a b = some r →
    (Flt.isInf a = true → r = a) ∧ (Flt.isInf b = true → r = Flt.fneg b)) ∧
  (∀ a b r : F32, Flt.mul? a b = some r → Flt.isInf a = true ∨ Flt.isInf b = true →
    Flt.isInf r = true ∧ Flt.neg r = (Flt.neg a != Flt.neg b)) ∧
  (∀ (a : F32) (i : Nat), i < 32 → (Flt.fneg a).getLsbD i = (a.getLsbD i != decide (i = 31))) ∧
  ∀ p : NaNPattern, Flt.isNaN (Flt.ofNaN p) = true

/-- POW43(m) is the real number m^(4/3) rounded to binary32, for every m, and never negative; so
it maps cubes exactly: POW43(k³) is k⁴ when k⁴ < 2^24, in units of 2^-149 (45_invquant.md R253). -/
def Obligations.PowerTableMapsCubesExactly : Prop :=
  (∀ m : Nat, Ref.RoundedReal ((m : ℝ) ^ (4 / 3 : ℝ)) (blockParams.pow43 m) ∧
    Flt.neg (blockParams.pow43 m) = false) ∧
  ∀ k : Nat, k ^ 4 < 2 ^ 24 → Flt.value (blockParams.pow43 (k ^ 3)) = k ^ 4 * 2 ^ 149

/-- EXP2Q(n) is the real number 2^(n/4) rounded to binary32, for every n, and ISROM(n) the real
number 2^(-n/4): +infinity on overflow, subnormal or +0.0 on underflow, never negative; so at
multiples of 4 they are exact powers of two where binary32 holds them. SF_BIAS is its default 0,
log 6 (45_invquant.md R254; 43_stereo.md R217). -/
def Obligations.GainTablesHoldExactPowers : Prop :=
  (∀ n : Int,
    Ref.RoundedReal ((2 : ℝ) ^ ((n : ℝ) / 4)) (blockParams.exp2q n) ∧
    Flt.neg (blockParams.exp2q n) = false ∧
    Ref.RoundedReal ((2 : ℝ) ^ (-(n : ℝ) / 4)) (blockParams.isrom n) ∧
    Flt.neg (blockParams.isrom n) = false) ∧
  ∀ n : Int, -149 ≤ n → n ≤ 127 →
    Flt.value (blockParams.exp2q (4 * n)) = 2 ^ (n + 149).toNat ∧
    Flt.value (blockParams.isrom (-(4 * n))) = 2 ^ (n + 149).toNat

/-! ### The whole machine -/

/-- The state after hardware reset: every control and result register is 0 and OVL, TOUT and
LPCBUF are +0.0 in every element (10_state.md R71; 70_reset_and_hazards.md R341). -/
def Obligations.ResetState : Prop :=
  (∀ n, hostReadReg State.reset n = 0#32) ∧
  (∀ k < 2048, State.reset.elem .ovl k = 0 ∧ State.reset.elem .tout k = 0) ∧
  (∀ k < 21, State.reset.elem .lpcbuf k = 0) ∧ State.reset.csr.fault = none

/-- The reset state meets the invariant. -/
def Obligations.InvariantAtReset : Prop := State.reset.Ok

/-- Every step keeps the invariant: reserved bits stay 0, ILEN stays within the buffer, FINFO
and FPOS are 0 while no fault is pending, and the memory keeps its canonical form
(10_state.md R34, R37, R39). -/
def Obligations.StepKeepsInvariant : Prop :=
  ∀ s t : State, s.Ok → step s = .next t → t.Ok

/-- In a state that meets the invariant every command answers a next state and no step stops
with the fault for an element that does not exist (log 12); and no command reads such an element:
two states that differ only in elements listed beyond the last one of a space go to states that
differ only there (20_memory.md R82). -/
def Obligations.EveryIndexIsInRange : Prop :=
  (∀ (i : Instr) (s : State), s.Ok → ∃ t, exec i s = .next t) ∧
  (∀ s : State, s.Ok → ¬ stopsWithFault s) ∧
  ∀ (i : Instr) (s s' t : State), Ref.SameInside s s' → exec i s = .next t →
    ∃ t', exec i s' = .next t' ∧ Ref.SameInside t t'

/-- Which commands write which memory space: outside the table only TOUT changes, and only by a
FormatError; no command writes IBUF, CB, MSU, SWBL, SWBS, TNSN, TNSF or TNSC
(10_state.md R50; 20_memory.md R81). -/
def Obligations.SpacesWrittenOnlyByTheirCommands : Prop :=
  ∀ (i : Instr) (s t : State) (sp : Space), exec i s = .next t → Ref.writes i sp = false →
    (∀ k, t.elem sp k = s.elem sp k) ∨
      sp = .tout ∧ s.csr.fault = none ∧ t.csr.fault = some .formatError

/-- Only the listed commands write the result registers, and none that faults or is refused
does (10_state.md R31). -/
def Obligations.ResultRegistersWritten : Prop :=
  ∀ (i : Instr) (s t : State), exec i s = .next t →
    (Ref.writesRes0 i = false → t.regs.res0 = s.regs.res0) ∧
    (Ref.writesRes123 i = false →
      t.regs.res1 = s.regs.res1 ∧ t.regs.res2 = s.regs.res2 ∧ t.regs.res3 = s.regs.res3) ∧
    (t.csr.fault ≠ none → t.regs = s.regs)

/-- Commands write no configuration register but by SRST: PSHAPE only FB, BITPOS only the
commands that consume the stream and FRST (10_state.md R34, R38, R46). -/
def Obligations.ControlRegistersWritten : Prop :=
  ∀ (i : Instr) (s t : State), exec i s = .next t → i ≠ .srst →
    (∀ n, 5 ≤ n → n ≤ 14 → hostReadReg t n = hostReadReg s n) ∧
    ((∀ c, i ≠ .fb c) → t.csr.pshape = s.csr.pshape) ∧
    (Ref.movesCursor i = false → t.csr.bitpos = s.csr.bitpos)

/-- No command reads a result register, PRED or TOUT: two states that differ only there go to
states that differ only there, and in each of those places the two runs leave the same value or
both leave it alone (10_state.md R31, R50, R55). -/
def Obligations.OutputsAreNeverRead : Prop :=
  ∀ (i : Instr) (s s' t : State), Ref.Agree s s' → exec i s = .next t →
    ∃ t', exec i s' = .next t' ∧ Ref.Agree t t' ∧
      Ref.SameOrKept s.regs.res0 s'.regs.res0 t.regs.res0 t'.regs.res0 ∧
      Ref.SameOrKept s.regs.res1 s'.regs.res1 t.regs.res1 t'.regs.res1 ∧
      Ref.SameOrKept s.regs.res2 s'.regs.res2 t.regs.res2 t'.regs.res2 ∧
      Ref.SameOrKept s.regs.res3 s'.regs.res3 t.regs.res3 t'.regs.res3 ∧
      ∀ sp k, Ref.SameOrKept (s.elem sp k) (s'.elem sp k) (t.elem sp k) (t'.elem sp k)

/-! ### Fields and tables -/

/-- The fields of the configuration registers and of the descriptor memories are the bits the
rules name, and the geometry of a channel is what they say: CFG, BANDS, ICSc, GRPc, GGc, CPE and
PSHAPE, the codebook identifiers, TNSN, TNSF and TNSC, NWIN, WL, NSWB, MAXTNS, OFF, GSTART, LINE
and the order of the bands (10_state.md R40 to R46, R61, R65 to R68; 00_scope.md R18). -/
def Obligations.FieldsOfTheRegisters : Prop :=
  ∀ (s : State) (c : Channel),
    let ics := match c with | .c0 => s.csr.ics0 | .c1 => s.csr.ics1
    let grp := match c with | .c0 => s.csr.grp0 | .c1 => s.csr.grp1
    let gg := match c with | .c0 => s.csr.gg0 | .c1 => s.csr.gg1
    let n := match c with | .c0 => 0 | .c1 => 1
    let short := ics.extractLsb' 0 2 == 2#2
    (s.csr.fl = if s.csr.cfg.getLsbD 0 then 960 else 1024) ∧
    (s.csr.sl = if s.csr.cfg.getLsbD 0 then 120 else 128) ∧
    (s.csr.flat = if s.csr.cfg.getLsbD 0 then 420 else 448) ∧
    (s.csr.frameLen = if s.csr.cfg.getLsbD 0 then .small960 else .long1024) ∧
    s.csr.erhcr = s.csr.cfg.getLsbD 1 ∧ s.csr.errvlc = s.csr.cfg.getLsbD 2 ∧
    s.csr.wseq c = (if ics.extractLsb' 0 2 = 0#2 then .onlyLong
      else if ics.extractLsb' 0 2 = 1#2 then .longStart
      else if short then .eightShort else .longStop) ∧
    s.csr.wshape c = ics.getLsbD 2 ∧ s.csr.maxsfb c = (ics.extractLsb' 3 6).toNat ∧
    s.csr.ngrp c = (ics.extractLsb' 9 4).toNat ∧
    (∀ g < 8, s.csr.glen c g = (grp.extractLsb' (4 * g) 4).toNat) ∧
    s.csr.globalGain c = (gg.extractLsb' 0 8).toNat ∧
    s.csr.msmode = (s.csr.cpe.extractLsb' 0 2).toNat ∧
    s.csr.commonwin = s.csr.cpe.getLsbD 2 ∧ s.csr.prevShape c = s.csr.pshape.getLsbD n ∧
    (s.csr.nwin c = if short then 8 else 1) ∧
    (s.csr.wl c = if short then s.csr.sl else s.csr.fl) ∧
    (s.csr.nswb c = if short then (s.csr.bands.extractLsb' 8 4).toNat
      else (s.csr.bands.extractLsb' 0 6).toNat) ∧
    (s.csr.maxtns c = if short then (s.csr.bands.extractLsb' 24 4).toNat
      else (s.csr.bands.extractLsb' 16 6).toNat) ∧
    (∀ i, s.off c i = if short then (s.elem .swbs i).toNat else (s.elem .swbl i).toNat) ∧
    (∀ g w i, s.csr.line c g w i =
      (∑ g' ∈ Finset.range g, s.csr.glen c g' + w) * s.csr.wl c + i) ∧
    (s.csr.bandList c).length = s.csr.ngrp c * s.csr.maxsfb c ∧
    (∀ g < s.csr.ngrp c, ∀ b < s.csr.maxsfb c,
      (s.csr.bandList c)[g * s.csr.maxsfb c + b]? = some (g, b)) ∧
    (∀ g b, let v := (s.elem .cb (512 * n + 64 * g + b)).toNat
      (∀ bk, s.cb c g b = .spectral bk ↔ v = (Ref.bookRow bk).number) ∧
      (s.cb c g b = .zero ↔ v = 0) ∧ (s.cb c g b = .reserved ↔ v = 12) ∧
      (s.cb c g b = .noise ↔ v = 13) ∧ (s.cb c g b = .intensity2 ↔ v = 14) ∧
      (s.cb c g b = .intensity ↔ v = 15)) ∧
    (∀ g b, s.sf c g b = (s.elem .sf (512 * n + 64 * g + b)).toInt) ∧
    (∀ w, s.tnsn c w = (s.elem .tnsn (8 * n + w)).toNat) ∧
    (∀ w f, let d := s.elem .tnsf (32 * n + 4 * w + f)
      (s.tnsf c w f).len = (d.extractLsb' 0 6).toNat ∧
      (s.tnsf c w f).order = (d.extractLsb' 6 5).toNat ∧ (s.tnsf c w f).down = d.getLsbD 11 ∧
      (s.tnsf c w f).res = d.getLsbD 12 ∧ (s.tnsf c w f).cmp = d.getLsbD 13) ∧
    ∀ w f k, s.tnsc c w f k = (s.elem .tnsc (32 * (32 * n + 4 * w + f) + k)).toNat

/-- The default window and TNS tables hold the values of their formulas, each to a relative 2^-24,
the error of one rounding, and, for the windows, an absolute 2^-50 (that the fixed-point values
are that near is log 7). The last three values of the short Kaiser-Bessel-derived window
are 1.0 for SL = 128, the last two for SL = 120, and no other value of it is
(44_tns.md R233; 46_filterbank.md R262, R263). -/
def Obligations.TablesHoldTheirFormulas : Prop :=
  Ref.IsWindow 1024 4 (blockParams.winl .long1024) ∧
  Ref.IsWindow 960 4 (blockParams.winl .small960) ∧
  Ref.IsWindow 128 6 (blockParams.wins .long1024) ∧
  Ref.IsWindow 120 6 (blockParams.wins .small960) ∧
  (∀ n < 128, blockParams.wins .long1024 true n = 0x3F800000#32 ↔ 125 ≤ n) ∧
  (∀ n < 120, blockParams.wins .small960 true n = 0x3F800000#32 ↔ 118 ≤ n) ∧
  ∀ (res cmp : Bool) (q : Nat), q < 2 ^ (3 + res.toNat - cmp.toNat) →
    let x : Int := (BitVec.ofNat (3 + res.toNat - cmp.toNat) q).toInt
    Ref.Near (blockParams.tnsrom res cmp q)
      (Real.sin (x * (Real.pi / 2) /
        (2 ^ (2 + res.toNat) + if 0 ≤ x then -(1 / 2 : ℝ) else 1 / 2))) 0
end

