-- ==== Sys2Proof/Laws/Cells.lean ====
section
/-! SUPPORT. Lists of cells: what a lookup finds after each update, and that every update keeps
the indices rising. -/

namespace Sys2Proof.Machine

open Sys2Proof

variable {w : Nat}

/-! ### Rising lists -/

theorem rising_iff_pairwise (l : Cells w) :
    l.rising = true ↔ l.Pairwise fun a b => a.1 < b.1 := by
  induction l with
  | nil => simp [Cells.rising]
  | cons a l ih =>
    cases l with
    | nil => simp [Cells.rising]
    | cons b l =>
      obtain ⟨i, u⟩ := a
      obtain ⟨j, v⟩ := b
      simp only [Cells.rising, Bool.and_eq_true, decide_eq_true_eq, ih, List.pairwise_cons,
        List.mem_cons]
      constructor
      · rintro ⟨hij, hb, hl⟩
        refine ⟨?_, hb, hl⟩
        rintro c (rfl | hc)
        · exact hij
        · exact hij.trans (hb c hc)
      · rintro ⟨ha, hb, hl⟩
        exact ⟨ha _ (Or.inl rfl), hb, hl⟩

theorem lookup_eq_none_of_forall_ne {l : Cells w} {i : Nat} (h : ∀ c ∈ l, c.1 ≠ i) :
    l.lookup i = none := by
  induction l with
  | nil => rfl
  | cons a l ih =>
    have h1 := h a (by simp)
    simp only [Cells.lookup]
    rw [if_neg (fun e => h1 e.symm)]
    exact ih fun c hc => h c (by simp [hc])

theorem mem_of_lookup_eq_some {l : Cells w} {i : Nat} {v : BitVec w} (h : l.lookup i = some v) :
    (i, v) ∈ l := by
  induction l with
  | nil => simp [Cells.lookup] at h
  | cons a l ih =>
    simp only [Cells.lookup] at h
    split at h
    · obtain ⟨k, u⟩ := a
      simp_all
    · exact List.mem_cons_of_mem _ (ih h)

/-! ### Inserting and erasing one element -/

theorem lookup_insert (i : Nat) (v : BitVec w) (l : Cells w) (j : Nat) :
    (Cells.insert i v l).lookup j = if j = i then some v else l.lookup j := by
  induction l with
  | nil => simp [Cells.insert, Cells.lookup]
  | cons a l ih =>
    obtain ⟨k, u⟩ := a
    simp only [Cells.insert]
    split
    · simp [Cells.lookup]
    · split
      · subst_vars
        simp only [Cells.lookup]
        split <;> simp_all
      · simp only [Cells.lookup, ih]
        split_ifs <;> simp_all

theorem mem_insert {i : Nat} {v : BitVec w} {l : Cells w} {c : Nat × BitVec w}
    (h : c ∈ Cells.insert i v l) : c = (i, v) ∨ c ∈ l := by
  induction l with
  | nil => simpa [Cells.insert] using h
  | cons a l ih =>
    simp only [Cells.insert] at h
    split at h
    · simpa using h
    · split at h
      · rcases List.mem_cons.1 h with h | h <;> simp [h]
      · rcases List.mem_cons.1 h with h | h
        · simp [h]
        · rcases ih h with h | h <;> simp [h]

theorem rising_insert {l : Cells w} (h : l.rising = true) (i : Nat) (v : BitVec w) :
    (Cells.insert i v l).rising = true := by
  rw [rising_iff_pairwise] at h ⊢
  induction l with
  | nil => simp [Cells.insert]
  | cons a l ih =>
    obtain ⟨k, u⟩ := a
    rw [List.pairwise_cons] at h
    simp only [Cells.insert]
    split
    · rename_i hik
      refine List.pairwise_cons.2 ⟨?_, List.pairwise_cons.2 h⟩
      intro c hc
      rcases List.mem_cons.1 hc with rfl | hc
      · exact hik
      · exact hik.trans (h.1 c hc)
    · split
      · rename_i hik
        subst hik
        exact List.pairwise_cons.2 h
      · refine List.pairwise_cons.2 ⟨?_, ih h.2⟩
        intro c hc
        rcases mem_insert hc with rfl | hc
        · simp only; omega
        · exact h.1 c hc

theorem mem_erase {i : Nat} {l : Cells w} {c : Nat × BitVec w} (h : c ∈ Cells.erase i l) :
    c ∈ l := by
  induction l with
  | nil => simp [Cells.erase] at h
  | cons a l ih =>
    simp only [Cells.erase] at h
    split at h
    · exact List.mem_cons_of_mem _ h
    · rcases List.mem_cons.1 h with h | h
      · simp [h]
      · exact List.mem_cons_of_mem _ (ih h)

theorem rising_erase {l : Cells w} (h : l.rising = true) (i : Nat) :
    (Cells.erase i l).rising = true := by
  rw [rising_iff_pairwise] at h ⊢
  induction l with
  | nil => simp [Cells.erase]
  | cons a l ih =>
    rw [List.pairwise_cons] at h
    simp only [Cells.erase]
    split
    · exact h.2
    · exact List.pairwise_cons.2 ⟨fun c hc => h.1 c (mem_erase hc), ih h.2⟩

theorem lookup_erase {l : Cells w} (h : l.rising = true) (i j : Nat) :
    (Cells.erase i l).lookup j = if j = i then none else l.lookup j := by
  rw [rising_iff_pairwise] at h
  induction l with
  | nil => simp [Cells.erase, Cells.lookup]
  | cons a l ih =>
    obtain ⟨k, u⟩ := a
    rw [List.pairwise_cons] at h
    simp only [Cells.erase]
    split
    · rename_i hik
      subst hik
      by_cases hj : j = i
      · subst hj
        rw [if_pos rfl]
        exact lookup_eq_none_of_forall_ne fun c hc => (h.1 c hc).ne'
      · simp [Cells.lookup, hj]
    · simp only [Cells.lookup, ih h.2]
      split_ifs <;> simp_all

/-! ### Runs -/

theorem lookup_append (l l' : Cells w) (j : Nat) :
    Cells.lookup (l ++ l') j = (l.lookup j).or (Cells.lookup l' j) := by
  induction l with
  | nil => simp [Cells.lookup]
  | cons a l ih =>
    obtain ⟨k, u⟩ := a
    simp only [List.cons_append, Cells.lookup, ih]
    split <;> simp

theorem lookup_filter (p : Nat → Bool) (l : Cells w) (j : Nat) :
    Cells.lookup (l.filter fun c => p c.1) j = if p j then l.lookup j else none := by
  induction l with
  | nil => simp [Cells.lookup]
  | cons a l ih =>
    obtain ⟨k, u⟩ := a
    by_cases hp : p k = true
    · rw [List.filter_cons_of_pos (by exact hp)]
      simp only [Cells.lookup, ih]
      split_ifs <;> simp_all
    · rw [List.filter_cons_of_neg (by exact hp)]
      simp only [Cells.lookup, ih]
      split_ifs <;> simp_all

theorem lookup_run (skip : Bool) (base : Nat) (vs : List (BitVec w)) (j : Nat) :
    (Cells.run skip base vs).lookup j =
      if base ≤ j then (vs[j - base]?).filter fun v => !(skip && v == 0) else none := by
  induction vs generalizing base with
  | nil => simp [Cells.run, Cells.lookup]
  | cons v vs ih =>
    simp only [Cells.run]
    by_cases hj : j = base
    · subst hj
      split
      · rename_i h
        rw [ih]
        simp only [Bool.and_eq_true] at h
        have hv : v = 0#w := by simpa using h.2
        simp [Option.filter, h.1, hv]
      · rename_i h
        simp only [Cells.lookup, if_true, le_refl, Nat.sub_self, List.getElem?_cons_zero,
          Option.filter]
        simp_all
    · have hs : (if skip && v == 0 then Cells.run skip (base + 1) vs
          else (base, v) :: Cells.run skip (base + 1) vs).lookup j =
          (Cells.run skip (base + 1) vs).lookup j := by
        split
        · rfl
        · simp [Cells.lookup, hj]
      rw [hs, ih]
      by_cases hb : base ≤ j
      · rw [if_pos (by omega), if_pos hb]
        have : j - base = (j - (base + 1)) + 1 := by omega
        rw [this, List.getElem?_cons_succ]
      · rw [if_neg (by omega), if_neg hb]

theorem mem_run {skip : Bool} {base : Nat} {vs : List (BitVec w)} {c : Nat × BitVec w}
    (h : c ∈ Cells.run skip base vs) :
    base ≤ c.1 ∧ c.1 < base + vs.length ∧ (skip && c.2 == 0) = false := by
  induction vs generalizing base with
  | nil => simp [Cells.run] at h
  | cons v vs ih =>
    simp only [Cells.run] at h
    split at h
    · have := ih h
      simp only [List.length_cons]
      exact ⟨by omega, by omega, this.2.2⟩
    · rename_i hz
      rcases List.mem_cons.1 h with rfl | h
      · simp only [List.length_cons]
        exact ⟨le_refl _, by omega, by simpa using hz⟩
      · have := ih h
        simp only [List.length_cons]
        exact ⟨by omega, by omega, this.2.2⟩

theorem pairwise_run (skip : Bool) (base : Nat) (vs : List (BitVec w)) :
    (Cells.run skip base vs).Pairwise fun a b => a.1 < b.1 := by
  induction vs generalizing base with
  | nil => simp [Cells.run]
  | cons v vs ih =>
    simp only [Cells.run]
    split
    · exact ih _
    · exact List.pairwise_cons.2 ⟨fun c hc => by have := (mem_run hc).1; simp only; omega, ih _⟩

theorem lookup_splice (skip : Bool) (base : Nat) (vs : List (BitVec w)) (l : Cells w) (j : Nat) :
    (Cells.splice skip base vs l).lookup j =
      if base ≤ j ∧ j < base + vs.length then (vs[j - base]?).filter fun v => !(skip && v == 0)
      else l.lookup j := by
  simp only [Cells.splice, lookup_append,
    lookup_filter (fun i => decide (i < base)), lookup_run,
    lookup_filter (fun i => decide (base + vs.length ≤ i)), decide_eq_true_eq]
  by_cases h1 : j < base
  · rw [if_pos h1, if_neg (by omega), if_neg (by omega), if_neg (by omega)]
    simp
  · rw [if_neg h1, if_pos (by omega)]
    by_cases h2 : j < base + vs.length
    · rw [if_neg (by omega), if_pos ⟨by omega, h2⟩]
      simp
    · rw [if_pos (by omega), if_neg (by omega)]
      have : vs[j - base]? = none := List.getElem?_eq_none (by omega)
      simp [this]

/-! ### Elements listed beyond all that an operation touches -/

theorem lookup_append_of_lt {l extra : Cells w} {i : Nat} (h : ∀ c ∈ extra, i < c.1) :
    Cells.lookup (l ++ extra) i = l.lookup i := by
  rw [lookup_append, lookup_eq_none_of_forall_ne fun c hc => (h c hc).ne', Option.or_none]

theorem insert_append_of_lt {l extra : Cells w} {i : Nat} (h : ∀ c ∈ extra, i < c.1)
    (v : BitVec w) : Cells.insert i v (l ++ extra) = Cells.insert i v l ++ extra := by
  induction l with
  | nil =>
    cases extra with
    | nil => rfl
    | cons a extra => simp [Cells.insert, h a (by simp)]
  | cons a l ih =>
    obtain ⟨j, u⟩ := a
    simp only [List.cons_append, Cells.insert]
    split
    · rfl
    · split
      · rfl
      · rw [ih]; rfl

theorem splice_append_of_le {l extra : Cells w} {base : Nat} {vs : List (BitVec w)}
    (h : ∀ c ∈ extra, base + vs.length ≤ c.1) (skip : Bool) :
    Cells.splice skip base vs (l ++ extra) = Cells.splice skip base vs l ++ extra := by
  have h1 : extra.filter (fun c => decide (c.1 < base)) = [] :=
    List.filter_eq_nil_iff.2 fun c hc => by
      have := h c hc
      simp only [decide_eq_true_eq]; omega
  have h2 : extra.filter (fun c => decide (base + vs.length ≤ c.1)) = extra :=
    List.filter_eq_self.2 fun c hc => by simpa using h c hc
  simp [Cells.splice, h1, h2]

theorem mem_splice {skip : Bool} {base : Nat} {vs : List (BitVec w)} {l : Cells w}
    {c : Nat × BitVec w} (h : c ∈ Cells.splice skip base vs l) :
    c ∈ l ∨ (c.1 < base + vs.length ∧ (skip && c.2 == 0) = false) := by
  simp only [Cells.splice, List.mem_append, List.mem_filter] at h
  rcases h with h | h | h
  · exact Or.inl h.1
  · exact Or.inr (mem_run h).2
  · exact Or.inl h.1

theorem rising_splice {l : Cells w} (h : l.rising = true) (skip : Bool) (base : Nat)
    (vs : List (BitVec w)) : (Cells.splice skip base vs l).rising = true := by
  rw [rising_iff_pairwise] at h ⊢
  simp only [Cells.splice]
  refine List.pairwise_append.2 ⟨h.filter _, ?_, ?_⟩
  · refine List.pairwise_append.2 ⟨pairwise_run _ _ _, h.filter _, ?_⟩
    intro a ha b hb
    simp only [List.mem_filter, decide_eq_true_eq] at hb
    have := (mem_run ha).2.1
    omega
  · intro a ha b hb
    simp only [List.mem_filter, decide_eq_true_eq] at ha
    rcases List.mem_append.1 hb with hb | hb
    · have := (mem_run hb).1
      omega
    · simp only [List.mem_filter, decide_eq_true_eq] at hb
      omega

end Sys2Proof.Machine
end

