-- ==== Sys2Proof/Laws/State.lean ====
section
/-! SUPPORT. One lemma per field per update of the state, each true by its definition, so that
no later proof unfolds a record update. -/

namespace Sys2Proof.Machine

open Sys2Proof

/-! ### BITPOS -/

@[simp] theorem setBitpos_regs (v : Nat) (s : State) :
    (setBitpos v s).regs = s.regs := rfl

@[simp] theorem setBitpos_mem (v : Nat) (s : State) :
    (setBitpos v s).mem = s.mem := rfl

@[simp] theorem setBitpos_host (v : Nat) (s : State) :
    (setBitpos v s).host = s.host := rfl

@[simp] theorem setBitpos_nanDraws (v : Nat) (s : State) :
    (setBitpos v s).nanDraws = s.nanDraws := rfl

@[simp] theorem setBitpos_csr_fault (v : Nat) (s : State) :
    (setBitpos v s).csr.fault = s.csr.fault := rfl

@[simp] theorem setBitpos_csr_finfo (v : Nat) (s : State) :
    (setBitpos v s).csr.finfo = s.csr.finfo := rfl

@[simp] theorem setBitpos_csr_fpos (v : Nat) (s : State) :
    (setBitpos v s).csr.fpos = s.csr.fpos := rfl

@[simp] theorem setBitpos_csr_bitpos (v : Nat) (s : State) :
    (setBitpos v s).csr.bitpos = BitVec.ofNat 32 v := rfl

@[simp] theorem setBitpos_csr_ilen (v : Nat) (s : State) :
    (setBitpos v s).csr.ilen = s.csr.ilen := rfl

@[simp] theorem setBitpos_csr_cfg (v : Nat) (s : State) :
    (setBitpos v s).csr.cfg = s.csr.cfg := rfl

@[simp] theorem setBitpos_csr_bands (v : Nat) (s : State) :
    (setBitpos v s).csr.bands = s.csr.bands := rfl

@[simp] theorem setBitpos_csr_ics0 (v : Nat) (s : State) :
    (setBitpos v s).csr.ics0 = s.csr.ics0 := rfl

@[simp] theorem setBitpos_csr_ics1 (v : Nat) (s : State) :
    (setBitpos v s).csr.ics1 = s.csr.ics1 := rfl

@[simp] theorem setBitpos_csr_grp0 (v : Nat) (s : State) :
    (setBitpos v s).csr.grp0 = s.csr.grp0 := rfl

@[simp] theorem setBitpos_csr_grp1 (v : Nat) (s : State) :
    (setBitpos v s).csr.grp1 = s.csr.grp1 := rfl

@[simp] theorem setBitpos_csr_gg0 (v : Nat) (s : State) :
    (setBitpos v s).csr.gg0 = s.csr.gg0 := rfl

@[simp] theorem setBitpos_csr_gg1 (v : Nat) (s : State) :
    (setBitpos v s).csr.gg1 = s.csr.gg1 := rfl

@[simp] theorem setBitpos_csr_cpe (v : Nat) (s : State) :
    (setBitpos v s).csr.cpe = s.csr.cpe := rfl

@[simp] theorem setBitpos_csr_pshape (v : Nat) (s : State) :
    (setBitpos v s).csr.pshape = s.csr.pshape := rfl

/-! ### The fault registers -/

@[simp] theorem setFault_fault (r : Csr) (f : Option BlockFault) (i p : Word) :
    (r.setFault f i p).fault = f := rfl

@[simp] theorem setFault_finfo (r : Csr) (f : Option BlockFault) (i p : Word) :
    (r.setFault f i p).finfo = i := rfl

@[simp] theorem setFault_fpos (r : Csr) (f : Option BlockFault) (i p : Word) :
    (r.setFault f i p).fpos = p := rfl

@[simp] theorem setFault_bitpos (r : Csr) (f : Option BlockFault) (i p : Word) :
    (r.setFault f i p).bitpos = r.bitpos := rfl

@[simp] theorem setFault_ilen (r : Csr) (f : Option BlockFault) (i p : Word) :
    (r.setFault f i p).ilen = r.ilen := rfl

@[simp] theorem setFault_cfg (r : Csr) (f : Option BlockFault) (i p : Word) :
    (r.setFault f i p).cfg = r.cfg := rfl

@[simp] theorem setFault_bands (r : Csr) (f : Option BlockFault) (i p : Word) :
    (r.setFault f i p).bands = r.bands := rfl

@[simp] theorem setFault_ics0 (r : Csr) (f : Option BlockFault) (i p : Word) :
    (r.setFault f i p).ics0 = r.ics0 := rfl

@[simp] theorem setFault_ics1 (r : Csr) (f : Option BlockFault) (i p : Word) :
    (r.setFault f i p).ics1 = r.ics1 := rfl

@[simp] theorem setFault_grp0 (r : Csr) (f : Option BlockFault) (i p : Word) :
    (r.setFault f i p).grp0 = r.grp0 := rfl

@[simp] theorem setFault_grp1 (r : Csr) (f : Option BlockFault) (i p : Word) :
    (r.setFault f i p).grp1 = r.grp1 := rfl

@[simp] theorem setFault_gg0 (r : Csr) (f : Option BlockFault) (i p : Word) :
    (r.setFault f i p).gg0 = r.gg0 := rfl

@[simp] theorem setFault_gg1 (r : Csr) (f : Option BlockFault) (i p : Word) :
    (r.setFault f i p).gg1 = r.gg1 := rfl

@[simp] theorem setFault_cpe (r : Csr) (f : Option BlockFault) (i p : Word) :
    (r.setFault f i p).cpe = r.cpe := rfl

@[simp] theorem setFault_pshape (r : Csr) (f : Option BlockFault) (i p : Word) :
    (r.setFault f i p).pshape = r.pshape := rfl

/-! ### PSHAPE -/

@[simp] theorem setPrevShape_fault (r : Csr) (c : Channel) (v : Bool) :
    (r.setPrevShape c v).fault = r.fault := rfl

@[simp] theorem setPrevShape_finfo (r : Csr) (c : Channel) (v : Bool) :
    (r.setPrevShape c v).finfo = r.finfo := rfl

@[simp] theorem setPrevShape_fpos (r : Csr) (c : Channel) (v : Bool) :
    (r.setPrevShape c v).fpos = r.fpos := rfl

@[simp] theorem setPrevShape_bitpos (r : Csr) (c : Channel) (v : Bool) :
    (r.setPrevShape c v).bitpos = r.bitpos := rfl

@[simp] theorem setPrevShape_ilen (r : Csr) (c : Channel) (v : Bool) :
    (r.setPrevShape c v).ilen = r.ilen := rfl

@[simp] theorem setPrevShape_cfg (r : Csr) (c : Channel) (v : Bool) :
    (r.setPrevShape c v).cfg = r.cfg := rfl

@[simp] theorem setPrevShape_bands (r : Csr) (c : Channel) (v : Bool) :
    (r.setPrevShape c v).bands = r.bands := rfl

@[simp] theorem setPrevShape_ics0 (r : Csr) (c : Channel) (v : Bool) :
    (r.setPrevShape c v).ics0 = r.ics0 := rfl

@[simp] theorem setPrevShape_ics1 (r : Csr) (c : Channel) (v : Bool) :
    (r.setPrevShape c v).ics1 = r.ics1 := rfl

@[simp] theorem setPrevShape_grp0 (r : Csr) (c : Channel) (v : Bool) :
    (r.setPrevShape c v).grp0 = r.grp0 := rfl

@[simp] theorem setPrevShape_grp1 (r : Csr) (c : Channel) (v : Bool) :
    (r.setPrevShape c v).grp1 = r.grp1 := rfl

@[simp] theorem setPrevShape_gg0 (r : Csr) (c : Channel) (v : Bool) :
    (r.setPrevShape c v).gg0 = r.gg0 := rfl

@[simp] theorem setPrevShape_gg1 (r : Csr) (c : Channel) (v : Bool) :
    (r.setPrevShape c v).gg1 = r.gg1 := rfl

@[simp] theorem setPrevShape_cpe (r : Csr) (c : Channel) (v : Bool) :
    (r.setPrevShape c v).cpe = r.cpe := rfl

/-! ### Host writes of a register leave the block's own registers alone -/

@[simp] theorem hostWrite_fault (r : Csr) (n : Nat) (w : Word) :
    (r.hostWrite n w).fault = r.fault := by
  unfold Csr.hostWrite; split <;> rfl

@[simp] theorem hostWrite_finfo (r : Csr) (n : Nat) (w : Word) :
    (r.hostWrite n w).finfo = r.finfo := by
  unfold Csr.hostWrite; split <;> rfl

@[simp] theorem hostWrite_fpos (r : Csr) (n : Nat) (w : Word) :
    (r.hostWrite n w).fpos = r.fpos := by
  unfold Csr.hostWrite; split <;> rfl

@[simp] theorem hostWrite_pshape (r : Csr) (n : Nat) (w : Word) :
    (r.hostWrite n w).pshape = r.pshape := by
  unfold Csr.hostWrite; split <;> rfl

/-! ### Memory spaces -/

@[simp] theorem cells_setCells (m : Mem) (sp : Space) (l : Cells sp.width) :
    (m.setCells sp l).cells sp = l := by
  cases sp <;> rfl

theorem cells_setCells_of_ne (m : Mem) {sp sp' : Space} (l : Cells sp.width) (h : sp' ≠ sp) :
    (m.setCells sp l).cells sp' = m.cells sp' := by
  cases sp <;> cases sp' <;> first | rfl | exact absurd rfl h

@[simp] theorem setCells_setCells (m : Mem) (sp : Space) (l l' : Cells sp.width) :
    (m.setCells sp l).setCells sp l' = m.setCells sp l' := by
  cases sp <;> rfl

@[simp] theorem setCells_cells (m : Mem) (sp : Space) :
    m.setCells sp (m.cells sp) = m := by
  cases sp <;> rfl

theorem setCells_comm (m : Mem) {sp sp' : Space} (l : Cells sp.width) (l' : Cells sp'.width)
    (h : sp' ≠ sp) :
    (m.setCells sp l).setCells sp' l' = (m.setCells sp' l').setCells sp l := by
  cases sp <;> cases sp' <;> first | rfl | exact absurd rfl h

/-- Two memories with the same cells in every space are equal. -/
theorem mem_ext {m m' : Mem} (h : ∀ sp, m.cells sp = m'.cells sp) : m = m' := by
  obtain ⟨a1, a2, a3, a4, a5, a6, a7, a8, a9, a10, a11, a12, a13, a14, a15⟩ := m
  obtain ⟨b1, b2, b3, b4, b5, b6, b7, b8, b9, b10, b11, b12, b13, b14, b15⟩ := m'
  have e1 := h .ibuf; have e2 := h .cb; have e3 := h .sf; have e4 := h .msu
  have e5 := h .pred; have e6 := h .swbl; have e7 := h .swbs; have e8 := h .qspec
  have e9 := h .spec; have e10 := h .ovl; have e11 := h .tout; have e12 := h .tnsn
  have e13 := h .tnsf; have e14 := h .tnsc; have e15 := h .lpcbuf
  simp only [Mem.cells] at e1 e2 e3 e4 e5 e6 e7 e8 e9 e10 e11 e12 e13 e14 e15
  subst e1 e2 e3 e4 e5 e6 e7 e8 e9 e10 e11 e12 e13 e14 e15
  rfl

/-! ### Fault entry -/

@[simp] theorem takeFault_regs (f : BlockFault) (w : Word) (s : State) :
    (takeFault f w s).regs = s.regs := rfl

@[simp] theorem takeFault_host (f : BlockFault) (w : Word) (s : State) :
    (takeFault f w s).host = s.host := rfl

@[simp] theorem takeFault_nanDraws (f : BlockFault) (w : Word) (s : State) :
    (takeFault f w s).nanDraws = s.nanDraws := rfl

@[simp] theorem takeFault_csr_fault (f : BlockFault) (w : Word) (s : State) :
    (takeFault f w s).csr.fault = some f := rfl

@[simp] theorem takeFault_csr_finfo (f : BlockFault) (w : Word) (s : State) :
    (takeFault f w s).csr.finfo = w := rfl

@[simp] theorem takeFault_csr_fpos (f : BlockFault) (w : Word) (s : State) :
    (takeFault f w s).csr.fpos = s.csr.bitpos := rfl

@[simp] theorem takeFault_csr_bitpos (f : BlockFault) (w : Word) (s : State) :
    (takeFault f w s).csr.bitpos = s.csr.bitpos := rfl

@[simp] theorem takeFault_csr_ilen (f : BlockFault) (w : Word) (s : State) :
    (takeFault f w s).csr.ilen = s.csr.ilen := rfl

@[simp] theorem takeFault_csr_cfg (f : BlockFault) (w : Word) (s : State) :
    (takeFault f w s).csr.cfg = s.csr.cfg := rfl

@[simp] theorem takeFault_csr_bands (f : BlockFault) (w : Word) (s : State) :
    (takeFault f w s).csr.bands = s.csr.bands := rfl

@[simp] theorem takeFault_csr_ics0 (f : BlockFault) (w : Word) (s : State) :
    (takeFault f w s).csr.ics0 = s.csr.ics0 := rfl

@[simp] theorem takeFault_csr_ics1 (f : BlockFault) (w : Word) (s : State) :
    (takeFault f w s).csr.ics1 = s.csr.ics1 := rfl

@[simp] theorem takeFault_csr_grp0 (f : BlockFault) (w : Word) (s : State) :
    (takeFault f w s).csr.grp0 = s.csr.grp0 := rfl

@[simp] theorem takeFault_csr_grp1 (f : BlockFault) (w : Word) (s : State) :
    (takeFault f w s).csr.grp1 = s.csr.grp1 := rfl

@[simp] theorem takeFault_csr_gg0 (f : BlockFault) (w : Word) (s : State) :
    (takeFault f w s).csr.gg0 = s.csr.gg0 := rfl

@[simp] theorem takeFault_csr_gg1 (f : BlockFault) (w : Word) (s : State) :
    (takeFault f w s).csr.gg1 = s.csr.gg1 := rfl

@[simp] theorem takeFault_csr_cpe (f : BlockFault) (w : Word) (s : State) :
    (takeFault f w s).csr.cpe = s.csr.cpe := rfl

@[simp] theorem takeFault_csr_pshape (f : BlockFault) (w : Word) (s : State) :
    (takeFault f w s).csr.pshape = s.csr.pshape := rfl

/-! ### Stream reset -/

@[simp] theorem streamReset_host (s : State) :
    (streamReset s).host = s.host := rfl

@[simp] theorem streamReset_nanDraws (s : State) :
    (streamReset s).nanDraws = s.nanDraws := rfl

@[simp] theorem streamReset_regs (s : State) :
    (streamReset s).regs = Results.reset := rfl

@[simp] theorem streamReset_csr (s : State) :
    (streamReset s).csr = Csr.reset := rfl

theorem streamReset_cells (s : State) (sp : Space) :
    (streamReset s).mem.cells sp = if sp.zeroed then [] else s.mem.cells sp := by
  cases sp <;> rfl

end Sys2Proof.Machine
end

