-- ==== Sys2Proof/Laws/Mem.lean ====
section
/-! SUPPORT. The memory spaces: a read after a write, and that every operation over memory keeps
the canonical form. -/

namespace Sys2Proof.Machine

open Sys2Proof

/-! ### Reading after writing -/

theorem read_of_cells_eq {m m' : Mem} {sp : Space} (h : m.cells sp = m'.cells sp) (i : Nat) :
    m.read sp i = m'.read sp i := by
  simp [Mem.read, h]

theorem unlisted_of_zeroed {sp : Space} (h : sp.zeroed = true) (i : Nat) : unlisted sp i = 0 := by
  simp [unlisted, h]

/-- The canonical form of one space, as propositions. -/
theorem spaceWf_iff (m : Mem) (sp : Space) :
    m.spaceWf sp = true ↔ (m.cells sp).rising = true ∧
      ∀ c ∈ m.cells sp, c.1 < sp.size ∧ (sp.zeroed && c.2 == 0) = false := by
  simp only [Mem.spaceWf, Bool.and_eq_true, List.all_eq_true, decide_eq_true_eq,
    Bool.not_eq_eq_eq_not, Bool.not_true]

/-- The canonical form of the memory is that of every space. -/
theorem wf_iff (m : Mem) : Memory.wf m = true ↔ ∀ sp, m.spaceWf sp = true := by
  simp only [Memory.wf, Bool.and_eq_true]
  constructor
  · rintro ⟨⟨⟨⟨⟨⟨⟨⟨⟨⟨⟨⟨⟨⟨h1, h2⟩, h3⟩, h4⟩, h5⟩, h6⟩, h7⟩, h8⟩, h9⟩, h10⟩, h11⟩, h12⟩, h13⟩, h14⟩,
      h15⟩ sp
    cases sp <;> assumption
  · intro h
    exact ⟨⟨⟨⟨⟨⟨⟨⟨⟨⟨⟨⟨⟨⟨h _, h _⟩, h _⟩, h _⟩, h _⟩, h _⟩, h _⟩, h _⟩, h _⟩, h _⟩, h _⟩, h _⟩, h _⟩,
      h _⟩, h _⟩

/-- An element just written reads as the value written. -/
theorem read_write_self {m : Mem} {sp : Space} (h : m.spaceWf sp = true) (i : Nat)
    (v : BitVec sp.width) : (m.write sp i v).read sp i = v := by
  simp only [Mem.write, Mem.read, cells_setCells]
  split
  · rename_i hz
    simp only [Bool.and_eq_true, beq_iff_eq] at hz
    rw [lookup_erase ((spaceWf_iff m sp).1 h).1, if_pos rfl, unlisted_of_zeroed hz.1]
    simpa using hz.2.symm
  · rw [lookup_insert, if_pos rfl]; rfl

/-- A write leaves every other element of its space alone. -/
theorem read_write_of_ne {m : Mem} {sp : Space} (h : m.spaceWf sp = true) {i j : Nat}
    (v : BitVec sp.width) (hij : j ≠ i) : (m.write sp i v).read sp j = m.read sp j := by
  simp only [Mem.write, Mem.read, cells_setCells]
  split
  · rw [lookup_erase ((spaceWf_iff m sp).1 h).1, if_neg hij]
  · rw [lookup_insert, if_neg hij]

/-- What a write leaves in a space whose unlisted elements are not known to read 0; the form of
the list does not matter there. -/
theorem read_write (m : Mem) {sp : Space} (h : sp.zeroed = false) (i : Nat)
    (v : BitVec sp.width) (j : Nat) :
    (m.write sp i v).read sp j = if j = i then v else m.read sp j := by
  simp only [Mem.write, Mem.read, cells_setCells, h, Bool.false_and, Bool.false_eq_true, if_false,
    lookup_insert]
  split <;> simp

/-- A write leaves every other space alone. -/
theorem cells_write_of_ne (m : Mem) {sp sp' : Space} (i : Nat) (v : BitVec sp.width)
    (h : sp' ≠ sp) : (m.write sp i v).cells sp' = m.cells sp' :=
  cells_setCells_of_ne m _ h

theorem read_write_of_space_ne (m : Mem) {sp sp' : Space} (i : Nat) (v : BitVec sp.width)
    (h : sp' ≠ sp) (j : Nat) : (m.write sp i v).read sp' j = m.read sp' j :=
  read_of_cells_eq (cells_write_of_ne m i v h) j

/-- What a run of writes leaves in every element of its space. -/
theorem read_writeRun (m : Mem) (sp : Space) (base : Nat) (vs : List (BitVec sp.width)) (j : Nat) :
    (m.writeRun sp base vs).read sp j =
      if base ≤ j ∧ j < base + vs.length then vs.getD (j - base) 0 else m.read sp j := by
  simp only [Mem.writeRun, Mem.read, cells_setCells, lookup_splice]
  split
  · rename_i h
    have hlt : j - base < vs.length := by omega
    rw [List.getElem?_eq_getElem hlt, List.getD_eq_getElem?_getD, List.getElem?_eq_getElem hlt]
    simp only [Option.filter, Option.getD_some]
    split
    · rfl
    · rename_i hz
      have hz' : sp.zeroed = true ∧ vs[j - base] = 0 := by simpa using hz
      rw [Option.getD_none, unlisted_of_zeroed hz'.1, hz'.2]
  · rfl

theorem cells_writeRun_of_ne (m : Mem) {sp sp' : Space} (base : Nat)
    (vs : List (BitVec sp.width)) (h : sp' ≠ sp) :
    (m.writeRun sp base vs).cells sp' = m.cells sp' :=
  cells_setCells_of_ne m _ h

theorem read_writeRun_of_space_ne (m : Mem) {sp sp' : Space} (base : Nat)
    (vs : List (BitVec sp.width)) (h : sp' ≠ sp) (j : Nat) :
    (m.writeRun sp base vs).read sp' j = m.read sp' j :=
  read_of_cells_eq (cells_writeRun_of_ne m base vs h) j

/-- A cleared space of numbers reads +0.0 everywhere. -/
theorem read_setCells_nil (m : Mem) {sp : Space} (h : sp.zeroed = true) (i : Nat) :
    (m.setCells sp []).read sp i = 0 := by
  simp [Mem.read, Cells.lookup, unlisted_of_zeroed h]

/-! ### Elements of the state -/

/-- What a write leaves in every element of the state. -/
theorem elem_write (t : State) {sp : Space} (h : sp.zeroed = false) (i : Nat)
    (v : BitVec sp.width) (j : Nat) :
    ({ t with mem := t.mem.write sp i v } : State).elem sp j = if j = i then v else t.elem sp j :=
  read_write t.mem h i v j

theorem elem_write_of_ne (t : State) {sp sp' : Space} (i : Nat) (v : BitVec sp.width)
    (h : sp' ≠ sp) (j : Nat) :
    ({ t with mem := t.mem.write sp i v } : State).elem sp' j = t.elem sp' j :=
  read_write_of_space_ne t.mem i v h j

/-- What a run of writes leaves in every element of the state. -/
theorem elem_writeRun (t : State) (sp : Space) (base : Nat) (vs : List (BitVec sp.width))
    (j : Nat) :
    ({ t with mem := t.mem.writeRun sp base vs } : State).elem sp j =
      if base ≤ j ∧ j < base + vs.length then vs.getD (j - base) 0 else t.elem sp j :=
  read_writeRun t.mem sp base vs j

theorem elem_writeRun_of_ne (t : State) {sp sp' : Space} (base : Nat)
    (vs : List (BitVec sp.width)) (h : sp' ≠ sp) (j : Nat) :
    ({ t with mem := t.mem.writeRun sp base vs } : State).elem sp' j = t.elem sp' j :=
  read_writeRun_of_space_ne t.mem base vs h j

/-- A write outside an element leaves it alone, whichever space it is in. -/
theorem elem_write_other (t : State) {sp : Space} (h : sp.zeroed = false) {i : Nat}
    (v : BitVec sp.width) {sp' : Space} {j : Nat} (hne : ¬ (sp' = sp ∧ j = i)) :
    ({ t with mem := t.mem.write sp i v } : State).elem sp' j = t.elem sp' j := by
  by_cases hs : sp' = sp
  · subst hs
    rw [elem_write t h, if_neg fun e => hne ⟨rfl, e⟩]
  · exact elem_write_of_ne t i v hs j

/-! ### The canonical form is kept -/

theorem spaceWf_of_cells_eq {m m' : Mem} {sp : Space} (h : m.cells sp = m'.cells sp) :
    m.spaceWf sp = m'.spaceWf sp := by
  simp [Mem.spaceWf, h]

theorem spaceWf_setCells_of_ne {m : Mem} {sp sp' : Space} (l : Cells sp.width) (h : sp' ≠ sp) :
    (m.setCells sp l).spaceWf sp' = m.spaceWf sp' :=
  spaceWf_of_cells_eq (cells_setCells_of_ne m l h)

/-- A memory operation on one space keeps the form if the new cells of that space have it. -/
theorem wf_setCells {m : Mem} (h : Memory.wf m = true) {sp : Space} {l : Cells sp.width}
    (hr : l.rising = true)
    (hl : ∀ c ∈ l, c.1 < sp.size ∧ (sp.zeroed && c.2 == 0) = false) :
    Memory.wf (m.setCells sp l) = true := by
  rw [wf_iff] at h ⊢
  intro sp'
  by_cases hs : sp' = sp
  · subst hs
    rw [spaceWf_iff, cells_setCells]
    exact ⟨hr, hl⟩
  · rw [spaceWf_setCells_of_ne l hs]
    exact h sp'

/-- Writing an existing element keeps the canonical form. -/
theorem wf_write {m : Mem} (h : Memory.wf m = true) {sp : Space} {i : Nat} (hi : i < sp.size)
    (v : BitVec sp.width) : Memory.wf (m.write sp i v) = true := by
  obtain ⟨hr, hc⟩ := (spaceWf_iff m sp).1 ((wf_iff m).1 h sp)
  unfold Mem.write
  split
  · exact wf_setCells h (rising_erase hr i) fun c hc' => hc c (mem_erase hc')
  · rename_i hz
    refine wf_setCells h (rising_insert hr i v) fun c hc' => ?_
    rcases mem_insert hc' with rfl | hc'
    · exact ⟨hi, by simpa using hz⟩
    · exact hc c hc'

/-- Writing a run of existing elements keeps the canonical form. -/
theorem wf_writeRun {m : Mem} (h : Memory.wf m = true) {sp : Space} {base : Nat}
    {vs : List (BitVec sp.width)} (hi : base + vs.length ≤ sp.size) :
    Memory.wf (m.writeRun sp base vs) = true := by
  obtain ⟨hr, hc⟩ := (spaceWf_iff m sp).1 ((wf_iff m).1 h sp)
  refine wf_setCells h (rising_splice hr _ _ _) fun c hc' => ?_
  rcases mem_splice hc' with hc' | ⟨h1, h2⟩
  · exact hc c hc'
  · exact ⟨by omega, h2⟩

/-- Clearing a space keeps the canonical form. -/
theorem wf_setCells_nil {m : Mem} (h : Memory.wf m = true) (sp : Space) :
    Memory.wf (m.setCells sp []) = true :=
  wf_setCells h (by rfl) (by simp)

/-- Taking a fault keeps the canonical form. -/
theorem wf_takeFault {s : State} (h : Memory.wf s.mem = true) (f : BlockFault) (w : Word) :
    Memory.wf (takeFault f w s).mem = true := by
  simp only [takeFault]
  split
  · exact wf_setCells_nil h _
  · exact h

/-- A stream reset keeps the canonical form. -/
theorem wf_streamReset {s : State} (h : Memory.wf s.mem = true) :
    Memory.wf (streamReset s).mem = true := by
  have : (streamReset s).mem =
      ((s.mem.setCells .ovl []).setCells .tout []).setCells .lpcbuf [] := rfl
  rw [this]
  exact wf_setCells_nil (wf_setCells_nil (wf_setCells_nil h _) _) _

/-- The memory after reset is in canonical form. -/
theorem wf_reset : Memory.wf State.reset.mem = true := by decide

end Sys2Proof.Machine
end

