-- ==== Sys2Proof/Laws/Cmd.lean ====
section
/-! SUPPORT. What a command body does, as a condition on the state it starts in: one rule per
operation of the command monad, a rule for each loop, and what `runCmd` makes of it. -/

namespace Sys2Proof.Machine

open Sys2Proof

/-- Run from `s`, the body `m` ends normally in a value and state that satisfy `Q`, or stops
early in a state that satisfies `E`. -/
def Sat {α : Type} (m : Cmd α) (s : State) (Q : α → State → Prop) (E : Stop → State → Prop) :
    Prop :=
  match m s with
  | .ok a t => Q a t
  | .error e t => E e t

variable {α β : Type} {Q Q' : α → State → Prop} {E E' : Stop → State → Prop} {s : State}

theorem Sat.imp {m : Cmd α} (h : Sat m s Q E) (hq : ∀ a t, Q a t → Q' a t)
    (he : ∀ e t, E e t → E' e t) : Sat m s Q' E' := by
  unfold Sat at *
  split at h
  · exact hq _ _ h
  · exact he _ _ h

theorem Sat.and {m : Cmd α} (h : Sat m s Q E) (h' : Sat m s Q' E') :
    Sat m s (fun a t => Q a t ∧ Q' a t) (fun e t => E e t ∧ E' e t) := by
  unfold Sat at *
  split at h <;> simp_all

/-! ### The monad -/

@[simp] theorem sat_pure (a : α) : Sat (pure a) s Q E ↔ Q a s := Iff.rfl

@[simp] theorem sat_bind {m : Cmd β} {f : β → Cmd α} :
    Sat (m >>= f) s Q E ↔ Sat m s (fun b t => Sat (f b) t Q E) E := by
  simp only [Sat, bind, EStateM.bind]
  cases m s <;> rfl

@[simp] theorem sat_map {m : Cmd β} {f : β → α} :
    Sat (f <$> m) s Q E ↔ Sat m s (fun b t => Q (f b) t) E := by
  simp only [Sat, Functor.map, EStateM.map]
  cases m s <;> rfl

@[simp] theorem sat_get {Q : State → State → Prop} : Sat get s Q E ↔ Q s s := Iff.rfl

@[simp] theorem sat_set {Q : PUnit → State → Prop} (t : State) :
    Sat (set t) s Q E ↔ Q PUnit.unit t := Iff.rfl

@[simp] theorem sat_modify {Q : PUnit → State → Prop} (f : State → State) :
    Sat (modify f) s Q E ↔ Q PUnit.unit (f s) := Iff.rfl

@[simp] theorem sat_throw (e : Stop) : Sat (throw e) s Q E ↔ E e s := Iff.rfl

@[simp] theorem sat_raise (f : BlockFault) : Sat (raise f) s Q E ↔ E (.raised f) s := Iff.rfl

@[simp] theorem sat_ite {p : Prop} [Decidable p] {m m' : Cmd α} :
    Sat (if p then m else m') s Q E ↔ if p then Sat m s Q E else Sat m' s Q E := by
  split <;> rfl

@[simp] theorem sat_check {Q : Unit → State → Prop} (ok : Bool) (f : BlockFault) :
    Sat (check ok f) s Q E ↔ if ok then Q () s else E (.raised f) s := by
  unfold check
  cases ok <;> rfl

@[simp] theorem sat_drawing (f : Nat → α × Nat) :
    Sat (drawing f) s Q E ↔
      Q (f s.nanDraws).1 { s with nanDraws := (f s.nanDraws).2 } := Iff.rfl

/-! ### Elements and registers -/

@[simp] theorem sat_load (sp : Space) (i : Nat) {Q : BitVec sp.width → State → Prop} :
    Sat (load sp i) s Q E ↔ if i < sp.size then Q (s.elem sp i) s else E (.noElement sp i) s := by
  simp [load]

@[simp] theorem sat_store (sp : Space) (i : Nat) (v : BitVec sp.width)
    {Q : Unit → State → Prop} :
    Sat (store sp i v) s Q E ↔ if i < sp.size then Q () { s with mem := s.mem.write sp i v }
      else E (.noElement sp i) s := by
  simp [store]

@[simp] theorem sat_storeRun (sp : Space) (base : Nat) (vs : List (BitVec sp.width))
    {Q : Unit → State → Prop} :
    Sat (storeRun sp base vs) s Q E ↔
      if base + vs.length ≤ sp.size then Q () { s with mem := s.mem.writeRun sp base vs }
      else E (.noElement sp (base + vs.length - 1)) s := by
  simp [storeRun]

@[simp] theorem sat_setRes0 (v : Word) {Q : Unit → State → Prop} :
    Sat (setRes0 v) s Q E ↔ Q () { s with regs := { s.regs with res0 := v } } := Iff.rfl

@[simp] theorem sat_setResAll (v0 v1 v2 v3 : Word) {Q : Unit → State → Prop} :
    Sat (setResAll v0 v1 v2 v3) s Q E ↔
      Q () { s with regs := { res0 := v0, res1 := v1, res2 := v2, res3 := v3 } } := Iff.rfl

/-! ### The input stream -/

@[simp] theorem sat_peekBits (n : Nat) {Q : Nat → State → Prop} :
    Sat (peekBits n) s Q E ↔
      if bitsLeft s < n then E (.raised .endOfStream) s
      else if n = 0 ∨ s.csr.bitpos.toNat + n ≤ 8 * Config.ibufBytes then
        Q (fieldAt s s.csr.bitpos.toNat n) s
      else E (.noElement .ibuf ((s.csr.bitpos.toNat + n - 1) / 8)) s := by
  simp [peekBits]

@[simp] theorem sat_readBits (n : Nat) {Q : Nat → State → Prop} :
    Sat (readBits n) s Q E ↔
      if bitsLeft s < n then E (.raised .endOfStream) s
      else if n = 0 ∨ s.csr.bitpos.toNat + n ≤ 8 * Config.ibufBytes then
        Q (fieldAt s s.csr.bitpos.toNat n) (setBitpos (s.csr.bitpos.toNat + n) s)
      else E (.noElement .ibuf ((s.csr.bitpos.toNat + n - 1) / 8)) s := by
  simp [readBits]

/-! ### Loops -/

/-- A loop keeps `I`, which may speak of the elements already done. -/
theorem sat_each {f : α → Cmd Unit} {l : List α} {I : List α → State → Prop}
    (hI : I [] s)
    (hf : ∀ done a rest, l = done ++ a :: rest → ∀ t, I done t →
      Sat (f a) t (fun _ t' => I (done ++ [a]) t') E) :
    Sat (each f l) s (fun _ t => I l t) E := by
  have key : ∀ rest done, l = done ++ rest → ∀ t, I done t →
      Sat (each f rest) t (fun _ t' => I l t') E := by
    intro rest
    induction rest with
    | nil =>
      intro done h t ht
      simp only [List.append_nil] at h
      subst h
      exact ht
    | cons a rest ih =>
      intro done h t ht
      simp only [each, sat_bind]
      refine (hf done a rest h t ht).imp (fun _ t' ht' => ?_) (fun _ _ h => h)
      exact ih (done ++ [a]) (by simp [h]) t' ht'
  exact key l [] rfl s hI

/-- A loop keeps an invariant that does not depend on how far it is. -/
theorem sat_each_keeps {f : α → Cmd Unit} {l : List α} {I : State → Prop} (hI : I s)
    (hf : ∀ a ∈ l, ∀ t, I t → Sat (f a) t (fun _ t' => I t') E) :
    Sat (each f l) s (fun _ t => I t) E :=
  sat_each (I := fun _ t => I t) hI fun done a rest h t ht =>
    hf a (by simp [h]) t ht

/-- A loop that carries a value keeps `I`, which may speak of the elements already done. -/
theorem sat_carry {f : β → α → Cmd β} {l : List α} {b : β} {I : List α → β → State → Prop}
    (hI : I [] b s)
    (hf : ∀ done a rest, l = done ++ a :: rest → ∀ b t, I done b t →
      Sat (f b a) t (fun b' t' => I (done ++ [a]) b' t') E) :
    Sat (carry f b l) s (fun b' t => I l b' t) E := by
  have key : ∀ rest done, l = done ++ rest → ∀ b t, I done b t →
      Sat (carry f b rest) t (fun b' t' => I l b' t') E := by
    intro rest
    induction rest with
    | nil =>
      intro done h b t ht
      simp only [List.append_nil] at h
      subst h
      exact ht
    | cons a rest ih =>
      intro done h b t ht
      simp only [carry, sat_bind]
      refine (hf done a rest h b t ht).imp (fun b' t' ht' => ?_) (fun _ _ h => h)
      exact ih (done ++ [a]) (by simp [h]) b' t' ht'
  exact key l [] rfl b s hI

/-- A carrying loop keeps an invariant that does not depend on how far it is. -/
theorem sat_carry_keeps {f : β → α → Cmd β} {l : List α} {b : β} {I : β → State → Prop}
    (hI : I b s)
    (hf : ∀ a ∈ l, ∀ b t, I b t → Sat (f b a) t (fun b' t' => I b' t') E) :
    Sat (carry f b l) s (fun b' t => I b' t) E :=
  sat_carry (I := fun _ b t => I b t) hI fun done a rest h b t ht => hf a (by simp [h]) b t ht

/-! ### Running a command -/

/-- A refused command changes nothing. -/
theorem runCmd_refused {w : Word} {m : Cmd Unit} (h : s.csr.fault ≠ none) :
    runCmd w m s = .next s := by
  unfold runCmd
  cases hf : s.csr.fault with
  | none => exact absurd hf h
  | some f => rfl

/-- How a command that is not refused ends. -/
theorem runCmd_of_ready {w : Word} {m : Cmd Unit} (h : s.csr.fault = none) :
    runCmd w m s = finish w (m s) := by
  simp [runCmd, h]

/-- A body that always ends normally in the state `t` gives that state. -/
theorem runCmd_eq_next {w : Word} {m : Cmd Unit} {t : State} (h : s.csr.fault = none)
    (hm : Sat m s (fun _ t' => t' = t) fun _ _ => False) : runCmd w m s = .next t := by
  rw [runCmd_of_ready h]
  unfold Sat at hm
  split at hm
  · rename_i heq; rw [heq, ← hm]; rfl
  · exact hm.elim

/-- A body that always ends normally. -/
theorem runCmd_completes {w : Word} {m : Cmd Unit} {P : State → Prop} (h : s.csr.fault = none)
    (hm : Sat m s (fun _ t => P t) fun _ _ => False) : ∃ t, runCmd w m s = .next t ∧ P t := by
  rw [runCmd_of_ready h]
  unfold Sat at hm
  split at hm
  · rename_i t heq; exact ⟨t, by rw [heq]; rfl, hm⟩
  · exact hm.elim

/-- A body that always raises `f`, in the state `t`. -/
theorem runCmd_eq_fault {w : Word} {m : Cmd Unit} {f : BlockFault} {t : State}
    (h : s.csr.fault = none)
    (hm : Sat m s (fun _ _ => False) fun e t' => e = .raised f ∧ t' = t) :
    runCmd w m s = .next (takeFault f w t) := by
  rw [runCmd_of_ready h]
  unfold Sat at hm
  split at hm
  · exact hm.elim
  · rename_i heq; rw [heq, hm.1, hm.2]; rfl

/-- What is true of every way a command's body ends is true of every next state it gives: the
state it was refused in, its normal end, or a recorded fault. -/
theorem runCmd_next {w : Word} {m : Cmd Unit} {t : State} {P : State → Prop}
    (h : runCmd w m s = .next t) (hs : s.csr.fault ≠ none → P s)
    (hm : s.csr.fault = none →
      Sat m s (fun _ t => P t) fun e t => ∀ f, e = .raised f → P (takeFault f w t)) : P t := by
  by_cases hf : s.csr.fault = none
  · rw [runCmd_of_ready hf] at h
    have := hm hf
    unfold Sat at this
    split at this <;> rename_i heq <;> rw [heq] at h
    · cases h; exact this
    · rename_i e u
      cases e with
      | raised f => cases h; exact this f rfl
      | noElement sp i => cases h
  · rw [runCmd_refused hf] at h
    cases h
    exact hs hf

/-- A command whose body never names an element that does not exist never stops the machine. -/
theorem runCmd_ne_fault {w : Word} {m : Cmd Unit}
    (hm : s.csr.fault = none →
      Sat m s (fun _ _ => True) fun e _ => ∃ f, e = .raised f) (r : Fault) :
    runCmd w m s ≠ .fault r := by
  by_cases hf : s.csr.fault = none
  · rw [runCmd_of_ready hf]
    have := hm hf
    unfold Sat at this
    split at this <;> rename_i heq <;> rw [heq]
    · exact fun h => by cases h
    · obtain ⟨f, rfl⟩ := this
      exact fun h => by cases h
  · rw [runCmd_refused hf]
    exact fun h => by cases h

/-- No command is refused by the model: every one has its meaning. -/
theorem runCmd_ne_refused {w : Word} {m : Cmd Unit} (r : Refusal) : runCmd w m s ≠ .refused r := by
  unfold runCmd
  split
  · exact fun h => by cases h
  · unfold finish
    split <;> exact fun h => by cases h

end Sys2Proof.Machine
end

