-- ==== Sys2Proof/Laws/Stream.lean ====
section
/-! SUPPORT. The input stream: the bits and fields the machine reads are those of
20_memory.md R83 and R84, and the bit reader's primitives in terms of them. -/

namespace Sys2Proof.Machine

open Sys2Proof

theorem bitAt_eq_bit (s : State) (k : Nat) : bitAt s k = Ref.bit s k := by
  simp only [bitAt, Ref.bit, BitVec.getLsbD, Nat.testBit_eq_decide_div_mod_eq]
  rcases Nat.mod_two_eq_zero_or_one ((s.elem .ibuf (k / 8)).toNat / 2 ^ (7 - k % 8)) with h | h <;>
    simp [h]

theorem bit_le_one (s : State) (k : Nat) : Ref.bit s k ≤ 1 := by
  unfold Ref.bit; cases (s.elem .ibuf (k / 8)).getLsbD (7 - k % 8) <;> decide

theorem bits_zero (s : State) (k : Nat) : Ref.bits s k 0 = 0 := rfl

/-- One bit more at the end doubles the field and adds the bit. -/
theorem bits_succ (s : State) (k n : Nat) :
    Ref.bits s k (n + 1) = 2 * Ref.bits s k n + Ref.bit s (k + n) := by
  unfold Ref.bits
  rw [Finset.sum_range_succ, Finset.mul_sum]
  congr 1
  · refine Finset.sum_congr rfl fun i hi => ?_
    have hi' := Finset.mem_range.1 hi
    have : n + 1 - 1 - i = (n - 1 - i) + 1 := by omega
    rw [this, Nat.pow_succ]; ring
  · simp

theorem fieldAt_eq_bits (s : State) (k n : Nat) : fieldAt s k n = Ref.bits s k n := by
  induction n with
  | zero => rfl
  | succ n ih => rw [bits_succ, fieldAt, ih, bitAt_eq_bit]

theorem bits_one (s : State) (k : Nat) : Ref.bits s k 1 = Ref.bit s k := by
  rw [bits_succ, bits_zero]; simp

/-- An n-bit field is below 2^n. -/
theorem bits_lt (s : State) (k n : Nat) : Ref.bits s k n < 2 ^ n := by
  induction n with
  | zero => simp [bits_zero]
  | succ n ih =>
    have := bit_le_one s (k + n)
    rw [bits_succ, Nat.pow_succ]; omega

/-- The first bits of a field are a field: a prefix is a quotient. -/
theorem bits_prefix (s : State) (k n m : Nat) :
    Ref.bits s k n = Ref.bits s k (n + m) / 2 ^ m := by
  induction m with
  | zero => simp
  | succ m ih =>
    have := bit_le_one s (k + (n + m))
    rw [ih, ← Nat.add_assoc, bits_succ, Nat.pow_succ, Nat.mul_comm (2 ^ m), ← Nat.div_div_eq_div_mul]
    congr 1
    omega

/-- Fields depend on the contents of IBUF only. -/
theorem bit_congr {s t : State} (h : s.mem.ibuf = t.mem.ibuf) (k : Nat) :
    Ref.bit s k = Ref.bit t k := by
  simp [Ref.bit, State.elem, Mem.read, Mem.cells, h]

theorem bits_congr {s t : State} (h : s.mem.ibuf = t.mem.ibuf) (k n : Nat) :
    Ref.bits s k n = Ref.bits t k n := by
  simp [Ref.bits, bit_congr h]

theorem left_eq_bitsLeft (s : State) : Ref.left s = (bitsLeft s : Int) := by
  simp only [Ref.left, bitsLeft]; omega

/-- A legal ILEN keeps every bit that is left inside the buffer. -/
theorem Ref.Ready.inBuffer {s : State} (h : Ref.Ready s) {n : Nat} (hn : n ≤ bitsLeft s) :
    n = 0 ∨ s.csr.bitpos.toNat + n ≤ 8 * Config.ibufBytes := by
  have := h.2
  simp only [bitsLeft] at hn
  omega

/-- A cursor inside the stream fits its register. -/
theorem Ref.Ready.lt_of_inStream {s : State} (h : Ref.Ready s) {k : Nat}
    (hk : Ref.InStream s k) : k < 2 ^ 32 := by
  have := h.2
  simp only [Ref.InStream, Config.ibufBytes] at *
  omega

end Sys2Proof.Machine
end

