-- ==== Sys2Proof/Laws/Geometry.lean ====
section
/-! SUPPORT. The channel geometry: GeomCheck passes exactly where the geometry is as
10_state.md R70 says, and what that gives of line indices. -/

namespace Sys2Proof.Machine

open Sys2Proof

/-! ### Loop lists -/

@[simp] theorem mem_upTo {lo hi i : Nat} : i ∈ upTo lo hi ↔ lo ≤ i ∧ i < hi := by
  simp only [upTo, List.mem_range'_1]; omega

theorem upTo_zero (n : Nat) : upTo 0 n = List.range n := by
  simp [upTo, List.range_eq_range']

theorem upTo_eq_map (lo hi : Nat) : upTo lo hi = (List.range (hi - lo)).map (lo + ·) := by
  simp [upTo, List.range'_eq_map_range]

theorem length_upTo (lo hi : Nat) : (upTo lo hi).length = hi - lo := by simp [upTo]

theorem nodup_upTo (lo hi : Nat) : (upTo lo hi).Nodup := by
  simp [upTo, List.nodup_range']

theorem mem_bandList {r : Csr} {c : Channel} {gb : Nat × Nat} :
    gb ∈ r.bandList c ↔ gb.1 < r.ngrp c ∧ gb.2 < r.maxsfb c := by
  obtain ⟨g, b⟩ := gb
  simp [Csr.bandList]

theorem mem_windowLines {s : State} {c : Channel} {g w b p : Nat} :
    p ∈ s.windowLines c g w b ↔
      ∃ i, s.off c b ≤ i ∧ i < s.off c (b + 1) ∧ p = s.csr.line c g w i := by
  simp only [State.windowLines, List.mem_map, mem_upTo]
  exact ⟨fun ⟨i, h, e⟩ => ⟨i, h.1, h.2, e.symm⟩, fun ⟨i, h1, h2, e⟩ => ⟨i, ⟨h1, h2⟩, e.symm⟩⟩

theorem mem_bandLines {s : State} {c : Channel} {g b p : Nat} :
    p ∈ s.bandLines c g b ↔
      ∃ w i, w < s.csr.glen c g ∧ s.off c b ≤ i ∧ i < s.off c (b + 1) ∧
        p = s.csr.line c g w i := by
  simp only [State.bandLines, List.mem_flatMap, mem_upTo, mem_windowLines]
  exact ⟨fun ⟨w, h, i, h1, h2, e⟩ => ⟨w, i, h.2, h1, h2, e⟩,
    fun ⟨w, i, h, h1, h2, e⟩ => ⟨w, ⟨Nat.zero_le _, h⟩, i, h1, h2, e⟩⟩

/-! ### Field widths -/

theorem field_lt (v : Word) (hi lo : Nat) : field v hi lo < 2 ^ (hi + 1 - lo) :=
  Nat.mod_lt _ (Nat.two_pow_pos _)

theorem maxsfb_lt (r : Csr) (c : Channel) : r.maxsfb c < 64 := field_lt _ 8 3

theorem ngrp_lt (r : Csr) (c : Channel) : r.ngrp c < 16 := field_lt _ 12 9

theorem nwin_le (r : Csr) (c : Channel) : r.nwin c ≤ 8 := by
  unfold Csr.nwin; split <;> decide

theorem fl_le (r : Csr) : r.fl ≤ 1024 := by
  unfold Csr.fl; cases r.frameLen <;> decide

theorem eight_mul_sl (r : Csr) : 8 * r.sl = r.fl := by
  unfold Csr.sl Csr.fl; cases r.frameLen <;> decide

theorem nwin_mul_wl (r : Csr) (c : Channel) : r.nwin c * r.wl c = r.fl := by
  unfold Csr.nwin Csr.wl
  split
  · exact eight_mul_sl r
  · exact Nat.one_mul _

theorem wl_pos (r : Csr) (c : Channel) : 0 < r.wl c := by
  unfold Csr.wl Csr.sl Csr.fl
  cases r.frameLen <;> split <;> decide

theorem num_le (c : Channel) : c.num ≤ 1 := by cases c <;> decide

theorem line_add (r : Csr) (c : Channel) (g w i j : Nat) :
    r.line c g w (i + j) = r.line c g w i + j := (Nat.add_assoc _ _ _).symm

theorem gstart_eq_sum (r : Csr) (c : Channel) (g : Nat) :
    r.gstart c g = ∑ j ∈ Finset.range g, r.glen c j := by
  induction g with
  | zero => rfl
  | succ g ih => rw [Finset.sum_range_succ, ← ih]; rfl

theorem gstart_mono (r : Csr) (c : Channel) {g g' : Nat} (h : g ≤ g') :
    r.gstart c g ≤ r.gstart c g' := by
  induction h with
  | refl => exact le_refl _
  | step _ ih => exact ih.trans (Nat.le_add_right _ _)

/-! ### GeomCheck -/

theorem codebookOf_eq_reserved (v : BitVec 4) : codebookOf v = .reserved ↔ v = 12#4 := by
  revert v; decide

theorem geomOk_iff (s : State) (c : Channel) : s.geomOk c = true ↔ Ref.Geometry s c := by
  simp only [State.geomOk, Bool.and_eq_true, decide_eq_true_eq, List.all_eq_true, mem_upTo,
    mem_bandList, bne_iff_ne, ne_eq, State.cb, codebookOf_eq_reserved, bandIx, gstart_eq_sum]
  constructor
  · rintro ⟨⟨⟨⟨⟨h1, h2, h3⟩, h4⟩, h5⟩, h6, h7⟩, h8⟩
    exact ⟨h1, ⟨fun g hg => h2 g ⟨Nat.zero_le _, hg⟩, h3⟩, h4, h5,
      ⟨fun i hi => h6 i ⟨Nat.zero_le _, hi⟩, h7⟩, fun g hg b hb => h8 (g, b) ⟨hg, hb⟩⟩
  · rintro ⟨h1, ⟨h2, h3⟩, h4, h5, ⟨h6, h7⟩, h8⟩
    exact ⟨⟨⟨⟨⟨h1, fun g hg => h2 g hg.2, h3⟩, h4⟩, h5⟩, fun i hi => h6 i hi.2, h7⟩,
      fun gb hgb => h8 gb.1 hgb.1 gb.2 hgb.2⟩

/-- GeomCheck changes nothing: it passes where the geometry is legal and raises FormatError
elsewhere. -/
theorem sat_geomCheck (c : Channel) {s : State} {Q : Unit → State → Prop}
    {E : Stop → State → Prop} :
    Sat (geomCheck c) s Q E ↔
      (Ref.Geometry s c → Q () s) ∧ (¬ Ref.Geometry s c → E (.raised .formatError) s) := by
  simp only [geomCheck, sat_bind, sat_get, sat_check]
  by_cases h : Ref.Geometry s c
  · simp [h, (geomOk_iff s c).2 h]
  · have : s.geomOk c = false := by
      rw [← Bool.not_eq_true, geomOk_iff]; exact h
    simp [h, this]

/-! ### Lines -/

namespace Ref

variable {s : State} {c : Channel}

theorem Geometry.gstart_le (h : Geometry s c) {g : Nat} (hg : g ≤ s.csr.ngrp c) :
    s.csr.gstart c g ≤ s.csr.nwin c := by
  rw [← h.lengths.2, ← gstart_eq_sum]
  exact gstart_mono _ _ hg

theorem Geometry.window_lt (h : Geometry s c) {g w : Nat} (hg : g < s.csr.ngrp c)
    (hw : w < s.csr.glen c g) : s.csr.gstart c g + w < s.csr.nwin c := by
  have := h.gstart_le (g := g + 1) hg
  simp only [Csr.gstart] at this
  omega

theorem Geometry.line_lt (h : Geometry s c) {g w i : Nat} (hl : IsLine s c g w i) :
    s.csr.line c g w i < s.csr.fl := by
  have h1 := h.window_lt hl.1 hl.2.1
  have h2 := hl.2.2
  rw [← nwin_mul_wl s.csr c]
  unfold Csr.line
  calc (s.csr.gstart c g + w) * s.csr.wl c + i
      < (s.csr.gstart c g + w) * s.csr.wl c + s.csr.wl c := by omega
    _ = (s.csr.gstart c g + w + 1) * s.csr.wl c := by ring
    _ ≤ s.csr.nwin c * s.csr.wl c := Nat.mul_le_mul_right _ (by omega)

theorem Geometry.line_lt_1024 (h : Geometry s c) {g w i : Nat} (hl : IsLine s c g w i) :
    s.csr.line c g w i < 1024 := lt_of_lt_of_le (h.line_lt hl) (fl_le _)

theorem IsLine.inj {g w i g' w' i' : Nat} (hl : IsLine s c g w i)
    (hl' : IsLine s c g' w' i') (he : s.csr.line c g w i = s.csr.line c g' w' i') :
    g = g' ∧ w = w' ∧ i = i' := by
  unfold Csr.line at he
  have hwl := wl_pos s.csr c
  have hi : i = i' := by
    have := congrArg (· % s.csr.wl c) he
    simpa [Nat.mul_comm _ (s.csr.wl c), Nat.mul_add_mod,
      Nat.mod_eq_of_lt hl.2.2, Nat.mod_eq_of_lt hl'.2.2] using this
  subst hi
  have hwin : s.csr.gstart c g + w = s.csr.gstart c g' + w' :=
    Nat.eq_of_mul_eq_mul_right hwl (by omega)
  have hg : g = g' := by
    rcases Nat.lt_trichotomy g g' with h1 | h1 | h1
    · have := gstart_mono s.csr c (show g + 1 ≤ g' from h1)
      simp only [Csr.gstart] at this
      have := hl.2.1
      omega
    · exact h1
    · have := gstart_mono s.csr c (show g' + 1 ≤ g from h1)
      simp only [Csr.gstart] at this
      have := hl'.2.1
      omega
  subst hg
  exact ⟨rfl, by omega, rfl⟩

/-- Band offsets rise. -/
theorem Geometry.off_mono (h : Geometry s c) {i j : Nat} (hij : i ≤ j) (hj : j ≤ s.csr.nswb c) :
    s.off c i ≤ s.off c j := by
  induction hij with
  | refl => exact le_refl _
  | step _ ih => exact (ih (by omega)).trans (h.rising.1 _ (by omega)).le

theorem Geometry.off_le (h : Geometry s c) {i : Nat} (hi : i ≤ s.csr.nswb c) :
    s.off c i ≤ s.csr.wl c := (h.off_mono hi (le_refl _)).trans h.rising.2

/-- A line of a band is a line of its window. -/
theorem Geometry.isLine (h : Geometry s c) {g w b i : Nat} (hg : g < s.csr.ngrp c)
    (hw : w < s.csr.glen c g) (hb : InBand s c b i) : IsLine s c g w i := by
  refine ⟨hg, hw, lt_of_lt_of_le hb.2.2 (h.off_le ?_)⟩
  have := h.bands
  have := hb.1
  omega

/-- A line lies in one band at most. -/
theorem Geometry.band_unique (h : Geometry s c) {b b' i : Nat} (hb : InBand s c b i)
    (hb' : InBand s c b' i) : b = b' := by
  have hm := h.bands
  have h1 := hb.1
  have h1' := hb'.1
  rcases Nat.lt_trichotomy b b' with h2 | h2 | h2
  · have := h.off_mono (show b + 1 ≤ b' from h2) (by omega)
    have := hb.2.2
    have := hb'.2.1
    omega
  · exact h2
  · have := h.off_mono (show b' + 1 ≤ b from h2) (by omega)
    have := hb'.2.2
    have := hb.2.1
    omega

end Ref

end Sys2Proof.Machine
end

