-- ==== Sys2Proof/Laws/Rom.lean ====
section
/-! SUPPORT. The code tables meet their constraints whatever the free contents are. -/

namespace Sys2Proof.Machine

open Sys2Proof

theorem isPrefix_of_len_eq {e e' : HuffEntry} (h : e.len = e'.len) :
    Rom.isPrefix e e' = (e'.code == e.code) := by
  simp [Rom.isPrefix, h]


/-- The sample table is valid whenever its two lengths fit the number of symbols. -/
theorem sampleTable_valid_of {b : Book} (hn : 1 ≤ b.nsym)
    (hl : b.nsym - 1 < 2 ^ Rom.sampleLen b) (h1 : 1 ≤ Rom.sampleLen b)
    (hm : Rom.sampleLen b < Rom.maxLen b) : Rom.validTable b (Rom.sampleTable b) = true := by
  generalize hL : Rom.sampleLen b = L at *
  generalize hM : Rom.maxLen b = M at *
  generalize hN : b.nsym - 1 = N at *
  have hnsym : b.nsym = N + 1 := by omega
  have hpow : 2 ^ M = 2 ^ L * 2 ^ (M - L) := by rw [← Nat.pow_add]; congr 1; omega
  have hlast : N * 2 ^ (M - L) < 2 ^ M := by
    rw [hpow]; exact Nat.mul_lt_mul_of_pos_right hl (Nat.two_pow_pos _)
  simp only [Rom.validTable, Rom.sampleTable, hL, hM, hnsym, Bool.and_eq_true,
    decide_eq_true_eq]
  refine ⟨⟨⟨?_, ?_⟩, ?_⟩, ?_⟩
  · simp only [List.all_append, List.all_map, List.all_cons, List.all_nil, Bool.and_true,
      Bool.and_eq_true, List.all_eq_true, List.mem_range, Function.comp, Rom.entryOk, hM, hnsym,
      decide_eq_true_eq]
    exact ⟨fun i hi => ⟨⟨⟨h1, hm.le⟩, by omega⟩, by omega⟩,
      ⟨⟨by omega, le_refl _⟩, hlast⟩, by omega⟩
  · rw [List.pairwise_append]
    refine ⟨?_, List.pairwise_singleton _ _, ?_⟩
    · rw [List.pairwise_map]
      refine (List.pairwise_lt_range (n := N)).imp ?_
      intro i j hij
      constructor <;> rw [isPrefix_of_len_eq (by rfl), beq_eq_false_iff_ne] <;> dsimp only <;> omega
    · simp only [List.mem_map, List.mem_range, List.mem_singleton]
      rintro _ ⟨i, hi, rfl⟩ _ rfl
      refine ⟨?_, ?_⟩
      · simp only [Rom.isPrefix, Nat.mul_div_cancel _ (Nat.two_pow_pos _), Bool.and_eq_false_iff,
          beq_eq_false_iff_ne]
        exact Or.inr (by omega)
      · simp only [Rom.isPrefix, Bool.and_eq_false_iff, decide_eq_false_iff_not]
        exact Or.inl (by omega)
  · simp only [List.all_eq_true, List.mem_range, beq_iff_eq, List.countP_append, List.countP_map,
      List.countP_cons, List.countP_nil, Function.comp_def, Nat.add_sub_cancel]
    intro s hs
    have hc : (List.range N).countP (fun i => i == s) = if s < N then 1 else 0 := by
      change (List.range N).count s = _
      by_cases h : s < N
      · rw [if_pos h]
        exact List.count_eq_one_of_mem List.nodup_range (List.mem_range.2 h)
      · rw [if_neg h]
        exact List.count_eq_zero_of_not_mem (by simpa using h)
    rw [hc]
    by_cases h : s < N
    · have : N ≠ s := by omega
      simp [h, this]
    · have : N = s := by omega
      simp [this]
  · simp

theorem sampleTable_valid (b : Book) : Rom.validTable b (Rom.sampleTable b) = true := by
  rcases b with _ | b
  · exact sampleTable_valid_of (by decide) (by decide) (by decide) (by decide)
  · cases b <;> exact sampleTable_valid_of (by decide) (by decide) (by decide) (by decide)

/-- Whatever the free contents of the ROM are, the block's tables meet R161's constraints. -/
theorem hcb_valid (b : Book) : Rom.validTable b (Rom.hcb b) = true := by
  unfold Rom.hcb
  split
  · assumption
  · exact sampleTable_valid b

/-- An entry of a valid table is in range. -/
theorem validTable_entry {b : Book} {t : HuffTable} (h : Rom.validTable b t = true)
    {e : HuffEntry} (he : e ∈ t) :
    1 ≤ e.len ∧ e.len ≤ Rom.maxLen b ∧ e.code < 2 ^ e.len ∧ e.sym < b.nsym := by
  simp only [Rom.validTable, Bool.and_eq_true, List.all_eq_true] at h
  have := h.1.1.1 e he
  simp only [Rom.entryOk, Bool.and_eq_true, decide_eq_true_eq] at this
  tauto

/-- In a valid table a codeword that is a prefix of another is that codeword. -/
theorem validTable_prefix {b : Book} {t : HuffTable} (h : Rom.validTable b t = true)
    {e e' : HuffEntry} (he : e ∈ t) (he' : e' ∈ t) (hp : Rom.isPrefix e e' = true) : e = e' := by
  simp only [Rom.validTable, Bool.and_eq_true, decide_eq_true_eq] at h
  have hpw := List.pairwise_iff_getElem.1 h.1.1.2
  obtain ⟨i, hi, rfl⟩ := List.getElem_of_mem he
  obtain ⟨j, hj, rfl⟩ := List.getElem_of_mem he'
  rcases Nat.lt_trichotomy i j with hij | rfl | hij
  · rw [(hpw i j hi hj hij).1] at hp; exact absurd hp (by decide)
  · rfl
  · rw [(hpw j i hj hi hij).2] at hp; exact absurd hp (by decide)

/-- Every symbol of a valid table has a codeword. -/
theorem validTable_symbol {b : Book} {t : HuffTable} (h : Rom.validTable b t = true) {s : Nat}
    (hs : s < b.nsym) : ∃ e ∈ t, e.sym = s := by
  simp only [Rom.validTable, Bool.and_eq_true, List.all_eq_true, List.mem_range, beq_iff_eq] at h
  have := h.1.2 s hs
  obtain ⟨e, he, hes⟩ := List.countP_pos_iff.1 (by omega : 0 < t.countP fun e => e.sym == s)
  exact ⟨e, he, by simpa using hes⟩

end Sys2Proof.Machine
end

