-- ==== Sys2Proof/Laws/Huffman.lean ====
section
/-! SUPPORT. The Huffman decoder's shared operations: what HuffDecode, the sign bits, Escape and
HuffSpec read from the stream, and where each ends. -/

namespace Sys2Proof.Machine

open Sys2Proof

/-! ### The cursor -/

@[simp] theorem setBitpos_setBitpos (a b : Nat) (s : State) :
    setBitpos a (setBitpos b s) = setBitpos a s := rfl

@[simp] theorem bitsLeft_setBitpos {k : Nat} (hk : k < 2 ^ 32) (s : State) :
    bitsLeft (setBitpos k s) = 8 * s.csr.ilen.toNat - k := by
  simp only [bitsLeft, setBitpos_csr_ilen, setBitpos_csr_bitpos, BitVec.toNat_ofNat,
    Nat.mod_eq_of_lt hk]

theorem setBitpos_self (s : State) : setBitpos s.csr.bitpos.toNat s = s := by
  simp [setBitpos]

@[simp] theorem bit_setBitpos (k j : Nat) (s : State) :
    Ref.bit (setBitpos k s) j = Ref.bit s j := bit_congr rfl j

@[simp] theorem bits_setBitpos (k j n : Nat) (s : State) :
    Ref.bits (setBitpos k s) j n = Ref.bits s j n := bits_congr rfl j n

/-- The cursor has moved over bits of the stream, and nothing else has changed. -/
def Advance (s u : State) : Prop :=
  ∃ k', u = setBitpos k' s ∧ s.csr.bitpos.toNat ≤ k' ∧ k' ≤ s.csr.bitpos.toNat + bitsLeft s

theorem Advance.refl (s : State) : Advance s s :=
  ⟨_, (setBitpos_self s).symm, le_refl _, Nat.le_add_right _ _⟩

theorem advance_of_inStream {s : State} {k : Nat} (h : s.csr.bitpos.toNat ≤ k)
    (hk : Ref.InStream s k) : Advance s (setBitpos k s) :=
  ⟨k, rfl, h, by simp only [Ref.InStream, bitsLeft] at *; omega⟩

theorem Ref.Ready.setBitpos {s : State} (h : Ref.Ready s) (k : Nat) :
    Ref.Ready (setBitpos k s) := h

/-- Reading a field in a state that is ready: EndOfStream, or the field and the cursor after
it. -/
theorem sat_readBits_ready {s : State} (h : Ref.Ready s) (n : Nat) {Q : Nat → State → Prop}
    {E : Stop → State → Prop} :
    Sat (readBits n) s Q E ↔
      if bitsLeft s < n then E (.raised .endOfStream) s
      else Q (Ref.bits s s.csr.bitpos.toNat n) (setBitpos (s.csr.bitpos.toNat + n) s) := by
  rw [sat_readBits]
  split
  · rfl
  · rename_i hn
    rw [if_pos (h.inBuffer (by omega)), fieldAt_eq_bits]

/-! ### One codeword -/

/-- An entry of the table whose codeword stands at k. -/
theorem symbolOf_eq_some {t : HuffTable} {len code sym : Nat}
    (h : symbolOf t len code = some sym) :
    ∃ e ∈ t, e.len = len ∧ e.code = code ∧ e.sym = sym := by
  simp only [symbolOf, Option.map_eq_some_iff] at h
  obtain ⟨e, he, rfl⟩ := h
  have h1 := List.mem_of_find?_eq_some he
  have h2 := List.find?_some he
  simp only [Bool.and_eq_true, beq_iff_eq] at h2
  exact ⟨e, h1, h2.1, h2.2, rfl⟩

theorem symbolOf_eq_none {t : HuffTable} {len code : Nat} (h : symbolOf t len code = none) :
    ∀ e ∈ t, e.len = len → e.code ≠ code := by
  simp only [symbolOf, Option.map_eq_none_iff, List.find?_eq_none] at h
  intro e he hl hc
  exact h e he (by simp [hl, hc])

/-- The rest of HuffDecode when `len` bits from position k on have been read: the first length
above `len` with a codeword in the table, FormatError after `left` more bits, or EndOfStream
where the stream ends before. -/
theorem sat_huffLoop (t : HuffTable) (left len k : Nat) {s : State} (h : Ref.Ready s)
    (hk : s.csr.bitpos.toNat = k + len) :
    Sat (huffLoop t left len (Ref.bits s k len)) s
      (fun sym u => ∃ e ∈ t, e.sym = sym ∧ len < e.len ∧ e.len ≤ len + left ∧
        Ref.CodewordAt s k e ∧ Ref.InStream s (k + e.len) ∧ u = setBitpos (k + e.len) s ∧
        ∀ e' ∈ t, len < e'.len → e'.len < e.len → ¬ Ref.CodewordAt s k e')
      (fun e u => (e = .raised .formatError ∧ left ≤ bitsLeft s ∧
          u = setBitpos (k + len + left) s ∧
          ∀ e' ∈ t, len < e'.len → e'.len ≤ len + left → ¬ Ref.CodewordAt s k e') ∨
        (e = .raised .endOfStream ∧ bitsLeft s < left ∧
          u = setBitpos (k + len + bitsLeft s) s ∧
          ∀ e' ∈ t, len < e'.len → e'.len ≤ len + bitsLeft s → ¬ Ref.CodewordAt s k e')) := by
  induction left generalizing len s with
  | zero =>
    simp only [huffLoop, sat_raise]
    refine Or.inl ⟨trivial, Nat.zero_le _, ?_, fun e' _ h1 h2 => by omega⟩
    rw [Nat.add_zero, ← hk, setBitpos_self]
  | succ left ih =>
    simp only [huffLoop, sat_bind]
    rw [sat_readBits_ready h]
    split
    · rename_i hl
      have h0 : bitsLeft s = 0 := by omega
      refine Or.inr ⟨rfl, by omega, ?_, fun e' _ h1 h2 => by omega⟩
      rw [h0, Nat.add_zero, ← hk, setBitpos_self]
    · rename_i hl
      have hin : Ref.InStream s (k + len + 1) := by
        simp only [Ref.InStream, bitsLeft] at *; omega
      have hlt := h.lt_of_inStream hin
      have hval : 2 * Ref.bits s k len + Ref.bits s s.csr.bitpos.toNat 1 =
          Ref.bits s k (len + 1) := by rw [bits_one, hk, bits_succ]
      rw [hval, hk]
      cases hsym : symbolOf t (len + 1) (Ref.bits s k (len + 1)) with
      | some sym =>
        obtain ⟨e, he, h1, h2, h3⟩ := symbolOf_eq_some hsym
        simp only [sat_pure]
        refine ⟨e, he, h3, by omega, by omega, ?_, ?_, ?_, fun e' _ h4 h5 => by omega⟩
        · simp only [Ref.CodewordAt]; rw [h1, h2]
        · rw [h1]; exact hin
        · rw [h1]; rfl
      | none =>
        have hno := symbolOf_eq_none hsym
        have hbl : bitsLeft (setBitpos (k + len + 1) s) = bitsLeft s - 1 := by
          rw [bitsLeft_setBitpos hlt]; simp only [bitsLeft]; omega
        have hno' : ∀ e' ∈ t, len < e'.len → ¬ len + 1 < e'.len → ¬ Ref.CodewordAt s k e' := by
          intro e' he' h1 h2 hc
          have : e'.len = len + 1 := by omega
          refine hno e' he' this ?_
          simp only [Ref.CodewordAt, this] at hc
          exact hc.symm
        have := @ih (len + 1) (setBitpos (k + len + 1) s) (h.setBitpos _)
          (by rw [setBitpos_csr_bitpos, BitVec.toNat_ofNat, Nat.mod_eq_of_lt hlt, Nat.add_assoc])
        rw [bits_setBitpos] at this
        refine this.imp ?_ ?_
        · rintro sym u ⟨e, he, h1, h2, h3, h4, h5, h6, h7⟩
          refine ⟨e, he, h1, by omega, by omega, ?_, h5, h6, fun e' he' h8 h9 => ?_⟩
          · simpa [Ref.CodewordAt] using h4
          · by_cases h10 : len + 1 < e'.len
            · simpa [Ref.CodewordAt] using h7 e' he' h10 h9
            · exact hno' e' he' h8 h10
        · rintro e u (⟨h1, h2, h3, h4⟩ | ⟨h1, h2, h3, h4⟩)
          · refine Or.inl ⟨h1, by omega, ?_, fun e' he' h5 h6 => ?_⟩
            · rw [h3, setBitpos_setBitpos]; congr 1; omega
            · by_cases h10 : len + 1 < e'.len
              · simpa [Ref.CodewordAt] using h4 e' he' h10 (by omega)
              · exact hno' e' he' h5 h10
          · refine Or.inr ⟨h1, by omega, ?_, fun e' he' h5 h6 => ?_⟩
            · rw [h3, setBitpos_setBitpos, hbl]; congr 1; omega
            · by_cases h10 : len + 1 < e'.len
              · simpa [Ref.CodewordAt] using h4 e' he' h10 (by omega)
              · exact hno' e' he' h5 h10

/-- What HuffDecode does, for any tables: the first codeword that stands at the cursor,
FormatError with MAXLEN bits consumed, or EndOfStream with the rest of the stream consumed
(41_huffman.md R164, R165). -/
theorem sat_huffDecode (p : Params) (b : Book) {s : State} (h : Ref.Ready s) :
    Sat (huffDecode p b) s
      (fun sym u => ∃ e ∈ p.hcb b, e.sym = sym ∧ 0 < e.len ∧ e.len ≤ p.maxLen b ∧
        Ref.CodewordAt s s.csr.bitpos.toNat e ∧
        Ref.InStream s (s.csr.bitpos.toNat + e.len) ∧
        u = setBitpos (s.csr.bitpos.toNat + e.len) s ∧
        ∀ e' ∈ p.hcb b, 0 < e'.len → e'.len < e.len →
          ¬ Ref.CodewordAt s s.csr.bitpos.toNat e')
      (fun e u => (e = .raised .formatError ∧ p.maxLen b ≤ bitsLeft s ∧
          u = setBitpos (s.csr.bitpos.toNat + p.maxLen b) s ∧
          ∀ e' ∈ p.hcb b, 0 < e'.len → e'.len ≤ p.maxLen b →
            ¬ Ref.CodewordAt s s.csr.bitpos.toNat e') ∨
        (e = .raised .endOfStream ∧ bitsLeft s < p.maxLen b ∧
          u = setBitpos (s.csr.bitpos.toNat + bitsLeft s) s ∧
          ∀ e' ∈ p.hcb b, 0 < e'.len → e'.len ≤ bitsLeft s →
            ¬ Ref.CodewordAt s s.csr.bitpos.toNat e')) := by
  have := sat_huffLoop (p.hcb b) (p.maxLen b) 0 s.csr.bitpos.toNat h (by simp)
  simpa [huffDecode, bits_zero] using this

/-- Two codewords of a valid table that stand at the same place are the same. -/
theorem codewordAt_unique {b : Book} {t : HuffTable} (ht : Rom.validTable b t = true) {s : State}
    {k : Nat} {e e' : HuffEntry} (he : e ∈ t) (he' : e' ∈ t) (h : Ref.CodewordAt s k e)
    (h' : Ref.CodewordAt s k e') : e = e' := by
  have key : ∀ {e e' : HuffEntry}, e ∈ t → e' ∈ t → Ref.CodewordAt s k e → Ref.CodewordAt s k e' →
      e.len ≤ e'.len → e = e' := by
    intro e e' he he' h h' hl
    refine validTable_prefix ht he he' ?_
    simp only [Rom.isPrefix, Bool.and_eq_true, decide_eq_true_eq, beq_iff_eq]
    refine ⟨hl, ?_⟩
    simp only [Ref.CodewordAt] at h h'
    rw [← h, ← h', bits_prefix s k e.len (e'.len - e.len), Nat.add_sub_cancel' hl]
  rcases Nat.le_total e.len e'.len with hl | hl
  · exact key he he' h h' hl
  · exact (key he' he h' h hl).symm

/-- A primitive of the decoder stops early: the fault and the cursor are as `R` says, and nothing
else has changed. -/
def FailsAt (R : BlockFault → Nat → Prop) (s : State) (e : Stop) (u : State) : Prop :=
  Advance s u ∧ ∃ f k', e = .raised f ∧ R f k' ∧ u = setBitpos k' s

theorem maxLen_eq (b : Book) : blockParams.maxLen b = Ref.maxLen b := by
  rcases b with _ | b
  · rfl
  · cases b <;> rfl

theorem nsym_eq (b : Book) : b.nsym = Ref.nsym b := by
  rcases b with _ | b
  · rfl
  · cases b <;> rfl

@[simp] theorem bookRow_dim (b : SpecBook) : (Ref.bookRow b).dim = b.dim := by cases b <;> rfl

@[simp] theorem bookRow_signed (b : SpecBook) : (Ref.bookRow b).signed = b.signed := by
  cases b <;> rfl

/-- The tables of the block are a legal ROM, whatever their free contents. -/
theorem legalRom_hcb : Ref.LegalRom Rom.hcb := hcb_valid

variable {rom : Book → HuffTable}

/-- With legal tables HuffDecode ends normally exactly where a codeword of the table stands at the
cursor inside the stream, with its symbol and the cursor after it. -/
theorem sat_huffDecode_rom (hl : Ref.LegalRom rom) (b : Book) {s : State} (h : Ref.Ready s) :
    Sat (huffDecode (Ref.withRom rom) b) s
      (fun sym u => ∃ k', Ref.SymbolAt rom s b s.csr.bitpos.toNat sym k' ∧ u = setBitpos k' s)
      (FailsAt (Ref.SymbolFails rom s b s.csr.bitpos.toNat) s) := by
  have hm : (Ref.withRom rom).maxLen b = Ref.maxLen b := maxLen_eq b
  have hh : (Ref.withRom rom).hcb = rom := rfl
  have hle : ∀ e ∈ rom b, 0 < e.len ∧ e.len ≤ Ref.maxLen b := fun e he => by
    have := validTable_entry (hl b) he
    have h2 : Rom.maxLen b = Ref.maxLen b := maxLen_eq b
    omega
  refine (sat_huffDecode (Ref.withRom rom) b h).imp ?_ ?_
  · rintro sym u ⟨e, he, h1, -, -, h4, h5, h6, -⟩
    exact ⟨_, ⟨e, he, h4, h1, rfl, h5⟩, h6⟩
  · rw [hm, hh]
    rintro e u (⟨rfl, h2, h3, h4⟩ | ⟨rfl, h2, h3, h4⟩)
    · refine ⟨⟨_, h3, by omega, by omega⟩, _, _, rfl, ⟨rfl, ?_, fun e' he' => ?_⟩, h3⟩
      · rcases Nat.eq_zero_or_pos (Ref.maxLen b) with h5 | h5
        · obtain ⟨e', he', -⟩ := validTable_symbol (hl b) (s := 0) (by
            rw [nsym_eq]; rcases b with _ | b
            · decide
            · cases b <;> decide)
          have := hle e' he'; omega
        · simp only [Ref.InStream, bitsLeft] at *; omega
      · exact h4 e' he' (hle e' he').1 (hle e' he').2
    · have hk : s.csr.bitpos.toNat + bitsLeft s =
          max s.csr.bitpos.toNat (8 * s.csr.ilen.toNat) := by
        simp only [bitsLeft]; omega
      refine ⟨⟨_, h3, by omega, le_refl _⟩, _, _, rfl, ⟨hk, by omega, fun e' he' h5 => ?_⟩, h3⟩
      exact h4 e' he' (hle e' he').1 (by omega)

/-- The symbol at a place in the stream and where it ends are unique. -/
theorem symbolAt_unique (hl : Ref.LegalRom rom) {s : State} {b : Book} {k sym k' sym' k'' : Nat}
    (h : Ref.SymbolAt rom s b k sym k') (h' : Ref.SymbolAt rom s b k sym' k'') :
    sym = sym' ∧ k' = k'' := by
  obtain ⟨e, he, h1, rfl, rfl, -⟩ := h
  obtain ⟨e', he', h1', rfl, rfl, -⟩ := h'
  have := codewordAt_unique (hl b) he he' h1 h1'
  subst this
  exact ⟨rfl, rfl⟩

/-- Where HuffDecode fails no codeword stands. -/
theorem symbolFails_not_at {s : State} {b : Book} {k k' sym k'' : Nat} {f : BlockFault}
    (h : Ref.SymbolFails rom s b k f k') : ¬ Ref.SymbolAt rom s b k sym k'' := by
  rintro ⟨e, he, h1, -, rfl, h2⟩
  cases f with
  | formatError => exact h.2.2 e he h1
  | endOfStream =>
    refine h.2.2 e he ?_ h1
    have := h.1
    simp only [Ref.InStream] at h2; omega
  | unsupportedProfile => exact h
  | cmdError => exact h

/-- How HuffDecode fails at a place in the stream is unique. -/
theorem symbolFails_unique {s : State} {b : Book} {k k' k'' : Nat} {f f' : BlockFault}
    (h : Ref.SymbolFails rom s b k f k') (h' : Ref.SymbolFails rom s b k f' k'') :
    f = f' ∧ k' = k'' := by
  cases f <;> cases f' <;>
    simp only [Ref.SymbolFails, Ref.InStream, reduceCtorEq, true_and, false_and] at * <;> omega

/-! ### Sign bits -/

theorem signCount_cons (v : Int) (vs : List Int) :
    Ref.signCount (v :: vs) = (if v = 0 then 0 else 1) + Ref.signCount vs := by
  simp only [Ref.signCount, List.countP_cons]
  split <;> simp_all [Nat.add_comm]

theorem signedValue_cons_zero (s : State) (k : Nat) (v : Int) (vs : List Int) :
    Ref.signedValue s k (v :: vs) 0 = if v ≠ 0 ∧ Ref.bit s k = 1 then -v else v := by
  simp [Ref.signedValue, Ref.signCount]

theorem signedValue_cons_succ (s : State) (k : Nat) (v : Int) (vs : List Int) (j : Nat) :
    Ref.signedValue s k (v :: vs) (j + 1) =
      Ref.signedValue s (k + if v = 0 then 0 else 1) vs j := by
  simp only [Ref.signedValue, List.getD_cons_succ, List.take_succ_cons, signCount_cons,
    Nat.add_assoc]

theorem signedValue_setBitpos (i k : Nat) (s : State) (v : List Int) (j : Nat) :
    Ref.signedValue (setBitpos i s) k v j = Ref.signedValue s k v j := by
  simp [Ref.signedValue]

/-- The signed values of a tuple, read one bit after another. -/
theorem map_signedValue_cons (s : State) (k : Nat) (v : Int) (vs : List Int) :
    (List.range (v :: vs).length).map (Ref.signedValue s k (v :: vs)) =
      (if v ≠ 0 ∧ Ref.bit s k = 1 then -v else v) ::
        (List.range vs.length).map (Ref.signedValue s (k + if v = 0 then 0 else 1) vs) := by
  rw [List.length_cons, List.range_succ_eq_map, List.map_cons, signedValue_cons_zero,
    List.map_map]
  congr 1
  refine List.map_congr_left fun j _ => ?_
  exact signedValue_cons_succ s k v vs j

/-- What reading the sign bits of a tuple does (41_huffman.md R167). -/
theorem sat_signBits (v : List Int) {s : State} (h : Ref.Ready s) :
    Sat (signBits v) s
      (fun out u => out = (List.range v.length).map (Ref.signedValue s s.csr.bitpos.toNat v) ∧
        Ref.signCount v ≤ bitsLeft s ∧ u = setBitpos (s.csr.bitpos.toNat + Ref.signCount v) s)
      (fun e u => e = .raised .endOfStream ∧ bitsLeft s < Ref.signCount v ∧
        u = setBitpos (s.csr.bitpos.toNat + bitsLeft s) s) := by
  induction v generalizing s with
  | nil => exact ⟨rfl, Nat.zero_le _, (setBitpos_self s).symm⟩
  | cons v vs ih =>
    rw [map_signedValue_cons, signCount_cons]
    by_cases hv : v = 0
    · simp only [signBits, hv, if_true, sat_bind, sat_pure, Nat.zero_add, Nat.add_zero]
      refine (ih h).imp (fun out u ho => ?_) fun e u he => he
      exact ⟨by simp [ho.1], ho.2⟩
    · simp only [signBits, hv, if_false, sat_bind, sat_pure]
      rw [sat_readBits_ready h]
      split
      · rename_i hl
        refine ⟨rfl, by omega, ?_⟩
        have : bitsLeft s = 0 := by omega
        rw [this, Nat.add_zero, setBitpos_self]
      · rename_i hl
        have hin : Ref.InStream s (s.csr.bitpos.toNat + 1) := by
          simp only [Ref.InStream, bitsLeft] at *; omega
        have hlt := h.lt_of_inStream hin
        have hpos : (setBitpos (s.csr.bitpos.toNat + 1) s).csr.bitpos.toNat =
            s.csr.bitpos.toNat + 1 := by
          rw [setBitpos_csr_bitpos, BitVec.toNat_ofNat, Nat.mod_eq_of_lt hlt]
        have hbl : bitsLeft (setBitpos (s.csr.bitpos.toNat + 1) s) = bitsLeft s - 1 := by
          rw [bitsLeft_setBitpos hlt]; simp only [bitsLeft]; omega
        have := @ih (setBitpos (s.csr.bitpos.toNat + 1) s) (h.setBitpos _)
        rw [hpos, hbl] at this
        refine this.imp ?_ ?_
        · rintro out u ⟨h1, h2, h3⟩
          refine ⟨?_, by omega, ?_⟩
          · rw [h1, bits_one]
            simp only [hv, ne_eq, not_false_eq_true, true_and]
            rfl
          · rw [h3, setBitpos_setBitpos]; congr 1; omega
        · rintro e u ⟨h1, h2, h3⟩
          refine ⟨h1, by omega, ?_⟩
          rw [h3, setBitpos_setBitpos]; congr 1; omega

/-! ### Escape codes -/

/-- What the prefix of an escape code does when n ones have been read from position k on. -/
theorem sat_escapePrefix (left n k : Nat) {s : State} (h : Ref.Ready s)
    (hk : s.csr.bitpos.toNat = k + n) (hones : ∀ i < n, Ref.bit s (k + i) = 1) :
    Sat (escapePrefix left n) s
      (fun m u => m ≤ n + left ∧ (∀ i < m, Ref.bit s (k + i) = 1) ∧ Ref.bit s (k + m) = 0 ∧
        Ref.InStream s (k + m + 1) ∧ u = setBitpos (k + m + 1) s)
      (fun e u => Advance s u ∧
        ((e = .raised .formatError ∧ u = setBitpos (k + (n + left + 1)) s ∧
            Ref.InStream s (k + (n + left + 1)) ∧ ∀ i < n + left + 1, Ref.bit s (k + i) = 1) ∨
          (e = .raised .endOfStream ∧ u = setBitpos (s.csr.bitpos.toNat + bitsLeft s) s ∧
            bitsLeft s ≤ left ∧ ∀ i, Ref.InStream s (k + i + 1) → Ref.bit s (k + i) = 1))) := by
  induction left generalizing n s with
  | zero =>
    unfold escapePrefix
    simp only [sat_bind]
    rw [sat_readBits_ready h]
    split
    · rename_i hl
      refine ⟨.refl s, Or.inr ⟨rfl, ?_, by omega, fun i hi => hones i ?_⟩⟩
      · rw [show bitsLeft s = 0 by omega, Nat.add_zero, setBitpos_self]
      · simp only [Ref.InStream, bitsLeft] at *; omega
    · rename_i hl
      have hin : Ref.InStream s (k + n + 1) := by
        simp only [Ref.InStream, bitsLeft] at *; omega
      rw [bits_one, hk]
      split
      · rename_i hb
        simp only [sat_raise]
        refine ⟨⟨_, rfl, by omega, by omega⟩, Or.inl ⟨trivial, rfl, hin, fun i hi => ?_⟩⟩
        rcases Nat.lt_or_ge i n with h1 | h1
        · exact hones i h1
        · have : i = n := by omega
          rw [this]; exact hb
      · rename_i hb
        simp only [sat_pure]
        have := bit_le_one s (k + n)
        exact ⟨by omega, hones, by omega, hin, trivial⟩
  | succ left ih =>
    unfold escapePrefix
    simp only [sat_bind]
    rw [sat_readBits_ready h]
    split
    · rename_i hl
      refine ⟨.refl s, Or.inr ⟨rfl, ?_, by omega, fun i hi => hones i ?_⟩⟩
      · rw [show bitsLeft s = 0 by omega, Nat.add_zero, setBitpos_self]
      · simp only [Ref.InStream, bitsLeft] at *; omega
    · rename_i hl
      have hin : Ref.InStream s (k + n + 1) := by
        simp only [Ref.InStream, bitsLeft] at *; omega
      have hlt := h.lt_of_inStream hin
      rw [bits_one, hk]
      split
      · rename_i hb
        have hbl : bitsLeft (setBitpos (k + n + 1) s) = bitsLeft s - 1 := by
          rw [bitsLeft_setBitpos hlt]; simp only [bitsLeft]; omega
        have hpos : (setBitpos (k + n + 1) s).csr.bitpos.toNat = k + (n + 1) := by
          rw [setBitpos_csr_bitpos, BitVec.toNat_ofNat, Nat.mod_eq_of_lt hlt, Nat.add_assoc]
        have := @ih (n + 1) (setBitpos (k + n + 1) s) (h.setBitpos _) hpos (fun i hi => by
          rw [bit_setBitpos]
          rcases Nat.lt_or_ge i n with h1 | h1
          · exact hones i h1
          · have : i = n := by omega
            rw [this]; exact hb)
        refine this.imp ?_ ?_
        · rintro m u ⟨h1, h2, h3, h4, h5⟩
          exact ⟨by omega, by simpa using h2, by simpa using h3, h4, by simpa using h5⟩
        · rintro e u ⟨⟨k', h1, h2, h2'⟩, h3⟩
          rw [hpos] at h2 h2'
          rw [hbl] at h2'
          refine ⟨⟨k', by simpa using h1, by omega, by omega⟩, ?_⟩
          rcases h3 with ⟨h3, h5, h6, h4⟩ | ⟨h3, h5, h6, h4⟩
          · rw [show n + 1 + left + 1 = n + (left + 1) + 1 by omega] at *
            exact Or.inl ⟨h3, by simpa using h5, h6, fun i hi => by simpa using h4 i hi⟩
          · refine Or.inr ⟨h3, ?_, by omega, fun i hi => by simpa using h4 i hi⟩
            rw [h5, setBitpos_setBitpos, hpos, hbl]; congr 1; omega
      · rename_i hb
        simp only [sat_pure]
        have := bit_le_one s (k + n)
        exact ⟨by omega, hones, by omega, hin, trivial⟩

/-- What Escape does: it ends normally exactly where an escape code stands at the cursor. -/
theorem sat_escape {s : State} (h : Ref.Ready s) :
    Sat (escape (Ref.withRom rom)) s
      (fun m u => ∃ k', Ref.EscapeAt s s.csr.bitpos.toNat m k' ∧ u = setBitpos k' s)
      (FailsAt (Ref.EscapeFails s s.csr.bitpos.toNat) s) := by
  simp only [escape, sat_bind, sat_pure]
  refine (sat_escapePrefix (Ref.withRom rom).escMaxN 0 s.csr.bitpos.toNat h (by simp)
    (by simp)).imp ?_ ?_
  · rintro n u ⟨h1, h2, h3, h4, rfl⟩
    have h1' : n ≤ 8 := by simpa [Ref.withRom, blockParams] using h1
    have hlt := h.lt_of_inStream h4
    have hpos : (setBitpos (s.csr.bitpos.toNat + n + 1) s).csr.bitpos.toNat =
        s.csr.bitpos.toNat + n + 1 := by
      rw [setBitpos_csr_bitpos, BitVec.toNat_ofNat, Nat.mod_eq_of_lt hlt]
    have hbl : bitsLeft (setBitpos (s.csr.bitpos.toNat + n + 1) s) = bitsLeft s - (n + 1) := by
      rw [bitsLeft_setBitpos hlt]; simp only [bitsLeft]; omega
    rw [sat_readBits_ready (h.setBitpos _), hpos, hbl]
    split
    · rename_i hl
      refine ⟨⟨_, rfl, by omega, ?_⟩, _, _, rfl, Or.inr ⟨n, h1', h2, h3, rfl, h4, ?_⟩, rfl⟩
      · simp only [Ref.InStream, bitsLeft] at *; omega
      · simp only [Ref.InStream, bitsLeft] at *; omega
    · rename_i hl
      refine ⟨_, ⟨n, h1', h2, h3, by rw [bits_setBitpos], rfl, ?_⟩, ?_⟩
      · simp only [Ref.InStream, bitsLeft] at *; omega
      · rw [setBitpos_setBitpos]; congr 1; omega
  · rintro e u ⟨h1, h2⟩
    have h8 : (Ref.withRom rom).escMaxN = 8 := rfl
    rw [h8] at h2
    rcases h2 with ⟨rfl, h2, h3, h4⟩ | ⟨rfl, h2, h3, h4⟩
    · exact ⟨h1, _, _, rfl, ⟨rfl, by simpa using h3, by simpa using h4⟩, by simpa using h2⟩
    · refine ⟨h1, _, _, rfl, Or.inl ⟨?_, by omega, fun i hi => h4 i ?_⟩, h2⟩
      · simp only [bitsLeft]; omega
      · simp only [Ref.InStream, bitsLeft] at *; omega

/-- The prefix of an escape code ends at one place. -/
theorem prefix_unique {s : State} {k n n' : Nat} (h1 : ∀ i < n, Ref.bit s (k + i) = 1)
    (h2 : Ref.bit s (k + n) = 0) (h1' : ∀ i < n', Ref.bit s (k + i) = 1)
    (h2' : Ref.bit s (k + n') = 0) : n' = n := by
  rcases Nat.lt_trichotomy n' n with h9 | h9 | h9
  · rw [h1 n' h9] at h2'; exact absurd h2' (by decide)
  · exact h9
  · rw [h1' n h9] at h2; exact absurd h2 (by decide)

theorem escapeAt_unique {s : State} {k : Nat} {m m' : Int} {k' k'' : Nat}
    (h : Ref.EscapeAt s k m k') (h' : Ref.EscapeAt s k m' k'') : m = m' ∧ k' = k'' := by
  obtain ⟨n, -, h1, h2, rfl, rfl, -⟩ := h
  obtain ⟨n', -, h1', h2', rfl, rfl, -⟩ := h'
  obtain rfl := prefix_unique h1 h2 h1' h2'
  exact ⟨rfl, rfl⟩

/-- Where Escape fails no escape code stands. -/
theorem escapeFails_not_at {s : State} {k k' k'' : Nat} {m : Int} {f : BlockFault}
    (h : Ref.EscapeFails s k f k') : ¬ Ref.EscapeAt s k m k'' := by
  rintro ⟨n, h8, h1, h2, -, rfl, h3⟩
  have hno : ∀ {i}, i = n → Ref.bit s (k + i) = 1 → False := by
    rintro i rfl h; rw [h] at h2; exact absurd h2 (by decide)
  cases f with
  | formatError => exact hno rfl (h.2.2 n (by omega))
  | endOfStream =>
    rcases h with ⟨h4, h5, h6⟩ | ⟨n', -, h4, h5, -, -, h6⟩
    · refine hno rfl (h6 n ?_)
      simp only [Ref.InStream] at h3; omega
    · obtain rfl := prefix_unique h1 h2 h4 h5
      exact h6 h3
  | unsupportedProfile => exact h
  | cmdError => exact h

/-- How Escape fails at a place in the stream is unique. -/
theorem escapeFails_unique {s : State} {k k' k'' : Nat} {f f' : BlockFault}
    (h : Ref.EscapeFails s k f k') (h' : Ref.EscapeFails s k f' k'') : f = f' ∧ k' = k'' := by
  have key : ∀ {n i : Nat}, Ref.bit s (k + n) = 0 → i = n → Ref.bit s (k + i) = 1 → False := by
    rintro n i h rfl h1; rw [h1] at h; exact absurd h (by decide)
  cases f <;> cases f' <;>
    simp only [Ref.EscapeFails, Ref.InStream, reduceCtorEq, true_and, false_and] at *
  · rcases h with ⟨h1, h2, h3⟩ | ⟨n, h1, h2, h3, h4, h5, h6⟩ <;>
      rcases h' with ⟨h1', h2', h3'⟩ | ⟨n', h1', h2', h3', h4', h5', h6'⟩
    · omega
    · exact (key h3' rfl (h3 n' (by omega))).elim
    · exact (key h3 rfl (h3' n (by omega))).elim
    · obtain rfl := prefix_unique h2 h3 h2' h3'
      omega
  · rcases h with ⟨h1, h2, h3⟩ | ⟨n, h1, h2, h3, h4, h5, h6⟩
    · omega
    · exact (key h3 rfl (h'.2.2 n (by omega))).elim
  · rcases h' with ⟨h1, h2, h3⟩ | ⟨n, h1, h2, h3, h4, h5, h6⟩
    · omega
    · exact (key h3 rfl (h.2.2 n (by omega))).elim
  · omega

theorem escapesAt_unique {s : State} {k : Nat} {vs out out' : List Int} {k' k'' : Nat}
    (h : Ref.EscapesAt s k vs out k') (h' : Ref.EscapesAt s k vs out' k'') :
    out = out' ∧ k' = k'' := by
  induction vs generalizing k out out' with
  | nil => exact ⟨h.1.trans h'.1.symm, h.2.trans h'.2.symm⟩
  | cons v vs ih =>
    obtain ⟨m, k1, rest, h1, rfl, h2⟩ := h
    obtain ⟨m', k1', rest', h1', rfl, h2'⟩ := h'
    have hm : m = m' ∧ k1 = k1' := by
      split at h2
      · rename_i h16
        rw [if_pos h16] at h2'
        obtain ⟨x, hx, rfl⟩ := h2
        obtain ⟨x', hx', rfl⟩ := h2'
        obtain ⟨rfl, rfl⟩ := escapeAt_unique hx hx'
        exact ⟨rfl, rfl⟩
      · rename_i h16
        rw [if_neg h16] at h2'
        exact ⟨h2.1.trans h2'.1.symm, h2.2.trans h2'.2.symm⟩
    obtain ⟨rfl, rfl⟩ := hm
    obtain ⟨rfl, rfl⟩ := ih h1 h1'
    exact ⟨rfl, rfl⟩

theorem escapeAt_congr {s t : State} (hi : s.mem.ibuf = t.mem.ibuf) (hl : s.csr.ilen = t.csr.ilen)
    {k : Nat} {m : Int} {k' : Nat} : Ref.EscapeAt s k m k' ↔ Ref.EscapeAt t k m k' := by
  simp only [Ref.EscapeAt, Ref.InStream, bit_congr hi, bits_congr hi, hl]

theorem escapesAt_congr {s t : State} (hi : s.mem.ibuf = t.mem.ibuf)
    (hl : s.csr.ilen = t.csr.ilen) {k : Nat} {vs out : List Int} {k' : Nat} :
    Ref.EscapesAt s k vs out k' ↔ Ref.EscapesAt t k vs out k' := by
  induction vs generalizing k out with
  | nil => rfl
  | cons v vs ih => simp only [Ref.EscapesAt, ih, escapeAt_congr hi hl]

theorem escapeFails_congr {s t : State} (hi : s.mem.ibuf = t.mem.ibuf)
    (hl : s.csr.ilen = t.csr.ilen) {k : Nat} {f : BlockFault} {k' : Nat} :
    Ref.EscapeFails s k f k' ↔ Ref.EscapeFails t k f k' := by
  cases f <;> simp only [Ref.EscapeFails, Ref.InStream, bit_congr hi, hl]

theorem escapesFail_congr {s t : State} (hi : s.mem.ibuf = t.mem.ibuf)
    (hl : s.csr.ilen = t.csr.ilen) {k : Nat} {vs : List Int} {f : BlockFault} {k' : Nat} :
    Ref.EscapesFail s k vs f k' ↔ Ref.EscapesFail t k vs f k' := by
  induction vs generalizing k with
  | nil => rfl
  | cons v vs ih => simp only [Ref.EscapesFail, ih, escapeAt_congr hi hl, escapeFails_congr hi hl]

theorem escapesFail_setBitpos {i : Nat} {s : State} {k : Nat} {vs : List Int} {f : BlockFault}
    {k' : Nat} : Ref.EscapesFail (setBitpos i s) k vs f k' ↔ Ref.EscapesFail s k vs f k' :=
  escapesFail_congr (s := setBitpos i s) (t := s) rfl rfl

/-- Where an escape code of a tuple fails they do not all stand, and the failure is unique. -/
theorem escapesFail_not_at {s : State} {k k' k'' : Nat} {vs out : List Int} {f : BlockFault}
    (h : Ref.EscapesFail s k vs f k') : ¬ Ref.EscapesAt s k vs out k'' := by
  induction vs generalizing k out with
  | nil => exact h.elim
  | cons v vs ih =>
    rintro ⟨m, k1, rest, h1, rfl, h2⟩
    unfold Ref.EscapesFail at h
    split at h <;> rename_i h16
    · rw [if_pos h16] at h2
      obtain ⟨x, hx, -⟩ := h2
      rcases h with h | ⟨x', k1', h3, h4⟩
      · exact escapeFails_not_at h hx
      · obtain ⟨-, rfl⟩ := escapeAt_unique hx h3
        exact ih h4 h1
    · rw [if_neg h16] at h2
      rw [h2.2] at h1
      exact ih h h1

theorem escapesFail_unique {s : State} {k k' k'' : Nat} {vs : List Int} {f f' : BlockFault}
    (h : Ref.EscapesFail s k vs f k') (h' : Ref.EscapesFail s k vs f' k'') :
    f = f' ∧ k' = k'' := by
  induction vs generalizing k with
  | nil => exact h.elim
  | cons v vs ih =>
    unfold Ref.EscapesFail at h h'
    split at h <;> rename_i h16
    · rw [if_pos h16] at h'
      rcases h with h | ⟨x, k1, h1, h2⟩ <;> rcases h' with h' | ⟨x', k1', h1', h2'⟩
      · exact escapeFails_unique h h'
      · exact (escapeFails_not_at h h1').elim
      · exact (escapeFails_not_at h' h1).elim
      · obtain ⟨-, rfl⟩ := escapeAt_unique h1 h1'
        exact ih h2 h2'
    · rw [if_neg h16] at h'
      exact ih h h'

theorem escapesAt_setBitpos {i : Nat} {s : State} {k : Nat} {vs out : List Int} {k' : Nat} :
    Ref.EscapesAt (setBitpos i s) k vs out k' ↔ Ref.EscapesAt s k vs out k' :=
  escapesAt_congr (s := setBitpos i s) (t := s) rfl rfl

/-- What reading the escape codes of a tuple does. -/
theorem sat_escapes (vs : List Int) {s : State} (h : Ref.Ready s) :
    Sat (escapes (Ref.withRom rom) vs) s
      (fun out u => ∃ k', Ref.EscapesAt s s.csr.bitpos.toNat vs out k' ∧ u = setBitpos k' s ∧
        (k' = s.csr.bitpos.toNat ∨ Ref.InStream s k'))
      (FailsAt (Ref.EscapesFail s s.csr.bitpos.toNat vs) s) := by
  induction vs generalizing s with
  | nil => exact ⟨_, ⟨rfl, rfl⟩, (setBitpos_self s).symm, Or.inl rfl⟩
  | cons v vs ih =>
    by_cases h16 : v.natAbs = 16
    · simp only [escapes, h16, if_true, sat_bind, sat_pure]
      refine (sat_escape h).imp ?_ ?_
      · rintro m u ⟨k1, h1, rfl⟩
        have hin : Ref.InStream s k1 := by
          obtain ⟨n, -, -, -, -, -, h2⟩ := h1; exact h2
        have hge : s.csr.bitpos.toNat ≤ k1 := by
          obtain ⟨n, -, -, -, -, h2, -⟩ := h1; omega
        have hlt := h.lt_of_inStream hin
        have hpos : (setBitpos k1 s).csr.bitpos.toNat = k1 := by
          rw [setBitpos_csr_bitpos, BitVec.toNat_ofNat, Nat.mod_eq_of_lt hlt]
        have hih := @ih (setBitpos k1 s) (h.setBitpos _)
        rw [hpos] at hih
        refine hih.imp ?_ ?_
        · rintro out u ⟨k', h2, h3, h4⟩
          refine ⟨k', ⟨_, k1, out, escapesAt_setBitpos.1 h2, rfl, ?_⟩, by simpa using h3, ?_⟩
          · rw [if_pos h16]; exact ⟨m, h1, rfl⟩
          · rcases h4 with rfl | h4
            · exact Or.inr hin
            · exact Or.inr h4
        · rintro e u ⟨⟨k', h2, h3', h3⟩, f, k'', h4, h5, h6⟩
          rw [hpos] at h3 h3'
          rw [bitsLeft_setBitpos hlt] at h3
          refine ⟨⟨k', by simpa using h2, by omega, ?_⟩, f, k'', h4, ?_, by simpa using h6⟩
          · simp only [Ref.InStream, bitsLeft] at *; omega
          · unfold Ref.EscapesFail
            rw [if_pos h16]
            exact Or.inr ⟨m, k1, h1, escapesFail_setBitpos.1 h5⟩
      · rintro e u ⟨h1, f, k', h2, h3, h4⟩
        refine ⟨h1, f, k', h2, ?_, h4⟩
        unfold Ref.EscapesFail
        rw [if_pos h16]
        exact Or.inl h3
    · simp only [escapes, h16, if_false, sat_bind, sat_pure]
      refine (ih h).imp ?_ ?_
      · rintro out u ⟨k', h2, h3, h4⟩
        exact ⟨k', ⟨v, _, out, h2, rfl, by rw [if_neg h16]; exact ⟨rfl, rfl⟩⟩, h3, h4⟩
      · rintro e u ⟨h1, f, k', h2, h3, h4⟩
        refine ⟨h1, f, k', h2, ?_, h4⟩
        unfold Ref.EscapesFail
        rw [if_neg h16]
        exact h3

/-! ### One tuple -/

theorem length_unpacked (b : SpecBook) (sym : Nat) : (Ref.unpacked b sym).length = b.dim := by
  simp [Ref.unpacked]

/-- The values UNPACK gives a symbol of the codebook are its digits (41_huffman.md R166). -/
theorem tupleOf_eq (b : SpecBook) {sym : Nat} (h : sym < (Book.spectral b).nsym) :
    tupleOf blockParams b sym = Ref.unpacked b sym := by
  cases b <;>
    simp [Book.nsym] at h <;>
    simp [tupleOf, blockParams, Rom.unpack, Ref.unpacked, Ref.digitBase, Ref.bookRow, SpecBook.dim,
      List.range_succ] <;> omega

theorem symbolAt_lt (hl : Ref.LegalRom rom) {s : State} {b : Book} {k sym k' : Nat}
    (h : Ref.SymbolAt rom s b k sym k') : sym < b.nsym := by
  obtain ⟨e, he, -, rfl, -⟩ := h
  exact (validTable_entry (hl b) he).2.2.2

theorem tupleAt_unique (hl : Ref.LegalRom rom) {s : State} {b : SpecBook} {k : Nat}
    {v v' : List Int} {k' k'' : Nat} (h : Ref.TupleAt rom s b k v k')
    (h' : Ref.TupleAt rom s b k v' k'') : v = v' ∧ k' = k'' := by
  obtain ⟨sym, k1, u, k2, h1, h2, h3⟩ := h
  obtain ⟨sym', k1', u', k2', h1', h2', h3'⟩ := h'
  obtain ⟨rfl, rfl⟩ := symbolAt_unique hl h1 h1'
  have hu : u = u' ∧ k2 = k2' := by
    split at h2
    · rename_i hs
      rw [if_pos hs] at h2'
      exact ⟨h2.1.trans h2'.1.symm, h2.2.trans h2'.2.symm⟩
    · rename_i hs
      rw [if_neg hs] at h2'
      exact ⟨h2.1.trans h2'.1.symm, h2.2.1.trans h2'.2.1.symm⟩
  obtain ⟨rfl, rfl⟩ := hu
  split at h3
  · rename_i hb
    rw [if_pos hb] at h3'
    exact escapesAt_unique h3 h3'
  · rename_i hb
    rw [if_neg hb] at h3'
    exact ⟨h3.1.trans h3'.1.symm, h3.2.trans h3'.2.symm⟩

/-- Where HuffSpec fails no tuple stands. -/
theorem tupleFails_not_at (hl : Ref.LegalRom rom) {s : State} {b : SpecBook} {k k' k'' : Nat}
    {v : List Int} {f : BlockFault} (h : Ref.TupleFails rom s b k f k') :
    ¬ Ref.TupleAt rom s b k v k'' := by
  rintro ⟨sym', k1', u, k2, h1', h2, h3⟩
  rcases h with h | ⟨sym, k1, h1, hs, h⟩
  · exact symbolFails_not_at h h1'
  · obtain ⟨rfl, rfl⟩ := symbolAt_unique hl h1 h1'
    rw [if_neg (by rw [hs]; decide)] at h2
    obtain ⟨rfl, rfl, h4⟩ := h2
    rcases h with ⟨h, -⟩ | ⟨-, rfl, h⟩
    · exact h h4
    · exact escapesFail_not_at h (by simpa using h3)

/-- How HuffSpec fails at a place in the stream is unique. -/
theorem tupleFails_unique (hl : Ref.LegalRom rom) {s : State} {b : SpecBook} {k k' k'' : Nat}
    {f f' : BlockFault} (h : Ref.TupleFails rom s b k f k')
    (h' : Ref.TupleFails rom s b k f' k'') : f = f' ∧ k' = k'' := by
  rcases h with h | ⟨sym, k1, h1, hs, h⟩ <;> rcases h' with h' | ⟨sym', k1', h1', hs', h'⟩
  · exact symbolFails_unique h h'
  · exact (symbolFails_not_at h h1').elim
  · exact (symbolFails_not_at h' h1).elim
  · obtain ⟨rfl, rfl⟩ := symbolAt_unique hl h1 h1'
    rcases h with ⟨h2, rfl, rfl⟩ | ⟨h2, -, h⟩ <;> rcases h' with ⟨h2', rfl, rfl⟩ | ⟨h2', -, h'⟩
    · exact ⟨rfl, rfl⟩
    · exact (h2 h2').elim
    · exact (h2' h2).elim
    · exact escapesFail_unique h h'

/-- What HuffSpec does: it ends normally exactly where a tuple of the codebook stands at the
cursor, with its values and the cursor after it, and else fails as the rules say
(41_huffman.md R165, R170). -/
theorem sat_huffSpec (hl : Ref.LegalRom rom) (b : SpecBook) {s : State} (h : Ref.Ready s) :
    Sat (huffSpec (Ref.withRom rom) b) s
      (fun v u => ∃ k', Ref.TupleAt rom s b s.csr.bitpos.toNat v k' ∧ Ref.InStream s k' ∧
        u = setBitpos k' s)
      (FailsAt (Ref.TupleFails rom s b s.csr.bitpos.toNat) s) := by
  simp only [huffSpec, sat_bind]
  refine (sat_huffDecode_rom hl (.spectral b) h).imp ?_ ?_
  · rintro sym u ⟨k1, h1, rfl⟩
    have hin : Ref.InStream s k1 := by obtain ⟨e, -, -, -, -, h2⟩ := h1; exact h2
    have hge : s.csr.bitpos.toNat ≤ k1 := by obtain ⟨e, -, -, -, h2, -⟩ := h1; omega
    have hlt := h.lt_of_inStream hin
    have hpos : (setBitpos k1 s).csr.bitpos.toNat = k1 := by
      rw [setBitpos_csr_bitpos, BitVec.toNat_ofNat, Nat.mod_eq_of_lt hlt]
    rw [show tupleOf (Ref.withRom rom) b sym = Ref.unpacked b sym from
      tupleOf_eq b (symbolAt_lt hl h1)]
    have key : Sat (if b.signed then pure (Ref.unpacked b sym)
          else signBits (Ref.unpacked b sym)) (setBitpos k1 s)
        (fun v u => ∃ k2, (if b.signed then v = Ref.unpacked b sym ∧ k2 = k1
            else v = Ref.signedTuple s k1 (Ref.unpacked b sym) ∧
              k2 = k1 + Ref.signCount (Ref.unpacked b sym) ∧ Ref.InStream s k2) ∧
          k1 ≤ k2 ∧ Ref.InStream s k2 ∧ u = setBitpos k2 s)
        (fun e u => Advance s u ∧
          e = .raised .endOfStream ∧ b.signed = false ∧
          u = setBitpos (8 * s.csr.ilen.toNat) s ∧
          ¬ Ref.InStream s (k1 + Ref.signCount (Ref.unpacked b sym))) := by
      cases hs : b.signed
      · simp only [Bool.false_eq_true, if_false]
        have := sat_signBits (Ref.unpacked b sym) (h.setBitpos k1)
        rw [hpos, bitsLeft_setBitpos hlt] at this
        refine this.imp ?_ ?_
        · rintro out u ⟨h2, h3, h4⟩
          have hin2 : Ref.InStream s (k1 + Ref.signCount (Ref.unpacked b sym)) := by
            simp only [Ref.InStream] at *; omega
          refine ⟨_, ⟨?_, rfl, hin2⟩, by omega, hin2, by simpa using h4⟩
          rw [h2]
          exact List.map_congr_left fun j _ => signedValue_setBitpos _ _ _ _ _
        · rintro e u ⟨h2, h3, h4⟩
          have h5 : k1 + (8 * s.csr.ilen.toNat - k1) = 8 * s.csr.ilen.toNat := by
            simp only [Ref.InStream] at hin; omega
          rw [h5, setBitpos_setBitpos] at h4
          refine ⟨⟨_, h4, ?_, ?_⟩, h2, trivial, h4, ?_⟩ <;>
            simp only [Ref.InStream, bitsLeft] at * <;> omega
      · simp only [if_true, sat_pure]
        exact ⟨k1, ⟨trivial, rfl⟩, le_refl _, hin, rfl⟩
    have hbody : ∀ K : List Int → Cmd (List Int),
        (if b.signed = true then pure (Ref.unpacked b sym) >>= K
          else signBits (Ref.unpacked b sym) >>= K) =
        ((if b.signed = true then pure (Ref.unpacked b sym)
          else signBits (Ref.unpacked b sym)) >>= K) := by
      intro K; split <;> rfl
    rw [hbody, sat_bind]
    refine key.imp ?_ ?_
    · rintro v u ⟨k2, h2, h3, h4, rfl⟩
      have hlt2 := h.lt_of_inStream h4
      have hpos2 : (setBitpos k2 s).csr.bitpos.toNat = k2 := by
        rw [setBitpos_csr_bitpos, BitVec.toNat_ofNat, Nat.mod_eq_of_lt hlt2]
      by_cases hb : b = .b11
      · simp only [hb, if_true]
        have := sat_escapes (rom := rom) v (h.setBitpos k2)
        rw [hpos2] at this
        refine this.imp ?_ ?_
        · rintro out u ⟨k', h5, h6, h7⟩
          refine ⟨k', ⟨sym, k1, v, k2, ?_, ?_, ?_⟩, ?_, by simpa using h6⟩
          · rw [← hb]; exact h1
          · rw [← hb, bookRow_signed]; exact h2
          · rw [if_pos rfl]; exact escapesAt_setBitpos.1 h5
          · rcases h7 with rfl | h7
            · exact h4
            · exact h7
        · rintro e u ⟨⟨k', h5, h6', h6⟩, f, k'', h7, h8, h9⟩
          rw [hpos2] at h6 h6'
          rw [bitsLeft_setBitpos hlt2] at h6
          refine ⟨⟨k', by simpa using h5, by omega, ?_⟩, f, k'', h7, Or.inr ⟨sym, k1, ?_, rfl,
            Or.inr ⟨?_, rfl, ?_⟩⟩, by simpa using h9⟩
          · simp only [Ref.InStream, bitsLeft] at *; omega
          · rw [← hb]; exact h1
          all_goals
            rw [hb, if_neg (by decide)] at h2
            obtain ⟨rfl, rfl, h10⟩ := h2
          · exact h10
          · exact escapesFail_setBitpos.1 h8
      · simp only [hb, if_false, sat_pure]
        exact ⟨k2, ⟨sym, k1, v, k2, h1, by rw [bookRow_signed]; exact h2,
          by rw [if_neg hb]; exact ⟨rfl, rfl⟩⟩, h4, rfl⟩
    · rintro e u ⟨h2, h3, h4, h5, h6⟩
      exact ⟨h2, _, _, h3, Or.inr ⟨sym, k1, h1, by rw [bookRow_signed]; exact h4,
        Or.inl ⟨h6, rfl, rfl⟩⟩, h5⟩
  · rintro e u ⟨h1, f, k', h2, h3, h4⟩
    exact ⟨h1, f, k', h2, Or.inl h3, h4⟩

theorem symbolAt_le {s : State} {b : Book} {k sym k' : Nat} (h : Ref.SymbolAt rom s b k sym k') :
    k ≤ k' ∧ Ref.InStream s k' := by
  obtain ⟨e, -, -, -, rfl, h1⟩ := h
  exact ⟨Nat.le_add_right _ _, h1⟩

theorem escapesAt_le {s : State} {k : Nat} {vs out : List Int} {k' : Nat}
    (h : Ref.EscapesAt s k vs out k') : k ≤ k' ∧ out.length = vs.length := by
  induction vs generalizing k out with
  | nil => obtain ⟨rfl, rfl⟩ := h; exact ⟨le_refl _, rfl⟩
  | cons v vs ih =>
    obtain ⟨m, k1, rest, h1, rfl, h2⟩ := h
    obtain ⟨h3, h4⟩ := ih h1
    refine ⟨?_, by simp [h4]⟩
    split at h2
    · obtain ⟨x, ⟨n, -, -, -, -, h5, -⟩, -⟩ := h2; omega
    · omega

/-- A tuple has as many values as its codebook says, and ends at or after its start. -/
theorem tupleAt_le {s : State} {b : SpecBook} {k : Nat} {v : List Int} {k' : Nat}
    (h : Ref.TupleAt rom s b k v k') : k ≤ k' ∧ v.length = b.dim := by
  obtain ⟨sym, k1, u, k2, h1, h2, h3⟩ := h
  have hk := (symbolAt_le h1).1
  have hu : k1 ≤ k2 ∧ u.length = b.dim := by
    split at h2
    · rw [h2.1, h2.2]; exact ⟨le_refl _, length_unpacked b sym⟩
    · rw [h2.1, h2.2.1]
      exact ⟨Nat.le_add_right _ _, by simp [Ref.signedTuple, length_unpacked]⟩
  split at h3
  · have := escapesAt_le h3
    exact ⟨by omega, by omega⟩
  · rw [h3.1, h3.2]
    exact ⟨by omega, hu.2⟩

end Sys2Proof.Machine
end

