-- ==== Sys2Proof/Laws/Frame.lean ====
section
/-! SUPPORT. What each command body leaves alone, and that no index it computes is out of range:
one relation between the state a command starts in and any state inside it, kept by every
operation. -/

namespace Sys2Proof.Machine

open Sys2Proof

/-- `t` may be reached from `s` by writing spaces of `w` and drawing NaN patterns. -/
structure Touches (w : Space → Bool) (s t : State) : Prop where
  regs : t.regs = s.regs
  csr : t.csr = s.csr
  host : t.host = s.host
  cells : ∀ sp, w sp = false → t.mem.cells sp = s.mem.cells sp
  wf : Memory.wf s.mem = true → Memory.wf t.mem = true

/-- As `Touches`, and the cursor may have moved inside the stream. -/
structure Consumes (w : Space → Bool) (s t : State) : Prop where
  regs : t.regs = s.regs
  csr : t.csr = { s.csr with bitpos := t.csr.bitpos }
  cursor : t.csr.bitpos = s.csr.bitpos ∨ Ref.InStream s t.csr.bitpos.toNat
  host : t.host = s.host
  cells : ∀ sp, w sp = false → t.mem.cells sp = s.mem.cells sp
  wf : Memory.wf s.mem = true → Memory.wf t.mem = true

/-- A body that keeps `R` from `s` on and stops early only with a fault of the block. -/
def Within (R : State → Prop) {α : Type} (m : Cmd α) (s : State) : Prop :=
  Sat m s (fun _ t => R t) fun e t => (∃ f, e = .raised f) ∧ R t

variable {w : Space → Bool} {s t u : State} {α : Type}

theorem Touches.refl (w : Space → Bool) (s : State) : Touches w s s :=
  ⟨rfl, rfl, rfl, fun _ _ => rfl, id⟩

theorem Touches.trans (h : Touches w s t) (h' : Touches w t u) : Touches w s u :=
  ⟨h'.regs.trans h.regs, h'.csr.trans h.csr, h'.host.trans h.host,
    fun sp hsp => (h'.cells sp hsp).trans (h.cells sp hsp), fun hw => h'.wf (h.wf hw)⟩

theorem Consumes.refl (w : Space → Bool) (s : State) : Consumes w s s :=
  ⟨rfl, rfl, Or.inl rfl, rfl, fun _ _ => rfl, id⟩

theorem Consumes.ilen (h : Consumes w s t) : t.csr.ilen = s.csr.ilen := by rw [h.csr]

theorem Consumes.trans (h : Consumes w s t) (h' : Consumes w t u) : Consumes w s u := by
  refine ⟨h'.regs.trans h.regs, ?_, ?_, h'.host.trans h.host,
    fun sp hsp => (h'.cells sp hsp).trans (h.cells sp hsp), fun hw => h'.wf (h.wf hw)⟩
  · have h1 := h'.csr
    rw [h.csr] at h1
    exact h1
  · rcases h'.cursor with h2 | h2
    · rw [h2]; exact h.cursor
    · right
      simp only [Ref.InStream, h.ilen] at h2 ⊢
      exact h2

theorem Touches.consumes (h : Touches w s t) : Consumes w s t :=
  ⟨h.regs, by rw [h.csr], Or.inl (by rw [h.csr]), h.host, h.cells, h.wf⟩

theorem Consumes.ready (h : Consumes w s t) (hr : Ref.Ready s) : Ref.Ready t := by
  unfold Ref.Ready at *
  rw [h.csr]; exact hr

theorem Touches.elem (h : Touches w s t) {sp : Space} (hsp : w sp = false) (i : Nat) :
    t.elem sp i = s.elem sp i := read_of_cells_eq (h.cells sp hsp) i

theorem Consumes.elem (h : Consumes w s t) {sp : Space} (hsp : w sp = false) (i : Nat) :
    t.elem sp i = s.elem sp i := read_of_cells_eq (h.cells sp hsp) i

/-! ### Geometry is read the same throughout -/

theorem off_congr {s t : State} (h1 : ∀ i, t.elem .swbl i = s.elem .swbl i)
    (h2 : ∀ i, t.elem .swbs i = s.elem .swbs i) {c : Channel}
    (h3 : t.csr.short c = s.csr.short c) : t.off c = s.off c := by
  funext i
  simp only [State.off, h3, h1, h2]

theorem short_bitpos (r : Csr) (k : Word) (c : Channel) :
    ({ r with bitpos := k } : Csr).short c = r.short c := by cases c <;> rfl

/-- The spaces of `w` are not those the geometry is read from. -/
structure Clear (w : Space → Bool) : Prop where
  swbl : w .swbl = false
  swbs : w .swbs = false
  cb : w .cb = false

theorem Consumes.off (hw : Clear w) (h : Consumes w s t) (c : Channel) : t.off c = s.off c :=
  off_congr (fun i => h.elem hw.swbl i) (fun i => h.elem hw.swbs i)
    (by rw [h.csr]; exact short_bitpos _ _ _)

theorem Consumes.cb (hw : Clear w) (h : Consumes w s t) (c : Channel) (g b : Nat) :
    t.cb c g b = s.cb c g b := by simp only [State.cb, h.elem hw.cb]

theorem line_bitpos (r : Csr) (k : Word) (c : Channel) (g v i : Nat) :
    ({ r with bitpos := k } : Csr).line c g v i = r.line c g v i := by
  have h1 : ∀ g, ({ r with bitpos := k } : Csr).gstart c g = r.gstart c g := by
    intro g
    induction g with
    | zero => rfl
    | succ g ih =>
      simp only [Csr.gstart, ih]
      cases c <;> rfl
  simp only [Csr.line, h1]
  cases c <;> rfl

theorem Consumes.line (h : Consumes w s t) (c : Channel) (g v i : Nat) :
    t.csr.line c g v i = s.csr.line c g v i := by
  rw [h.csr]; exact line_bitpos _ _ _ _ _ _

theorem Consumes.maxsfb (h : Consumes w s t) (c : Channel) :
    t.csr.maxsfb c = s.csr.maxsfb c := by rw [h.csr]; cases c <;> rfl

theorem Consumes.ngrp (h : Consumes w s t) (c : Channel) :
    t.csr.ngrp c = s.csr.ngrp c := by rw [h.csr]; cases c <;> rfl

theorem Consumes.glen (h : Consumes w s t) (c : Channel) (g : Nat) :
    t.csr.glen c g = s.csr.glen c g := by rw [h.csr]; cases c <;> rfl

theorem Consumes.nswb (h : Consumes w s t) (c : Channel) :
    t.csr.nswb c = s.csr.nswb c := by rw [h.csr]; cases c <;> rfl

theorem Consumes.maxtns (h : Consumes w s t) (c : Channel) :
    t.csr.maxtns c = s.csr.maxtns c := by rw [h.csr]; cases c <;> rfl

theorem Consumes.wl (h : Consumes w s t) (c : Channel) : t.csr.wl c = s.csr.wl c := by
  rw [h.csr]; cases c <;> rfl

/-! ### Operations -/

variable {R : State → Prop}

theorem within_pure (a : α) (h : R s) : Within R (pure a) s := h

theorem within_raise (f : BlockFault) (h : R s) : Within R (raise (α := α) f) s := ⟨⟨f, rfl⟩, h⟩

theorem within_check (ok : Bool) (f : BlockFault) (h : R s) : Within R (check ok f) s := by
  unfold Within
  rw [sat_check]
  split
  · exact h
  · exact ⟨⟨f, rfl⟩, h⟩

theorem within_bind {β : Type} {m : Cmd β} {f : β → Cmd α} (h : Within R m s)
    (hf : ∀ b t, R t → Within R (f b) t) : Within R (m >>= f) s := by
  unfold Within at *
  rw [sat_bind]
  exact h.imp (fun b t ht => hf b t ht) fun _ _ he => he

theorem within_each {β : Type} {f : β → Cmd Unit} {l : List β} (h : R s)
    (hf : ∀ b ∈ l, ∀ t, R t → Within R (f b) t) : Within R (each f l) s :=
  sat_each_keeps h hf

theorem within_carry {β γ : Type} {f : γ → β → Cmd γ} {l : List β} {c : γ} (h : R s)
    (hf : ∀ b ∈ l, ∀ c t, R t → Within R (f c b) t) : Within R (carry f c l) s :=
  sat_carry_keeps (I := fun _ t => R t) h hf

theorem within_geomCheck (c : Channel) (h : R s) : Within R (geomCheck c) s := by
  unfold Within
  rw [sat_geomCheck]
  exact ⟨fun _ => h, fun _ => ⟨⟨_, rfl⟩, h⟩⟩

theorem Touches.nanDraws (n : Nat) (h : Touches w s t) :
    Touches w s { t with nanDraws := n } := ⟨h.regs, h.csr, h.host, h.cells, h.wf⟩

theorem Touches.write {sp : Space} (hsp : w sp = true) {i : Nat} (hi : i < sp.size)
    (v : BitVec sp.width) (h : Touches w s t) :
    Touches w s { t with mem := t.mem.write sp i v } :=
  ⟨h.regs, h.csr, h.host,
    fun sp' hsp' => (cells_write_of_ne _ _ _ (by rintro rfl; simp [hsp] at hsp')).trans
      (h.cells sp' hsp'),
    fun hw => wf_write (h.wf hw) hi v⟩

theorem Touches.writeRun {sp : Space} (hsp : w sp = true) {base : Nat}
    {vs : List (BitVec sp.width)} (hi : base + vs.length ≤ sp.size) (h : Touches w s t) :
    Touches w s { t with mem := t.mem.writeRun sp base vs } :=
  ⟨h.regs, h.csr, h.host,
    fun sp' hsp' => (cells_writeRun_of_ne _ _ _ (by rintro rfl; simp [hsp] at hsp')).trans
      (h.cells sp' hsp'),
    fun hw => wf_writeRun (h.wf hw) hi⟩

theorem Consumes.write {sp : Space} (hsp : w sp = true) {i : Nat} (hi : i < sp.size)
    (v : BitVec sp.width) (h : Consumes w s t) :
    Consumes w s { t with mem := t.mem.write sp i v } :=
  h.trans ((Touches.refl w t).write hsp hi v).consumes

theorem Consumes.writeRun {sp : Space} (hsp : w sp = true) {base : Nat}
    {vs : List (BitVec sp.width)} (hi : base + vs.length ≤ sp.size) (h : Consumes w s t) :
    Consumes w s { t with mem := t.mem.writeRun sp base vs } :=
  h.trans ((Touches.refl w t).writeRun hsp hi).consumes

theorem Consumes.setBitpos {k : Nat} (hk : k ≤ t.csr.bitpos.toNat + bitsLeft t)
    (hr : Ref.Ready t) (h : Consumes w s t) (hb : t.csr.bitpos.toNat ≤ k ∨ Ref.InStream t k) :
    Consumes w s (setBitpos k t) := by
  refine h.trans ⟨rfl, rfl, ?_, rfl, fun _ _ => rfl, id⟩
  have hlt := hr.2
  by_cases hin : Ref.InStream t k
  · right
    simp only [setBitpos_csr_bitpos, BitVec.toNat_ofNat, Nat.mod_eq_of_lt (hr.lt_of_inStream hin)]
    exact hin
  · left
    have h1 : k = t.csr.bitpos.toNat := by
      rcases hb with hb | hb
      · simp only [Ref.InStream, bitsLeft] at *; omega
      · exact absurd hb hin
    rw [h1, setBitpos_self]

theorem Consumes.advance (hr : Ref.Ready t) (h : Consumes w s t) (ha : Advance t u) :
    Consumes w s u := by
  obtain ⟨k', rfl, h1, h2⟩ := ha
  exact h.setBitpos h2 hr (Or.inl h1)

theorem within_readBits (n : Nat) (hr : Ref.Ready t) (h : Consumes w s t) :
    Within (Consumes w s) (readBits n) t := by
  unfold Within
  rw [sat_readBits_ready hr]
  split
  · exact ⟨⟨_, rfl⟩, h⟩
  · exact h.setBitpos (by omega) hr (Or.inl (by omega))

theorem within_huffDecode (b : Book) (hr : Ref.Ready t) (h : Consumes w s t) :
    Within (Consumes w s) (huffDecode blockParams b) t := by
  refine (sat_huffDecode_rom legalRom_hcb b hr).imp ?_ ?_
  · rintro sym u ⟨k', h1, rfl⟩
    have := symbolAt_le h1
    exact h.advance hr (advance_of_inStream this.1 this.2)
  · rintro e u ⟨h1, f, k', h2, -⟩
    exact ⟨⟨f, h2⟩, h.advance hr h1⟩

theorem within_huffSpec (b : SpecBook) (hr : Ref.Ready t) (h : Consumes w s t) :
    Sat (huffSpec blockParams b) t (fun v u => v.length = b.dim ∧ Consumes w s u)
      (fun e u => (∃ f, e = .raised f) ∧ Consumes w s u) := by
  refine (sat_huffSpec legalRom_hcb b hr).imp ?_ ?_
  · rintro v u ⟨k', h1, h2, rfl⟩
    have := tupleAt_le h1
    exact ⟨this.2, h.advance hr (advance_of_inStream this.1 h2)⟩
  · rintro e u ⟨h1, f, k', h2, -⟩
    exact ⟨⟨f, h2⟩, h.advance hr h1⟩

end Sys2Proof.Machine
end

