-- ==== Sys2Proof/Laws/Bodies.lean ====
section
/-! SUPPORT. For each command that runs over a channel or a pair: its body writes only its own
spaces and stops early only with a fault of the block. -/

namespace Sys2Proof.Machine

open Sys2Proof

variable {s t : State}

/-- The one space `sp`. -/
def only (sp : Space) : Space → Bool := fun sp' => sp' == sp

/-- The two spaces `sp` and `sp2`. -/
def only2 (sp sp2 : Space) : Space → Bool := fun sp' => sp' == sp || sp' == sp2

/-! ### Indices -/

theorem bandIx_lt {c : Channel} {g b : Nat} (hg : g < 8) (hb : b < 64) : bandIx c g b < 1024 := by
  have := num_le c
  unfold bandIx
  omega

theorem lineIx_lt {c : Channel} {p : Nat} (hp : p < 1024) : lineIx c p < 2048 := by
  have := num_le c
  unfold lineIx
  omega

theorem Ref.Geometry.group_lt {c : Channel} (h : Ref.Geometry s c) {g : Nat}
    (hg : g < s.csr.ngrp c) : g < 8 := by
  have := h.groups.2
  have := nwin_le s.csr c
  omega

/-! ### Single elements and lines -/

theorem sat_loadLine (sp : Space) (c : Channel) {p : Nat} (hp : p < 1024)
    (hs : sp.size = 2048) {Q : BitVec sp.width → State → Prop} {E : Stop → State → Prop} :
    Sat (loadLine sp c p) t Q E ↔ Q (Ref.line t sp c p) t := by
  unfold loadLine
  rw [if_pos hp, sat_load, if_pos (by rw [hs]; exact lineIx_lt hp)]
  rfl

theorem sat_storeLine (sp : Space) (c : Channel) {p : Nat} (hp : p < 1024)
    (hs : sp.size = 2048) (v : BitVec sp.width) {Q : Unit → State → Prop}
    {E : Stop → State → Prop} :
    Sat (storeLine sp c p v) t Q E ↔
      Q () { t with mem := t.mem.write sp (lineIx c p) v } := by
  unfold storeLine
  rw [if_pos hp, sat_store, if_pos (by rw [hs]; exact lineIx_lt hp)]

theorem sat_storeLines (sp : Space) (c : Channel) {p : Nat} {vs : List (BitVec sp.width)}
    (hp : p + vs.length ≤ 1024) (hs : sp.size = 2048) {Q : Unit → State → Prop}
    {E : Stop → State → Prop} :
    Sat (storeLines sp c p vs) t Q E ↔
      Q () { t with mem := t.mem.writeRun sp (lineIx c p) vs } := by
  have := num_le c
  unfold storeLines
  rw [if_pos hp, sat_storeRun, if_pos (by rw [hs]; unfold lineIx; omega)]

theorem lineRun_le {sp : Space} (hs : sp.size = 2048) {c : Channel} {p n : Nat}
    (hp : p + n ≤ 1024) : lineIx c p + n ≤ sp.size := by
  have := num_le c
  rw [hs]; unfold lineIx; omega

theorem lineIx_lt_size {sp : Space} (hs : sp.size = 2048) {c : Channel} {p : Nat}
    (hp : p < 1024) : lineIx c p < sp.size := by
  rw [hs]; exact lineIx_lt hp

/-! ### SFD -/

theorem clear_sf : Clear (only .sf) := ⟨rfl, rfl, rfl⟩

theorem within_storeSf {c : Channel} {gb : Nat × Nat} (hg : gb.1 < 8) (hb : gb.2 < 64) (v : Int)
    (h : Consumes (only .sf) s t) : Within (Consumes (only .sf) s) (storeSf c gb v) t := by
  unfold Within storeSf
  have hi : bandIx c gb.1 gb.2 < Space.sf.size := bandIx_lt hg hb
  rw [sat_store, if_pos hi]
  exact h.write rfl hi _

theorem within_sfdBand {c : Channel} {gb : Nat × Nat} (hg : gb.1 < 8) (hb : gb.2 < 64)
    (hr : Ref.Ready s) (k : SfCounters) (h : Consumes (only .sf) s t) :
    Within (Consumes (only .sf) s) (sfdBand blockParams c k gb) t := by
  have hst : ∀ {u : State} (v : Int), Consumes (only .sf) s u →
      Within (Consumes (only .sf) s) (storeSf c gb v) u := fun v hu => within_storeSf hg hb v hu
  have hd : ∀ {u : State}, Consumes (only .sf) s u →
      Within (Consumes (only .sf) s) (sfDelta blockParams) u := fun hu =>
    within_bind (within_huffDecode .sf (hu.ready hr) hu) fun _ _ hv => within_pure _ hv
  have hfin : ∀ {u : State} {k' : SfCounters} (v : Int), Consumes (only .sf) s u →
      Within (Consumes (only .sf) s) (storeSf c gb v >>= fun _ => pure k') u := fun v hu =>
    within_bind (hst v hu) fun _ _ hv => within_pure _ hv
  unfold Within sfdBand
  rw [sat_bind, sat_get]
  change Within _ _ _
  split
  · exact hfin _ h
  · exact within_bind (hd h) fun _ _ hu => hfin _ hu
  · exact within_bind (hd h) fun _ _ hu => hfin _ hu
  · split
    · refine within_bind (?_ : Within _ _ _) fun _ _ hu => hfin _ hu
      unfold Within
      rw [sat_map]
      exact within_readBits _ (h.ready hr) h
    · exact within_bind (hd h) fun _ _ hu => hfin _ hu
  · exact within_bind (hd h) fun _ _ hu =>
      within_bind (within_check _ _ hu) fun _ _ hv => hfin _ hv
  · exact within_bind (hd h) fun _ _ hu =>
      within_bind (within_check _ _ hu) fun _ _ hv => hfin _ hv

/-- SFD writes SF and moves the cursor inside the stream, nothing else. -/
theorem within_sfdCmd (c : Channel) (hr : Ref.Ready s) :
    Within (Consumes (only .sf) s) (sfdCmd blockParams c) s := by
  have h0 := Consumes.refl (only .sf) s
  unfold Within sfdCmd
  simp only [sat_bind, sat_get, sat_check, sat_geomCheck, sat_pure]
  split
  · refine ⟨fun hg => ?_, fun _ => ⟨⟨_, rfl⟩, h0⟩⟩
    refine within_carry (R := Consumes (only .sf) s) h0 fun gb hgb k t ht => ?_
    have hm := mem_bandList.1 hgb
    have := maxsfb_lt s.csr c
    exact within_sfdBand (hg.group_lt hm.1) (by omega) hr k ht
  · exact ⟨⟨_, rfl⟩, h0⟩

/-! ### SPD -/

theorem clear_qspec : Clear (only .qspec) := ⟨rfl, rfl, rfl⟩

theorem within_storeTuple {c : Channel} (hg : Ref.Geometry s c) {g v i : Nat} {vals : List Int}
    (hl : ∀ j < vals.length, Ref.IsLine s c g v (i + j)) (h : Consumes (only .qspec) s t) :
    Within (Consumes (only .qspec) s) (storeTuple c g v i vals) t := by
  unfold Within storeTuple
  rw [sat_bind, sat_get]
  refine within_each (R := Consumes (only .qspec) s) h fun x hx u hu => ?_
  have hj : x.2 < vals.length := (List.mem_zipIdx' hx).1
  have hp : t.csr.line c g v (i + x.2) < 1024 := by
    rw [h.line]; exact hg.line_lt_1024 (hl _ hj)
  unfold Within
  rw [sat_storeLine .qspec c hp rfl]
  exact hu.write rfl (lineIx_lt_size rfl hp) _

theorem within_spdWindow {c : Channel} (hg : Ref.Geometry s c) {b : SpecBook} {g v bd : Nat}
    (hgr : g < s.csr.ngrp c) (hv : v < s.csr.glen c g) (hbd : bd < s.csr.maxsfb c)
    (hr : Ref.Ready s) (h : Consumes (only .qspec) s t) :
    Within (Consumes (only .qspec) s)
      (spdWindow blockParams c b g (s.off c bd) (s.off c (bd + 1)) v) t := by
  refine within_each h fun k hk u hu => ?_
  unfold Within
  rw [sat_bind]
  refine (within_huffSpec b (hu.ready hr) hu).imp ?_ fun _ _ he => he
  rintro vals u' ⟨hlen, hu'⟩
  refine within_storeTuple hg (fun j hj => ?_) hu'
  have hk' := (mem_upTo.1 hk).2
  have hdim : 0 < b.dim := by cases b <;> decide
  have h1 : (k + 1) * b.dim ≤ s.off c (bd + 1) - s.off c bd :=
    (Nat.mul_le_mul_right _ hk').trans (Nat.div_mul_le_self _ _)
  have h2 : (k + 1) * b.dim = k * b.dim + b.dim := by ring
  exact hg.isLine hgr hv ⟨hbd, by omega, by omega⟩

theorem within_spdBand {c : Channel} (hg : Ref.Geometry s c) {gb : Nat × Nat}
    (hm : gb ∈ s.csr.bandList c) (hr : Ref.Ready s) (h : Consumes (only .qspec) s t) :
    Within (Consumes (only .qspec) s) (spdBand blockParams c gb) t := by
  have hm' := mem_bandList.1 hm
  unfold Within spdBand
  rw [sat_bind, sat_get]
  change Within _ _ _
  split
  · refine within_bind (within_check _ _ h) fun _ u hu => ?_
    refine within_each hu fun v hv u' hu' => ?_
    rw [h.off clear_qspec]
    refine within_spdWindow hg hm'.1 ?_ hm'.2 hr hu'
    have := (mem_upTo.1 hv).2
    rwa [h.glen] at this
  all_goals exact within_pure _ h

/-- SPD writes QSPEC and moves the cursor inside the stream, nothing else. -/
theorem within_spdCmd (c : Channel) (hr : Ref.Ready s) :
    Within (Consumes (only .qspec) s) (spdCmd blockParams c) s := by
  have h0 := Consumes.refl (only .qspec) s
  unfold Within spdCmd
  simp only [sat_bind, sat_get, sat_check, sat_geomCheck]
  split
  · refine ⟨fun hg => ?_, fun _ => ⟨⟨_, rfl⟩, h0⟩⟩
    have hfl := fl_le s.csr
    rw [sat_storeLines .qspec c (by simpa using hfl) rfl]
    exact within_each (R := Consumes (only .qspec) s)
      (h0.writeRun rfl (lineRun_le rfl (by simpa using hfl)))
      fun gb hgb t ht => within_spdBand hg hgb hr ht
  · exact ⟨⟨_, rfl⟩, h0⟩

/-! ### MS and IS -/

/-- The conditions of the stereo commands as propositions. -/
theorem pairOk_iff (s : State) : s.csr.pairOk = true ↔ Ref.Pair s := by
  simp only [Csr.pairOk, Bool.and_eq_true, beq_iff_eq, List.all_eq_true, mem_upTo]
  constructor
  · rintro ⟨⟨⟨⟨h1, h2⟩, h3⟩, h4⟩, h5⟩
    exact ⟨h1, h2, h3, h4, fun g hg => h5 g ⟨Nat.zero_le _, hg⟩⟩
  · rintro ⟨h1, h2, h3, h4, h5⟩
    exact ⟨⟨⟨⟨h1, h2⟩, h3⟩, h4⟩, fun g hg => h5 g hg.2⟩

/-- The checks of MS and IS, in their order (43_stereo.md R211). -/
theorem sat_stereoChecks {Q : Unit → State → Prop} {E : Stop → State → Prop} :
    Sat stereoChecks s Q E ↔
      (¬ Ref.Pair s → E (.raised .cmdError) s) ∧
      (Ref.Pair s → s.csr.msmode = 3 → E (.raised .formatError) s) ∧
      (Ref.Pair s → s.csr.msmode ≠ 3 →
        (Ref.Geometry s .c0 ∧ Ref.Geometry s .c1 → Q () s) ∧
        (¬ (Ref.Geometry s .c0 ∧ Ref.Geometry s .c1) → E (.raised .formatError) s)) := by
  simp only [stereoChecks, sat_bind, sat_get, sat_check, sat_geomCheck, decide_eq_true_eq]
  by_cases h1 : Ref.Pair s
  · rw [if_pos ((pairOk_iff s).2 h1)]
    by_cases h2 : s.csr.msmode = 3
    · simp [h1, h2]
    · by_cases h3 : Ref.Geometry s .c0 <;> by_cases h4 : Ref.Geometry s .c1 <;>
        simp [h1, h2, h3, h4]
  · rw [if_neg (fun h => h1 ((pairOk_iff s).1 h))]
    simp [h1]

theorem within_butterfly {i : Nat} (hi : i < 1024) (h : Touches (only .spec) s t) :
    Within (Touches (only .spec) s) (butterfly i) t := by
  unfold Within butterfly
  simp only [sat_bind, sat_drawing]
  rw [sat_loadLine .spec .c0 hi rfl, sat_loadLine .spec .c1 hi rfl,
    sat_storeLine .spec .c0 hi rfl, sat_storeLine .spec .c1 hi rfl]
  exact (((h.nanDraws _).nanDraws _).write rfl (lineIx_lt_size rfl hi) _).write rfl
    (lineIx_lt_size rfl hi) _

theorem bandLines_lt {c : Channel} (hg : Ref.Geometry s c) (h : Touches (fun sp => sp == .spec ||
    sp == .pred) s t) {gb : Nat × Nat} (hm : gb ∈ s.csr.bandList c) {p : Nat}
    (hp : p ∈ t.bandLines c gb.1 gb.2) : p < 1024 := by
  have hc := h.consumes
  have hm' := mem_bandList.1 hm
  obtain ⟨v, i, h1, h2, h3, rfl⟩ := mem_bandLines.1 hp
  rw [hc.off ⟨rfl, rfl, rfl⟩] at h2 h3
  rw [hc.glen] at h1
  rw [hc.line]
  exact hg.line_lt_1024 (hg.isLine hm'.1 h1 ⟨hm'.2, h2, h3⟩)

theorem Touches.mono {w w' : Space → Bool} (h : Touches w s t)
    (hw : ∀ sp, w sp = true → w' sp = true) : Touches w' s t :=
  ⟨h.regs, h.csr, h.host, fun sp hsp => h.cells sp (by
    cases hx : w sp
    · rfl
    · rw [hw sp hx] at hsp; exact hsp), h.wf⟩

/-- MS writes SPEC, nothing else. -/
theorem within_msCmd (s : State) : Within (Touches (only .spec) s) msCmd s := by
  have h0 := Touches.refl (only .spec) s
  unfold Within msCmd
  rw [sat_bind, sat_stereoChecks]
  refine ⟨fun _ => ⟨⟨_, rfl⟩, h0⟩, fun _ _ => ⟨⟨_, rfl⟩, h0⟩, fun _ _ =>
    ⟨fun hg => ?_, fun _ => ⟨⟨_, rfl⟩, h0⟩⟩⟩
  rw [sat_bind, sat_get]
  refine within_each (R := Touches (only .spec) s) h0 fun gb hgb t ht => ?_
  unfold Within msBand
  rw [sat_bind, sat_get]
  change Within _ _ _
  split
  · refine within_each ht fun p hp u hu => within_butterfly ?_ hu
    exact bandLines_lt hg.1 (ht.mono (by simp [only])) hgb hp
  · exact within_pure _ ht

theorem within_scaleLine {w : Space → Bool} (hw : w .spec = true) {m : F32} {i : Nat}
    (hi : i < 1024) (h : Touches w s t) : Within (Touches w s) (scaleLine m i) t := by
  unfold Within scaleLine
  simp only [sat_bind, sat_drawing]
  rw [sat_loadLine .spec .c0 hi rfl, sat_storeLine .spec .c1 hi rfl]
  exact (h.nanDraws _).write hw (lineIx_lt_size rfl hi) _

/-- IS writes SPEC and PRED, nothing else. -/
theorem within_isCmd (p : Params) (s : State) :
    Within (Touches (only2 .spec .pred) s) (isCmd p) s := by
  have h0 := Touches.refl (only2 .spec .pred) s
  unfold Within isCmd
  rw [sat_bind, sat_stereoChecks]
  refine ⟨fun _ => ⟨⟨_, rfl⟩, h0⟩, fun _ _ => ⟨⟨_, rfl⟩, h0⟩, fun _ _ =>
    ⟨fun hg => ?_, fun _ => ⟨⟨_, rfl⟩, h0⟩⟩⟩
  rw [sat_bind, sat_get]
  refine within_each (R := Touches (only2 .spec .pred) s) h0 fun gb hgb t ht => ?_
  have hb := maxsfb_lt s.csr .c0
  have hm := (mem_bandList.1 hgb).2
  have hp0 : 64 * Channel.c0.num + gb.2 < Space.pred.size := by
    simp only [Channel.num, Space.size]; omega
  have hp1 : 64 * Channel.c1.num + gb.2 < Space.pred.size := by
    simp only [Channel.num, Space.size]; omega
  unfold Within isBand
  rw [sat_bind, sat_get]
  change Within _ _ _
  split
  · unfold Within
    rw [sat_bind, sat_store, if_pos hp0, sat_bind, sat_store, if_pos hp1]
    refine within_each (R := Touches (only2 .spec .pred) s)
      ((ht.write rfl hp0 _).write rfl hp1 _) fun p hp u hu => within_scaleLine rfl ?_ hu
    exact bandLines_lt hg.1 (ht.mono (by simp [only2])) hgb hp
  · exact within_pure _ ht

/-! ### IQ -/

theorem mem_windowList {r : Csr} {c : Channel} {gw : Nat × Nat} :
    gw ∈ r.windowList c ↔ gw.1 < r.ngrp c ∧ gw.2 < r.glen c gw.1 := by
  obtain ⟨g, v⟩ := gw
  simp [Csr.windowList]

theorem clear_spec : Clear (only .spec) := ⟨rfl, rfl, rfl⟩

/-- A run of lines lo … hi - 1 of one window lies inside the channel. -/
theorem Ref.Geometry.lineRun_le {c : Channel} (hg : Ref.Geometry s c) {g v lo hi : Nat}
    (hgr : g < s.csr.ngrp c) (hv : v < s.csr.glen c g) (hlo : lo ≤ s.csr.wl c)
    (hhi : hi ≤ s.csr.wl c) : s.csr.line c g v lo + (hi - lo) ≤ 1024 := by
  have h1 := hg.window_lt hgr hv
  have h2 := fl_le s.csr
  rw [← nwin_mul_wl s.csr c] at h2
  unfold Csr.line
  have h3 : (s.csr.gstart c g + v) * s.csr.wl c + s.csr.wl c ≤
      s.csr.nwin c * s.csr.wl c := by
    have : (s.csr.gstart c g + v + 1) * s.csr.wl c ≤ s.csr.nwin c * s.csr.wl c :=
      Nat.mul_le_mul_right _ (by omega)
    calc _ = (s.csr.gstart c g + v + 1) * s.csr.wl c := by ring
      _ ≤ _ := this
  omega

theorem within_zeroLines {c : Channel} (hg : Ref.Geometry s c) {g v lo hi : Nat}
    (hgr : g < s.csr.ngrp c) (hv : v < s.csr.glen c g) (hlo : lo ≤ s.csr.wl c)
    (hhi : hi ≤ s.csr.wl c) (h : Touches (only .spec) s t) :
    Within (Touches (only .spec) s) (zeroLines c g v lo hi) t := by
  have hr := hg.lineRun_le hgr hv hlo hhi
  have hl : t.csr.line c g v lo + (List.replicate (hi - lo) (0 : BitVec Space.spec.width)).length
      ≤ 1024 := by rw [List.length_replicate, h.consumes.line]; exact hr
  unfold Within zeroLines
  rw [sat_bind, sat_get, sat_storeLines .spec c hl rfl]
  exact h.writeRun rfl (lineRun_le rfl hl)

theorem within_iqBand {p : Params} {c : Channel} (hg : Ref.Geometry s c) {gw : Nat × Nat}
    (hm : gw ∈ s.csr.windowList c) {b : Nat} (hb : b < s.csr.maxsfb c)
    (h : Touches (only .spec) s t) : Within (Touches (only .spec) s) (iqBand p c gw b) t := by
  have hm' := mem_windowList.1 hm
  have hc := h.consumes
  have hbn := hg.bands
  unfold Within iqBand
  rw [sat_bind, sat_get]
  change Within _ _ _
  split
  · refine within_each h fun q hq u hu => ?_
    obtain ⟨i, h1, h2, rfl⟩ := mem_windowLines.1 hq
    rw [hc.off clear_spec] at h1 h2
    have hp : t.csr.line c gw.1 gw.2 i < 1024 := by
      rw [hc.line]; exact hg.line_lt_1024 (hg.isLine hm'.1 hm'.2 ⟨hb, h1, h2⟩)
    unfold Within deqLine
    simp only [sat_bind, sat_drawing]
    rw [sat_loadLine .qspec c hp rfl, sat_storeLine .spec c hp rfl]
    exact (hu.nanDraws _).write rfl (lineIx_lt_size rfl hp) _
  · exact within_pure _ h
  all_goals
    rw [hc.off clear_spec]
    exact within_zeroLines hg hm'.1 hm'.2 (hg.off_le (by omega)) (hg.off_le (by omega)) h

/-- IQ writes SPEC, nothing else. -/
theorem within_iqCmd (p : Params) (c : Channel) (s : State) :
    Within (Touches (only .spec) s) (iqCmd p c) s := by
  have h0 := Touches.refl (only .spec) s
  unfold Within iqCmd
  simp only [sat_bind, sat_get, sat_geomCheck]
  refine ⟨fun hg => ?_, fun _ => ⟨⟨_, rfl⟩, h0⟩⟩
  refine within_each (R := Touches (only .spec) s) h0 fun gw hgw t ht => ?_
  have hm := mem_windowList.1 hgw
  have hc := ht.consumes
  unfold Within iqWindow
  rw [sat_bind, sat_get]
  change Within _ _ _
  refine within_bind ?_ fun _ u hu => ?_
  · refine within_each ht fun b hb u hu => within_iqBand hg hgw ?_ hu
    have := (mem_upTo.1 hb).2
    rwa [hc.maxsfb] at this
  · rw [hc.off clear_spec, hc.maxsfb, hc.wl]
    exact within_zeroLines hg hm.1 hm.2 (hg.off_le hg.bands) (le_refl _) hu

end Sys2Proof.Machine
end

