-- ==== Sys2Proof/Laws/Draw.lean ====
section
/-! SUPPORT. Floating-point results: every result the machine computes is the number IEEE 754
gives or a NaN, whichever pattern is drawn. -/

namespace Sys2Proof.Machine

open Sys2Proof

theorem toNat_ofNaN (p : NaNPattern) : (Flt.ofNaN p).toNat =
    (if p.sign then 2 ^ 31 else 0) + 255 * 2 ^ 23 + (p.payload.val + 1) := by
  have := p.payload.isLt
  simp only [Flt.ofNaN, BitVec.toNat_ofNat]
  exact Nat.mod_eq_of_lt (by split <;> omega)

theorem isNaN_ofNaN (p : NaNPattern) : Flt.isNaN (Flt.ofNaN p) = true := by
  have := p.payload.isLt
  simp only [Flt.isNaN, Flt.expField, Flt.fracField, toNat_ofNaN, Bool.and_eq_true, beq_iff_eq,
    bne_iff_ne]
  split <;> constructor <;> omega

theorem gives_resolve (o : Option F32) (k : Nat) : Ref.Gives o (resolve o k).1 := by
  cases o with
  | none => exact isNaN_ofNaN _
  | some v => rfl

theorem gives_fadd (a b : F32) (k : Nat) : Ref.Gives (Flt.add? a b) (fadd a b k).1 :=
  gives_resolve _ _

theorem gives_fsub (a b : F32) (k : Nat) : Ref.Gives (Flt.sub? a b) (fsub a b k).1 :=
  gives_resolve _ _

theorem gives_fmul (a b : F32) (k : Nat) : Ref.Gives (Flt.mul? a b) (fmul a b k).1 :=
  gives_resolve _ _

@[simp] theorem length_mapDraw {α : Type} (f : α → Nat → F32 × Nat) (l : List α) (k : Nat) :
    (mapDraw f l k).1.length = l.length := by
  induction l generalizing k with
  | nil => rfl
  | cons a l ih => simp [mapDraw, ih]

/-- Every element of a list of results is the result of its own computation. -/
theorem mapDraw_getD {α : Type} (f : α → Nat → F32 × Nat) (l : List α) (k n : Nat) (a : α)
    (h : l[n]? = some a) : ∃ k', (mapDraw f l k).1.getD n 0 = (f a k').1 := by
  induction l generalizing k n with
  | nil => simp at h
  | cons b l ih =>
    cases n with
    | zero =>
      simp only [List.getElem?_cons_zero, Option.some.injEq] at h
      subst h
      exact ⟨k, rfl⟩
    | succ n =>
      simp only [List.getElem?_cons_succ] at h
      exact ih _ n h

theorem getElem?_upTo {lo hi n : Nat} (h : n < hi - lo) : (upTo lo hi)[n]? = some (lo + n) := by
  rw [upTo_eq_map, List.getElem?_map, List.getElem?_range h]; rfl

theorem mapDraw_upTo (f : Nat → Nat → F32 × Nat) (lo hi k n : Nat) (h : n < hi - lo) :
    ∃ k', (mapDraw f (upTo lo hi) k).1.getD n 0 = (f (lo + n) k').1 :=
  mapDraw_getD f _ k n _ (getElem?_upTo h)

/-- The outputs of a transform, each the number it should be or a NaN. -/
theorem gives_transform (zs : List (Option F32)) (k n : Nat) (h : n < zs.length) :
    Ref.Gives (zs.getD n none) ((transform zs k).1.getD n 0) := by
  obtain ⟨k', hk⟩ := mapDraw_getD resolve zs k n _ (List.getElem?_eq_getElem h)
  rw [List.getD_eq_getElem?_getD, List.getElem?_eq_getElem h, Option.getD_some]
  simp only [transform]
  rw [hk]
  exact gives_resolve _ _

@[simp] theorem length_transform (zs : List (Option F32)) (k : Nat) :
    (transform zs k).1.length = zs.length := length_mapDraw _ _ _

end Sys2Proof.Machine
end

