-- ==== Sys2Proof/Laws/PerInstr.lean ====
section
/-! SUPPORT. The family MatchMask: the word of every instruction lies under its row's mask as
the row's match says (30_encoding.md R118). -/

namespace Sys2Proof.Laws.MatchMask

open Sys2Proof

/-- The column "match" of the command table (30_encoding.md R118). -/
def rowMatch : Instr → Word
  | .frst => 0x01000000#32
  | .srst => 0x02000000#32
  | .brd _ => 0x10000000#32
  | .brds _ => 0x11000000#32
  | .brb => 0x12000000#32
  | .bpk _ => 0x13000000#32
  | .bal => 0x14000000#32
  | .blf => 0x15000000#32
  | .hsf => 0x20000000#32
  | .hsp _ => 0x21000000#32
  | .sfd _ => 0x28000000#32
  | .spd _ => 0x29000000#32
  | .ms => 0x30000000#32
  | .is => 0x31000000#32
  | .tnsl _ _ _ => 0x38000000#32
  | .tns _ => 0x39000000#32
  | .iq _ => 0x40000000#32
  | .fb _ => 0x48000000#32

/-- The column "mask" of the command table (30_encoding.md R118). -/
def rowMask : Instr → Word
  | .frst => 0xFFFFFFFF#32
  | .srst => 0xFFFFFFFF#32
  | .brd _ => 0xFFFFFFC0#32
  | .brds _ => 0xFFFFFFC0#32
  | .brb => 0xFFFFFFFF#32
  | .bpk _ => 0xFFFFFFC0#32
  | .bal => 0xFFFFFFFF#32
  | .blf => 0xFFFFFFFF#32
  | .hsf => 0xFFFFFFFF#32
  | .hsp _ => 0xFFFFFFF0#32
  | .sfd _ => 0xFFFFFFFE#32
  | .spd _ => 0xFFFFFFFE#32
  | .ms => 0xFFFFFFFF#32
  | .is => 0xFFFFFFFF#32
  | .tnsl _ _ _ => 0xFFFFFFC0#32
  | .tns _ => 0xFFFFFFFE#32
  | .iq _ => 0xFFFFFFFE#32
  | .fb _ => 0xFFFFFFFE#32

/-- The word of the instruction, masked, is the row's match. -/
def Statement (i : Instr) : Prop := encode i &&& rowMask i = rowMatch i

theorem frst : Statement .frst :=
  (by decide : encode .frst &&& rowMask .frst = rowMatch .frst)

theorem srst : Statement .srst :=
  (by decide : encode .srst &&& rowMask .srst = rowMatch .srst)

theorem brd (n : BitVec 6) : Statement (.brd n) :=
  (by decide : ∀ n : BitVec 6,
    encode (.brd n) &&& rowMask (.brd n) = rowMatch (.brd n)) n

theorem brds (n : BitVec 6) : Statement (.brds n) :=
  (by decide : ∀ n : BitVec 6,
    encode (.brds n) &&& rowMask (.brds n) = rowMatch (.brds n)) n

theorem brb : Statement .brb :=
  (by decide : encode .brb &&& rowMask .brb = rowMatch .brb)

theorem bpk (n : BitVec 6) : Statement (.bpk n) :=
  (by decide : ∀ n : BitVec 6,
    encode (.bpk n) &&& rowMask (.bpk n) = rowMatch (.bpk n)) n

theorem bal : Statement .bal :=
  (by decide : encode .bal &&& rowMask .bal = rowMatch .bal)

theorem blf : Statement .blf :=
  (by decide : encode .blf &&& rowMask .blf = rowMatch .blf)

theorem hsf : Statement .hsf :=
  (by decide : encode .hsf &&& rowMask .hsf = rowMatch .hsf)

theorem hsp (cb : BitVec 4) : Statement (.hsp cb) :=
  (by decide : ∀ cb : BitVec 4,
    encode (.hsp cb) &&& rowMask (.hsp cb) = rowMatch (.hsp cb)) cb

theorem sfd (c : Channel) : Statement (.sfd c) := by
  unfold Statement; cases c <;> decide

theorem spd (c : Channel) : Statement (.spd c) := by
  unfold Statement; cases c <;> decide

theorem ms : Statement .ms :=
  (by decide : encode .ms &&& rowMask .ms = rowMatch .ms)

theorem is : Statement .is :=
  (by decide : encode .is &&& rowMask .is = rowMatch .is)

theorem tnsl (c : Channel) (w : BitVec 3) (f : BitVec 2) : Statement (.tnsl c w f) := by
  unfold Statement; cases c <;> revert w f <;> decide

theorem tns (c : Channel) : Statement (.tns c) := by
  unfold Statement; cases c <;> decide

theorem iq (c : Channel) : Statement (.iq c) := by
  unfold Statement; cases c <;> decide

theorem fb (c : Channel) : Statement (.fb c) := by
  unfold Statement; cases c <;> decide

end Sys2Proof.Laws.MatchMask
end

