-- ==== Sys2Proof/Laws/Tns.lean ====
section
/-! SUPPORT. Temporal noise shaping: the recursion from table values to filter coefficients, and
the circular filter as the direct form of 44_tns.md R239. -/

namespace Sys2Proof.Machine

open Sys2Proof

theorem getD_replicate_zero (n i : Nat) : (List.replicate n (0 : F32)).getD i 0 = 0 := by
  simp only [List.getD_eq_getElem?_getD, List.getElem?_replicate]
  split <;> rfl

/-! ### The recursion -/

/-- One step of the recursion on a row of 21 (44_tns.md R234). -/
theorem lpcStep_spec (cm : F32) (m : Nat) (a : List F32) (k : Nat) (ha : a.length = 21)
    (h1 : 1 ≤ m) (hm : m ≤ 20) :
    (lpcStep cm m a k).1.length = 21 ∧
    (lpcStep cm m a k).1.getD 0 0 = a.getD 0 0 ∧
    (∀ i, 1 ≤ i → i < m → ∃ x, Ref.Gives (Flt.mul? cm (a.getD (m - i) 0)) x ∧
      Ref.Gives (Flt.add? (a.getD i 0) x) ((lpcStep cm m a k).1.getD i 0)) ∧
    (lpcStep cm m a k).1.getD m 0 = cm ∧
    ∀ i, m < i → (lpcStep cm m a k).1.getD i 0 = a.getD i 0 := by
  obtain ⟨a0, a', rfl⟩ : ∃ a0 a', a = a0 :: a' := by
    cases a with
    | nil => simp at ha
    | cons x l => exact ⟨x, l, rfl⟩
  have hb : ∀ f : Nat → Nat → F32 × Nat, (mapDraw f (upTo 1 m) k).1.length = m - 1 := by
    intro f; rw [length_mapDraw, length_upTo]
  simp only [lpcStep, List.take_succ_cons, List.take_zero, List.cons_append, List.nil_append]
  refine ⟨?_, by simp, ?_, ?_, ?_⟩
  · simp only [List.length_cons] at ha
    simp only [List.length_cons, List.length_append, hb, List.length_drop]
    omega
  · intro i hi him
    obtain ⟨i, rfl⟩ : ∃ j, i = j + 1 := ⟨i - 1, by omega⟩
    obtain ⟨k', hk⟩ := mapDraw_upTo (fun i k =>
      fadd ((a0 :: a').getD i 0) (fmul cm ((a0 :: a').getD (m - i) 0) k).1
        (fmul cm ((a0 :: a').getD (m - i) 0) k).2) 1 m k i (by omega)
    refine ⟨_, gives_fmul _ _ k', ?_⟩
    change Ref.Gives _ (List.getD (_ ++ _) i 0)
    rw [List.getD_append _ _ _ _ (by rw [hb]; omega), hk, Nat.add_comm 1 i]
    exact gives_fadd _ _ _
  · obtain ⟨m, rfl⟩ : ∃ j, m = j + 1 := ⟨m - 1, by omega⟩
    rw [List.getD_cons_succ, List.getD_append_right _ _ _ _ (by rw [hb]; omega), hb]
    simp
  · intro i hi
    obtain ⟨i, rfl⟩ : ∃ j, i = j + 1 := ⟨i - 1, by omega⟩
    rw [List.getD_cons_succ, List.getD_append_right _ _ _ _ (by rw [hb]; omega), hb]
    obtain ⟨d, hd⟩ : ∃ d, i - (m - 1) = d + 1 := ⟨i - (m - 1) - 1, by omega⟩
    rw [hd, List.getD_cons_succ, List.getD_eq_getElem?_getD, List.getElem?_drop,
      ← List.getD_eq_getElem?_getD]
    congr 1
    omega

theorem lpcLoop_append (m : Nat) (cs : List F32) (c : F32) (a : List F32) (k : Nat) :
    lpcLoop m (cs ++ [c]) a k =
      lpcStep c (m + cs.length) (lpcLoop m cs a k).1 (lpcLoop m cs a k).2 := by
  induction cs generalizing m a k with
  | nil => rfl
  | cons x cs ih =>
    simp only [List.cons_append, lpcLoop, ih, List.length_cons]
    congr 1
    omega

theorem lpcFrom_append (cs : List F32) (c : F32) (k : Nat) :
    lpcFrom (cs ++ [c]) k = lpcStep c (cs.length + 1) (lpcFrom cs k).1 (lpcFrom cs k).2 := by
  rw [lpcFrom, lpcLoop_append, Nat.add_comm 1]; rfl

/-- What LpcFrom gives: 21 coefficients, the last of the rows of the recursion
(44_tns.md R234). -/
theorem lpcFrom_spec (cs : List F32) (k : Nat) (h : cs.length ≤ 20) :
    (lpcFrom cs k).1.length = 21 ∧ ∃ a, Ref.LpcRows (fun i => cs.getD i 0) cs.length a ∧
      ∀ i, (lpcFrom cs k).1.getD i 0 = a cs.length i := by
  induction cs using List.reverseRecOn with
  | nil =>
    refine ⟨rfl, fun _ i => (one :: List.replicate 20 (0 : F32)).getD i 0, ?_, fun _ => rfl⟩
    refine ⟨fun _ _ => rfl, fun m h1 h2 => ?_, fun m h1 h2 => ?_, fun m h1 i hi => ?_⟩
    · simp only [List.length_nil] at h2; omega
    · simp only [List.length_nil] at h2; omega
    · simp only [List.length_nil] at h1
      obtain ⟨i, rfl⟩ : ∃ j, i = j + 1 := ⟨i - 1, by omega⟩
      change (List.replicate 20 (0 : F32)).getD i 0 = 0
      exact getD_replicate_zero 20 i
  | append_singleton cs c ih =>
    simp only [List.length_append, List.length_singleton] at h ⊢
    obtain ⟨hl, a, ha, hrow⟩ := ih (by omega)
    obtain ⟨s1, s2, s3, s4, s5⟩ := lpcStep_spec c (cs.length + 1) (lpcFrom cs k).1
      (lpcFrom cs k).2 hl (by omega) (by omega)
    rw [← lpcFrom_append] at s1 s2 s3 s4 s5
    refine ⟨s1, fun m i => if m = cs.length + 1 then (lpcFrom (cs ++ [c]) k).1.getD i 0
      else a m i, ?_, fun i => (if_pos rfl).symm⟩
    have hget : ∀ i, i < cs.length → (cs ++ [c]).getD i 0 = cs.getD i 0 :=
      fun i hi => List.getD_append _ _ _ _ hi
    refine ⟨fun m hm => ?_, fun m h1 hm i hi him => ?_, fun m h1 hm => ?_, fun m hm i hi => ?_⟩
    · split
      · rw [s2, hrow]; exact ha.lead _ (le_refl _)
      · exact ha.lead m (by omega)
    · have hm' : m - 1 ≠ cs.length + 1 := by omega
      simp only [hm', if_false]
      split
      · rename_i he
        subst he
        obtain ⟨x, h2, h3⟩ := s3 i hi him
        refine ⟨x, ?_, ?_⟩
        · rw [hrow] at h2; simpa using h2
        · rw [hrow] at h3; simpa using h3
      · rw [hget _ (by omega)]
        exact ha.inner m h1 (by omega) i hi him
    · split
      · rename_i he
        subst he
        rw [s4]
        simp
      · rw [hget _ (by omega)]
        exact ha.last m h1 (by omega)
    · split
      · rename_i he
        subst he
        rw [s5 i hi, hrow]
        exact ha.above _ (le_refl _) i (by omega)
      · exact ha.above m (by omega) i hi

/-! ### A slot's coefficients -/

theorem slotOk_iff (s : State) (c : Channel) (w f : Nat) :
    s.slotOk c w f = true ↔ Ref.SlotValid s c w f := by
  simp only [State.slotOk, Ref.SlotValid, Config.tnsMaxOrder, TnsSlot.indexWidth,
    Bool.and_eq_true, List.all_eq_true, mem_upTo]
  constructor
  · rintro ⟨h1, h2⟩
    exact ⟨of_decide_eq_true h1, fun k hk => of_decide_eq_true (h2 k ⟨Nat.zero_le _, hk⟩)⟩
  · rintro ⟨h1, h2⟩
    exact ⟨decide_eq_true h1, fun k hk => decide_eq_true (h2 k hk.2)⟩

theorem length_slotCoefs (s : State) (c : Channel) (w f : Nat) :
    (s.slotCoefs blockParams c w f).length = (s.tnsf c w f).order := by
  simp [State.slotCoefs, length_upTo]

/-- The coefficients of a valid slot are those the recursion gives. -/
theorem lpcFrom_slot {s : State} {c : Channel} {w f : Nat} (h : Ref.SlotValid s c w f) (k : Nat) :
    (lpcFrom (s.slotCoefs blockParams c w f) k).1.length = 21 ∧
      Ref.LpcOf s c w f fun i => (lpcFrom (s.slotCoefs blockParams c w f) k).1.getD i 0 := by
  have hl := length_slotCoefs s c w f
  obtain ⟨h1, a, ha, hrow⟩ := lpcFrom_spec (s.slotCoefs blockParams c w f) k (by
    rw [hl]; exact h.1)
  refine ⟨h1, a, ?_, fun i _ => by rw [← hl]; exact hrow i⟩
  rw [hl] at ha
  have hc : ∀ i, i < (s.tnsf c w f).order →
      (s.slotCoefs blockParams c w f).getD i 0 = Ref.coef s c w f i := by
    intro i hi
    simp only [State.slotCoefs, List.getD_eq_getElem?_getD, List.getElem?_map,
      getElem?_upTo (show i < (s.tnsf c w f).order - 0 by omega), Nat.zero_add]
    rfl
  refine ⟨ha.lead, fun m h2 h3 i h4 h5 => ?_, fun m h2 h3 => ?_, ha.above⟩
  · rw [← hc _ (by omega)]; exact ha.inner m h2 h3 i h4 h5
  · rw [← hc _ (by omega)]; exact ha.last m h2 h3

/-! ### The filter -/

/-- The taps of one output, nearest past output first (44_tns.md R238, R239). -/
theorem arTaps_spec (buf : List F32) (si : Nat) (lpc : List F32) (n j0 : Nat) (y : F32)
    (k : Nat) :
    ∃ z : Nat → F32, z j0 = y ∧
      z (j0 + n) = (arTaps buf si lpc (upTo j0 (j0 + n)) y k).1 ∧
      ∀ j, j0 ≤ j → j < j0 + n → ∃ m,
        Ref.Gives (Flt.mul? (buf.getD (si + j) 0) (lpc.getD (j + 1) 0)) m ∧
        Ref.Gives (Flt.sub? (z j) m) (z (j + 1)) := by
  induction n generalizing j0 y k with
  | zero =>
    refine ⟨fun _ => y, rfl, ?_, fun j h1 h2 => by omega⟩
    simp [upTo, arTaps]
  | succ n ih =>
    have hu : upTo j0 (j0 + (n + 1)) = j0 :: upTo (j0 + 1) (j0 + 1 + n) := by
      simp only [upTo]
      rw [show j0 + (n + 1) - j0 = n + 1 by omega, show j0 + 1 + n - (j0 + 1) = n by omega,
        List.range'_succ]
    rw [hu]
    simp only [arTaps]
    obtain ⟨z, h1, h2, h3⟩ := ih (j0 + 1)
      (fsub y (fmul (buf.getD (si + j0) 0) (lpc.getD (j0 + 1) 0) k).1
        (fmul (buf.getD (si + j0) 0) (lpc.getD (j0 + 1) 0) k).2).1
      (fsub y (fmul (buf.getD (si + j0) 0) (lpc.getD (j0 + 1) 0) k).1
        (fmul (buf.getD (si + j0) 0) (lpc.getD (j0 + 1) 0) k).2).2
    refine ⟨fun j => if j = j0 then y else z j, by simp, ?_, fun j h4 h5 => ?_⟩
    · have : j0 + (n + 1) ≠ j0 := by omega
      simp only [this, if_false, ← h2]
      congr 1
      omega
    · by_cases hj : j = j0
      · subst hj
        refine ⟨_, gives_fmul _ _ k, ?_⟩
        have : j + 1 ≠ j := by omega
        simp only [if_true, this, if_false, h1]
        exact gives_fsub _ _ _
      · have : j + 1 ≠ j0 := by omega
        simp only [hj, this, if_false]
        exact h3 j (by omega) (by omega)

/-- The circular buffer holds the outputs `ys`, most recent first, each twice. -/
structure ArState.Holds (a : ArState) (order : Nat) (ys : List F32) : Prop where
  len : a.buf.length = 2 * order
  si : a.si < order
  recent : ∀ j < order, a.buf.getD (a.si + j) 0 = ys.getD j 0
  twice : ∀ i < order, a.buf.getD (i + order) 0 = a.buf.getD i 0

theorem getD_set (l : List F32) (i j : Nat) (v : F32) (hi : i < l.length) :
    (l.set i v).getD j 0 = if j = i then v else l.getD j 0 := by
  simp only [List.getD_eq_getElem?_getD, List.getElem?_set]
  by_cases h : i = j
  · subst h; simp [hi]
  · have : j ≠ i := fun e => h e.symm
    simp [h, this]

theorem ArState.holds_start {order : Nat} (h : 0 < order) :
    ArState.Holds { buf := List.replicate (2 * order) 0, si := 0 } order [] := by
  exact ⟨by simp, h, fun j _ => getD_replicate_zero _ _,
    fun i _ => (getD_replicate_zero _ _).trans (getD_replicate_zero _ _).symm⟩

/-- Storing an output twice and moving the index down keeps the window of recent outputs
(44_tns.md R238). -/
theorem ArState.Holds.push {a : ArState} {order : Nat} {ys : List F32} (h : a.Holds order ys)
    (y : F32) : (a.push order y).Holds order (y :: ys) := by
  have hs := h.si
  have hlen := h.len
  obtain ⟨si', hsi', hlt, hcase⟩ : ∃ si', (a.push order y).si = si' ∧ si' < order ∧
      (si' + 1 = a.si ∨ a.si = 0 ∧ si' + 1 = order) := by
    by_cases h0 : a.si = 0
    · exact ⟨order - 1, by simp [ArState.push, h0], by omega, Or.inr ⟨h0, by omega⟩⟩
    · exact ⟨a.si - 1, by simp [ArState.push, h0], by omega, Or.inl (by omega)⟩
  have hbuf : (a.push order y).buf = (a.buf.set si' y).set (si' + order) y := by
    rw [← hsi']; rfl
  have hget : ∀ i, (a.push order y).buf.getD i 0 =
      if i = si' + order then y else if i = si' then y else a.buf.getD i 0 := by
    intro i
    rw [hbuf, getD_set _ _ _ _ (by rw [List.length_set]; omega), getD_set _ _ _ _ (by omega)]
  refine ⟨by rw [hbuf]; simpa using hlen, by rw [hsi']; exact hlt, fun j hj => ?_,
    fun i hi => ?_⟩
  · rw [hsi', hget]
    cases j with
    | zero => simp
    | succ j =>
      rw [if_neg (by omega), if_neg (by omega), List.getD_cons_succ, ← h.recent j (by omega)]
      rcases hcase with hc | ⟨h0, hc⟩
      · congr 1; omega
      · rw [h0, Nat.zero_add, ← h.twice j (by omega)]
        congr 1; omega
  · rw [hget, hget]
    by_cases h1 : i = si'
    · subst h1
      rw [if_pos rfl]
      split
      · rfl
      · rw [if_pos rfl]
    · rw [if_neg (by omega), if_neg (by omega), if_neg (by omega), if_neg h1]
      exact h.twice i hi

/-- Element p of a channel after a write of one line. -/
theorem line_write (t : State) {sp : Space} (h : sp.zeroed = false) (c : Channel) (p : Nat)
    (v : BitVec sp.width) (q : Nat) :
    Ref.line { t with mem := t.mem.write sp (lineIx c p) v } sp c q =
      if q = p then v else Ref.line t sp c q := by
  unfold Ref.line
  rw [elem_write t h]
  have : (1024 * c.num + q = lineIx c p) ↔ q = p := by unfold lineIx; omega
  simp only [this]

theorem getD_reverse_map (f : Nat → F32) (l : List Nat) (j : Nat) :
    ((l.map f).reverse).getD j 0 = if j < l.length then f (l.getD (l.length - 1 - j) 0) else 0 := by
  split
  · rename_i h
    rw [List.getD_eq_getElem?_getD, List.getElem?_reverse (by simpa using h), List.length_map,
      List.getElem?_map, List.getD_eq_getElem?_getD,
      List.getElem?_eq_getElem (by omega)]
    rfl
  · rename_i h
    rw [List.getD_eq_getElem?_getD, List.getElem?_eq_none (by simp; omega)]
    rfl

/-- What ArFilter does to the lines of its range, in traversal order: each becomes the output of
the direct form over the old lines, and nothing else changes (44_tns.md R238, R239). -/
theorem sat_arFilter (c : Channel) (lpc : List F32) {order : Nat} (ho : 0 < order)
    {lines : List Nat} (hnd : lines.Nodup) (hlt : ∀ p ∈ lines, p < 1024) (s : State) :
    Sat (arFilter c lpc order lines) s
      (fun _ t => Touches (only .spec) s t ∧
        (∀ sp i, ¬ (sp = .spec ∧ ∃ p ∈ lines, i = 1024 * c.num + p) → t.elem sp i = s.elem sp i) ∧
        ∀ n < lines.length, Ref.Filtered (fun k => lpc.getD k 0) order
          (Ref.line s .spec c (lines.getD n 0))
          (fun j => if j < n then Ref.line t .spec c (lines.getD (n - 1 - j) 0) else 0)
          (Ref.line t .spec c (lines.getD n 0)))
      (fun _ _ => False) := by
  unfold arFilter
  rw [sat_bind]
  refine (sat_carry (I := fun done a t => Touches (only .spec) s t ∧
    (∀ sp i, ¬ (sp = .spec ∧ ∃ p ∈ done, i = 1024 * c.num + p) → t.elem sp i = s.elem sp i) ∧
    (∀ n < done.length, Ref.Filtered (fun k => lpc.getD k 0) order
      (Ref.line s .spec c (done.getD n 0))
      (fun j => if j < n then Ref.line t .spec c (done.getD (n - 1 - j) 0) else 0)
      (Ref.line t .spec c (done.getD n 0))) ∧
    a.Holds order ((done.map (Ref.line t .spec c)).reverse)) ?_ ?_).imp ?_ (fun _ _ h => h)
  · exact ⟨Touches.refl _ _, fun _ _ _ => rfl, fun n hn => by simp at hn,
      ArState.holds_start ho⟩
  · rintro done p rest rfl a t ⟨ht, hframe, hfil, hhold⟩
    have hp : p < 1024 := hlt p (by simp)
    have hpd : p ∉ done := by
      have := (List.nodup_append.1 hnd).2.2
      intro h
      exact this p h p (by simp) rfl
    have hx : Ref.line t .spec c p = Ref.line s .spec c p := by
      refine hframe .spec _ ?_
      rintro ⟨-, q, hq, he⟩
      have : q = p := by omega
      exact hpd (this ▸ hq)
    unfold arLine
    simp only [sat_bind, sat_drawing, sat_pure]
    rw [sat_loadLine .spec c hp rfl, sat_storeLine .spec c hp rfl]
    set y := (arTaps a.buf a.si lpc (upTo 0 order) (Ref.line t .spec c p) t.nanDraws).1 with hy
    set t' : State := { (⟨t.regs, t.csr, t.mem, t.host, (arTaps a.buf a.si lpc (upTo 0 order)
      (Ref.line t .spec c p) t.nanDraws).2⟩ : State) with
      mem := t.mem.write .spec (lineIx c p) y } with ht'
    have hline : ∀ q, Ref.line t' .spec c q = if q = p then y else Ref.line t .spec c q := by
      intro q
      have h := line_write (sp := .spec) (⟨t.regs, t.csr, t.mem, t.host, (arTaps a.buf a.si lpc
        (upTo 0 order) (Ref.line t .spec c p) t.nanDraws).2⟩ : State) rfl c p y q
      exact h
    have hkeep : ∀ q ∈ done, Ref.line t' .spec c q = Ref.line t .spec c q := by
      intro q hq
      rw [hline, if_neg]
      rintro rfl
      exact hpd hq
    have hmem : ∀ n, n < done.length → done.getD n 0 ∈ done := by
      intro n hn
      rw [List.getD_eq_getElem?_getD, List.getElem?_eq_getElem hn]
      exact List.getElem_mem hn
    have happ : ∀ n, n < done.length → (done ++ [p]).getD n 0 = done.getD n 0 :=
      fun n hn => List.getD_append _ _ _ _ hn
    have hlast : (done ++ [p]).getD done.length 0 = p := by simp
    have htouch : Touches (only .spec) s t' :=
      Touches.write (sp := .spec) rfl (lineIx_lt_size (sp := .spec) (c := c) rfl hp) y
        (ht.nanDraws (arTaps a.buf a.si lpc (upTo 0 order) (Ref.line t .spec c p) t.nanDraws).2)
    refine ⟨htouch, ?_, ?_, ?_⟩
    · intro sp i hi
      refine (elem_write_other _ rfl _ ?_).trans (hframe sp i ?_)
      · rintro ⟨rfl, rfl⟩
        exact hi ⟨rfl, p, by simp, rfl⟩
      · rintro ⟨h1, q, hq, h2⟩
        exact hi ⟨h1, q, by simp [hq], h2⟩
    · intro n hn
      rw [List.length_append, List.length_singleton] at hn
      rcases Nat.lt_or_ge n done.length with h1 | h1
      · rw [happ n h1, hkeep _ (hmem n h1)]
        have := hfil n h1
        have hpast : (fun j => if j < n then Ref.line t' .spec c ((done ++ [p]).getD (n - 1 - j) 0)
            else 0) = fun j => if j < n then Ref.line t .spec c (done.getD (n - 1 - j) 0)
            else 0 := by
          funext j
          split
          · rw [happ _ (by omega), hkeep _ (hmem _ (by omega))]
          · rfl
        rw [hpast]
        exact this
      · have h2 : n = done.length := by omega
        subst h2
        rw [hlast, hline p, if_pos rfl, ← hx]
        obtain ⟨z, h3, h4, h5⟩ := arTaps_spec a.buf a.si lpc order 0 (Ref.line t .spec c p)
          t.nanDraws
        rw [Nat.zero_add] at h4 h5
        refine ⟨z, h3, h4, fun j hj => ?_⟩
        obtain ⟨m, h6, h7⟩ := h5 j (Nat.zero_le _) hj
        refine ⟨m, ?_, h7⟩
        rw [hhold.recent j hj, getD_reverse_map] at h6
        have hpast : (if j < done.length then Ref.line t' .spec c ((done ++ [p]).getD
            (done.length - 1 - j) 0) else 0) =
            if j < done.length then Ref.line t .spec c (done.getD (done.length - 1 - j) 0)
            else 0 := by
          split
          · rw [happ _ (by omega), hkeep _ (hmem _ (by omega))]
          · rfl
        simpa only [hpast] using h6
    · have : ((done ++ [p]).map (Ref.line t' .spec c)).reverse =
          y :: (done.map (Ref.line t .spec c)).reverse := by
        rw [List.map_append, List.reverse_append, List.map_congr_left hkeep]
        simp [hline]
      rw [this]
      exact hhold.push y
  · rintro a t ⟨h1, h2, h3, -⟩
    exact ⟨h1, h2, h3⟩

end Sys2Proof.Machine
end

