-- ==== Sys2Proof/Laws/Trig.lean ====
section
/-! SUPPORT. How near the fixed-point cosine of the default ROM is to the real one: the constant π,
the truncated Taylor series and the reduction to the first quarter. -/

namespace Sys2Proof.Machine

open Sys2Proof Rom

/-- The fixed-point π is the real one to 2^-66. -/
theorem piFix_near : |(piFix : ℝ) / 2 ^ 640 - Real.pi| ≤ 1 / 2 ^ 66 := by
  have h1 := Real.pi_gt_d20
  have h2 := Real.pi_lt_d20
  have n3 : 314159265358979323846 * 2 ^ 640 ≤ piFix * 10 ^ 20 := by decide +kernel
  have n4 : piFix * 10 ^ 20 ≤ 314159265358979323847 * 2 ^ 640 := by decide +kernel
  have h3 : (314159265358979323846 : ℝ) * 2 ^ 640 ≤ piFix * 10 ^ 20 := by exact_mod_cast n3
  have h4 : (piFix : ℝ) * 10 ^ 20 ≤ 314159265358979323847 * 2 ^ 640 := by exact_mod_cast n4
  have hp : (0 : ℝ) < 2 ^ 640 := by positivity
  generalize (2 : ℝ) ^ 640 = P at *
  have h5 : (314159265358979323846 : ℝ) / 10 ^ 20 ≤ piFix / P := by
    rw [div_le_div_iff₀ (by norm_num) hp]; exact h3
  have h6 : (piFix : ℝ) / P ≤ 314159265358979323847 / 10 ^ 20 := by
    rw [div_le_div_iff₀ hp (by norm_num)]; exact h4
  have h7 : (1 : ℝ) / 10 ^ 20 ≤ 1 / 2 ^ 66 := by norm_num
  rw [abs_le]
  norm_num at *
  constructor <;> linarith

/-- A quotient rounded down. -/
theorem natDiv_near (a : ℕ) {b : ℕ} (hb : 0 < b) :
    ((a / b : ℕ) : ℝ) ≤ (a : ℝ) / b ∧ (a : ℝ) / b ≤ ((a / b : ℕ) : ℝ) + 1 := by
  have h : (0 : ℝ) < b := by exact_mod_cast hb
  refine ⟨Nat.cast_div_le, ?_⟩
  rw [div_le_iff₀ h]
  have := Nat.lt_div_mul_add (a := a) hb
  have h2 : a ≤ (a / b + 1) * b := by rw [Nat.add_mul]; omega
  exact_mod_cast h2

/-! ### The alternating series -/

/-- The series `cosSeries` computes, without its roundings: t - t·y/((2k+1)(2k+2)) + …. -/
def cosSum {K : Type} [Field K] (y : K) : ℕ → ℕ → K → K
  | 0, _, _ => 0
  | fuel + 1, k, t => t - cosSum y fuel (k + 1) (t * y / ((2 * k + 1) * (2 * k + 2)))

theorem cosSum_sub (y : ℝ) (fuel k : ℕ) (t t' : ℝ) :
    cosSum y fuel k t - cosSum y fuel k t' = cosSum y fuel k (t - t') := by
  induction fuel generalizing k t t' with
  | zero => simp [cosSum]
  | succ f ih =>
    simp only [cosSum]
    rw [show (t - t') * y / ((2 * (k : ℝ) + 1) * (2 * k + 2)) =
      t * y / ((2 * k + 1) * (2 * k + 2)) - t' * y / ((2 * k + 1) * (2 * k + 2)) by ring, ← ih]
    ring

theorem cosSum_mul (y : ℝ) (fuel k : ℕ) (a t : ℝ) :
    cosSum y fuel k (a * t) = a * cosSum y fuel k t := by
  induction fuel generalizing k t with
  | zero => simp [cosSum]
  | succ f ih =>
    simp only [cosSum]
    rw [show a * t * y / ((2 * (k : ℝ) + 1) * (2 * k + 2)) =
      a * (t * y / ((2 * k + 1) * (2 * k + 2))) by ring, ih]
    ring

theorem cosSum_bound {y : ℝ} (h0 : 0 ≤ y) (h4 : y ≤ 4) (fuel : ℕ) {k : ℕ} (hk : 1 ≤ k) (t : ℝ) :
    |cosSum y fuel k t| ≤ 2 * |t| := by
  induction fuel generalizing k t with
  | zero => simp [cosSum]
  | succ f ih =>
    simp only [cosSum]
    have hk' : (1 : ℝ) ≤ k := by exact_mod_cast hk
    have hd : (12 : ℝ) ≤ (2 * (k : ℝ) + 1) * (2 * k + 2) := by nlinarith
    have h1 := ih (k := k + 1) (by omega) (t * y / ((2 * (k : ℝ) + 1) * (2 * k + 2)))
    have h2 : |t * y / ((2 * (k : ℝ) + 1) * (2 * k + 2))| ≤ |t| / 3 := by
      rw [abs_div, abs_mul, abs_of_nonneg h0,
        abs_of_nonneg (by linarith : (0 : ℝ) ≤ (2 * (k : ℝ) + 1) * (2 * k + 2)),
        div_le_div_iff₀ (by linarith) (by norm_num)]
      nlinarith [mul_le_mul_of_nonneg_left h4 (abs_nonneg t),
        mul_le_mul_of_nonneg_left hd (abs_nonneg t)]
    have h3 := abs_sub t (cosSum y f (k + 1) (t * y / ((2 * (k : ℝ) + 1) * (2 * k + 2))))
    linarith [abs_nonneg t]

/-- The roundings of the fixed-point series add up to less than four units a term. -/
theorem cosSeries_near {x2 : ℕ} (h4 : (x2 : ℝ) / 2 ^ 640 ≤ 4) (fuel k term : ℕ) :
    |(cosSeries x2 fuel k term : ℝ) - cosSum ((x2 : ℝ) / 2 ^ 640) fuel k (term : ℝ)| ≤
      4 * fuel := by
  induction fuel generalizing k term with
  | zero => simp [cosSeries, cosSum]
  | succ f ih =>
    simp only [cosSeries, cosSum]
    have h0 : (0 : ℝ) ≤ (x2 : ℝ) / 2 ^ 640 := by positivity
    have hp : (((term * x2 : ℕ) : ℝ)) / ((2 ^ fracBits : ℕ) : ℝ) = term * ((x2 : ℝ) / 2 ^ 640) := by
      rw [Nat.cast_mul, Nat.cast_pow, mul_div_assoc]; rfl
    have e1 := natDiv_near (term * x2) (b := 2 ^ fracBits) (by positivity)
    rw [hp] at e1
    have e2 := natDiv_near (term * x2 / 2 ^ fracBits) (b := (2 * k + 1) * (2 * k + 2))
      (by positivity)
    generalize (x2 : ℝ) / 2 ^ 640 = y at *
    generalize term * x2 / 2 ^ fracBits = v at *
    generalize v / ((2 * k + 1) * (2 * k + 2)) = u at *
    have e3 := ih (k + 1) u
    have hD : (((2 * k + 1) * (2 * k + 2) : ℕ) : ℝ) = (2 * (k : ℝ) + 1) * (2 * k + 2) := by
      push_cast; ring
    have h2D : (2 : ℝ) ≤ (2 * (k : ℝ) + 1) * (2 * k + 2) := by
      have : (0 : ℝ) ≤ k := by positivity
      nlinarith
    rw [hD] at e2
    generalize (2 * (k : ℝ) + 1) * (2 * k + 2) = D at *
    have e4 : |(u : ℝ) - (term : ℝ) * y / D| ≤ 2 := by
      have a1 : (v : ℝ) / D ≤ term * y / D := by gcongr; exact e1.1
      have a2 : term * y / D ≤ (v : ℝ) / D + 1 := by
        rw [div_add_one (by linarith : D ≠ 0)]
        gcongr
        linarith [e1.2]
      rw [abs_le]; constructor <;> linarith [e2.1, e2.2]
    have e5 := cosSum_bound h0 h4 f (k := k + 1) (by omega) ((u : ℝ) - (term : ℝ) * y / D)
    rw [← cosSum_sub] at e5
    have e6 : |cosSum y f (k + 1) (u : ℝ) - cosSum y f (k + 1) ((term : ℝ) * y / D)| ≤ 4 := by
      linarith
    push_cast
    rw [abs_le] at e3 e6 ⊢
    constructor <;> linarith [e3.1, e3.2, e6.1, e6.2]

/-- The series is the Taylor sum of the cosine. -/
theorem cosSum_eq_sum (r : ℝ) (fuel k : ℕ) :
    cosSum (r ^ 2) fuel k (r ^ (2 * k) / (2 * k).factorial) = ∑ i ∈ Finset.range fuel,
      (-1) ^ i * r ^ (2 * (k + i)) / (2 * (k + i)).factorial := by
  induction fuel generalizing k with
  | zero => simp [cosSum]
  | succ f ih =>
    have hf : ((2 * (k + 1)).factorial : ℝ) =
        (2 * (k : ℝ) + 1) * (2 * k + 2) * (2 * k).factorial := by
      rw [show 2 * (k + 1) = 2 * k + 1 + 1 by ring, Nat.factorial_succ, Nat.factorial_succ]
      push_cast; ring
    have ht : r ^ (2 * k) / ((2 * k).factorial : ℝ) * r ^ 2 / ((2 * (k : ℝ) + 1) * (2 * k + 2)) =
        r ^ (2 * (k + 1)) / (2 * (k + 1)).factorial := by
      rw [hf]; field_simp; ring
    simp only [cosSum]
    rw [ht, ih, Finset.sum_range_succ']
    simp only [pow_zero, one_mul, Nat.add_zero]
    rw [sub_eq_add_neg, ← Finset.sum_neg_distrib, add_comm]
    congr 1
    refine Finset.sum_congr rfl fun i _ => ?_
    rw [show k + 1 + i = k + (i + 1) by ring, pow_succ]
    ring

/-- n terms of it are the cosine, to twice the next term. -/
theorem cosSum_near_cos {r : ℝ} (h0 : 0 ≤ r) (h2 : r ≤ 2) {n : ℕ} (hn : 1 ≤ n) :
    |cosSum (r ^ 2) n 0 1 - Real.cos r| ≤ 2 * (2 ^ (2 * n) / (2 * n).factorial) := by
  have hs := (Real.hasSum_cos r).tendsto_sum_nat
  have e0 : ∀ n, ∑ i ∈ Finset.range n, (-1) ^ i * r ^ (2 * i) / ((2 * i).factorial : ℝ) =
      cosSum (r ^ 2) n 0 1 := by
    intro n
    have := cosSum_eq_sum r n 0
    simpa using this.symm
  have hb : ∀ f, |cosSum (r ^ 2) n 0 1 - cosSum (r ^ 2) (n + f) 0 1| ≤
      2 * (2 ^ (2 * n) / (2 * n).factorial) := by
    intro f
    have e2 := cosSum_bound (y := r ^ 2) (by positivity) (by nlinarith) f hn
      (r ^ (2 * n) / (2 * n).factorial)
    rw [cosSum_eq_sum r f n] at e2
    rw [← e0, ← e0, Finset.sum_range_add, sub_add_cancel_left, abs_neg]
    have e3 : ∑ i ∈ Finset.range f, (-1) ^ (n + i) * r ^ (2 * (n + i)) /
        ((2 * (n + i)).factorial : ℝ) = (-1) ^ n *
        ∑ i ∈ Finset.range f, (-1) ^ i * r ^ (2 * (n + i)) / ((2 * (n + i)).factorial : ℝ) := by
      rw [Finset.mul_sum]
      refine Finset.sum_congr rfl fun i _ => ?_
      rw [pow_add]; ring
    rw [e3, abs_mul, abs_pow, abs_neg, abs_one, one_pow, one_mul]
    refine e2.trans ?_
    rw [abs_of_nonneg (by positivity)]
    gcongr
  have hlim : Filter.Tendsto (fun f => cosSum (r ^ 2) (n + f) 0 1) Filter.atTop
      (nhds (Real.cos r)) := by
    have := hs.comp (Filter.tendsto_add_atTop_nat n)
    refine this.congr fun m => ?_
    simp only [Function.comp]
    rw [e0, Nat.add_comm]
  exact le_of_tendsto (hlim.const_sub _).abs (Filter.Eventually.of_forall hb)

/-- The eighty terms of `cosFirst`. -/
theorem cosSum80_near {r : ℝ} (h0 : 0 ≤ r) (h2 : r ≤ 2) :
    |cosSum (r ^ 2) 80 0 1 - Real.cos r| ≤ 1 / 2 ^ 80 := by
  refine (cosSum_near_cos h0 h2 (by norm_num)).trans ?_
  have h : 2 * 2 ^ (2 * 80) * 2 ^ 80 ≤ 1 * (2 * 80).factorial := by decide +kernel
  have h' : (2 : ℝ) * 2 ^ (2 * 80) * 2 ^ 80 ≤ 1 * ((2 * 80).factorial : ℝ) := by exact_mod_cast h
  have hF : (0 : ℝ) < ((2 * 80).factorial : ℝ) := by exact_mod_cast Nat.factorial_pos _
  generalize ((2 * 80).factorial : ℝ) = F at *
  rw [← mul_div_assoc, div_le_div_iff₀ hF (by positivity)]
  exact h'

/-- A point of the first quarter: cos(j·π/d) with 2·j ≤ d. -/
theorem cosFirst_near {j d : ℕ} (hd : 0 < d) (hj : 2 * j ≤ d) :
    |(cosFirst j d : ℝ) / 2 ^ 640 - Real.cos (j * Real.pi / d)| ≤ 1 / 2 ^ 64 := by
  have hd' : (0 : ℝ) < d := by exact_mod_cast hd
  have hj' : (j : ℝ) / d ≤ 1 / 2 := by
    rw [div_le_div_iff₀ hd' (by norm_num)]
    have : (2 : ℝ) * j ≤ d := by exact_mod_cast hj
    linarith
  have hj0 : (0 : ℝ) ≤ (j : ℝ) / d := by positivity
  have hpi := piFix_near
  have hx := natDiv_near (piFix * j) hd
  have hy := natDiv_near (piFix * j / d * (piFix * j / d)) (b := 2 ^ fracBits) (by positivity)
  have hP : (0 : ℝ) < 2 ^ 640 := by positivity
  have hfb : ((2 ^ fracBits : ℕ) : ℝ) = 2 ^ 640 := by rw [Nat.cast_pow]; rfl
  have hcs : cosFirst j d =
      cosSeries (piFix * j / d * (piFix * j / d) / 2 ^ fracBits) 80 0 (2 ^ fracBits) := by
    unfold cosFirst; rfl
  have hser := cosSeries_near (x2 := piFix * j / d * (piFix * j / d) / 2 ^ fracBits)
  rw [hcs]
  rw [hfb] at hy
  generalize piFix * j / d = X at *
  generalize X * X / 2 ^ fracBits = Y at *
  have hPs : ((2 : ℝ) ^ 320) ^ 2 = 2 ^ 640 := by rw [← pow_mul]
  have hQ0 : (0 : ℝ) < 2 ^ 320 := by positivity
  have hQe : 1 / (2 : ℝ) ^ 320 ≤ 1 / 2 ^ 80 :=
    one_div_le_one_div_of_le (by positivity) (pow_le_pow_right₀ (by norm_num) (by norm_num))
  have hPe : 1 / (2 : ℝ) ^ 640 ≤ 1 / 2 ^ 80 :=
    one_div_le_one_div_of_le (by positivity) (pow_le_pow_right₀ (by norm_num) (by norm_num))
  have hfb' : cosSum ((Y : ℝ) / 2 ^ 640) 80 0 ((2 ^ fracBits : ℕ) : ℝ) =
      2 ^ 640 * cosSum ((Y : ℝ) / 2 ^ 640) 80 0 1 := by
    rw [← cosSum_mul, hfb, mul_one]
  have h66 : (1 : ℝ) / 2 ^ 66 = 16384 * (1 / 2 ^ 80) := by norm_num
  have h64 : (1 : ℝ) / 2 ^ 64 = 65536 * (1 / 2 ^ 80) := by norm_num
  have hE : (1 : ℝ) / 2 ^ 80 ≤ 1 / 1000000 := by norm_num
  have hE0 : (0 : ℝ) < 1 / 2 ^ 80 := by positivity
  have h80 := fun r h0 h2 => cosSum80_near (r := r) h0 h2
  rw [h66] at hpi
  rw [h64]
  clear h66 h64
  generalize (1 : ℝ) / 2 ^ 80 = E at *
  generalize (2 : ℝ) ^ 640 = P at *
  generalize (2 : ℝ) ^ 320 = Q at *
  generalize 2 ^ fracBits = B at *
  have hu : |(X : ℝ) / P - j * Real.pi / d| ≤ 16384 * E := by
    push_cast at hx
    have e1 : (X : ℝ) / P ≤ piFix / P * (j / d) ∧ piFix / P * (j / d) ≤ (X : ℝ) / P + 1 / P := by
      have e : (piFix : ℝ) / P * (j / d) = piFix * j / d / P := by ring
      rw [e, ← add_div]
      exact ⟨by gcongr; exact hx.1, by gcongr; exact hx.2⟩
    have e2 : |(piFix : ℝ) / P * (j / d) - j * Real.pi / d| ≤ 16384 * E * (1 / 2) := by
      rw [show (piFix : ℝ) / P * (j / d) - j * Real.pi / d = (piFix / P - Real.pi) * (j / d) by ring,
        abs_mul, abs_of_nonneg hj0]
      exact mul_le_mul hpi hj' hj0 (by linarith)
    rw [abs_le] at e2 ⊢
    constructor <;> linarith [e1.1, e1.2, e2.1, e2.2]
  have hu0 : 0 ≤ (X : ℝ) / P := by positivity
  have hu2 : (X : ℝ) / P ≤ 2 := by
    have e1 : j * Real.pi / d ≤ 1.6 := by
      have := Real.pi_lt_d2
      rw [show (j : ℝ) * Real.pi / d = j / d * Real.pi by ring]
      exact (mul_le_mul hj' this.le Real.pi_pos.le (by norm_num)).trans (by norm_num)
    linarith [(abs_le.1 hu).2]
  have hyu : (Y : ℝ) / P ≤ (X / P) ^ 2 ∧ ((X : ℝ) / P) ^ 2 ≤ Y / P + 1 / P := by
    push_cast at hy
    have e : ((X : ℝ) / P) ^ 2 = X * X / P / P := by field_simp
    rw [e, ← add_div]
    exact ⟨by gcongr; exact hy.1, by gcongr; exact hy.2⟩
  clear hpi hx hy hj hj' hj0 hd hcs
  generalize (X : ℝ) / P = u at *
  have hy0 : 0 ≤ (Y : ℝ) / P := by positivity
  have hs := hser (by nlinarith [hyu.1]) 80 0 B
  rw [hfb'] at hs
  clear hser hfb'
  generalize cosSeries Y 80 0 B = S at *
  obtain ⟨r, hr0, hr⟩ : ∃ r : ℝ, 0 ≤ r ∧ r ^ 2 = (Y : ℝ) / P :=
    ⟨√((Y : ℝ) / P), Real.sqrt_nonneg _, Real.sq_sqrt hy0⟩
  rw [← hr] at hs hyu
  have hru : r ≤ u := by nlinarith [hyu.1]
  have hur : u - r ≤ 1 / Q := by
    by_contra hc
    have h1 : 1 / Q * (1 / Q) < (u - r) * (u - r) := by
      have : 0 < 1 / Q := by positivity
      nlinarith
    have h2 : 1 / Q * (1 / Q) = 1 / P := by rw [← hPs]; field_simp
    nlinarith [hyu.2]
  have k4 := h80 r hr0 (by linarith)
  have k5 : |r - u| ≤ E := by rw [abs_sub_comm, abs_of_nonneg (by linarith)]; linarith
  have k7 := (Real.abs_cos_sub_cos_le r u).trans k5
  have k8 := (Real.abs_cos_sub_cos_le u (j * Real.pi / d)).trans hu
  have k6 : |(S : ℝ) / P - cosSum (r ^ 2) 80 0 1| ≤ 320 * (1 / P) := by
    rw [show (S : ℝ) / P - cosSum (r ^ 2) 80 0 1 = (S - P * cosSum (r ^ 2) 80 0 1) / P by
      field_simp, abs_div, abs_of_pos hP, mul_one_div]
    gcongr
    exact hs.trans (by norm_num)
  rw [abs_le] at k4 k6 k7 k8 ⊢
  constructor <;> linarith [k4.1, k4.2, k6.1, k6.2, k7.1, k7.2, k8.1, k8.2]

/-- The fixed-point cosine of any angle j·π/d is the real one to 2^-64. -/
theorem cosFix_near (j : ℕ) {d : ℕ} (hd : 0 < d) :
    |(cosFix j d : ℝ) / 2 ^ 640 - Real.cos (j * Real.pi / d)| ≤ 1 / 2 ^ 64 := by
  have hd' : (d : ℝ) ≠ 0 := by positivity
  have hmod : Real.cos (j * Real.pi / d) = Real.cos ((j % (2 * d) : ℕ) * Real.pi / d) := by
    have h : (j : ℝ) = (j % (2 * d) : ℕ) + 2 * d * (j / (2 * d) : ℕ) := by
      exact_mod_cast (Nat.mod_add_div j (2 * d)).symm
    have h2 : (j : ℝ) * Real.pi / d =
        (j % (2 * d) : ℕ) * Real.pi / d + (j / (2 * d) : ℕ) * (2 * Real.pi) := by
      conv_lhs => rw [h]
      field_simp
    rw [h2, Real.cos_add_nat_mul_two_pi]
  rw [hmod]
  have hlt : j % (2 * d) < 2 * d := Nat.mod_lt _ (by omega)
  unfold cosFix
  dsimp only
  generalize j % (2 * d) = a at *
  obtain ⟨b, hb, hbd, hcb⟩ : ∃ b, b = (if d < a then 2 * d - a else a) ∧ b ≤ d ∧
      Real.cos (a * Real.pi / d) = Real.cos (b * Real.pi / d) := by
    refine ⟨_, rfl, by split <;> omega, ?_⟩
    split
    · rw [Nat.cast_sub hlt.le]
      push_cast
      rw [show (2 * (d : ℝ) - a) * Real.pi / d = 2 * Real.pi - a * Real.pi / d by field_simp,
        Real.cos_two_pi_sub]
    · rfl
  rw [← hb, hcb]
  split
  · have := cosFirst_near (j := d - b) hd (by omega)
    have e : Real.cos (b * Real.pi / d) = -Real.cos ((d - b : ℕ) * Real.pi / d) := by
      rw [Nat.cast_sub hbd, show ((d : ℝ) - b) * Real.pi / d = Real.pi - b * Real.pi / d by
        field_simp, Real.cos_pi_sub, neg_neg]
    rw [e, Int.cast_neg, neg_div, sub_neg_eq_add, neg_add_eq_sub, abs_sub_comm]
    exact this
  · exact cosFirst_near hd (by omega)

end Sys2Proof.Machine
end

