-- ==== Sys2Proof/Laws/TwoRuns.lean ====
section
/-! SUPPORT. One command run from two states: if a relation between states lets both read the
same elements and every operation keeps it, every command keeps it. What makes a relation such a
one is `Twin`; `exec_twin` says it of every command. -/

namespace Sys2Proof.Machine

open Sys2Proof

/-! ### Two runs of a body -/

/-- `m` from `s` and `m'` from `s'` end alike: in the same value, or stopped by the same thing,
and in states that `R` relates. -/
def Both {α : Type} (R : State → State → Prop) (m m' : Cmd α) (s s' : State) : Prop :=
  match m s, m' s' with
  | .ok a t, .ok a' t' => a' = a ∧ R t t'
  | .error e t, .error e' t' => e' = e ∧ R t t'
  | _, _ => False

variable {α β : Type} {R R' : State → State → Prop} {s s' : State}

theorem Both.imp {m m' : Cmd α} (h : Both R m m' s s') (hr : ∀ t t', R t t' → R' t t') :
    Both R' m m' s s' := by
  unfold Both at *
  split at h
  · exact ⟨h.1, hr _ _ h.2⟩
  · exact ⟨h.1, hr _ _ h.2⟩
  · exact h

theorem both_pure (a : α) (h : R s s') : Both R (pure a) (pure a) s s' := ⟨rfl, h⟩

theorem both_throw (e : Stop) (h : R s s') : Both R (throw e : Cmd α) (throw e) s s' := ⟨rfl, h⟩

theorem both_raise (f : BlockFault) (h : R s s') :
    Both R (raise f : Cmd α) (raise f) s s' := ⟨rfl, h⟩

theorem both_bind {m m' : Cmd β} {f f' : β → Cmd α} (h : Both R m m' s s')
    (hf : ∀ b t t', R t t' → Both R' (f b) (f' b) t t') (hr : ∀ t t', R t t' → R' t t') :
    Both R' (m >>= f) (m' >>= f') s s' := by
  unfold Both at h
  simp only [Both, bind, EStateM.bind]
  revert h
  cases m s <;> cases m' s' <;> intro h
  · obtain ⟨rfl, h⟩ := h
    exact hf _ _ _ h
  · exact h.elim
  · exact h.elim
  · exact ⟨h.1, hr _ _ h.2⟩

theorem both_seq {m m' : Cmd β} {f f' : β → Cmd α} (h : Both R m m' s s')
    (hf : ∀ b t t', R t t' → Both R (f b) (f' b) t t') : Both R (m >>= f) (m' >>= f') s s' :=
  both_bind h hf fun _ _ h => h

theorem both_map {m m' : Cmd β} (f : β → α) (h : Both R m m' s s') :
    Both R (f <$> m) (f <$> m') s s' := by
  unfold Both at h
  simp only [Both, Functor.map, EStateM.map]
  revert h
  cases m s <;> cases m' s' <;> intro h
  · exact ⟨congrArg f h.1, h.2⟩
  · exact h.elim
  · exact h.elim
  · exact h

theorem both_get {f f' : State → Cmd α} (h : Both R (f s) (f' s') s s') :
    Both R (get >>= f) (get >>= f') s s' := h

theorem both_check {ok ok' : Bool} (he : ok' = ok) (f : BlockFault) (h : R s s') :
    Both R (check ok f) (check ok' f) s s' := by
  subst he
  cases ok' <;> exact ⟨rfl, h⟩

theorem both_each {f f' : β → Cmd Unit} {l l' : List β} (hl : l' = l) (h : R s s')
    (hf : ∀ b ∈ l, ∀ t t', R t t' → Both R (f b) (f' b) t t') :
    Both R (each f l) (each f' l') s s' := by
  subst hl
  induction l' generalizing s s' with
  | nil => exact ⟨rfl, h⟩
  | cons b l ih =>
    exact both_seq (hf b (by simp) _ _ h) fun _ t t' ht =>
      ih ht fun b hb => hf b (by simp [hb])

theorem both_carry {f f' : α → β → Cmd α} {l l' : List β} (a : α) (hl : l' = l) (h : R s s')
    (hf : ∀ b ∈ l, ∀ a t t', R t t' → Both R (f a b) (f' a b) t t') :
    Both R (carry f a l) (carry f' a l') s s' := by
  subst hl
  induction l' generalizing s s' a with
  | nil => exact ⟨rfl, h⟩
  | cons b l ih =>
    exact both_seq (hf b (by simp) _ _ _ h) fun a t t' ht =>
      ih a ht fun b hb => hf b (by simp [hb])

/-! ### Relations every operation keeps -/

/-- Related states agree on all a command reads (no result register, not PRED, not TOUT, no
element outside its space), and every operation of the command monad keeps them related. -/
structure Twin (R : State → State → Prop) : Prop where
  csr : ∀ {s s'}, R s s' → s'.csr = s.csr
  nanDraws : ∀ {s s'}, R s s' → s'.nanDraws = s.nanDraws
  elem : ∀ {s s'}, R s s' → ∀ {sp i}, sp ≠ .pred → sp ≠ .tout → i < sp.size →
    s'.elem sp i = s.elem sp i
  setCsr : ∀ {s s'}, R s s' → ∀ r, R { s with csr := r } { s' with csr := r }
  setDraws : ∀ {s s'}, R s s' → ∀ n, R { s with nanDraws := n } { s' with nanDraws := n }
  write : ∀ {s s'}, R s s' → ∀ {sp i}, sp.zeroed = false → i < sp.size → ∀ v,
    R { s with mem := s.mem.write sp i v } { s' with mem := s'.mem.write sp i v }
  writeRun : ∀ {s s'}, R s s' → ∀ sp {i} {vs : List (BitVec sp.width)},
    i + vs.length ≤ sp.size →
    R { s with mem := s.mem.writeRun sp i vs } { s' with mem := s'.mem.writeRun sp i vs }
  res0 : ∀ {s s'}, R s s' → ∀ v, R { s with regs := { s.regs with res0 := v } }
    { s' with regs := { s'.regs with res0 := v } }
  results : ∀ {s s'}, R s s' → ∀ q, R { s with regs := q } { s' with regs := q }
  clear : ∀ {s s'}, R s s' → ∀ sp, sp.zeroed = true →
    R { s with mem := s.mem.setCells sp [] } { s' with mem := s'.mem.setCells sp [] }

/-- Related states in which the control registers are those of `r`, the cursor apart. -/
def At (r : Csr) (R : State → State → Prop) (s s' : State) : Prop :=
  R s s' ∧ s.csr = { r with bitpos := s.csr.bitpos }

variable {r : Csr}

theorem At.start (h : R s s') : At s.csr R s s' := ⟨h, rfl⟩

theorem At.draws (hT : Twin R) (h : At r R s s') (n : Nat) :
    At r R { s with nanDraws := n } { s' with nanDraws := n } := ⟨hT.setDraws h.1 n, h.2⟩

theorem At.bitpos (hT : Twin R) (h : At r R s s') (k : Nat) :
    At r R (setBitpos k s) (setBitpos k s') := by
  refine ⟨?_, ?_⟩
  · simpa only [setBitpos, hT.csr h.1] using hT.setCsr h.1 { s.csr with bitpos := BitVec.ofNat 32 k }
  · simp only [setBitpos]; rw [h.2]

/-! ### Operations -/

variable (hT : Twin R)
include hT

theorem both_drawing {f f' : Nat → α × Nat} (hf : f' = f) (h : At r R s s') :
    Both (At r R) (drawing f) (drawing f') s s' := by
  subst hf
  unfold Both drawing
  rw [hT.nanDraws h.1]
  exact ⟨rfl, h.draws hT _⟩

theorem both_load {sp : Space} (h1 : sp ≠ .pred) (h2 : sp ≠ .tout) (i : Nat) (h : At r R s s') :
    Both (At r R) (load sp i) (load sp i) s s' := by
  unfold load
  refine both_get ?_
  split
  · rename_i hi
    rw [hT.elem h.1 h1 h2 hi]
    exact both_pure _ h
  · exact both_throw _ h

theorem both_store {sp : Space} (hz : sp.zeroed = false) (i : Nat) (v : BitVec sp.width)
    (h : At r R s s') :
    Both (At r R) (store sp i v) (store sp i v) s s' := by
  unfold store
  refine both_get ?_
  split
  · rename_i hi
    exact ⟨rfl, hT.write h.1 hz hi v, h.2⟩
  · exact both_throw _ h

theorem both_storeRun (sp : Space) (i : Nat) (vs : List (BitVec sp.width)) (h : At r R s s') :
    Both (At r R) (storeRun sp i vs) (storeRun sp i vs) s s' := by
  unfold storeRun
  refine both_get ?_
  split
  · rename_i hi
    exact ⟨rfl, hT.writeRun h.1 sp hi, h.2⟩
  · exact both_throw _ h

theorem both_loadLine {sp : Space} (h1 : sp ≠ .pred) (h2 : sp ≠ .tout) (c : Channel) (i : Nat)
    (h : At r R s s') : Both (At r R) (loadLine sp c i) (loadLine sp c i) s s' := by
  unfold loadLine
  split
  · exact both_load hT h1 h2 _ h
  · exact both_throw _ h

theorem both_storeLine {sp : Space} (hz : sp.zeroed = false) (c : Channel) (i : Nat)
    (v : BitVec sp.width) (h : At r R s s') : Both (At r R) (storeLine sp c i v) (storeLine sp c i v) s s' := by
  unfold storeLine
  split
  · exact both_store hT hz _ _ h
  · exact both_throw _ h

theorem both_storeLines (sp : Space) (c : Channel) (i : Nat) (vs : List (BitVec sp.width))
    (h : At r R s s') : Both (At r R) (storeLines sp c i vs) (storeLines sp c i vs) s s' := by
  unfold storeLines
  split
  · exact both_storeRun hT _ _ _ h
  · exact both_throw _ h

theorem fieldAt_twin (h : R s s') {k n : Nat} (hk : n = 0 ∨ k + n ≤ 8 * Config.ibufBytes) :
    fieldAt s' k n = fieldAt s k n := by
  induction n with
  | zero => rfl
  | succ n ih =>
    have hi : (k + n) / 8 < Space.ibuf.size := by
      change (k + n) / 8 < Config.ibufBytes
      omega
    simp only [fieldAt, bitAt, hT.elem h (sp := .ibuf) (by decide) (by decide) hi]
    rw [ih (by omega)]

theorem both_peekBits (n : Nat) (h : At r R s s') :
    Both (At r R) (peekBits n) (peekBits n) s s' := by
  unfold peekBits
  refine both_get ?_
  have hl : bitsLeft s' = bitsLeft s := by simp only [bitsLeft, hT.csr h.1]
  rw [hl, hT.csr h.1]
  split
  · exact both_raise _ h
  · split
    · rename_i hk
      rw [fieldAt_twin hT h.1 hk]
      exact both_pure _ h
    · exact both_throw _ h

theorem both_readBits (n : Nat) (h : At r R s s') :
    Both (At r R) (readBits n) (readBits n) s s' := by
  unfold readBits
  refine both_seq (both_peekBits hT n h) fun v t t' ht => ?_
  refine both_seq (?_ : Both _ (modify _) (modify _) t t') fun _ _ _ hu => both_pure _ hu
  refine ⟨rfl, ?_⟩
  change At r R (setBitpos (t.csr.bitpos.toNat + n) t) (setBitpos (t'.csr.bitpos.toNat + n) t')
  rw [hT.csr ht.1]
  exact ht.bitpos hT _

/-! ### Elements at the indices of a legal geometry -/

theorem cb_twin (h : R s s') (c : Channel) {g b : Nat} (hg : g < 8) (hb : b < 64) :
    s'.cb c g b = s.cb c g b := by
  have := num_le c
  have hi : bandIx c g b < Space.cb.size := by
    change bandIx c g b < 1024
    unfold bandIx; omega
  simp only [State.cb, hT.elem h (sp := .cb) (by decide) (by decide) hi]

theorem sf_twin (h : R s s') (c : Channel) {g b : Nat} (hg : g < 8) (hb : b < 64) :
    s'.sf c g b = s.sf c g b := by
  have := num_le c
  have hi : bandIx c g b < Space.sf.size := by
    change bandIx c g b < 1024
    unfold bandIx; omega
  simp only [State.sf, hT.elem h (sp := .sf) (by decide) (by decide) hi]

theorem msu_twin (h : R s s') {g b : Nat} (hg : g < 8) (hb : b < 64) :
    s'.msu g b = s.msu g b := by
  have hi : 64 * g + b < Space.msu.size := by
    change 64 * g + b < 512
    omega
  simp only [State.msu, hT.elem h (sp := .msu) (by decide) (by decide) hi]

omit hT in
/-- A band offset index a command may use: at most NSWB, or a clipped TNS bound. -/
theorem nswb_lt (r : Csr) (c : Channel) : r.nswb c < if r.short c then 16 else 64 := by
  unfold Csr.nswb
  split
  · exact field_lt _ 11 8
  · exact field_lt _ 5 0

omit hT in
theorem maxtns_lt (r : Csr) (c : Channel) : r.maxtns c < if r.short c then 16 else 64 := by
  unfold Csr.maxtns
  split
  · exact field_lt _ 27 24
  · exact field_lt _ 21 16

theorem off_twin (h : R s s') (c : Channel) {i : Nat}
    (hi : i < if s.csr.short c then 16 else 64) : s'.off c i = s.off c i := by
  unfold State.off
  rw [hT.csr h]
  split <;> rename_i hs <;> simp only [hs, if_true, if_false, Bool.false_eq_true] at hi
  · rw [hT.elem h (sp := .swbs) (by decide) (by decide) hi]
  · rw [hT.elem h (sp := .swbl) (by decide) (by decide) hi]

theorem off_twin_of_le (h : R s s') (c : Channel) {i : Nat} (hi : i ≤ s.csr.nswb c) :
    s'.off c i = s.off c i := off_twin hT h c (lt_of_le_of_lt hi (nswb_lt _ _))

theorem windowLines_twin (h : R s s') (c : Channel) (g w : Nat) {b : Nat}
    (hb : b < s.csr.nswb c) : s'.windowLines c g w b = s.windowLines c g w b := by
  simp only [State.windowLines, hT.csr h, off_twin_of_le hT h c hb.le,
    off_twin_of_le hT h c (show b + 1 ≤ s.csr.nswb c from hb)]

theorem bandLines_twin (h : R s s') (c : Channel) (g : Nat) {b : Nat}
    (hb : b < s.csr.nswb c) : s'.bandLines c g b = s.bandLines c g b := by
  simp only [State.bandLines, hT.csr h]
  exact congrArg (List.flatMap · _) (funext fun w => windowLines_twin hT h c g w hb)

omit hT in
theorem all_congr_mem {l : List β} {p q : β → Bool} (h : ∀ b ∈ l, p b = q b) :
    l.all p = l.all q := by
  induction l with
  | nil => rfl
  | cons b l ih =>
    rw [List.all_cons, List.all_cons, h b (by simp), ih fun b hb => h b (by simp [hb])]

/-- GeomCheck reads no index outside its space, whatever the registers hold. -/
theorem geometry_twin (h : R s s') (c : Channel) : s'.geomOk c = s.geomOk c := by
  have hc := hT.csr h
  by_cases hg : s.csr.ngrp c ≤ s.csr.nwin c
  · have h8 : s.csr.ngrp c ≤ 8 := hg.trans (nwin_le _ _)
    have h0 : s'.off c 0 = s.off c 0 := off_twin_of_le hT h c (Nat.zero_le _)
    have hn : s'.off c (s.csr.nswb c) = s.off c (s.csr.nswb c) := off_twin_of_le hT h c le_rfl
    have ha : (upTo 0 (s.csr.nswb c)).all (fun i => decide (s'.off c i < s'.off c (i + 1))) =
        (upTo 0 (s.csr.nswb c)).all fun i => decide (s.off c i < s.off c (i + 1)) := by
      refine all_congr_mem fun i hi => ?_
      have := (mem_upTo.1 hi).2
      rw [off_twin_of_le hT h c this.le, off_twin_of_le hT h c (show i + 1 ≤ _ from this)]
    have hb : (s.csr.bandList c).all (fun gb => s'.cb c gb.1 gb.2 != .reserved) =
        (s.csr.bandList c).all fun gb => s.cb c gb.1 gb.2 != .reserved := by
      refine all_congr_mem fun gb hgb => ?_
      have hm := mem_bandList.1 hgb
      have := maxsfb_lt s.csr c
      rw [cb_twin hT h c (by omega) (by omega)]
    simp only [State.geomOk, hc, h0, hn, ha, hb]
  · have hd : decide (s.csr.ngrp c ≤ s.csr.nwin c) = false := by simpa using hg
    simp only [State.geomOk, hc, hd, Bool.and_false, Bool.false_and]

theorem both_geomCheck {f f' : Unit → Cmd α} (c : Channel) (h : R s s')
    (hf : Ref.Geometry s c → Both R (f ()) (f' ()) s s') :
    Both R (geomCheck c >>= f) (geomCheck c >>= f') s s' := by
  have hc : Both R (check (s.geomOk c) .formatError >>= f)
      (check (s'.geomOk c) .formatError >>= f') s s' := by
    rw [geometry_twin hT h c]
    by_cases hg : s.geomOk c = true
    · rw [hg]
      exact hf ((geomOk_iff s c).1 hg)
    · rw [Bool.not_eq_true] at hg
      rw [hg]
      exact both_raise _ h
  exact hc

end Sys2Proof.Machine
end

