-- ==== Sys2Proof/Laws/Twins.lean ====
section
/-! SUPPORT. Every command keeps a relation that `Twin` describes: body by body, then for `exec`. -/

namespace Sys2Proof.Machine

open Sys2Proof

variable {R : State → State → Prop} {s s' : State} {r : Csr} {p : Params}

/-- A check that passes or raises, and what follows it. -/
theorem both_checkThen {α : Type} {ok ok' : Bool} {f f' : Unit → Cmd α} {e : BlockFault}
    (he : ok' = ok) (h : R s s') (hf : ok = true → Both R (f ()) (f' ()) s s') :
    Both R (check ok e >>= f) (check ok' e >>= f') s s' := by
  subst he
  cases ok' with
  | true => exact hf rfl
  | false => exact both_raise _ h

theorem At.csr_eq (h : At r R s s') {α : Type} {f : Csr → α}
    (hf : ∀ k, f { r with bitpos := k } = f r) : f s.csr = f r := by
  rw [h.2]; exact hf _

theorem At.nswb (h : At r R s s') (c : Channel) : s.csr.nswb c = r.nswb c :=
  h.csr_eq (f := (Csr.nswb · c)) fun _ => by cases c <;> rfl

theorem At.short (h : At r R s s') (c : Channel) : s.csr.short c = r.short c :=
  h.csr_eq (f := (Csr.short · c)) fun _ => by cases c <;> rfl

theorem At.maxsfb (h : At r R s s') (c : Channel) : s.csr.maxsfb c = r.maxsfb c :=
  h.csr_eq (f := (Csr.maxsfb · c)) fun _ => by cases c <;> rfl

variable (hT : Twin R)
include hT

/-! ### The bit reader -/

theorem both_setRes0 (v : Word) (h : R s s') : Both R (setRes0 v) (setRes0 v) s s' :=
  ⟨rfl, hT.res0 h v⟩

theorem both_readThen {n : Nat} {f : Nat → Word} (h : R s s') :
    Both R (readBits n >>= fun v => setRes0 (f v)) (readBits n >>= fun v => setRes0 (f v)) s s' :=
  both_bind (both_readBits hT n (.start h)) (fun _ _ _ ht => both_setRes0 hT _ ht.1)
    fun _ _ ht => ht.1

theorem both_brdCmd (n : BitVec 6) (h : R s s') : Both R (brdCmd n) (brdCmd n) s s' :=
  both_checkThen rfl h fun _ => both_readThen hT h

theorem both_brdsCmd (n : BitVec 6) (h : R s s') : Both R (brdsCmd n) (brdsCmd n) s s' :=
  both_checkThen rfl h fun _ => both_readThen hT h

theorem both_brbCmd (h : R s s') : Both R brbCmd brbCmd s s' := both_readThen hT h

theorem both_bpkCmd (n : BitVec 6) (h : R s s') : Both R (bpkCmd n) (bpkCmd n) s s' :=
  both_checkThen rfl h fun _ => both_bind (both_peekBits hT _ (.start h))
    (fun _ _ _ ht => both_setRes0 hT _ ht.1) fun _ _ ht => ht.1

theorem both_balCmd (h : R s s') : Both R balCmd balCmd s s' := by
  refine both_get ?_
  have hl : bitsLeft s' = bitsLeft s := by simp only [bitsLeft, hT.csr h]
  simp only [hl, hT.csr h]
  split
  · exact both_pure _ h
  · split
    · exact both_raise _ h
    · exact ⟨rfl, ((At.start h).bitpos hT _).1⟩

theorem both_blfCmd (h : R s s') : Both R blfCmd blfCmd s s' := by
  refine both_get ?_
  have hl : bitsLeft s' = bitsLeft s := by simp only [bitsLeft, hT.csr h]
  rw [hl]
  exact both_setRes0 hT _ h

/-! ### The Huffman decoder -/

theorem both_huffDecode (b : Book) (h : At r R s s') :
    Both (At r R) (huffDecode p b) (huffDecode p b) s s' := by
  have key : ∀ left len acc {t t'}, At r R t t' →
      Both (At r R) (huffLoop (p.hcb b) left len acc) (huffLoop (p.hcb b) left len acc) t t' := by
    intro left
    induction left with
    | zero => exact fun _ _ _ _ ht => both_raise _ ht
    | succ left ih =>
      intro len acc t t' ht
      refine both_seq (both_readBits hT 1 ht) fun v u u' hu => ?_
      cases symbolOf (p.hcb b) (len + 1) (2 * acc + v) with
      | some sym => exact both_pure _ hu
      | none => exact ih _ _ hu
  exact key _ _ _ h

theorem both_signBits (vs : List Int) (h : At r R s s') :
    Both (At r R) (signBits vs) (signBits vs) s s' := by
  induction vs generalizing s s' with
  | nil => exact both_pure _ h
  | cons v vs ih =>
    unfold signBits
    split
    · exact both_seq (ih h) fun _ _ _ ht => both_pure _ ht
    · exact both_seq (both_readBits hT 1 h) fun _ _ _ ht =>
        both_seq (ih ht) fun _ _ _ hu => both_pure _ hu

theorem both_escape (h : At r R s s') : Both (At r R) (escape p) (escape p) s s' := by
  have key : ∀ left n {t t'}, At r R t t' →
      Both (At r R) (escapePrefix left n) (escapePrefix left n) t t' := by
    intro left
    induction left with
    | zero =>
      intro n t t' ht
      refine both_seq (both_readBits hT 1 ht) fun v u u' hu => ?_
      split
      · exact both_raise _ hu
      · exact both_pure _ hu
    | succ left ih =>
      intro n t t' ht
      refine both_seq (both_readBits hT 1 ht) fun v u u' hu => ?_
      split
      · exact ih _ hu
      · exact both_pure _ hu
  exact both_seq (key _ _ h) fun _ _ _ ht =>
    both_seq (both_readBits hT _ ht) fun _ _ _ hu => both_pure _ hu

theorem both_escapes (vs : List Int) (h : At r R s s') :
    Both (At r R) (escapes p vs) (escapes p vs) s s' := by
  induction vs generalizing s s' with
  | nil => exact both_pure _ h
  | cons v vs ih =>
    unfold escapes
    split
    · exact both_seq (both_escape hT h) fun _ _ _ ht =>
        both_seq (ih ht) fun _ _ _ hu => both_pure _ hu
    · exact both_seq (ih h) fun _ _ _ ht => both_pure _ ht

theorem both_huffSpec (b : SpecBook) (h : At r R s s') :
    Both (At r R) (huffSpec p b) (huffSpec p b) s s' := by
  refine both_seq (both_huffDecode hT _ h) fun sym t t' ht => ?_
  have hfin : ∀ v {u u'}, At r R u u' → Both (At r R) (if b = .b11 then escapes p v else pure v)
      (if b = .b11 then escapes p v else pure v) u u' := by
    intro v u u' hu
    split
    · exact both_escapes hT _ hu
    · exact both_pure _ hu
  dsimp only
  split
  · exact hfin _ ht
  · exact both_seq (both_signBits hT _ ht) fun v _ _ hu => hfin v hu

theorem both_hsfCmd (h : R s s') : Both R (hsfCmd p) (hsfCmd p) s s' :=
  both_bind (both_huffDecode hT _ (.start h)) (fun _ _ _ ht => both_setRes0 hT _ ht.1)
    fun _ _ ht => ht.1

theorem both_hspCmd (cb : BitVec 4) (h : R s s') : Both R (hspCmd p cb) (hspCmd p cb) s s' := by
  unfold hspCmd
  cases codebookOf cb with
  | spectral b =>
    exact both_bind (both_huffSpec hT b (.start h))
      (fun _ _ _ ht => ⟨rfl, hT.results ht.1 _⟩) fun _ _ ht => ht.1
  | _ => exact both_raise _ h

/-! ### The channel passes -/

theorem both_sfdBand {c : Channel} {gb : Nat × Nat} (hg : gb.1 < 8) (hb : gb.2 < 64)
    (k : SfCounters) (h : At r R s s') :
    Both (At r R) (sfdBand p c k gb) (sfdBand p c k gb) s s' := by
  have hd : ∀ {t t'}, At r R t t' → Both (At r R) (sfDelta p) (sfDelta p) t t' := fun ht =>
    both_seq (both_huffDecode hT _ ht) fun _ _ _ hu => both_pure _ hu
  have hfin : ∀ {t t'} {k' : SfCounters} (v : Int), At r R t t' →
      Both (At r R) (storeSf c gb v >>= fun _ => pure k') (storeSf c gb v >>= fun _ => pure k')
        t t' := fun _ ht =>
    both_seq (both_store hT rfl _ _ ht) fun _ _ _ hu => both_pure _ hu
  unfold sfdBand
  refine both_get ?_
  rw [cb_twin hT h.1 c hg hb]
  split
  · exact hfin _ h
  · exact both_seq (hd h) fun _ _ _ ht => hfin _ ht
  · exact both_seq (hd h) fun _ _ _ ht => hfin _ ht
  · dsimp only
    split
    · exact both_seq (both_map _ (both_readBits hT _ h)) fun _ _ _ ht => hfin _ ht
    · exact both_seq (hd h) fun _ _ _ ht => hfin _ ht
  · exact both_seq (hd h) fun _ _ _ ht =>
      both_seq (both_check rfl _ ht) fun _ _ _ hu => hfin _ hu
  · exact both_seq (hd h) fun _ _ _ ht =>
      both_seq (both_check rfl _ ht) fun _ _ _ hu => hfin _ hu

omit hT in
theorem done_unit {α : Type} {m m' : Cmd α} (h : Both (At r R) m m' s s') :
    Both R (m >>= fun _ => pure ()) (m' >>= fun _ => pure ()) s s' :=
  both_bind h (fun _ _ _ ht => both_pure _ ht.1) fun _ _ ht => ht.1

theorem both_sfdCmd (c : Channel) (h : R s s') : Both R (sfdCmd p c) (sfdCmd p c) s s' := by
  refine both_get ?_
  rw [hT.csr h]
  refine both_checkThen rfl h fun _ => both_geomCheck hT c h fun hg => ?_
  refine done_unit (both_carry _ rfl (At.start h) fun gb hgb k t t' ht => ?_)
  have hm := mem_bandList.1 hgb
  have := maxsfb_lt s.csr c
  exact both_sfdBand hT (hg.group_lt hm.1) (by omega) k ht

theorem both_storeTuple (c : Channel) (g w i : Nat) (v : List Int) (h : At r R s s') :
    Both (At r R) (storeTuple c g w i v) (storeTuple c g w i v) s s' := by
  refine both_get ?_
  rw [hT.csr h.1]
  exact both_each rfl h fun x _ t t' ht => both_storeLine hT rfl _ _ _ ht

theorem both_spdBand {c : Channel} {gb : Nat × Nat} (hg : gb.1 < 8) (hb : gb.2 < 64)
    (hn : gb.2 < r.nswb c) (h : At r R s s') :
    Both (At r R) (spdBand p c gb) (spdBand p c gb) s s' := by
  unfold spdBand
  refine both_get ?_
  rw [← h.nswb] at hn
  simp only [cb_twin hT h.1 c hg hb, off_twin_of_le hT h.1 c hn.le,
    off_twin_of_le hT h.1 c (show gb.2 + 1 ≤ s.csr.nswb c from hn), hT.csr h.1]
  split
  · refine both_seq (both_check rfl _ h) fun _ t t' ht => ?_
    refine both_each rfl ht fun w _ u u' hu => ?_
    refine both_each rfl hu fun k _ x x' hx => ?_
    exact both_seq (both_huffSpec hT _ hx) fun v _ _ hy => both_storeTuple hT _ _ _ _ _ hy
  all_goals exact both_pure _ h

theorem both_spdCmd (c : Channel) (h : R s s') : Both R (spdCmd p c) (spdCmd p c) s s' := by
  refine both_get ?_
  rw [hT.csr h]
  refine both_checkThen rfl h fun _ => both_geomCheck hT c h fun hg => ?_
  refine Both.imp (R := At s.csr R) ?_ fun _ _ ht => ht.1
  refine both_seq (both_storeLines hT _ _ _ _ (At.start h)) fun _ t t' ht => ?_
  refine both_each rfl ht fun gb hgb u u' hu => ?_
  have hm := mem_bandList.1 hgb
  have := maxsfb_lt s.csr c
  have := hg.bands
  exact both_spdBand hT (hg.group_lt hm.1) (by omega) (by omega) hu

/-! ### Stereo -/

theorem both_stereo {f f' : State → Cmd Unit} (h : R s s')
    (hf : Ref.Geometry s .c0 → Ref.Geometry s .c1 → Both R (f s) (f' s') s s') :
    Both R (stereoChecks >>= fun _ => get >>= f) (stereoChecks >>= fun _ => get >>= f') s s' := by
  have hk : Both R
      (check s.csr.pairOk .cmdError >>= fun _ => check (decide (s.csr.msmode ≠ 3)) .formatError >>=
        fun _ => geomCheck .c0 >>= fun _ => geomCheck .c1 >>= fun _ => get >>= f)
      (check s'.csr.pairOk .cmdError >>= fun _ => check (decide (s'.csr.msmode ≠ 3)) .formatError >>=
        fun _ => geomCheck .c0 >>= fun _ => geomCheck .c1 >>= fun _ => get >>= f') s s' := by
    rw [hT.csr h]
    exact both_checkThen rfl h fun _ => both_checkThen rfl h fun _ =>
      both_geomCheck hT _ h fun h0 => both_geomCheck hT _ h fun h1 => both_get (hf h0 h1)
  have he : ∀ g : State → Cmd Unit, (stereoChecks >>= fun _ => get >>= g) =
      get >>= fun s => check s.csr.pairOk .cmdError >>= fun _ =>
        check (decide (s.csr.msmode ≠ 3)) .formatError >>= fun _ => geomCheck .c0 >>= fun _ =>
        geomCheck .c1 >>= fun _ => get >>= g := by
    intro g
    simp only [stereoChecks, bind_assoc]
  rw [he, he]
  exact both_get hk

theorem both_butterfly (i : Nat) (h : At r R s s') :
    Both (At r R) (butterfly i) (butterfly i) s s' :=
  both_seq (both_loadLine hT (by decide) (by decide) _ _ h) fun _ _ _ h =>
  both_seq (both_loadLine hT (by decide) (by decide) _ _ h) fun _ _ _ h =>
  both_seq (both_drawing hT rfl h) fun _ _ _ h =>
  both_seq (both_drawing hT rfl h) fun _ _ _ h =>
  both_seq (both_storeLine hT rfl _ _ _ h) fun _ _ _ h => both_storeLine hT rfl _ _ _ h

theorem both_msBand {gb : Nat × Nat} (hg : gb.1 < 8) (hb : gb.2 < 64) (hn : gb.2 < r.nswb .c0)
    (h : At r R s s') : Both (At r R) (msBand gb) (msBand gb) s s' := by
  unfold msBand
  refine both_get ?_
  have ha : s'.msApplies gb = s.msApplies gb := by
    simp only [State.msApplies, State.msbit, cb_twin hT h.1 _ hg hb, msu_twin hT h.1 hg hb,
      hT.csr h.1]
  rw [ha]
  split
  · rw [← h.nswb] at hn
    exact both_each (bandLines_twin hT h.1 .c0 gb.1 hn) h fun i _ t t' ht =>
      both_butterfly hT i ht
  · exact both_pure _ h

theorem both_msCmd (h : R s s') : Both R msCmd msCmd s s' := by
  refine both_stereo hT h fun h0 _ => ?_
  rw [hT.csr h]
  refine Both.imp (R := At s.csr R) ?_ fun _ _ ht => ht.1
  refine both_each rfl (At.start h) fun gb hgb t t' ht => ?_
  have hm := mem_bandList.1 hgb
  have := maxsfb_lt s.csr .c0
  have := h0.bands
  exact both_msBand hT (h0.group_lt hm.1) (by omega) (by omega) ht

theorem both_scaleLine (m : F32) (i : Nat) (h : At r R s s') :
    Both (At r R) (scaleLine m i) (scaleLine m i) s s' :=
  both_seq (both_loadLine hT (by decide) (by decide) _ _ h) fun _ _ _ h =>
  both_seq (both_drawing hT rfl h) fun _ _ _ h => both_storeLine hT rfl _ _ _ h

theorem both_isBand {gb : Nat × Nat} (hg : gb.1 < 8) (hb : gb.2 < 64) (hn : gb.2 < r.nswb .c0)
    (h : At r R s s') : Both (At r R) (isBand p gb) (isBand p gb) s s' := by
  unfold isBand
  refine both_get ?_
  have ha : s'.isApplies gb = s.isApplies gb := by
    simp only [State.isApplies, cb_twin hT h.1 _ hg hb]
  have hu : s'.msUsed p gb = s.msUsed p gb := by
    unfold State.msUsed
    rw [msu_twin hT h.1 hg hb, hT.csr h.1]
  have hf : s'.isFactor p gb = s.isFactor p gb := by
    have hv : s'.isNegative p gb = s.isNegative p gb := by
      simp only [State.isNegative, hu, cb_twin hT h.1 _ hg hb]
    unfold State.isFactor
    rw [hv, sf_twin hT h.1 _ hg hb]
  rw [← h.nswb] at hn
  rw [ha, hf, bandLines_twin hT h.1 .c0 gb.1 hn]
  split
  · exact both_seq (both_store hT rfl _ _ h) fun _ _ _ h =>
      both_seq (both_store hT rfl _ _ h) fun _ _ _ h =>
      both_each rfl h fun i _ t t' ht => both_scaleLine hT _ i ht
  · exact both_pure _ h

theorem both_isCmd (h : R s s') : Both R (isCmd p) (isCmd p) s s' := by
  refine both_stereo hT h fun h0 _ => ?_
  rw [hT.csr h]
  refine Both.imp (R := At s.csr R) ?_ fun _ _ ht => ht.1
  refine both_each rfl (At.start h) fun gb hgb t t' ht => ?_
  have hm := mem_bandList.1 hgb
  have := maxsfb_lt s.csr .c0
  have := h0.bands
  exact both_isBand hT (h0.group_lt hm.1) (by omega) (by omega) ht

/-! ### TNS -/

theorem tnsn_twin (h : R s s') (c : Channel) {w : Nat} (hw : w < 8) :
    s'.tnsn c w = s.tnsn c w := by
  have := num_le c
  have hi : 8 * c.num + w < Space.tnsn.size := by
    change 8 * c.num + w < 16
    omega
  simp only [State.tnsn, hT.elem h (sp := .tnsn) (by decide) (by decide) hi]

omit hT in
theorem tnsn_lt (s : State) (c : Channel) (w : Nat) : s.tnsn c w < 4 := (s.elem .tnsn _).isLt

omit hT in
theorem slotIx_lt (c : Channel) {w f : Nat} (hw : w < 8) (hf : f < 4) : slotIx c w f < 64 := by
  have := num_le c
  unfold slotIx
  omega

theorem tnsf_twin (h : R s s') (c : Channel) {w f : Nat} (hw : w < 8) (hf : f < 4) :
    s'.tnsf c w f = s.tnsf c w f := by
  have hi : slotIx c w f < Space.tnsf.size := slotIx_lt c hw hf
  simp only [State.tnsf, hT.elem h (sp := .tnsf) (by decide) (by decide) hi]

theorem tnsc_twin (h : R s s') (c : Channel) {w f k : Nat} (hw : w < 8) (hf : f < 4)
    (hk : k < 32) : s'.tnsc c w f k = s.tnsc c w f k := by
  have := slotIx_lt c hw hf
  have hi : 32 * slotIx c w f + k < Space.tnsc.size := by
    change 32 * slotIx c w f + k < 2048
    omega
  simp only [State.tnsc, hT.elem h (sp := .tnsc) (by decide) (by decide) hi]

omit hT in
theorem order_lt (s : State) (c : Channel) (w f : Nat) : (s.tnsf c w f).order < 32 :=
  field_lt _ 10 6

theorem slotOk_twin (h : R s s') (c : Channel) {w f : Nat} (hw : w < 8) (hf : f < 4) :
    s'.slotOk c w f = s.slotOk c w f := by
  simp only [State.slotOk, tnsf_twin hT h c hw hf]
  congr 1
  refine all_congr_mem fun k hk => ?_
  have := (mem_upTo.1 hk).2
  have := order_lt s c w f
  rw [tnsc_twin hT h c hw hf (by omega)]

theorem slotCoefs_twin (h : R s s') (c : Channel) {w f : Nat} (hw : w < 8) (hf : f < 4) :
    s'.slotCoefs p c w f = s.slotCoefs p c w f := by
  simp only [State.slotCoefs, tnsf_twin hT h c hw hf]
  refine List.map_congr_left fun k hk => ?_
  have := (mem_upTo.1 hk).2
  have := order_lt s c w f
  rw [tnsc_twin hT h c hw hf (by omega)]

theorem both_tnslCmd (c : Channel) (w : BitVec 3) (f : BitVec 2) (h : R s s') :
    Both R (tnslCmd p c w f) (tnslCmd p c w f) s s' := by
  refine both_checkThen rfl h fun _ => both_get ?_
  rw [hT.csr h, slotOk_twin hT h c w.isLt f.isLt, slotCoefs_twin hT h c w.isLt f.isLt]
  refine both_checkThen rfl h fun _ => both_checkThen rfl h fun _ => ?_
  exact both_bind (both_drawing hT rfl (At.start h))
    (fun _ _ _ ht => (both_storeRun hT _ _ _ ht).imp fun _ _ hu => hu.1) fun _ _ ht => ht.1

theorem both_arFilter (c : Channel) (lpc : List F32) (order : Nat) (l : List Nat)
    (h : At r R s s') : Both (At r R) (arFilter c lpc order l) (arFilter c lpc order l) s s' :=
  both_seq (both_carry _ rfl h fun i _ a t t' ht =>
    both_seq (both_loadLine hT (by decide) (by decide) _ _ ht) fun _ _ _ h =>
    both_seq (both_drawing hT rfl h) fun _ _ _ h =>
    both_seq (both_storeLine hT rfl _ _ _ h) fun _ _ _ h => both_pure _ h)
    fun _ _ _ h => both_pure _ h

theorem slotRange_twin (h : R s s') (c : Channel) (top bottom : Nat) :
    s'.slotRange c top bottom = s.slotRange c top bottom := by
  have hm := maxtns_lt s.csr c
  simp only [State.slotRange, hT.csr h]
  rw [off_twin hT h c (by omega), off_twin hT h c (by omega)]

theorem both_tnsSlot (c : Channel) {w f : Nat} (hw : w < 8) (hf : f < 4) (top : Nat)
    (h : At r R s s') : Both (At r R) (tnsSlot p c w top f) (tnsSlot p c w top f) s s' := by
  unfold tnsSlot
  refine both_get ?_
  have hl : ∀ d q, s'.slotLines c w d q = s.slotLines c w d q := fun d q => by
    simp only [State.slotLines, hT.csr h.1]
  simp only [tnsf_twin hT h.1 c hw hf, slotCoefs_twin hT h.1 c hw hf, slotRange_twin hT h.1, hl]
  split
  · exact both_pure _ h
  · exact both_seq (both_drawing hT rfl h) fun _ _ _ h =>
      both_seq (both_storeRun hT _ _ _ h) fun _ _ _ h =>
      both_seq (both_arFilter hT _ _ _ _ h) fun _ _ _ h => both_pure _ h

theorem both_tnsWindow (c : Channel) {w : Nat} (hw : w < 8) (h : At r R s s') :
    Both (At r R) (tnsWindow p c w) (tnsWindow p c w) s s' := by
  refine both_get ?_
  rw [hT.csr h.1, tnsn_twin hT h.1 c hw]
  refine both_seq (both_carry _ rfl h fun f hf top t t' ht => ?_) fun _ _ _ h => both_pure _ h
  have := (mem_upTo.1 hf).2
  have := tnsn_lt s c w
  exact both_tnsSlot hT c hw (by omega) top ht

theorem both_tnsCmd (c : Channel) (h : R s s') : Both R (tnsCmd p c) (tnsCmd p c) s s' := by
  refine both_geomCheck hT c h fun _ => both_get ?_
  have hw : ∀ {w}, w ∈ upTo 0 (s.csr.nwin c) → w < 8 := fun hm =>
    lt_of_lt_of_le (mem_upTo.1 hm).2 (nwin_le _ _)
  have ho : s'.slotsOk c = s.slotsOk c := by
    simp only [State.slotsOk, hT.csr h]
    refine all_congr_mem fun w hm => ?_
    rw [tnsn_twin hT h c (hw hm)]
    refine all_congr_mem fun f hf => ?_
    have := (mem_upTo.1 hf).2
    have := tnsn_lt s c w
    exact slotOk_twin hT h c (hw hm) (by omega)
  rw [ho, hT.csr h]
  refine both_checkThen rfl h fun _ => Both.imp (R := At s.csr R) ?_ fun _ _ ht => ht.1
  exact both_each rfl (At.start h) fun w hm t t' ht => both_tnsWindow hT c (hw hm) ht

/-! ### IQ -/

theorem both_zeroLines (c : Channel) (g w lo hi : Nat) (h : At r R s s') :
    Both (At r R) (zeroLines c g w lo hi) (zeroLines c g w lo hi) s s' := by
  refine both_get ?_
  rw [hT.csr h.1]
  exact both_storeLines hT _ _ _ _ h

theorem both_iqBand {c : Channel} {gw : Nat × Nat} {b : Nat} (hg : gw.1 < 8) (hb : b < 64)
    (hn : b < r.nswb c) (h : At r R s s') :
    Both (At r R) (iqBand p c gw b) (iqBand p c gw b) s s' := by
  unfold iqBand
  refine both_get ?_
  rw [← h.nswb] at hn
  simp only [cb_twin hT h.1 c hg hb, sf_twin hT h.1 c hg hb, windowLines_twin hT h.1 c _ _ hn,
    off_twin_of_le hT h.1 c hn.le, off_twin_of_le hT h.1 c (show b + 1 ≤ s.csr.nswb c from hn)]
  split
  · exact both_each rfl h fun i _ t t' ht =>
      both_seq (both_loadLine hT (by decide) (by decide) _ _ ht) fun _ _ _ h =>
      both_seq (both_drawing hT rfl h) fun _ _ _ h => both_storeLine hT rfl _ _ _ h
  · exact both_pure _ h
  all_goals exact both_zeroLines hT _ _ _ _ _ h

theorem both_iqCmd (c : Channel) (h : R s s') : Both R (iqCmd p c) (iqCmd p c) s s' := by
  refine both_geomCheck hT c h fun hg => both_get ?_
  rw [hT.csr h]
  refine Both.imp (R := At s.csr R) ?_ fun _ _ ht => ht.1
  refine both_each rfl (At.start h) fun gw hgw t t' ht => both_get ?_
  have hm : gw.1 < s.csr.ngrp c := by
    simp only [Csr.windowList, List.mem_flatMap, List.mem_map, mem_upTo] at hgw
    obtain ⟨g, hg, w, -, rfl⟩ := hgw
    exact hg.2
  have hb := hg.bands
  have h6 := maxsfb_lt s.csr c
  have hn : t.csr.maxsfb c ≤ t.csr.nswb c := by rw [ht.nswb, ht.maxsfb]; exact hb
  rw [hT.csr ht.1, off_twin_of_le hT ht.1 c hn]
  refine both_seq (both_each rfl ht fun b hmb u u' hu => ?_) fun _ _ _ hu =>
    both_zeroLines hT _ _ _ _ _ hu
  have hb' := (mem_upTo.1 hmb).2
  rw [ht.maxsfb] at hb'
  exact both_iqBand hT (hg.group_lt hm) (by omega) (by omega) hu

/-! ### FB -/

theorem lines_twin (h : R s s') {sp : Space} (h1 : sp ≠ .pred) (h2 : sp ≠ .tout)
    (hs : sp.size = 2048) (c : Channel) : s'.lines sp c = s.lines sp c := by
  simp only [State.lines, hT.csr h]
  refine List.map_congr_left fun i hi => ?_
  have := (mem_upTo.1 hi).2
  exact hT.elem h h1 h2 (lineIx_lt_size hs (lt_of_lt_of_le this (fl_le _)))

theorem both_fbCmd (c : Channel) (h : R s s') : Both R (fbCmd p c) (fbCmd p c) s s' := by
  refine both_get ?_
  have hf : fbFrame p c s' = fbFrame p c s := by
    funext k
    simp only [fbFrame, hT.csr h, lines_twin hT h (sp := .spec) (by decide) (by decide) rfl,
      lines_twin hT h (sp := .ovl) (by decide) (by decide) rfl]
  rw [hT.csr h]
  refine both_bind (both_drawing hT hf (At.start h)) (fun x _ _ h => ?_) fun _ _ h => h.1
  refine both_bind (both_storeLines hT _ _ _ _ h) (fun _ _ _ h => ?_) fun _ _ h => h.1
  refine both_bind (both_storeLines hT _ _ _ _ h) (fun _ t t' h => ⟨rfl, ?_⟩) fun _ _ h => h.1
  have := hT.setCsr h.1 (t.csr.setPrevShape c (s.csr.wshape c))
  simpa only [hT.csr h.1] using this

/-! ### Every command -/

theorem takeFault_twin (h : R s s') (f : BlockFault) (w : Word) :
    R (takeFault f w s) (takeFault f w s') := by
  unfold takeFault
  rw [hT.csr h]
  split
  · exact hT.setCsr (hT.clear h .tout rfl) _
  · exact hT.setCsr h _

theorem runCmd_twin {w : Word} {m : Cmd Unit} {t : State} (h : R s s')
    (hm : Both R m m s s') (ht : runCmd w m s = .next t) :
    ∃ t', runCmd w m s' = .next t' ∧ R t t' := by
  unfold runCmd at *
  rw [hT.csr h]
  cases hf : s.csr.fault with
  | some f =>
    rw [hf] at ht
    cases ht
    exact ⟨s', rfl, h⟩
  | none =>
    rw [hf] at ht
    unfold Both at hm
    simp only at ht ⊢
    revert hm ht
    cases m s with
    | ok a u =>
      cases m s' with
      | ok a' u' =>
        intro hm ht
        cases ht
        exact ⟨u', rfl, hm.2⟩
      | error e' u' => exact fun hm => hm.elim
    | error e u =>
      cases m s' with
      | ok a' u' => exact fun hm => hm.elim
      | error e' u' =>
        rintro ⟨rfl, hm⟩ ht
        cases e' with
        | raised f =>
          cases ht
          exact ⟨_, rfl, takeFault_twin hT hm f w⟩
        | noElement sp i => cases ht

theorem streamReset_twin (h : R s s') : R (streamReset s) (streamReset s') :=
  hT.clear (hT.clear (hT.clear (hT.setCsr (hT.results h Results.reset) Csr.reset)
    .ovl rfl) .tout rfl) .lpcbuf rfl

/-- Every command takes related states to related states, and answers a next state from both or
from neither. -/
theorem exec_twin {i : Instr} {t : State} (h : R s s') (ht : exec i s = .next t) :
    ∃ t', exec i s' = .next t' ∧ R t t' := by
  cases i with
  | frst =>
    cases ht
    refine ⟨_, rfl, ?_⟩
    unfold frameStart
    rw [hT.csr h]
    split
    · exact hT.setCsr h _
    · exact h
  | srst =>
    cases ht
    exact ⟨_, rfl, streamReset_twin hT h⟩
  | brd n => exact runCmd_twin hT h (both_brdCmd hT n h) ht
  | brds n => exact runCmd_twin hT h (both_brdsCmd hT n h) ht
  | brb => exact runCmd_twin hT h (both_brbCmd hT h) ht
  | bpk n => exact runCmd_twin hT h (both_bpkCmd hT n h) ht
  | bal => exact runCmd_twin hT h (both_balCmd hT h) ht
  | blf => exact runCmd_twin hT h (both_blfCmd hT h) ht
  | hsf => exact runCmd_twin hT h (both_hsfCmd hT h) ht
  | hsp cb => exact runCmd_twin hT h (both_hspCmd hT cb h) ht
  | sfd c => exact runCmd_twin hT h (both_sfdCmd hT c h) ht
  | spd c => exact runCmd_twin hT h (both_spdCmd hT c h) ht
  | ms => exact runCmd_twin hT h (both_msCmd hT h) ht
  | is => exact runCmd_twin hT h (both_isCmd hT h) ht
  | tnsl c w f => exact runCmd_twin hT h (both_tnslCmd hT c w f h) ht
  | tns c => exact runCmd_twin hT h (both_tnsCmd hT c h) ht
  | iq c => exact runCmd_twin hT h (both_iqCmd hT c h) ht
  | fb c => exact runCmd_twin hT h (both_fbCmd hT c h) ht

end Sys2Proof.Machine
end

