-- ==== Sys2Proof/Tests/Slice0.lean ====
section
/-! SUPPORT. Tests of the model. Expected values are those of 95_test_vectors.md or hand
calculation from the rules; the fixture ROM T is that file's (B0). The theorems named
`witness_…` show, for a statement with hypotheses, a state and operands that meet them. -/

namespace Sys2Proof.Tests

open Sys2Proof Machine

/-! ### Well-formedness and decoding -/

/-- The checks refuse n = 33 (R113), cb = 0 and 12 (R115), f = 3 (R116). -/
theorem test_wellFormed_refuses :
    WellFormed (.brd 33) = false ∧ WellFormed (.brds 33) = false ∧
    WellFormed (.bpk 33) = false ∧ WellFormed (.hsp 0) = false ∧
    WellFormed (.hsp 12) = false ∧ WellFormed (.tnsl .c0 0 3) = false := by decide

/-- The checks accept the ends of the legal ranges. -/
theorem test_wellFormed_accepts :
    WellFormed (.brd 0) = true ∧ WellFormed (.brds 32) = true ∧ WellFormed (.bpk 32) = true ∧
    WellFormed (.hsp 1) = true ∧ WellFormed (.hsp 11) = true ∧
    WellFormed (.tnsl .c1 7 2) = true := by decide

/-- Words of formats Z and N, bit by bit from 30_encoding.md R111 to R113. -/
theorem test_decode_formats_z_n :
    decode 0b00000001_000000000000000000000000#32 = .ok .frst ∧
    decode 0b00000010_000000000000000000000000#32 = .ok .srst ∧
    decode 0b00010000_000000000000000000_000011#32 = .ok (.brd 3) ∧
    decode 0b00010001_000000000000000000_100000#32 = .ok (.brds 32) ∧
    decode 0b00010010_000000000000000000000000#32 = .ok .brb ∧
    decode 0b00010011_000000000000000000_001000#32 = .ok (.bpk 8) ∧
    decode 0b00010100_000000000000000000000000#32 = .ok .bal ∧
    decode 0b00010101_000000000000000000000000#32 = .ok .blf ∧
    decode 0b00100000_000000000000000000000000#32 = .ok .hsf ∧
    decode 0b00110000_000000000000000000000000#32 = .ok .ms ∧
    decode 0b00110001_000000000000000000000000#32 = .ok .is := by decide

/-- Words of formats C, B and T, bit by bit from 30_encoding.md R114 to R116. -/
theorem test_decode_formats_c_b_t :
    decode 0b00100001_00000000000000000000_1011#32 = .ok (.hsp 11) ∧
    decode 0b00101000_00000000000000000000000_0#32 = .ok (.sfd .c0) ∧
    decode 0b00101001_00000000000000000000000_1#32 = .ok (.spd .c1) ∧
    decode 0b00111000_000000000000000000_10_011_1#32 = .ok (.tnsl .c1 3 2) ∧
    decode 0b00111001_00000000000000000000000_1#32 = .ok (.tns .c1) ∧
    decode 0b01000000_00000000000000000000000_0#32 = .ok (.iq .c0) ∧
    decode 0b01001000_00000000000000000000000_1#32 = .ok (.fb .c1) := by decide

/-- Illegal words by the name of what is wrong (30_encoding.md R119; B8.5, B8.8). -/
theorem test_decode_refuses :
    decode 0x00000000#32 = .error .unknownOpcode ∧
    decode 0x16000000#32 = .error .unknownOpcode ∧
    decode 0x01000001#32 = .error .reservedBits ∧
    decode 0x28000002#32 = .error .reservedBits ∧
    decode 0x10000021#32 = .error .badCount ∧
    decode 0x21000000#32 = .error .badCodebook ∧
    decode 0x2100000C#32 = .error .badCodebook ∧
    decode 0x38000030#32 = .error .badSlot := by decide

/-! ### States and outcomes -/

/-- What holds of the next state, if there is one. -/
def after {α : Type} (o : Host.Outcome State Fault Refusal) (f : State → α) : Option α :=
  match o with
  | .next t => some (f t)
  | .fault _ => none
  | .refused _ => none

/-- `after` says what the next state is. -/
theorem after_eq {α : Type} {o : Host.Outcome State Fault Refusal} {f : State → α} {a : α}
    (h : after o f = some a) : ∃ t, o = .next t ∧ f t = a := by
  unfold after at h
  split at h
  · exact ⟨_, rfl, Option.some.inj h⟩
  · simp at h
  · simp at h

/-- The control registers of a test, set with `with`. -/
abbrev csr0 : Csr := Csr.reset

/-- The reset state with these control registers and these bytes in IBUF, ILEN their number. -/
def onBytes (r : Csr) (bytes : List Byte) : State :=
  { State.reset with
    csr := { r with ilen := BitVec.ofNat 32 bytes.length }
    mem := Mem.reset.writeRun .ibuf 0 bytes }

/-- The state with the elements from i on set. -/
def put (sp : Space) (i : Nat) (vs : List (BitVec sp.width)) (s : State) : State :=
  { s with mem := s.mem.writeRun sp i vs }

/-- n elements of a space from i on. -/
def seen (sp : Space) (i n : Nat) (s : State) : List (BitVec sp.width) :=
  (List.range n).map fun j => s.elem sp (i + j)

/-- STATUS, FPOS, BITPOS and x[0..3]. -/
def sight (s : State) : Option BlockFault × Nat × Nat × List Int :=
  (s.csr.fault, s.csr.fpos.toNat, s.csr.bitpos.toNat,
    [s.regs.res0.toInt, s.regs.res1.toInt, s.regs.res2.toInt, s.regs.res3.toInt])

/-- The fixture ROM T (95_test_vectors.md B0). -/
def tableT : Book → HuffTable
  | .sf => [⟨1, 0, 60⟩, ⟨3, 4, 59⟩, ⟨4, 10, 61⟩, ⟨4, 11, 58⟩, ⟨4, 12, 62⟩]
  | .spectral .b1 => [⟨1, 0, 40⟩, ⟨5, 16, 41⟩, ⟨5, 17, 39⟩, ⟨5, 18, 67⟩]
  | .spectral .b3 => [⟨1, 0, 0⟩, ⟨4, 8, 1⟩, ⟨4, 9, 27⟩, ⟨4, 10, 80⟩]
  | .spectral .b5 => [⟨1, 0, 40⟩, ⟨3, 4, 41⟩, ⟨3, 5, 31⟩, ⟨4, 12, 80⟩]
  | .spectral .b7 => [⟨1, 0, 0⟩, ⟨3, 4, 1⟩, ⟨3, 5, 8⟩, ⟨4, 12, 9⟩, ⟨4, 13, 63⟩]
  | .spectral .b11 => [⟨2, 0, 0⟩, ⟨2, 1, 272⟩, ⟨3, 4, 33⟩, ⟨3, 5, 288⟩, ⟨3, 6, 18⟩, ⟨4, 14, 136⟩]
  | _ => []

/-- The parameters with ROM T. -/
def paramsT : Params := { blockParams with hcb := tableT }

/-! ### Bit reader (95_test_vectors.md B1) -/

/-- B1 row 1. -/
theorem test_brd : after (exec (.brd 3) (onBytes csr0 [0xA5, 0x3C, 0xF0])) sight =
    some (none, 0, 3, [5, 0, 0, 0]) := by decide

/-- B1 row 18: 32 bits across four byte boundaries. -/
theorem test_brd_unaligned :
    after (exec (.brd 32) (onBytes { csr0 with bitpos := 1 } [255, 255, 255, 255, 128])) sight =
    some (none, 0, 33, [-1, 0, 0, 0]) := by decide

/-- B1 row 2. -/
theorem test_brds : after (exec (.brds 4)
    (onBytes { csr0 with bitpos := 3 } [0xA5, 0x3C, 0xF0])) sight =
    some (none, 0, 7, [2, 0, 0, 0]) := by decide

/-- B1 row 14. -/
theorem test_brds_negative : after (exec (.brds 1) (onBytes csr0 [0x80])) sight =
    some (none, 0, 1, [-1, 0, 0, 0]) := by decide

/-- B1 row 3. -/
theorem test_brb : after (exec .brb (onBytes { csr0 with bitpos := 7 } [0xA5, 0x3C])) sight =
    some (none, 0, 8, [1, 0, 0, 0]) := by decide

/-- B1 row 4. -/
theorem test_bpk : after (exec (.bpk 8) (onBytes { csr0 with bitpos := 8 } [0xA5, 0x3C])) sight =
    some (none, 0, 8, [60, 0, 0, 0]) := by decide

/-- B1 row 24: a peek past the end faults. -/
theorem test_bpk_fault : after (exec (.bpk 5) (onBytes { csr0 with bitpos := 4 } [0xA5])) sight =
    some (some .endOfStream, 4, 4, [0, 0, 0, 0]) := by decide

/-- B1 rows 11 and 12. -/
theorem test_bal :
    after (exec .bal (onBytes { csr0 with bitpos := 21 } [0xA5, 0x3C, 0xF0])) sight =
      some (none, 0, 24, [0, 0, 0, 0]) ∧
    after (exec .bal (onBytes { csr0 with bitpos := 16 } [0xA5, 0x3C, 0xF0])) sight =
      some (none, 0, 16, [0, 0, 0, 0]) := by decide

/-- B1 rows 6 and 20. -/
theorem test_blf :
    after (exec .blf (onBytes { csr0 with bitpos := 20 } [0xA5, 0x3C, 0xF0])) sight =
      some (none, 0, 20, [4, 0, 0, 0]) ∧
    after (exec .blf (onBytes { csr0 with bitpos := 100 } [0x80])) sight =
      some (none, 0, 100, [0, 0, 0, 0]) := by decide

/-! ### Huffman decoder (95_test_vectors.md B2) -/

/-- B2 row 2. -/
theorem test_hsf : after (runCmd 0x20000000 (hsfCmd paramsT) (onBytes csr0 [0x80])) sight =
    some (none, 0, 3, [59, 0, 0, 0]) := by decide

/-- B2 row 21: nineteen bits without a match. -/
theorem test_hsf_fault :
    after (runCmd 0x20000000 (hsfCmd paramsT) (onBytes csr0 [255, 255, 255])) sight =
    some (some .formatError, 19, 19, [0, 0, 0, 0]) := by decide

/-- B2 row 7: four sign bits. -/
theorem test_hsp : after (runCmd 0x21000003 (hspCmd paramsT 3) (onBytes csr0 [0xA5])) sight =
    some (none, 0, 8, [2, -2, 2, -2]) := by decide

/-- B2 row 15: both sign bits come before both escapes. -/
theorem test_hsp_escapes :
    after (runCmd 0x2100000B (hspCmd paramsT 11) (onBytes csr0 [0xAA, 0xF0, 0x00])) sight =
    some (none, 0, 19, [27, -64, 0, 0]) := by decide

/-! ### Channel passes (95_test_vectors.md B3, P2) -/

/-- The set-up of B3: two bands of four lines, the codebooks of channel 0, the stream. -/
def twoBands (r : Csr) (cb0 cb1 : BitVec 4) (bytes : List Byte) : State :=
  put .cb 0 [cb0, cb1] (put .swbl 0 [0, 4, 8]
    (onBytes { r with bands := 0x2, ics0 := 0x210, grp0 := 1 } bytes))

/-- B3 row 4. -/
theorem test_sfd : after (runCmd 0x28000000 (sfdCmd paramsT .c0)
    (twoBands { csr0 with gg0 := 100 } 13 13 [0xFF, 0xE0]))
      (fun t => (t.csr.bitpos.toNat, (seen .sf 0 2 t).map BitVec.toInt)) =
    some (13, [265, 267]) := by decide

/-- B3 row 2: the second gain is out of range, the first scale factor stays written. -/
theorem test_sfd_fault : after (runCmd 0x28000000 (sfdCmd paramsT .c0)
    (twoBands { csr0 with gg0 := 255 } 1 1 [0x50]))
      (fun t => (t.csr.fault, t.csr.fpos.toNat, (seen .sf 0 1 t).map BitVec.toInt)) =
    some (some .formatError, 5, [255]) := by decide

/-- Program P2 step 2. -/
theorem test_spd : after (runCmd 0x29000000 (spdCmd paramsT .c0)
    (put .cb 0 [1, 7, 11] (put .swbl 0 [0, 4, 8, 12]
      (onBytes { csr0 with bands := 0x3, ics0 := 0x218, grp0 := 1 }
        [0x8E, 0x3B, 0x3C, 0x07, 0x00]))))
      (fun t => (t.csr.bitpos.toNat, (seen .qspec 0 13 t).map BitVec.toInt)) =
    some (34, [0, 0, 0, -1, 1, -1, -7, 7, -64, 0, 8, 0, 0]) := by decide +kernel

/-- B3 row 11: the first band decodes and stays, the width of the second does not fit. -/
theorem test_spd_fault : after (runCmd 0x29000000 (spdCmd paramsT .c0)
    (put .swbl 0 [0, 6, 8] (twoBands csr0 5 1 [0xB8, 0x00])))
      (fun t => (t.csr.fault, t.csr.fpos.toNat, (seen .qspec 0 7 t).map BitVec.toInt)) =
    some (some .formatError, 8, [-1, 0, 4, 4, 0, 0, 0]) := by decide +kernel

/-! ### Stereo (95_test_vectors.md B4) -/

/-- The set-up of B4. -/
def pairState (cpe : Word) (cb1 : BitVec 4) (msu : BitVec 1) : State :=
  put .sf 513 [1] (put .pred 64 [1, 1] (put .pred 0 [1, 1] (put .msu 0 [0, msu]
    (put .cb 512 [1, cb1] (put .cb 0 [1, 1] (put .swbl 0 [0, 4, 8]
      (onBytes { csr0 with bands := 0x2, ics0 := 0x210, ics1 := 0x210, grp0 := 1, grp1 := 1,
                           cpe := cpe } [])))))))

/-- B4 row 3: the sum 2^24 + 1 rounds to even; l - r from the old values. -/
theorem test_ms : after (exec .ms
    (put .spec 1024 (0x3F800000 :: List.replicate 7 0) (put .spec 0
      (0x4B800000 :: List.replicate 7 0) (pairState 6 13 0))))
      (fun t => seen .spec 0 1 t ++ seen .spec 1024 1 t) =
    some [0x4B800000, 0x4B7FFFFF] := by decide +kernel

/-- B4 row 5. -/
theorem test_ms_fault : after (exec .ms (pairState 1 13 0)) (fun t => (t.csr.fault, t.csr.finfo)) =
    some (some .cmdError, 0x30000000) := by decide

/-- The sign table of B4: codebook 15 with the MS bit set negates, -0.0 included. -/
theorem test_is : after (exec .is
    (put .spec 4 [0x3F800000, 0xC0000000, 0, 0x40800000] (pairState 5 15 1)))
      (fun t => (seen .spec 1028 4 t, seen .pred 0 2 t, seen .pred 64 2 t)) =
    some ([0xBF5744FD, 0x3FD744FD, 0x80000000, 0xC05744FD], [1, 0], [1, 0]) := by decide +kernel

/-- The sign table of B4: codebook 14 with mask mode 2 does not negate. -/
theorem test_is_all1 : after (exec .is
    (put .spec 4 [0x3F800000, 0xC0000000, 0, 0x40800000] (pairState 6 14 0)))
      (fun t => seen .spec 1028 4 t) =
    some [0x3F5744FD, 0xBFD744FD, 0x00000000, 0x405744FD] := by decide +kernel

/-! ### Temporal noise shaping (95_test_vectors.md B5) -/

/-- The set-up of B5, with the slot descriptor, SPEC[0][8] = 1.0. -/
def shaped (r : Csr) (n : BitVec 2) (d : BitVec 14) : State :=
  put .tnsc 0 [4, 2] (put .tnsf 0 [d] (put .tnsn 0 [n] (put .spec 0
    (List.replicate 8 0 ++ (0x3F800000 :: List.replicate 15 0))
    (put .cb 0 (List.replicate 6 1) (put .swbl 0 [0, 4, 8, 12, 16, 20, 24]
      (onBytes { r with bands := 0x00050006, ics0 := 0x230, grp0 := 1 } []))))))

/-- B5.1. -/
theorem test_tnsl : after (exec (.tnsl .c0 0 0) (shaped csr0 0 0x084)) (seen .lpcbuf 0 4) =
    some [0x3F800000, 0xBFE09C06, 0x3F48261C, 0] := by decide +kernel

/-- B5.8: a window the channel does not have; an index wider than W. -/
theorem test_tnsl_fault :
    after (exec (.tnsl .c0 1 0) (shaped csr0 0 0x084)) (fun t => t.csr.fault) =
      some (some .cmdError) ∧
    after (exec (.tnsl .c0 0 0) (shaped csr0 0 0x2084)) (fun t => t.csr.fault) =
      some (some .formatError) := by decide +kernel

/-- B5.3: the impulse response. -/
theorem test_tns : after (exec (.tns .c0) (shaped csr0 1 0x084)) (seen .spec 7 4) =
    some [0, 0x3F800000, 0x3FE09C06, 0x401307E3] := by decide +kernel

/-- B5.8: order 21. -/
theorem test_tns_fault : after (exec (.tns .c0) (shaped csr0 1 0x544))
      (fun t => (t.csr.fault, t.csr.finfo)) =
    some (some .formatError, 0x39000000) := by decide +kernel

/-! ### Inverse quantizer (95_test_vectors.md B6) -/

/-- B6.1: the largest magnitude and gain; a ZERO band and the lines above it become +0.0. -/
theorem test_iq : after (exec (.iq .c0)
    (put .spec 0 (List.replicate 9 0x3F800000) (put .qspec 0 [8191, 0xE001, 1, 0, 5, 5, 5, 5]
      (put .sf 0 [255, 7] (twoBands csr0 11 0 []))))) (seen .spec 0 9) =
    some [0x680796D7, 0xE80796D7, 0x5F5744FD, 0, 0, 0, 0, 0, 0] := by decide +kernel

/-- B6.2: a noise band is left alone. -/
theorem test_iq_noise : after (exec (.iq .c0)
    (put .spec 0 (List.replicate 9 0x40E00000) (put .qspec 0 [1, 0xFFFF, 0, 1, 9, 9, 9, 9]
      (put .sf 0 [1, 0xFFFFFFCE] (twoBands csr0 1 13 []))))) (seen .spec 0 9) =
    some [0x3F9837F0, 0xBF9837F0, 0, 0x3F9837F0, 0x40E00000, 0x40E00000, 0x40E00000, 0x40E00000,
      0] := by decide +kernel

/-! ### Filterbank (95_test_vectors.md B7) -/

/-- B7 rows 1 and 3, the first element of TOUT that is not +0.0: output 0 of the transform of
line 0 alone, times the sine window. -/
theorem test_fb_transform :
    Flt.mul? (Rom.imdctOut 1024 (Rom.cosTable 1024) [(0, Flt.value 0x44800000)] 0)
      (blockParams.winl .long1024 false 0) = some 0x3A0E102B ∧
    Flt.mul? (Rom.imdctOut 128 (Rom.cosTable 128) [(0, Flt.value 0x43000000)] 0)
      (blockParams.wins .long1024 false 0) = some 0x3B8D4BDD := by decide +kernel

/-- 46_filterbank.md R265, R268, R270: on LONG_STOP the first FLAT elements of TOUT are the old
overlap, whatever the transform gives (here NaNs), and PSHAPE takes the window shape. -/
theorem test_fb : after (exec (.fb .c1)
    (put .ovl 1024 [0x3F000000] (put .spec 1024 [0x7F800000]
      (onBytes { csr0 with ics1 := 7 } []))))
      (fun t => (t.elem .tout 1024, t.csr.pshape)) =
    some (0x3F000000, 2) := by decide +kernel

/-! ### Control and faults (95_test_vectors.md B8) -/

/-- B8 row 3. -/
theorem test_frst : after (exec .frst (onBytes { csr0 with
      fault := some .endOfStream, finfo := 0x10000005, fpos := 20, bitpos := 20 } []))
      (fun t => t.csr) = some csr0 := by decide

/-- B8 row 6: UnsupportedProfile stays. -/
theorem test_frst_fatal : after (exec .frst (onBytes { csr0 with
      fault := some .unsupportedProfile, finfo := 0x28000000 } [])) (fun t => t.csr.fault) =
    some (some .unsupportedProfile) := by decide

/-- B8 row 7. -/
theorem test_srst : after (exec .srst (put .cb 0 [5] (onBytes { csr0 with
      fault := some .unsupportedProfile, finfo := 0x28000000, cfg := 4 } [0x80])))
      (fun t => (t.csr, seen .cb 0 1 t, seen .ibuf 0 1 t)) =
    some (csr0, [5], [0x80]) := by decide

/-- B8 row 5, through a step: the host writes an illegal word. -/
theorem test_step_illegal : after (step (State.reset.withFetchWord 32 0x01000001))
      (fun t => (t.csr.fault, t.csr.finfo)) =
    some (some .cmdError, 0x01000001) := by decide

/-- 10_state.md R71: the reset state is in canonical form and lists nothing. -/
theorem test_reset_wf : Memory.wf State.reset.mem = true := by decide

/-! ### Streams spelled bit by bit, for the witnesses that read the free code tables -/

/-- Byte i of a bit string, its first bit most significant. -/
def byteOf (l : List Bool) (i : Nat) : Byte :=
  BitVec.ofBoolListBE [l.getD (8 * i) false, l.getD (8 * i + 1) false, l.getD (8 * i + 2) false,
    l.getD (8 * i + 3) false, l.getD (8 * i + 4) false, l.getD (8 * i + 5) false,
    l.getD (8 * i + 6) false, l.getD (8 * i + 7) false]

/-- The reset state with these control registers and 24 bytes of stream that start with the
given bits. -/
def onBits (r : Csr) (l : List Bool) : State := onBytes r ((List.range 24).map (byteOf l))

/-- The stream of the state starts with the given bits, inside ILEN. -/
def Spells (s : State) (l : List Bool) : Prop :=
  (∀ k < l.length, Ref.bit s k = (l.getD k false).toNat) ∧ l.length ≤ 8 * s.csr.ilen.toNat

theorem spells_onBits (r : Csr) {l : List Bool} (h : l.length ≤ 192) : Spells (onBits r l) l := by
  refine ⟨fun k hk => ?_, h⟩
  have h1 : (onBits r l).elem .ibuf (k / 8) = byteOf l (k / 8) := by
    have : (onBits r l).elem .ibuf (k / 8) =
        (Mem.reset.writeRun .ibuf 0 ((List.range 24).map (byteOf l))).read .ibuf (k / 8) := rfl
    have hk8 : k / 8 < 24 := by omega
    rw [this, read_writeRun, if_pos ⟨Nat.zero_le _, by simpa using hk8⟩]
    simp [List.getD_eq_getElem?_getD, hk8]
  unfold Ref.bit
  rw [h1]
  have h2 : k = 8 * (k / 8) + k % 8 := by omega
  have h3 : k % 8 < 8 := Nat.mod_lt _ (by decide)
  generalize k / 8 = q at *
  generalize k % 8 = j at *
  subst h2
  have h4 : (byteOf l q).getLsbD (7 - j) = (byteOf l q).getMsbD j := by
    rw [BitVec.getMsbD_eq_getLsbD]; simp [h3]
  rw [h4]
  unfold byteOf
  rw [BitVec.getMsbD_ofBoolListBE]
  interval_cases j <;> rfl

/-- The bits of a codeword. -/
def codeBits (e : HuffEntry) : List Bool :=
  (List.range e.len).map fun i => e.code.testBit (e.len - 1 - i)

theorem sum_testBit (c : Nat) : ∀ n : Nat,
    ∑ i ∈ Finset.range n, (c.testBit (n - 1 - i)).toNat * 2 ^ (n - 1 - i) = c % 2 ^ n := by
  intro n
  rw [Finset.sum_range_reflect fun i => (c.testBit i).toNat * 2 ^ i]
  induction n with
  | zero => simp [Nat.mod_one]
  | succ n ih => rw [Finset.sum_range_succ, ih, Nat.mod_pow_succ, Nat.toNat_testBit, Nat.mul_comm]

/-- Every symbol of a code table has a codeword, and a stream that spells it holds the symbol. -/
theorem exists_spelling (b : Book) {sym : Nat} (h : sym < b.nsym) :
    ∃ code : List Bool, code.length ≤ 19 ∧ ∀ (s : State) (pre post : List Bool),
      Spells s (pre ++ (code ++ post)) →
        Ref.SymbolAt Rom.hcb s b pre.length sym (pre.length + code.length) := by
  obtain ⟨e, he, hs⟩ := validTable_symbol (hcb_valid b) h
  have ho := validTable_entry (hcb_valid b) he
  refine ⟨codeBits e, ?_, fun s pre post hsp => ⟨e, he, ?_, hs, ?_, ?_⟩⟩
  · have : Rom.maxLen b ≤ 19 := by cases b <;> (try rename_i b; cases b) <;> decide
    simp only [codeBits, List.length_map, List.length_range]
    omega
  · unfold Ref.CodewordAt Ref.bits
    rw [← Nat.mod_eq_of_lt ho.2.2.1, ← sum_testBit]
    refine Finset.sum_congr rfl fun i hi => ?_
    rw [Finset.mem_range] at hi
    rw [hsp.1 _ (by simp [codeBits]; omega)]
    congr 3
    rw [List.getD_append_right _ _ _ _ (by omega), Nat.add_sub_cancel_left,
      List.getD_append _ _ _ _ (by simpa [codeBits] using hi)]
    simp [codeBits, List.getD_eq_getElem?_getD, hi]
  · simp [codeBits]
  · have := hsp.2
    simp only [List.length_append] at this
    unfold Ref.InStream
    omega

/-! ### Witnesses: encoding and the step -/

/-- DecodeOfEncode: every operand at the ends of its range is well formed. -/
theorem witness_DecodeOfEncode :
    WellFormed (.brd 32) = true ∧ WellFormed (.hsp 1) = true ∧ WellFormed (.hsp 11) = true ∧
    WellFormed (.tnsl .c1 7 2) = true ∧ WellFormed (.fb .c1) = true := by decide

theorem witness_EncodeOfDecode : decode 0x38000025#32 = .ok (.tnsl .c1 2 2) := by decide

/-- Both cases of DecodingFollowsTheTable occur, at the end of an operand range. -/
theorem witness_DecodingFollowsTheTable :
    Ref.LegalWord 0x2100000B#32 ∧ ¬ Ref.LegalWord 0x2100000C#32 := by
  unfold Ref.LegalWord Ref.operandsLegal; decide

theorem witness_StepRunsDecodedCommand :
    ∃ (s : State) (w : Word) (i : Instr) (rest : List HostAccess),
      s.host = .writeReg 0 w :: rest ∧ decode w = .ok i :=
  ⟨{ State.reset with host := [.writeReg 0 0x48000001, .readReg 1] }, _, .fb .c1, _, rfl,
    by decide⟩

theorem witness_StepWaitsForTheHost : State.reset.host = [] := rfl

theorem witness_IllegalWordRaisesCmdError :
    ∃ (s : State) (w : Word) (rest : List HostAccess), s.host = .writeReg 0 w :: rest ∧
      ¬ Ref.LegalWord w ∧ s.csr.fault = none :=
  ⟨{ State.reset with host := [.writeReg 0 0x10000021] }, _, _, rfl,
    by unfold Ref.LegalWord Ref.operandsLegal; decide, rfl⟩

theorem witness_PendingFaultRefusesCommands :
    (∃ (s : State) (w : Word) (rest : List HostAccess), s.host = .writeReg 0 w :: rest ∧
      s.csr.fault ≠ none ∧ w ≠ 0x01000000#32 ∧ w ≠ 0x02000000#32) ∧
    ∃ (s t : State) (a : HostAccess), (∀ w, a ≠ .writeReg 0 w) ∧ access a s = .next t := by
  refine ⟨⟨{ onBytes { csr0 with fault := some .formatError } [] with
    host := [.writeReg 0 0x01000001] }, _, _, rfl, by decide, by decide, by decide⟩, ?_⟩
  obtain ⟨t, h, -⟩ := after_eq (o := access (.writeReg 4 9) State.reset)
    (f := fun t => t.csr.bitpos) (a := 9) (by decide)
  exact ⟨_, t, .writeReg 4 9, by simp, h⟩

theorem witness_HostWriteReplacesOneElement :
    ∃ (s : State) (sp : Space) (i v : Nat) (rest : List HostAccess),
      s.host = .writeMem sp i v :: rest ∧ sp.hostWritable = true ∧ i < sp.size ∧
      v < 2 ^ sp.width :=
  ⟨{ State.reset with host := [.writeMem .tnsf 63 0x3FFF] }, _, _, _, _, rfl, by decide,
    by decide, by decide⟩

/-- Both ranges of HostWriteReplacesOneRegister, at their ends. -/
theorem witness_HostWriteReplacesOneRegister :
    (∃ (s : State) (n : Nat) (w : Word) (rest : List HostAccess),
      s.host = .writeReg n w :: rest ∧ 4 ≤ n ∧ n ≤ 14 ∧ w &&& ~~~(writableBits n) = 0#32 ∧
      (n = 5 → w.toNat ≤ Config.ibufBytes)) ∧
    (∃ (s : State) (n : Nat) (w : Word) (rest : List HostAccess),
      s.host = .writeReg n w :: rest ∧ n = 5 ∧ w &&& ~~~(writableBits n) = 0#32 ∧
      w.toNat ≤ Config.ibufBytes) ∧
    ∃ (s : State) (n : Nat) (w : Word) (rest : List HostAccess),
      s.host = .writeReg n w :: rest ∧ 15 ≤ n :=
  ⟨⟨{ State.reset with host := [.writeReg 14 7] }, _, _, _, rfl, by decide, by decide, by decide,
    by decide⟩,
   ⟨{ State.reset with host := [.writeReg 5 8192] }, _, _, _, rfl, rfl, by decide, by decide⟩,
   ⟨{ State.reset with host := [.writeReg 15 1] }, _, _, _, rfl, by decide⟩⟩

theorem witness_HostReadsRegisters :
    (∃ (s : State) (n : Nat) (rest : List HostAccess), s.host = .readReg n :: rest) ∧
    ∃ (s : State) (sp : Space) (i : Nat) (rest : List HostAccess),
      s.host = .readMem sp i :: rest ∧ i < sp.size :=
  ⟨⟨{ State.reset with host := [.readReg 20] }, _, _, rfl⟩,
   ⟨{ State.reset with host := [.readMem .lpcbuf 20] }, _, _, _, rfl, by decide⟩⟩

/-! ### Witnesses: faults and control -/

/-- FaultEntry and FaultLeavesBehind: each of the four faults is taken by some command. -/
theorem witness_FaultEntry :
    ∀ f : BlockFault, ∃ (i : Instr) (s t : State), exec i s = .next t ∧ s.csr.fault = none ∧
      t.csr.fault = some f := by
  intro f
  cases f
  · obtain ⟨t, h, hf⟩ := after_eq (o := exec .brb State.reset) (f := fun t => t.csr.fault)
      (a := some .endOfStream) (by decide)
    exact ⟨_, _, t, h, rfl, hf⟩
  · obtain ⟨t, h, hf⟩ := after_eq (o := exec (.iq .c1) State.reset) (f := fun t => t.csr.fault)
      (a := some .formatError) (by decide)
    exact ⟨_, _, t, h, rfl, hf⟩
  · obtain ⟨t, h, hf⟩ := after_eq (o := exec (.spd .c1) (onBytes { csr0 with cfg := 2 } []))
      (f := fun t => t.csr.fault) (a := some .unsupportedProfile) (by decide)
    exact ⟨_, _, t, h, rfl, hf⟩
  · obtain ⟨t, h, hf⟩ := after_eq (o := exec .ms State.reset) (f := fun t => t.csr.fault)
      (a := some .cmdError) (by decide)
    exact ⟨_, _, t, h, rfl, hf⟩

theorem witness_FaultLeavesBehind :
    ∀ f : BlockFault, f ≠ .unsupportedProfile → ∃ (i : Instr) (s t : State),
      exec i s = .next t ∧ s.csr.fault = none ∧ t.csr.fault = some f ∧
      Ref.faultMovesCursor i = false := by
  intro f hne
  cases f
  · obtain ⟨t, h, hf⟩ := after_eq (o := exec .brb State.reset) (f := fun t => t.csr.fault)
      (a := some .endOfStream) (by decide)
    exact ⟨_, _, t, h, rfl, hf, rfl⟩
  · obtain ⟨t, h, hf⟩ := after_eq (o := exec (.iq .c1) State.reset) (f := fun t => t.csr.fault)
      (a := some .formatError) (by decide)
    exact ⟨_, _, t, h, rfl, hf, rfl⟩
  · exact absurd rfl hne
  · obtain ⟨t, h, hf⟩ := after_eq (o := exec .ms State.reset) (f := fun t => t.csr.fault)
      (a := some .cmdError) (by decide)
    exact ⟨_, _, t, h, rfl, hf, rfl⟩

/-- FrstStartsAFrame has both cases. -/
theorem witness_FrstStartsAFrame :
    ∃ s t : State, s.csr.fault = some .unsupportedProfile ∧ t.csr.fault = some .formatError :=
  ⟨onBytes { csr0 with fault := some .unsupportedProfile } [],
   onBytes { csr0 with fault := some .formatError } [], rfl, rfl⟩

theorem witness_SrstAgainstReset : ∃ s t : State, exec .srst s = .next t := by
  obtain ⟨t, h, -⟩ := after_eq (o := exec .srst State.reset) (f := fun t => t.csr) (a := csr0)
    (by decide)
  exact ⟨_, t, h⟩

theorem witness_OnlyControlClearsAFault :
    ∃ s t : State, step s = .next t ∧ s.csr.fault ≠ none ∧ t.csr.fault = none := by
  obtain ⟨t, h, hf⟩ := after_eq
    (o := step ((onBytes { csr0 with fault := some .cmdError } []).withFetchWord 32 0x01000000))
    (f := fun t => t.csr.fault) (a := none) (by decide)
  exact ⟨_, t, h, by decide, hf⟩

/-! ### Witnesses: the bit reader -/

theorem ready_onBytes (r : Csr) (bytes : List Byte) (h : r.fault = none)
    (hl : bytes.length ≤ 8192) : Ref.Ready (onBytes r bytes) := by
  refine ⟨h, ?_⟩
  show (BitVec.ofNat 32 bytes.length).toNat ≤ 8192
  rw [BitVec.toNat_ofNat, Nat.mod_eq_of_lt (by omega)]
  exact hl

/-- The three clauses of BRD, BRDS and BPK at the ends of their ranges: n = 0 with nothing left,
n = 32 with 32 bits left, n = 32 with 24 left, n = 33. -/
theorem witness_BrdReadsAField :
    (∃ (n : BitVec 6) (s : State), Ref.Ready s ∧ n.toNat ≤ 32 ∧ (n.toNat : Int) ≤ Ref.left s ∧
      Ref.left s = 0) ∧
    (∃ (n : BitVec 6) (s : State), Ref.Ready s ∧ n.toNat = 32 ∧ (n.toNat : Int) = Ref.left s) ∧
    (∃ (n : BitVec 6) (s : State), Ref.Ready s ∧ n.toNat ≤ 32 ∧ Ref.left s < n.toNat) ∧
    ∃ (n : BitVec 6) (s : State), Ref.Ready s ∧ 32 < n.toNat :=
  ⟨⟨0, State.reset, ⟨rfl, by decide⟩, by decide, by decide, by decide⟩,
   ⟨32, onBytes csr0 [1, 2, 3, 4], ready_onBytes _ _ rfl (by decide), by decide, by decide⟩,
   ⟨32, onBytes { csr0 with bitpos := 1 } [1, 2, 3, 4], ready_onBytes _ _ rfl (by decide),
     by decide, by decide⟩,
   ⟨33, State.reset, ⟨rfl, by decide⟩, by decide⟩⟩

/-- The clauses of BRDS: n = 1 on the last bit, n = 1 past the end, n = 63. -/
theorem witness_BrdsReadsASignedField :
    (∃ (n : BitVec 6) (s : State), Ref.Ready s ∧ n.toNat = 1 ∧ (n.toNat : Int) = Ref.left s) ∧
    (∃ (n : BitVec 6) (s : State), Ref.Ready s ∧ n.toNat ≤ 32 ∧ Ref.left s < n.toNat) ∧
    ∃ (n : BitVec 6) (s : State), Ref.Ready s ∧ 32 < n.toNat :=
  ⟨⟨1, onBytes { csr0 with bitpos := 7 } [1], ready_onBytes _ _ rfl (by decide), by decide,
     by decide⟩,
   ⟨1, onBytes { csr0 with bitpos := 9 } [1], ready_onBytes _ _ rfl (by decide), by decide,
     by decide⟩,
   ⟨63, State.reset, ⟨rfl, by decide⟩, by decide⟩⟩

/-- The clauses of BPK: n = 8 with 8 bits left, n = 9 with 8 left, n = 33. -/
theorem witness_BpkPeeksAtAField :
    (∃ (n : BitVec 6) (s : State), Ref.Ready s ∧ n.toNat = 8 ∧ (n.toNat : Int) = Ref.left s) ∧
    (∃ (n : BitVec 6) (s : State), Ref.Ready s ∧ n.toNat = 9 ∧ Ref.left s = 8) ∧
    ∃ (n : BitVec 6) (s : State), Ref.Ready s ∧ 32 < n.toNat :=
  ⟨⟨8, onBytes csr0 [1], ready_onBytes _ _ rfl (by decide), by decide, by decide⟩,
   ⟨9, onBytes csr0 [1], ready_onBytes _ _ rfl (by decide), by decide, by decide⟩,
   ⟨33, State.reset, ⟨rfl, by decide⟩, by decide⟩⟩

/-- Both clauses of BRB: one bit left, none left. -/
theorem witness_BrbReadsABit :
    (∃ s : State, Ref.Ready s ∧ Ref.left s = 1) ∧ ∃ s : State, Ref.Ready s ∧ Ref.left s < 1 :=
  ⟨⟨onBytes { csr0 with bitpos := 7 } [1], ready_onBytes _ _ rfl (by decide), by decide⟩,
   ⟨onBytes { csr0 with bitpos := 100 } [1], ready_onBytes _ _ rfl (by decide), by decide⟩⟩

/-- The three clauses of BAL: aligned, exactly the bits to skip left, fewer left. -/
theorem witness_BalAlignsTheCursor :
    (∃ s : State, Ref.Ready s ∧ s.csr.bitpos.toNat % 8 = 0) ∧
    (∃ s : State, Ref.Ready s ∧ s.csr.bitpos.toNat % 8 ≠ 0 ∧
      (8 - s.csr.bitpos.toNat % 8 : Int) = Ref.left s) ∧
    ∃ s : State, Ref.Ready s ∧ s.csr.bitpos.toNat % 8 ≠ 0 ∧
      Ref.left s < (8 - s.csr.bitpos.toNat % 8 : Int) :=
  ⟨⟨State.reset, ⟨rfl, by decide⟩, by decide⟩,
   ⟨onBytes { csr0 with bitpos := 1 } [1], ready_onBytes _ _ rfl (by decide), by decide,
     by decide⟩,
   ⟨onBytes { csr0 with bitpos := 9 } [1], ready_onBytes _ _ rfl (by decide), by decide,
     by decide⟩⟩

/-- The reserved-bit clauses of BRB, BAL and BLF. -/
theorem witness_reserved_bits :
    opField 0x12000001#32 = 0x12#8 ∧ opField 0x14800000#32 = 0x14#8 ∧
    opField 0x15000100#32 = 0x15#8 ∧ State.reset.csr.fault = none := by decide

theorem witness_BlfCountsBitsLeft : ∃ s : State, s.csr.fault = none := ⟨State.reset, rfl⟩

theorem witness_CursorStaysInTheStream : ∃ (i : Instr) (s t : State), exec i s = .next t ∧
    t.csr.bitpos ≠ s.csr.bitpos ∧ t.csr.bitpos.toNat = 8 * t.csr.ilen.toNat := by
  obtain ⟨t, h, ht⟩ := after_eq (o := exec (.brd 8) (onBytes csr0 [1]))
    (f := fun t => (t.csr.bitpos, t.csr.ilen)) (a := (8, 1)) (by decide)
  refine ⟨_, _, t, h, ?_, ?_⟩
  · rw [(Prod.mk.inj ht).1]; decide
  · rw [(Prod.mk.inj ht).1, (Prod.mk.inj ht).2]; decide

/-! ### Witnesses: the Huffman decoder -/

/-- The largest symbol of the scale-factor table stands at the cursor of some state. -/
theorem witness_HsfReadsASymbol :
    (∃ (s : State) (sym k' : Nat), Ref.Ready s ∧
      Ref.SymbolAt Rom.hcb s .sf s.csr.bitpos.toNat sym k' ∧ sym = 120) := by
  obtain ⟨code, hl, hc⟩ := exists_spelling .sf (sym := 120) (by decide)
  refine ⟨onBits csr0 code, 120, _, ready_onBytes _ _ rfl (by simp), hc _ [] [] ?_, rfl⟩
  simpa using spells_onBits csr0 (l := code) (by omega)

/-- The clauses of HuffDecodeFaults for every parameter record, with ROM T: B2 rows 21 and 22,
exactly MAXLEN bits left, and the same in codebook 11. -/
theorem witness_HuffDecodeFaults :
    (∃ (p : Params) (s : State), Ref.Ready s ∧ (p.maxLen .sf : Int) = Ref.left s ∧
      ∀ e ∈ p.hcb .sf, ¬ Ref.CodewordAt s s.csr.bitpos.toNat e) ∧
    (∃ (p : Params) (s : State), Ref.Ready s ∧ Ref.left s < p.maxLen .sf ∧
      s.csr.bitpos.toNat ≤ 8 * s.csr.ilen.toNat ∧
      ∀ e ∈ p.hcb .sf, (e.len : Int) ≤ Ref.left s →
        ¬ Ref.CodewordAt s s.csr.bitpos.toNat e) ∧
    ∃ (p : Params) (cb : BitVec 4) (s : State), Ref.Ready s ∧
      cb.toNat = (Ref.bookRow .b11).number ∧
      (p.maxLen (.spectral .b11) : Int) = Ref.left s ∧
      ∀ e ∈ p.hcb (.spectral .b11), ¬ Ref.CodewordAt s s.csr.bitpos.toNat e := by
  unfold Ref.CodewordAt
  exact ⟨⟨paramsT, onBytes { csr0 with bitpos := 5 } [255, 255, 255],
      ready_onBytes _ _ rfl (by decide), by decide, by decide +kernel⟩,
    ⟨paramsT, onBytes csr0 [255], ready_onBytes _ _ rfl (by decide), by decide, by decide,
      by decide +kernel⟩,
    ⟨paramsT, 11, onBytes { csr0 with bitpos := 4 } [255, 255], ready_onBytes _ _ rfl (by decide),
      by decide, by decide, by decide +kernel⟩⟩

/-- A ROM the witnesses of the fault clauses use: equally long codewords, code = symbol, but one. -/
abbrev rom0 : Book → HuffTable := Rom.sampleTable

theorem rom0_legal : Ref.LegalRom rom0 := sampleTable_valid

/-- A codeword of that ROM at a place in the stream. -/
theorem symbolAt_rom0 {s : State} {b : Book} {k len sym : Nat}
    (h : (⟨len, sym, sym⟩ : HuffEntry) ∈ rom0 b) (hb : Ref.bits s k len = sym)
    (hi : Ref.InStream s (k + len)) : Ref.SymbolAt rom0 s b k sym (k + len) :=
  ⟨_, h, hb, rfl, rfl, hi⟩

/-- HuffDecodeFaults: a scale-factor codeword that is none, with exactly MAXLEN bits, and one cut
off by the end of the stream or starting beyond it. -/
theorem witness_HuffDecodeFaults_hsf :
    (∃ s : State, Ref.Ready s ∧
      Ref.SymbolFails rom0 s .sf s.csr.bitpos.toNat .formatError 24) ∧
    (∃ s : State, Ref.Ready s ∧ Ref.SymbolFails rom0 s .sf s.csr.bitpos.toNat .endOfStream 8) ∧
    ∃ s : State, Ref.Ready s ∧ Ref.SymbolFails rom0 s .sf s.csr.bitpos.toNat .endOfStream 9 := by
  refine ⟨⟨onBytes { csr0 with bitpos := 5 } [255, 255, 255], ready_onBytes _ _ rfl (by decide),
      ?_⟩, ⟨onBytes csr0 [255], ready_onBytes _ _ rfl (by decide), ?_⟩,
    ⟨onBytes { csr0 with bitpos := 9 } [255], ready_onBytes _ _ rfl (by decide), ?_⟩⟩ <;>
  · unfold Ref.SymbolFails Ref.CodewordAt; simp only [Ref.InStream]; decide +kernel

/-- HuffDecodeFaults: in codebook 11 no codeword, a sign bit beyond the end, the ninth one of an
escape prefix, a prefix cut off, and a word cut off behind a complete prefix. -/
theorem witness_HuffDecodeFaults_hsp :
    (∃ s : State, Ref.Ready s ∧
      Ref.TupleFails rom0 s .b11 s.csr.bitpos.toNat .formatError 12) ∧
    (∃ s : State, Ref.Ready s ∧
      Ref.TupleFails rom0 s .b11 s.csr.bitpos.toNat .endOfStream 16) ∧
    (∃ s : State, Ref.Ready s ∧
      Ref.TupleFails rom0 s .b11 s.csr.bitpos.toNat .formatError 19) ∧
    (∃ s : State, Ref.Ready s ∧ s.csr.bitpos = 0 ∧
      Ref.TupleFails rom0 s .b11 s.csr.bitpos.toNat .endOfStream 16) ∧
    ∃ s : State, Ref.Ready s ∧
      Ref.TupleFails rom0 s .b11 s.csr.bitpos.toNat .endOfStream 12 := by
  refine ⟨⟨onBytes csr0 [255, 255], ready_onBytes _ _ rfl (by decide), Or.inl ?_⟩,
    ⟨onBytes { csr0 with bitpos := 6 } [0x00, 0x25], ready_onBytes _ _ rfl (by decide),
      Or.inr ⟨18, _, symbolAt_rom0 (len := 9) (by decide +kernel) (by decide +kernel) ?_,
        rfl, Or.inl ⟨?_, rfl, rfl⟩⟩⟩,
    ⟨onBytes csr0 [0x88, 0x7F, 0xE0], ready_onBytes _ _ rfl (by decide),
      Or.inr ⟨272, _, symbolAt_rom0 (len := 9) (by decide +kernel) (by decide +kernel) ?_,
        rfl, Or.inr ⟨?_, rfl, ?_⟩⟩⟩,
    ⟨onBytes csr0 [0x88, 0x7F], ready_onBytes _ _ rfl (by decide), rfl,
      Or.inr ⟨272, _, symbolAt_rom0 (len := 9) (by decide +kernel) (by decide +kernel) ?_,
        rfl, Or.inr ⟨?_, rfl, ?_⟩⟩⟩,
    ⟨onBytes csr0 [0x88, 0x60], ready_onBytes _ _ rfl (by decide),
      Or.inr ⟨272, _, symbolAt_rom0 (len := 9) (by decide +kernel) (by decide +kernel) ?_,
        rfl, Or.inr ⟨?_, rfl, ?_⟩⟩⟩⟩
  · unfold Ref.SymbolFails Ref.CodewordAt; simp only [Ref.InStream]; decide +kernel
  · unfold Ref.InStream; decide +kernel
  · unfold Ref.InStream; decide +kernel
  · unfold Ref.InStream; decide +kernel
  · unfold Ref.InStream; decide +kernel
  · rw [show Ref.signedTuple _ _ _ = [-16, 0] by decide +kernel]
    refine Or.inl ⟨by decide +kernel, ?_, by decide +kernel⟩
    unfold Ref.InStream; decide +kernel
  · unfold Ref.InStream; decide +kernel
  · unfold Ref.InStream; decide +kernel
  · rw [show Ref.signedTuple _ _ _ = [-16, 0] by decide +kernel]
    refine Or.inl (Or.inl ⟨by decide +kernel, by decide +kernel, fun i hi => ?_⟩)
    have h : i < 6 := by
      have : (0 : Nat) + 9 + Ref.signCount (Ref.unpacked .b11 272) + i < 16 := hi
      have h2 : Ref.signCount (Ref.unpacked .b11 272) = 1 := by decide +kernel
      omega
    interval_cases i <;> decide +kernel
  · unfold Ref.InStream; decide +kernel
  · unfold Ref.InStream; decide +kernel
  · rw [show Ref.signedTuple _ _ _ = [-16, 0] by decide +kernel]
    refine Or.inl (Or.inr ⟨1, by decide, by decide +kernel, by decide +kernel,
      by decide +kernel, ?_, ?_⟩) <;>
    · unfold Ref.InStream; decide +kernel

/-- HspReadsATuple: some tuple of every codebook stands at the cursor of some state. -/
theorem witness_HspReadsATuple (b : SpecBook) :
    ∃ (cb : BitVec 4) (s : State) (v : List Int) (k' : Nat), Ref.Ready s ∧
      cb.toNat = (Ref.bookRow b).number ∧
      Ref.TupleAt Rom.hcb s b s.csr.bitpos.toNat v k' := by
  obtain ⟨sym, hsym, h0⟩ : ∃ sym < (Book.spectral b).nsym,
      Ref.unpacked b sym = List.replicate b.dim 0 := by
    cases b <;> first
      | exact ⟨40, by decide +kernel, by decide +kernel⟩
      | exact ⟨0, by decide +kernel, by decide +kernel⟩
  obtain ⟨code, hl, hc⟩ := exists_spelling (.spectral b) hsym
  have hcb : ∃ cb : BitVec 4, cb.toNat = (Ref.bookRow b).number := by cases b <;> decide
  obtain ⟨cb, hcb⟩ := hcb
  have hs := spells_onBits csr0 (l := code) (by omega)
  have h1 := hc (onBits csr0 code) [] [] (by simpa using hs)
  have hin : Ref.InStream (onBits csr0 code) (([] : List Bool).length + code.length) := by
    have := hs.2
    unfold Ref.InStream
    simpa using this
  refine ⟨cb, onBits csr0 code, Ref.unpacked b sym, ([] : List Bool).length + code.length,
    ready_onBytes _ _ rfl (by simp), hcb, sym, _, Ref.unpacked b sym,
    ([] : List Bool).length + code.length, h1, ?_⟩
  rw [h0]
  cases b <;> first
    | exact ⟨⟨rfl, rfl⟩, rfl, rfl⟩
    | exact ⟨⟨rfl, rfl, hin⟩, rfl, rfl⟩
    | exact ⟨⟨rfl, rfl, hin⟩, _, _, _, ⟨_, _, _, ⟨rfl, rfl⟩, rfl, rfl, rfl⟩, rfl, rfl, rfl⟩

/-- HspReadsATuple with two sign bits and two escape codes: (16, 16) of codebook 11. -/
theorem witness_HspReadsATuple_escapes :
    ∃ (s : State) (k' : Nat), Ref.Ready s ∧
      Ref.TupleAt Rom.hcb s .b11 s.csr.bitpos.toNat [-16, 16] k' := by
  obtain ⟨code, hl, hc⟩ := exists_spelling (.spectral .b11) (sym := 288) (by decide)
  have hs := spells_onBits csr0 (l := code ++ (true :: List.replicate 11 false))
    (by simp; omega)
  have hp : ∀ j < 12, Ref.bit (onBits csr0 (code ++ (true :: List.replicate 11 false)))
      (code.length + j) = ((true :: List.replicate 11 false).getD j false).toNat := by
    intro j hj
    rw [hs.1 _ (by simp; omega), List.getD_append_right _ _ _ _ (by omega),
      Nat.add_sub_cancel_left]
  have h1 := hc (onBits csr0 (code ++ (true :: List.replicate 11 false))) [] _
    (by rw [List.nil_append]; exact hs)
  have hr : Ref.Ready (onBits csr0 (code ++ (true :: List.replicate 11 false))) :=
    ready_onBytes _ _ rfl (by simp)
  have h0 : (onBits csr0 (code ++ (true :: List.replicate 11 false))).csr.bitpos.toNat = 0 := rfl
  have hin : ∀ k ≤ 31, Ref.InStream (onBits csr0 (code ++ (true :: List.replicate 11 false))) k :=
    fun k hk => by
      have : (onBits csr0 (code ++ (true :: List.replicate 11 false))).csr.ilen.toNat = 24 := rfl
      unfold Ref.InStream; omega
  generalize onBits csr0 (code ++ (true :: List.replicate 11 false)) = s at *
  rw [List.length_nil, Nat.zero_add] at h1
  generalize code.length = n at *
  have hz : ∀ j < 8, Ref.bits s (n + (j + 1)) 4 = 0 := by
    intro j hj
    simp only [bits_succ, bits_zero, Nat.add_assoc]
    interval_cases j <;> simp [hp]
  refine ⟨s, n + 2 + 5 + 5, hr, 288, n, [-16, 16], n + 2, by rw [h0]; exact h1,
    ⟨?_, rfl, hin _ (by omega)⟩, ?_⟩
  · show _ = [Ref.signedValue s n [16, 16] 0, Ref.signedValue s n [16, 16] 1]
    have a0 := hp 0 (by decide)
    have a1 := hp 1 (by decide)
    simp at a0 a1
    simp [Ref.signedValue, Ref.signCount, a0, a1]
  · refine ⟨-16, n + 2 + 5, [16], ⟨16, n + 2 + 5 + 5, [], ⟨rfl, rfl⟩, rfl, ?_⟩, rfl, ?_⟩
    · refine ⟨16, ⟨0, by decide, by simp, hp 7 (by decide), ?_, rfl, hin _ (by omega)⟩, rfl⟩
      rw [show n + 2 + 5 + 0 + 1 = n + (7 + 1) by omega, hz 7 (by decide)]; rfl
    · refine ⟨16, ⟨0, by decide, by simp, hp 2 (by decide), ?_, rfl, hin _ (by omega)⟩, rfl⟩
      rw [show n + 2 + 0 + 1 = n + (2 + 1) by omega, hz 2 (by decide)]; rfl

/-! ### Witnesses: the channel passes -/

theorem witness_UnsupportedProfileIsFatal :
    (∃ s : State, s.csr.fault = none ∧ flag s.csr.cfg 2 = true) ∧
    (∃ s : State, s.csr.fault = none ∧ flag s.csr.cfg 1 = true) ∧
    ∃ s t : State, s.csr.fault = some .unsupportedProfile ∧ step s = .next t ∧
      t.csr.fault ≠ some .unsupportedProfile := by
  refine ⟨⟨onBytes { csr0 with cfg := 4 } [], rfl, by decide⟩,
    ⟨onBytes { csr0 with cfg := 2 } [], rfl, by decide⟩, ?_⟩
  obtain ⟨t, h, hf⟩ := after_eq (o := step ((onBytes { csr0 with
      fault := some .unsupportedProfile } []).withFetchWord 32 0x02000000))
    (f := fun t => t.csr.fault) (a := none) (by decide)
  exact ⟨_, t, rfl, h, by rw [hf]; decide⟩

/-- Every clause of GeometryFaults at once: no group, MSMODE 2, the right channel; and a reserved
codebook, the last check. -/
theorem witness_GeometryFaults :
    (∃ (c : Channel) (s : State), s.csr.fault = none ∧ ¬ Ref.Geometry s c ∧
      s.csr.errvlc = false ∧ s.csr.erhcr = false ∧ Ref.Pair s ∧ s.csr.msmode = 2) ∧
    ∃ s : State, s.csr.fault = none ∧ ¬ Ref.Geometry s .c0 ∧ Ref.Geometry (put .cb 1 [1] s) .c0 :=
  ⟨⟨.c1, onBytes { csr0 with cpe := 6 } [], rfl, (geomOk_iff _ _).not.1 (by decide), by decide,
    by decide, ⟨by decide, by decide, by decide, by decide, by decide⟩, by decide⟩,
   ⟨twoBands csr0 1 12 [], rfl, (geomOk_iff _ _).not.1 (by decide),
    (geomOk_iff _ _).1 (by decide)⟩⟩

/-- A long and a short channel with the geometry accepted; in the short one two groups. -/
def shortState (r : Csr) : State :=
  put .cb 576 [14, 13] (put .cb 512 [1, 15] (put .cb 64 [1, 1] (put .cb 0 [1, 1]
    (put .swbs 0 [0, 4, 8] (onBytes
      { r with bands := 0x200, ics0 := 0x412, ics1 := 0x412, grp0 := 0x71, grp1 := 0x71 } [])))))

theorem witness_LinesCoverTheFrame :
    Ref.Geometry (twoBands csr0 1 13 []) .c0 ∧ Ref.Geometry (shortState csr0) .c1 ∧
    Ref.IsLine (shortState csr0) .c1 1 6 127 :=
  ⟨(geomOk_iff _ _).1 (by decide), (geomOk_iff _ _).1 (by decide), by
    unfold Ref.IsLine; decide⟩

/-- The state with 24 bytes of stream that start with the given bits. -/
def withStream (l : List Bool) (s : State) : State :=
  { s with mem := { s.mem with ibuf := (onBits csr0 l).mem.ibuf } }

theorem spells_withStream {s : State} {l : List Bool} (h : l.length ≤ 192)
    (hi : s.csr.ilen = 24) : Spells (withStream l s) l := by
  have := spells_onBits csr0 h
  refine ⟨fun k hk => ?_, ?_⟩
  · rw [← this.1 k hk]
    exact bit_congr rfl k
  · show l.length ≤ 8 * s.csr.ilen.toNat
    rw [hi]
    exact h

/-- All but the stream is as before. -/
theorem csr_withStream (l : List Bool) (s : State) : (withStream l s).csr = s.csr := rfl

theorem cb_withStream (l : List Bool) (s : State) (g b : Nat) :
    (withStream l s).cb .c0 g b = s.cb .c0 g b := rfl

theorem geometry_withStream {l : List Bool} {s : State} (h : s.geomOk .c0 = true) :
    Ref.Geometry (withStream l s) .c0 := (geomOk_iff _ _).1 h

theorem tuples_withStream (l : List Bool) (s : State) :
    Ref.tuples (withStream l s) .c0 = Ref.tuples s .c0 := rfl

theorem sfValue_withStream (l : List Bool) (s : State) (gbs : List (Nat × Nat)) (ds : List Int)
    (n : Nat) : Ref.sfValue (withStream l s) .c0 gbs ds n = Ref.sfValue s .c0 gbs ds n := rfl

/-- The bands of the SFD and SPD witnesses: widths 4, 2, 2, 2, 2. -/
def fiveBands (gain : Word) (cbs : List (BitVec 4)) : State :=
  put .cb 0 cbs (put .swbl 0 [0, 4, 6, 8, 10, 12] { State.reset with
    csr := { csr0 with gg0 := gain, bands := 5, ics0 := 0x228, grp0 := 1, ilen := 24 } })

/-- SfdStoresScaleFactors: a spectral, an intensity, a first noise, a second noise and a ZERO
band, with global gain 255, the end of the range. -/
theorem witness_SfdStoresScaleFactors :
    ∃ (s : State) (ds : List Int) (k' : Nat), Ref.Ready s ∧ s.csr.errvlc = false ∧
      Ref.Geometry s .c0 ∧
      Ref.DeltasAt Rom.hcb s .c0 (s.csr.bandList .c0) s.csr.bitpos.toNat true ds k' ∧
      s.csr.bandList .c0 = [(0, 0), (0, 1), (0, 2), (0, 3), (0, 4)] ∧
      Ref.GainsInRange s .c0 ds (s.csr.bandList .c0).length := by
  obtain ⟨code, hl, hc⟩ := exists_spelling .sf (sym := 60) (by decide)
  have hs := spells_withStream (s := fiveBands 255 [1, 15, 13, 13, 0])
    (l := code ++ (code ++ (List.replicate 9 false ++ code))) (by simp; omega) rfl
  have hb : (fiveBands 255 [1, 15, 13, 13, 0]).csr.bandList .c0 =
      [(0, 0), (0, 1), (0, 2), (0, 3), (0, 4)] := by decide
  have hcb : ∀ n < 5, (fiveBands 255 [1, 15, 13, 13, 0]).cb .c0 0 n =
      [Codebook.spectral .b1, .intensity, .noise, .noise, .zero].getD n .zero := by decide
  have hg : (fiveBands 255 [1, 15, 13, 13, 0]).geomOk .c0 = true := by decide
  have hv : Ref.sfValue (fiveBands 255 [1, 15, 13, 13, 0]) .c0
      [(0, 0), (0, 1), (0, 2), (0, 3), (0, 4)] [0, 0, 0, 0, 0] 0 = 255 := by decide
  have hr : Ref.Ready (withStream (code ++ (code ++ (List.replicate 9 false ++ code)))
      (fiveBands 255 [1, 15, 13, 13, 0])) := ⟨rfl, (by decide : (24 : Nat) ≤ 8192)⟩
  have he : (fiveBands 255 [1, 15, 13, 13, 0]).csr.errvlc = false := by decide
  have hp : (fiveBands 255 [1, 15, 13, 13, 0]).csr.bitpos.toNat = 0 := by decide
  have hil : (fiveBands 255 [1, 15, 13, 13, 0]).csr.ilen.toNat = 24 := by decide
  generalize fiveBands 255 [1, 15, 13, 13, 0] = s at *
  have c1 := hc _ [] _ (by rw [List.nil_append]; exact hs)
  have c2 := hc _ code _ hs
  have c3 := hc _ (code ++ (code ++ List.replicate 9 false)) [] (by simpa using hs)
  have hz : Ref.bits (withStream (code ++ (code ++ (List.replicate 9 false ++ code))) s)
      (code.length + code.length) 9 = 0 := by
    refine Finset.sum_eq_zero fun i hi => ?_
    rw [Finset.mem_range] at hi
    rw [hs.1 _ (by simp; omega), List.getD_append_right _ _ _ _ (by omega),
      List.getD_append_right _ _ _ _ (by omega), List.getD_append _ _ _ _ (by simp; omega)]
    rw [List.getD_eq_getElem?_getD, List.getElem?_replicate]
    split <;> simp
  rw [show (code ++ (code ++ List.replicate 9 false)).length =
    code.length + code.length + 9 by simp; omega] at c3
  rw [List.length_nil, Nat.zero_add] at c1
  have k0 := hcb 0 (by decide)
  have k1 := hcb 1 (by decide)
  have k2 := hcb 2 (by decide)
  have k3 := hcb 3 (by decide)
  have k4 := hcb 4 (by decide)
  refine ⟨_, [0, 0, 0, 0, 0], code.length + code.length + 9 + code.length, hr, he,
    geometry_withStream hg, ?_, hb, ?_⟩
  · rw [csr_withStream, hb, hp]
    refine ⟨0, code.length, [0, 0, 0, 0], rfl, ⟨0, code.length + code.length, [0, 0, 0], rfl,
      ⟨0, code.length + code.length + 9, [0, 0], rfl,
        ⟨0, code.length + code.length + 9 + code.length, [0], rfl,
          ⟨0, _, [], rfl, ⟨rfl, rfl⟩, ?_⟩, ?_⟩, ?_⟩, ?_⟩, ?_⟩
    · simp [cb_withStream, k4]
    · simp only [cb_withStream, k0, k1, k2, k3]; exact ⟨60, c3, rfl⟩
    · simp only [cb_withStream, k0, k1, k2]
      simp only [hz, List.getD_cons_succ, List.getD_cons_zero]
      rw [if_pos (by decide)]
      refine ⟨rfl, trivial, ?_⟩
      show _ ≤ 8 * s.csr.ilen.toNat
      omega
    · simp only [cb_withStream, k1]; exact ⟨60, c2, rfl⟩
    · simp only [cb_withStream, k0]; exact ⟨60, c1, rfl⟩
  · unfold Ref.GainsInRange
    rw [csr_withStream, hb]
    intro n hn h
    have hn5 : n < 5 := hn
    simp only [sfValue_withStream, cb_withStream] at *
    interval_cases n
    · rw [hv]; exact ⟨by decide, by decide⟩
    · simp [k1, Ref.sfClass] at h
    · simp [k2, Ref.sfClass] at h
    · simp [k3, Ref.sfClass] at h
    · simp [k4, Ref.sfClass] at h

/-- The fault clause of SfdStoresScaleFactors: a gain below 0 in the first band, one above 255 in
the second, the nine bits of a first noise band one too many, and no codeword for an intensity
position. -/
theorem witness_SfdStoresScaleFactors_faults :
    (∃ s : State, Ref.Ready s ∧ s.csr.errvlc = false ∧ Ref.Geometry s .c0 ∧
      0 < (s.csr.bandList .c0).length ∧
      Ref.DeltasAt rom0 s .c0 ((s.csr.bandList .c0).take 0) s.csr.bitpos.toNat true [] 0 ∧
      Ref.GainsInRange s .c0 [] 0 ∧ Ref.BandFails rom0 s .c0 [] 0 0 .formatError 7) ∧
    (∃ s : State, Ref.Ready s ∧ s.csr.errvlc = false ∧ Ref.Geometry s .c0 ∧
      1 < (s.csr.bandList .c0).length ∧
      Ref.DeltasAt rom0 s .c0 ((s.csr.bandList .c0).take 1) s.csr.bitpos.toNat true [0] 7 ∧
      Ref.GainsInRange s .c0 [0] 1 ∧ Ref.BandFails rom0 s .c0 [0] 1 7 .formatError 14) ∧
    (∃ s : State, Ref.Ready s ∧ s.csr.errvlc = false ∧ Ref.Geometry s .c0 ∧
      Ref.GainsInRange s .c0 [] 0 ∧ Ref.BandFails rom0 s .c0 [] 0 0 .endOfStream 0) ∧
    ∃ s : State, Ref.Ready s ∧ s.csr.errvlc = false ∧ Ref.Geometry s .c0 ∧
      Ref.GainsInRange s .c0 [] 0 ∧ Ref.BandFails rom0 s .c0 [] 0 0 .formatError 19 := by
  have hg0 : ∀ s : State, Ref.GainsInRange s .c0 [] 0 := fun s j hj => absurd hj (by omega)
  refine ⟨⟨twoBands csr0 1 1 [0x76], ready_onBytes _ _ rfl (by decide), by decide,
      (geomOk_iff _ _).1 (by decide), by decide, ⟨rfl, rfl⟩, hg0 _, Or.inr ⟨rfl, 59, ?_, ?_⟩⟩,
    ⟨twoBands { csr0 with gg0 := 255 } 1 1 [0x78, 0xF4], ready_onBytes _ _ rfl (by decide),
      by decide, (geomOk_iff _ _).1 (by decide), by decide,
      ⟨0, 7, [], rfl, ⟨rfl, rfl⟩, 60, ?_, rfl⟩, ?_, Or.inr ⟨rfl, 61, ?_, ?_⟩⟩,
    ⟨twoBands csr0 13 1 [0xFF], ready_onBytes _ _ rfl (by decide), by decide,
      (geomOk_iff _ _).1 (by decide), hg0 _, ?_⟩,
    ⟨twoBands csr0 15 1 [0xFF, 0xFF, 0xFF], ready_onBytes _ _ rfl (by decide), by decide,
      (geomOk_iff _ _).1 (by decide), hg0 _, ?_⟩⟩
  · exact symbolAt_rom0 (len := 7) (by decide +kernel) (by decide +kernel)
      (by unfold Ref.InStream; decide)
  · decide +kernel
  · exact symbolAt_rom0 (k := 0) (len := 7) (by decide +kernel) (by decide +kernel)
      (by unfold Ref.InStream; decide)
  · intro j hj
    interval_cases j
    decide +kernel
  · exact symbolAt_rom0 (k := 7) (len := 7) (by decide +kernel) (by decide +kernel)
      (by unfold Ref.InStream; decide)
  · decide +kernel
  · show BlockFault.endOfStream = .endOfStream ∧ 0 = 0 ∧ ¬ Ref.InStream _ _
    unfold Ref.InStream
    decide +kernel
  · show Ref.SymbolFails rom0 _ .sf 0 .formatError 19
    unfold Ref.SymbolFails Ref.CodewordAt; simp only [Ref.InStream]; decide +kernel

/-- SpdStoresTuples: a tuple of codebook 1 and one of codebook 11, three bands without. -/
theorem witness_SpdStoresTuples :
    ∃ (s : State) (vs : List (List Int)) (k' : Nat), Ref.Ready s ∧ s.csr.erhcr = false ∧
      Ref.Geometry s .c0 ∧ Ref.WidthsFit s .c0 ∧
      Ref.TuplesAt Rom.hcb s (Ref.tuples s .c0) s.csr.bitpos.toNat vs k' ∧
      Ref.tuples s .c0 = [(.b1, 0), (.b11, 4)] ∧ vs = [[0, 0, 0, 1], [0, 0]] := by
  obtain ⟨code, hl, hc⟩ := exists_spelling (.spectral .b1) (sym := 41) (by decide)
  obtain ⟨code', hl', hc'⟩ := exists_spelling (.spectral .b11) (sym := 0) (by decide)
  have hs := spells_withStream (s := fiveBands 0 [1, 11, 0, 13, 15])
    (l := code ++ code') (by simp; omega) rfl
  have hg : (fiveBands 0 [1, 11, 0, 13, 15]).geomOk .c0 = true := by decide
  have ht : Ref.tuples (fiveBands 0 [1, 11, 0, 13, 15]) .c0 = [(.b1, 0), (.b11, 4)] := by decide
  have hr : Ref.Ready (withStream (code ++ code') (fiveBands 0 [1, 11, 0, 13, 15])) :=
    ⟨rfl, (by decide : (24 : Nat) ≤ 8192)⟩
  have he : (fiveBands 0 [1, 11, 0, 13, 15]).csr.erhcr = false := by decide
  have hp : (fiveBands 0 [1, 11, 0, 13, 15]).csr.bitpos.toNat = 0 := by decide
  have hil : (fiveBands 0 [1, 11, 0, 13, 15]).csr.ilen.toNat = 24 := by decide
  have hw : Ref.WidthsFit (fiveBands 0 [1, 11, 0, 13, 15]) .c0 := by
    have hb : (fiveBands 0 [1, 11, 0, 13, 15]).csr.bandList .c0 =
      [(0, 0), (0, 1), (0, 2), (0, 3), (0, 4)] := by decide
    intro gb hgb bk h
    rw [hb] at hgb
    simp only [List.mem_cons, List.not_mem_nil, or_false] at hgb
    rcases hgb with rfl | rfl | rfl | rfl | rfl <;> cases h <;> decide
  generalize fiveBands 0 [1, 11, 0, 13, 15] = s at *
  have c1 := hc _ [] _ (by rw [List.nil_append]; exact hs)
  have c2 := hc' _ code [] (by simpa using hs)
  rw [List.length_nil, Nat.zero_add] at c1
  have hin : Ref.InStream (withStream (code ++ code') s) (code.length + code'.length) := by
    show _ ≤ 8 * s.csr.ilen.toNat
    omega
  refine ⟨_, [[0, 0, 0, 1], [0, 0]], code.length + code'.length, hr, he,
    geometry_withStream hg, hw, ?_, ht, rfl⟩
  rw [tuples_withStream, ht, csr_withStream, hp]
  exact ⟨[0, 0, 0, 1], code.length, [[0, 0]], rfl,
    ⟨41, code.length, [0, 0, 0, 1], code.length, c1, ⟨rfl, rfl⟩, rfl, rfl⟩,
    [0, 0], code.length + code'.length, [], rfl,
    ⟨0, _, [0, 0], code.length + code'.length, c2, ⟨rfl, rfl, hin⟩,
      ⟨0, code.length + code'.length, [0], ⟨0, code.length + code'.length, [], ⟨rfl, rfl⟩, rfl,
        rfl, rfl⟩, rfl, rfl, rfl⟩⟩, rfl, rfl⟩

/-- The fault clause of SpdStoresTuples: the second band's width is not a whole number of tuples;
the second tuple is cut off by the end of the stream. -/
theorem witness_SpdStoresTuples_faults :
    (∃ s : State, Ref.Ready s ∧ s.csr.erhcr = false ∧ Ref.Geometry s .c0 ∧
      Ref.TuplesAt rom0 s [(.b5, 0), (.b5, 2), (.b5, 4)] s.csr.bitpos.toNat
        [[0, 0], [0, 0], [0, 0]] 21 ∧
      Ref.SpectrumFails rom0 s .c0 [(.b5, 0), (.b5, 2), (.b5, 4)] 21 .formatError 21) ∧
    ∃ s : State, Ref.Ready s ∧ s.csr.erhcr = false ∧ Ref.Geometry s .c0 ∧
      Ref.TuplesAt rom0 s [(.b5, 0)] s.csr.bitpos.toNat [[0, 0]] 7 ∧
      Ref.SpectrumFails rom0 s .c0 [(.b5, 0)] 7 .endOfStream 8 := by
  have tup : ∀ {s : State} {k : Nat}, Ref.bits s k 7 = 40 → Ref.InStream s (k + 7) →
      Ref.TupleAt rom0 s .b5 k [0, 0] (k + 7) := fun {s k} h hi =>
    ⟨40, k + 7, [0, 0], k + 7, symbolAt_rom0 (by decide +kernel) h hi,
      ⟨by decide +kernel, rfl⟩, rfl, rfl⟩
  have hfit : ∀ bytes ∈ [[0x50, 0xA1, 0x40], [0x50]], ∀ gb ∈ ((put .swbl 0 [0, 6, 8] (twoBands csr0 5 1
      bytes)).csr.bandList .c0).take 1,
      Ref.WidthFits (put .swbl 0 [0, 6, 8] (twoBands csr0 5 1 bytes)) .c0 gb := by
    intro bytes hbytes gb hgb bk h
    simp only [List.mem_cons, List.not_mem_nil, or_false] at hbytes
    obtain rfl : gb = (0, 0) := by
      have : ((put .swbl 0 [0, 6, 8] (twoBands csr0 5 1 bytes)).csr.bandList .c0).take 1 =
          [(0, 0)] := by rcases hbytes with rfl | rfl <;> decide
      rw [this] at hgb
      exact List.mem_singleton.1 hgb
    rcases hbytes with rfl | rfl <;> cases h <;> decide
  refine ⟨⟨put .swbl 0 [0, 6, 8] (twoBands csr0 5 1 [0x50, 0xA1, 0x40]),
      ready_onBytes _ _ rfl (by decide), by decide, (geomOk_iff _ _).1 (by decide),
      ⟨_, 7, _, rfl, tup (k := 0) ?_ ?_, _, 14, _, rfl, tup (k := 7) ?_ ?_, _, 21, _, rfl,
        tup (k := 14) ?_ ?_, rfl, rfl⟩,
      1, hfit _ (by simp), Or.inl ⟨by decide +kernel, rfl, rfl, (0, 1), by decide, fun h => ?_⟩⟩,
    ⟨put .swbl 0 [0, 6, 8] (twoBands csr0 5 1 [0x50]), ready_onBytes _ _ rfl (by decide),
      by decide, (geomOk_iff _ _).1 (by decide), ⟨_, 7, _, rfl, tup (k := 0) ?_ ?_, rfl, rfl⟩,
      1, hfit _ (by simp), Or.inr ⟨.b5, 2, [(.b5, 4)], by decide +kernel, Or.inl ?_⟩⟩⟩
  · decide +kernel
  · unfold Ref.InStream; decide
  · decide +kernel
  · unfold Ref.InStream; decide
  · decide +kernel
  · unfold Ref.InStream; decide
  · exact absurd (h .b1 (by decide)) (by decide)
  · decide +kernel
  · unfold Ref.InStream; decide
  · unfold Ref.SymbolFails Ref.CodewordAt; decide +kernel

/-! ### Witnesses: stereo -/

theorem witness_StereoFaults :
    (∃ s : State, s.csr.fault = none ∧ ¬ Ref.Pair s) ∧
    ∃ s : State, s.csr.fault = none ∧ Ref.Pair s ∧ s.csr.msmode = 3 :=
  ⟨⟨State.reset, rfl, fun h => absurd h.common (by decide)⟩,
   ⟨pairState 7 1 0, rfl, ⟨by decide, by decide, by decide, by decide, by decide⟩, by decide⟩⟩

/-- A pair of short channels with plain, intensity and noise bands. -/
def stereoState : State :=
  put .msu 64 [1, 1] (put .msu 0 [1, 0] (shortState { csr0 with cpe := 5 }))

theorem stereoState_ready : Ref.StereoReady stereoState :=
  ⟨rfl, ⟨by decide, by decide, by decide, by decide, by decide⟩, by decide,
    (geomOk_iff _ _).1 (by decide), (geomOk_iff _ _).1 (by decide)⟩

theorem witness_MsButterfly :
    ∃ s : State, Ref.StereoReady s ∧ Ref.IsLine s .c0 0 0 3 ∧ Ref.InBand s .c0 0 3 ∧
      Ref.MsBand s 0 0 := by
  refine ⟨stereoState, stereoState_ready, ?_⟩
  unfold Ref.IsLine Ref.InBand Ref.MsBand
  decide

theorem witness_IsRebuildsTheRightChannel :
    ∃ s : State, Ref.StereoReady s ∧ Ref.IsLine s .c0 1 6 3 ∧ Ref.InBand s .c0 0 3 ∧
      Ref.IsBand s 1 0 ∧ Ref.IsBand s 0 1 := by
  refine ⟨stereoState, stereoState_ready, ?_⟩
  unfold Ref.IsLine Ref.InBand Ref.IsBand
  decide

theorem witness_MsAndIsNeverBothApply :
    stereoState.msApplies (0, 0) = true ∧ stereoState.isApplies (1, 0) = true := by decide

/-! ### Witnesses: temporal noise shaping, inverse quantizer, filterbank -/

/-- The three clauses of SlotFaults (B5.8). -/
theorem witness_SlotFaults :
    (∃ (w : BitVec 3) (f : BitVec 2) (s : State), s.csr.fault = none ∧ f.toNat ≤ 2 ∧
      s.csr.nwin .c0 = w.toNat) ∧
    ∃ (w : BitVec 3) (f : BitVec 2) (s : State), s.csr.fault = none ∧ f.toNat ≤ 2 ∧
      Ref.Geometry s .c0 ∧ w.toNat < s.csr.nwin .c0 ∧ f.toNat < s.tnsn .c0 w.toNat ∧
      ¬ Ref.SlotValid s .c0 w.toNat f.toNat :=
  ⟨⟨1, 2, State.reset, rfl, by decide, by decide⟩,
   ⟨0, 0, shaped csr0 1 0x544, rfl, by decide, (geomOk_iff _ _).1 (by decide +kernel), by decide,
    by decide +kernel, (slotOk_iff _ _ _ _).not.1 (by decide +kernel)⟩⟩

theorem witness_TnslComputesCoefficients :
    ∃ (w : BitVec 3) (f : BitVec 2) (s : State), s.csr.fault = none ∧ f.toNat ≤ 2 ∧
      w.toNat < s.csr.nwin .c0 ∧ Ref.SlotValid s .c0 w.toNat f.toNat ∧
      (s.tnsf .c0 w.toNat f.toNat).order = 2 :=
  ⟨0, 0, shaped csr0 1 0x084, rfl, by decide, by decide,
    (slotOk_iff _ _ _ _).1 (by decide +kernel), by decide +kernel⟩

theorem witness_TnsFiltersTheSpectrum :
    ∃ s : State, s.csr.fault = none ∧ Ref.Geometry s .c0 ∧
      (∀ w < s.csr.nwin .c0, ∀ f < s.tnsn .c0 w, Ref.SlotValid s .c0 w f) ∧
      Ref.ActiveSlot s .c0 0 0 ∧ Ref.slotEnd s .c0 0 0 - Ref.slotStart s .c0 0 0 = 12 := by
  refine ⟨shaped csr0 1 0x084, rfl, (geomOk_iff _ _).1 (by decide +kernel), ?_, ?_,
    by decide +kernel⟩
  · intro w hw f hf
    have h1 : w < 1 := hw
    interval_cases w
    have h2 : f < 1 := hf
    interval_cases f
    exact (slotOk_iff _ _ _ _).1 (by decide +kernel)
  · unfold Ref.ActiveSlot; decide +kernel

/-- IqDequantizes: a spectral band, a noise band and a line above the last band. -/
theorem witness_IqDequantizes :
    ∃ s : State, s.csr.fault = none ∧ Ref.Geometry s .c0 ∧ Ref.IsLine s .c0 0 0 1023 ∧
      Ref.InBand s .c0 0 3 ∧ s.cb .c0 0 0 = .spectral .b11 ∧ Ref.InBand s .c0 1 4 ∧
      s.cb .c0 0 1 = .noise := by
  refine ⟨twoBands csr0 11 13 [], rfl, (geomOk_iff _ _).1 (by decide), ?_⟩
  unfold Ref.IsLine Ref.InBand
  decide

theorem witness_DequantizerIsOdd : ∃ q : Int, q ≠ 0 := ⟨8191, by decide⟩

/-- FbSynthesizesALongFrame: each of the three long sequences. -/
theorem witness_FbSynthesizesALongFrame :
    ∀ q : WindowSeq, q ≠ .eightShort →
      ∃ s : State, s.csr.fault = none ∧ s.csr.wseq .c1 = q := by
  intro q hq
  cases q
  · exact ⟨onBytes { csr0 with ics1 := 0 } [], rfl, by decide⟩
  · exact ⟨onBytes { csr0 with ics1 := 1 } [], rfl, by decide⟩
  · exact absurd rfl hq
  · exact ⟨onBytes { csr0 with ics1 := 3 } [], rfl, by decide⟩

theorem witness_FbSynthesizesAShortFrame :
    ∃ s : State, s.csr.fault = none ∧ s.csr.wseq .c0 = .eightShort :=
  ⟨onBytes { csr0 with ics0 := 2 } [], rfl, by decide⟩

/-- The clauses of TransformSymmetries: finite inputs, zeros of either sign, an infinite input. -/
theorem witness_TransformSymmetries :
    (∃ xs : List F32, xs.length = 1024 ∧ (∀ x ∈ xs, Flt.isFinite x = true) ∧ 0x7F7FFFFF#32 ∈ xs) ∧
    (∃ xs : List F32, xs.length = 120 ∧ ∀ x ∈ xs, x = 0x00000000#32 ∨ x = 0x80000000#32) ∧
    ∃ xs : List F32, xs.length = 128 ∧ ∃ x ∈ xs, Flt.isFinite x = false := by
  refine ⟨⟨List.replicate 1024 0x7F7FFFFF#32, List.length_replicate, ?_,
    List.mem_replicate.2 ⟨by decide, rfl⟩⟩,
    ⟨List.replicate 120 0x80000000#32, List.length_replicate, fun x hx => ?_⟩,
    ⟨List.replicate 128 0x7F800000#32, List.length_replicate, 0x7F800000#32,
      List.mem_replicate.2 ⟨by decide, rfl⟩, by decide⟩⟩
  · intro x hx
    rw [List.eq_of_mem_replicate hx]
    decide
  · exact .inr (List.eq_of_mem_replicate hx)

/-! ### Witnesses: arithmetic -/

/-- The clauses of SumIsTheNearestNumber: a tie that goes to even, a sum at the threshold of
infinity and one just below it, and both zero sums; both zero differences. -/
theorem witness_SumIsTheNearestNumber :
    Flt.add? 0x4B800000#32 0x3F800000#32 = some 0x4B800000#32 ∧
    Flt.add? 0x7F7FFFFF#32 0x73000000#32 = some 0x7F800000#32 ∧
    Flt.add? 0x7F7FFFFF#32 0x72FFFFFF#32 = some 0x7F7FFFFF#32 ∧
    Flt.add? 0x3F800000#32 0xBF800000#32 = some 0x00000000#32 ∧
    Flt.add? 0x80000000#32 0x80000000#32 = some 0x80000000#32 ∧
    Flt.sub? 0x3F800000#32 0x3F800000#32 = some 0x00000000#32 ∧
    Flt.sub? 0x80000000#32 0x00000000#32 = some 0x80000000#32 := by decide +kernel

/-- The clauses of NaNResults about infinite operands: ∞ + 1, 1 - ∞, -2 · ∞. -/
theorem witness_NaNResults :
    Flt.add? 0x7F800000#32 0x3F800000#32 = some 0x7F800000#32 ∧
    Flt.sub? 0x3F800000#32 0x7F800000#32 = some 0xFF800000#32 ∧
    Flt.mul? 0xC0000000#32 0x7F800000#32 = some 0xFF800000#32 ∧
    Flt.sub? 0x7F800000#32 0x7F800000#32 = none := by decide +kernel

/-- The clauses of ProductIsTheNearestNumber: a tie to even at the bottom, infinity, and the
sign of a zero. -/
theorem witness_ProductIsTheNearestNumber :
    Flt.mul? 0x00000001#32 0x3F000000#32 = some 0x00000000#32 ∧
    Flt.mul? 0x7F7FFFFF#32 0x40000000#32 = some 0x7F800000#32 ∧
    Flt.mul? 0x80000000#32 0x3F800000#32 = some 0x80000000#32 := by decide +kernel

theorem witness_PowerTableMapsCubesExactly : 63 ^ 4 < 2 ^ 24 := by decide

theorem witness_GainTablesHoldExactPowers :
    ∃ n m : Int, n = -149 ∧ m = 127 ∧ -149 ≤ n ∧ m ≤ 127 := ⟨-149, 127, by decide⟩

/-- TablesHoldTheirFormulas: the Bessel sums of a Kaiser window exist. -/
theorem witness_TablesHoldTheirFormulas (m : ℕ) (α : ℝ) : ∃ k, Ref.IsKaiser m α k := by
  refine ⟨fun p => _, fun p _ => Summable.hasSum ?_⟩
  generalize Real.pi * α * √(1 - ((2 * (p : ℝ) - m) / m) ^ 2) / 2 = x
  refine (Real.summable_pow_div_factorial (x ^ 2)).of_nonneg_of_le (fun j => ?_) fun j => ?_
  · rw [pow_mul]; positivity
  · rw [pow_mul]
    have h : (1 : ℝ) ≤ j.factorial := by exact_mod_cast j.factorial_pos
    exact div_le_div_of_nonneg_left (by positivity) (by positivity) (by nlinarith)

/-- 46_filterbank.md R262, the stored values it names, and a value of the table of R263's other
family: WINL(0,1023), WINS(0,0) = sin(π/512). -/
theorem test_windows : blockParams.winl .long1024 false 1023 = 0x3F7FFFFB ∧
    blockParams.wins .long1024 false 0 = 0x3BC90F88 := by decide +kernel

/-- FieldsOfTheRegisters: a register with other bits set reads its field only (10_state.md R42,
R43, R61). -/
theorem test_fields :
    ({ csr0 with ics0 := 0x1A0C }.maxsfb .c0, { csr0 with ics0 := 0x1A0C }.ngrp .c0,
      { csr0 with grp0 := 0x71234568 }.glen .c0 7) = (1, 13, 7) ∧
    (put .tnsf 0 [0x2FC5] State.reset).tnsf .c0 0 0 = ⟨5, 31, true, false, true⟩ := by decide

/-! ### Witnesses: the whole machine -/

theorem witness_StepKeepsInvariant : ∃ s t : State, s.Ok ∧ step s = .next t ∧ s.host ≠ [] := by
  obtain ⟨t, h, -⟩ := after_eq (o := step (State.reset.withFetchWord 32 0x15000000))
    (f := fun t => t.csr.fault) (a := none) (by decide)
  exact ⟨_, t, ⟨⟨by decide, by decide, by decide, by decide, by decide, by decide, by decide,
    by decide, by decide, by decide, by decide⟩, by decide⟩, h, by simp [State.withFetchWord]⟩

theorem witness_EveryIndexIsInRange : ∃ s : State, s.Ok ∧ s.csr.ilen.toNat = 8192 :=
  ⟨{ State.reset with csr := { csr0 with ilen := 8192 } },
    ⟨⟨by decide, by decide, by decide, by decide, by decide, by decide, by decide,
      by decide, by decide, by decide, by decide⟩, by decide⟩, by decide⟩

theorem witness_SpacesWrittenOnlyByTheirCommands :
    ∃ (i : Instr) (s t : State), exec i s = .next t ∧ Ref.writes i .tout = false ∧
      t.csr.fault = some .formatError := by
  obtain ⟨t, h, hf⟩ := after_eq (o := exec (.iq .c1) State.reset) (f := fun t => t.csr.fault)
    (a := some .formatError) (by decide)
  exact ⟨_, _, t, h, rfl, hf⟩

/-- The three clauses of ResultRegistersWritten: a command that writes no result register, one
that writes x[0] only, one that faults. -/
theorem witness_ResultRegistersWritten :
    (∃ (i : Instr) (s t : State), exec i s = .next t ∧ Ref.writesRes0 i = false ∧
      Ref.writesRes123 i = false) ∧
    (∃ (i : Instr) (s t : State), exec i s = .next t ∧ Ref.writesRes0 i = true ∧
      Ref.writesRes123 i = false) ∧
    ∃ (i : Instr) (s t : State), exec i s = .next t ∧ t.csr.fault ≠ none := by
  refine ⟨?_, ?_, ?_⟩
  · obtain ⟨t, h, -⟩ := after_eq (o := exec .bal State.reset) (f := fun t => t.csr.fault)
      (a := none) (by decide)
    exact ⟨_, _, t, h, rfl, rfl⟩
  · obtain ⟨t, h, -⟩ := after_eq (o := exec .blf State.reset) (f := fun t => t.csr.fault)
      (a := none) (by decide)
    exact ⟨_, _, t, h, rfl, rfl⟩
  · obtain ⟨t, h, hf⟩ := after_eq (o := exec .brb State.reset) (f := fun t => t.csr.fault)
      (a := some .endOfStream) (by decide)
    exact ⟨_, _, t, h, by rw [hf]; decide⟩

theorem witness_ControlRegistersWritten :
    ∃ (i : Instr) (s t : State), exec i s = .next t ∧ i ≠ .srst ∧ (∀ c, i ≠ .fb c) ∧
      Ref.movesCursor i = false := by
  obtain ⟨t, h, -⟩ := after_eq (o := exec .blf State.reset) (f := fun t => t.csr.fault)
    (a := none) (by decide)
  exact ⟨_, _, t, h, by decide, by simp, rfl⟩

/-- Two states that differ in an element listed beyond the last one of CB only. -/
theorem witness_EveryIndexIsInRange_outside :
    ∃ (i : Instr) (s s' t : State), Ref.SameInside s s' ∧ s ≠ s' ∧ exec i s = .next t := by
  obtain ⟨t, h, -⟩ := after_eq (o := exec .blf State.reset) (f := fun t => t.csr.fault)
    (a := none) (by decide)
  refine ⟨.blf, State.reset, put .cb 1024 [5] State.reset, t,
    ⟨rfl, rfl, rfl, rfl, fun sp => ⟨(put .cb 1024 [5] State.reset).mem.cells sp, ?_, ?_⟩⟩,
    by decide, h⟩ <;> cases sp <;> decide

/-- Two states that differ in the result registers, PRED and TOUT only. -/
theorem witness_OutputsAreNeverRead :
    ∃ (i : Instr) (s s' t : State), Ref.Agree s s' ∧ s ≠ s' ∧ exec i s = .next t := by
  obtain ⟨t, h, -⟩ := after_eq (o := exec .blf State.reset) (f := fun t => t.csr.fault)
    (a := none) (by decide)
  refine ⟨.blf, State.reset, Ref.withRes0 7 (put .pred 0 [1] (put .tout 5 [0x3F800000]
    State.reset)), t, ⟨rfl, rfl, rfl, fun sp h1 h2 => ?_⟩, by decide, h⟩
  cases sp <;> first | rfl | exact absurd rfl h1 | exact absurd rfl h2

end Sys2Proof.Tests
end

section
/-! SUPPORT. binary32 patterns as a sign and a magnitude pattern: which patterns are finite,
infinite and NaN, the value of a pattern, and its negation (00_scope.md R20, R21). -/

namespace Sys2Proof.Machine.Flt

open Sys2Proof

/-- The bits below the sign, as a number. Magnitudes are ordered as these numbers are. -/
def mag (a : F32) : Nat := a.toNat % 2 ^ 31

/-- What a magnitude pattern stands for, in units of 2^-149. From the pattern of infinity on it
goes on as though the exponent field had more values: there it is 2^128, the number IEEE 754
compares with on overflow. -/
def magUnits (p : Nat) : Nat :=
  if p / 2 ^ 23 = 0 then p % 2 ^ 23 else (2 ^ 23 + p % 2 ^ 23) * 2 ^ (p / 2 ^ 23 - 1)

theorem mag_lt (a : F32) : mag a < 2 ^ 31 := Nat.mod_lt _ (by decide)

theorem neg_eq_decide (a : F32) : neg a = decide (2 ^ 31 ≤ a.toNat) := BitVec.msb_eq_decide a

/-- A pattern is its sign and its magnitude. -/
theorem eq_of_neg_mag {a b : F32} (hn : neg a = neg b) (hm : mag a = mag b) : a = b := by
  apply BitVec.eq_of_toNat_eq
  simp only [neg_eq_decide, decide_eq_decide, mag] at hn hm
  omega

theorem expField_eq (a : F32) : expField a = mag a / 2 ^ 23 := by
  unfold expField mag; omega

theorem fracField_eq (a : F32) : fracField a = mag a % 2 ^ 23 := by
  unfold fracField mag; omega

theorem units_eq (a : F32) : units a = magUnits (mag a) := by
  simp only [units, magUnits, expField_eq, fracField_eq]

theorem isFinite_iff (a : F32) : isFinite a = true ↔ mag a < infPattern := by
  have := mag_lt a
  simp only [isFinite, expField_eq, bne_iff_ne, infPattern]
  omega

theorem isInf_iff (a : F32) : isInf a = true ↔ mag a = infPattern := by
  simp only [isInf, expField_eq, fracField_eq, Bool.and_eq_true, beq_iff_eq, infPattern]
  omega

theorem isNaN_iff (a : F32) : isNaN a = true ↔ infPattern < mag a := by
  have := mag_lt a
  simp only [isNaN, expField_eq, fracField_eq, Bool.and_eq_true, beq_iff_eq, bne_iff_ne,
    infPattern]
  omega

theorem setWidth_eq_zero_iff (a : F32) : a.setWidth 31 = 0#31 ↔ mag a = 0 := by
  rw [← BitVec.toNat_inj, BitVec.toNat_setWidth]; rfl

/-! ### Negation -/

@[simp] theorem neg_fneg (a : F32) : neg (fneg a) = !neg a := by
  simp [neg, fneg, BitVec.getMsbD_xor]

@[simp] theorem mag_fneg (a : F32) : mag (fneg a) = mag a := by
  have hlow : (0x80000000#32).toNat % 2 ^ 31 = 0 := by decide
  rw [mag, fneg, BitVec.toNat_xor, Nat.xor_mod_two_pow, hlow, Nat.xor_zero, mag]

/-- Negation flips bit 31 and no other. -/
theorem getLsbD_fneg (a : F32) {i : Nat} (hi : i < 32) :
    (fneg a).getLsbD i = (a.getLsbD i != decide (i = 31)) := by
  have hbit : ∀ j < 32, (0x80000000#32).getLsbD j = decide (j = 31) := by decide
  rw [fneg, BitVec.getLsbD_xor, hbit i hi, Bool.bne_eq_xor]

/-! ### A pattern from a sign and a magnitude -/

theorem toNat_withSign (s : Bool) {p : Nat} (hp : p < 2 ^ 31) :
    (withSign s p).toNat = (if s then 2 ^ 31 else 0) + p := by
  rw [withSign, BitVec.toNat_ofNat]
  exact Nat.mod_eq_of_lt (by split <;> omega)

theorem neg_withSign (s : Bool) {p : Nat} (hp : p < 2 ^ 31) : neg (withSign s p) = s := by
  rw [neg_eq_decide, toNat_withSign s hp]
  cases s
  · simp; omega
  · simp

theorem mag_withSign (s : Bool) {p : Nat} (hp : p < 2 ^ 31) : mag (withSign s p) = p := by
  rw [mag, toNat_withSign s hp]
  split <;> omega

/-! ### What a magnitude stands for -/

/-- A pattern with exponent e + 1 (or e, when that is 0) and the significand m stands for
m · 2^e; so does the pattern that a carry out of the significand makes. -/
theorem magUnits_pack {e m : Nat} (he : e = 0 ∨ 2 ^ 23 ≤ m) (hm : m ≤ 2 ^ 24) :
    magUnits (e * 2 ^ 23 + m) = m * 2 ^ e := by
  unfold magUnits
  rcases Nat.lt_or_ge m (2 ^ 23) with hlt | hge
  · obtain rfl : e = 0 := by omega
    rw [if_pos (by omega)]; omega
  · rcases Nat.lt_or_eq_of_le hm with hlt | rfl
    · rw [if_neg (by omega), show (e * 2 ^ 23 + m) / 2 ^ 23 - 1 = e by omega,
        show 2 ^ 23 + (e * 2 ^ 23 + m) % 2 ^ 23 = m by omega]
    · rw [if_neg (by omega), show (e * 2 ^ 23 + 2 ^ 24) / 2 ^ 23 - 1 = e + 1 by omega,
        show 2 ^ 23 + (e * 2 ^ 23 + 2 ^ 24) % 2 ^ 23 = 2 ^ 23 by omega, pow_succ' 2 e]
      omega

/-- Every magnitude has an exponent and a significand. -/
theorem exists_pack (p : Nat) :
    ∃ e m, p = e * 2 ^ 23 + m ∧ (e = 0 ∨ 2 ^ 23 ≤ m) ∧ m < 2 ^ 24 := by
  rcases Nat.lt_or_ge p (2 ^ 23) with hlt | hge
  · exact ⟨0, p, by omega, .inl rfl, by omega⟩
  · exact ⟨p / 2 ^ 23 - 1, 2 ^ 23 + p % 2 ^ 23, by omega, by omega, by omega⟩

theorem magUnits_strictMono : StrictMono magUnits := by
  refine strictMono_nat_of_lt_succ fun p => ?_
  obtain ⟨e, m, rfl, he, hm⟩ := exists_pack p
  rw [Nat.add_assoc, magUnits_pack he hm.le, magUnits_pack (by omega) hm]
  exact Nat.mul_lt_mul_of_pos_right (Nat.lt_succ_self m) (by positivity)

@[simp] theorem magUnits_zero : magUnits 0 = 0 := rfl

theorem units_eq_zero_iff (a : F32) : units a = 0 ↔ mag a = 0 := by
  rw [units_eq]
  exact magUnits_strictMono.injective.eq_iff (b := 0)

theorem value_eq (a : F32) :
    value a = if neg a then -(magUnits (mag a) : Int) else magUnits (mag a) := by
  rw [value, units_eq]

theorem value_fneg (a : F32) : value (fneg a) = -value a := by
  rw [value_eq, value_eq, neg_fneg, mag_fneg]
  cases neg a <;> simp

theorem eq_negZero_iff (a : F32) : a = 0x80000000#32 ↔ neg a = true ∧ units a = 0 := by
  rw [units_eq_zero_iff]
  exact ⟨fun h => h ▸ by decide, fun ⟨hn, hm⟩ => eq_of_neg_mag hn hm⟩

theorem eq_posZero_iff (a : F32) : a = 0x00000000#32 ↔ neg a = false ∧ units a = 0 := by
  rw [units_eq_zero_iff]
  exact ⟨fun h => h ▸ by decide, fun ⟨hn, hm⟩ => eq_of_neg_mag hn hm⟩

end Sys2Proof.Machine.Flt
end

section
/-! SUPPORT. NaN and infinite results (00_scope.md R21; log 4, log 14). -/

namespace Sys2Proof.Machine.Flt

open Sys2Proof

/-- Finite, infinite and NaN exclude each other and leave nothing out. -/
theorem isFinite_eq (a : F32) : isFinite a = (!isNaN a && !isInf a) := by
  rw [Bool.eq_iff_iff, isFinite_iff, Bool.and_eq_true, Bool.not_eq_true', Bool.not_eq_true',
    ← Bool.not_eq_true, ← Bool.not_eq_true, isNaN_iff, isInf_iff]
  omega

@[simp] theorem isNaN_fneg (a : F32) : isNaN (fneg a) = isNaN a := by
  rw [Bool.eq_iff_iff, isNaN_iff, isNaN_iff, mag_fneg]

@[simp] theorem isInf_fneg (a : F32) : isInf (fneg a) = isInf a := by
  rw [Bool.eq_iff_iff, isInf_iff, isInf_iff, mag_fneg]

@[simp] theorem isFinite_fneg (a : F32) : isFinite (fneg a) = isFinite a := by
  simp [isFinite_eq]

/-! ### Sums -/

theorem add?_eq_none_iff (a b : F32) : add? a b = none ↔ isNaN a = true ∨ isNaN b = true ∨
    isInf a = true ∧ isInf b = true ∧ neg a ≠ neg b := by
  unfold add?
  split
  case isTrue hnan =>
    rw [Bool.or_eq_true] at hnan
    exact iff_of_true rfl (hnan.imp_right .inl)
  case isFalse hnan =>
    simp only [Bool.or_eq_true, not_or] at hnan
    split
    case isTrue ha => simp [hnan, ha]
    case isFalse ha => split <;> simp [hnan, ha]

/-- An infinite operand of a sum that is not a NaN is the sum. -/
theorem eq_of_add?_eq_some {a b r : F32} (h : add? a b = some r) :
    (isInf a = true → r = a) ∧ (isInf b = true → r = b) := by
  have hsame : isInf a = true → isInf b = true → neg a = neg b := fun ha hb => by
    by_contra hne
    simp [(add?_eq_none_iff a b).2 (.inr (.inr ⟨ha, hb, hne⟩))] at h
  unfold add? at h
  split at h
  case isTrue => cases h
  case isFalse =>
    split at h
    case isTrue ha =>
      obtain rfl : a = r := by split at h <;> simp_all
      exact ⟨fun _ => rfl, fun hb => eq_of_neg_mag (hsame ha hb)
        (((isInf_iff a).1 ha).trans ((isInf_iff b).1 hb).symm)⟩
    case isFalse ha =>
      refine ⟨fun h => absurd h ha, fun hb => ?_⟩
      rw [if_pos hb, Option.some.injEq] at h
      exact h.symm

theorem sub?_eq_none_iff (a b : F32) : sub? a b = none ↔ isNaN a = true ∨ isNaN b = true ∨
    isInf a = true ∧ isInf b = true ∧ neg a = neg b := by
  simp only [sub?, add?_eq_none_iff, isNaN_fneg, isInf_fneg, neg_fneg, ne_eq, Bool.eq_not,
    not_not]

/-! ### Products -/

/-- The operand that meets an infinity is a zero. -/
theorem isZero_eq_true_iff (a : F32) :
    (isFinite a && units a == 0) = true ↔ a.setWidth 31 = 0#31 := by
  rw [Bool.and_eq_true, beq_iff_eq, units_eq_zero_iff, isFinite_iff, setWidth_eq_zero_iff]
  exact and_iff_right_of_imp fun h => h ▸ by decide

theorem not_isInf_of_setWidth_eq_zero {a : F32} (h : a.setWidth 31 = 0#31) :
    isInf a = false := by
  rw [← Bool.not_eq_true, isInf_iff, (setWidth_eq_zero_iff a).1 h]
  decide

/-- A zero is not infinite, so in a product with an infinite operand it is the other one. -/
theorem mul?_eq_none_iff (a b : F32) : mul? a b = none ↔ isNaN a = true ∨ isNaN b = true ∨
    isInf a = true ∧ b.setWidth 31 = 0#31 ∨ isInf b = true ∧ a.setWidth 31 = 0#31 := by
  have hza := not_isInf_of_setWidth_eq_zero (a := a)
  have hzb := not_isInf_of_setWidth_eq_zero (a := b)
  simp only [mul?, Bool.or_eq_true, isZero_eq_true_iff]
  split
  case isTrue hnan => exact iff_of_true rfl (hnan.imp_right .inl)
  case isFalse hnan =>
    split
    case isTrue hinf => split <;> grind
    case isFalse hinf => simp_all

theorem isInf_of_mul?_eq_some {a b r : F32} (h : mul? a b = some r)
    (hinf : isInf a = true ∨ isInf b = true) :
    isInf r = true ∧ neg r = (neg a != neg b) := by
  have hp : infPattern < 2 ^ 31 := by decide
  obtain rfl : withSign (neg a != neg b) infPattern = r := by
    simp only [mul?, Bool.or_eq_true] at h
    rw [if_pos hinf] at h
    split at h
    case isTrue => cases h
    case isFalse => split at h <;> simp_all
  exact ⟨(isInf_iff _).2 (mag_withSign _ hp), neg_withSign _ hp⟩

/-- Settles O48: each operation's own lemma, a difference through the sum with the operand
negated. -/
theorem naNResults : Obligations.NaNResults :=
  ⟨add?_eq_none_iff, sub?_eq_none_iff, mul?_eq_none_iff, fun _ _ _ => eq_of_add?_eq_some,
    fun _ _ _ h => by simpa using eq_of_add?_eq_some h, fun _ _ _ => isInf_of_mul?_eq_some,
    fun a _ => getLsbD_fneg a, isNaN_ofNaN⟩

end Sys2Proof.Machine.Flt
end

section
/-! SUPPORT. Rounding to nearest, ties to even: what the pattern `roundMag` answers says of the
exact magnitude, over the reals, and that a pattern so chosen, with the exact result's sign and
cut off at infinity, is the rounded number of `Ref.Rounded` and `Ref.RoundedReal`
(00_scope.md R21; IEEE 754). -/

namespace Sys2Proof.Machine.Flt

open Sys2Proof

/-! ### The nearest magnitude -/

/-- The magnitude pattern p is nearest to x, in units of 2^-149: x lies between the midpoints
of p with every smaller and every greater magnitude, and on one of them only when p is even.
Patterns from infinity on count too, as `magUnits` reads them. -/
structure Nearest (x : ℝ) (p : Nat) : Prop where
  above : ∀ q < p, (magUnits q : ℝ) + magUnits p ≤ 2 * x ∧
    ((magUnits q : ℝ) + magUnits p = 2 * x → p % 2 = 0)
  below : ∀ q, p < q → 2 * x ≤ (magUnits p : ℝ) + magUnits q ∧
    (2 * x = (magUnits p : ℝ) + magUnits q → p % 2 = 0)

theorem magUnits_lt_cast {p q : Nat} (h : p < q) : (magUnits p : ℝ) < magUnits q := by
  exact_mod_cast magUnits_strictMono h

theorem magUnits_pack_cast {e m : Nat} (he : e = 0 ∨ 2 ^ 23 ≤ m) (hm : m ≤ 2 ^ 24) :
    (magUnits (e * 2 ^ 23 + m) : ℝ) = m * 2 ^ e := by
  rw [magUnits_pack he hm]; push_cast; rfl

/-- The next magnitude is at least one unit in the last place away. -/
theorem le_magUnits_of_pack_lt {e m q : Nat} (he : e = 0 ∨ 2 ^ 23 ≤ m) (hm : m ≤ 2 ^ 24)
    (hq : e * 2 ^ 23 + m < q) : (m + 1) * 2 ^ e ≤ magUnits q := by
  refine le_trans ?_ (magUnits_strictMono.monotone (show e * 2 ^ 23 + m + 1 ≤ q from hq))
  rcases Nat.lt_or_eq_of_le hm with hlt | rfl
  · rw [Nat.add_assoc, magUnits_pack (by omega) hlt]
  · rw [show e * 2 ^ 23 + 2 ^ 24 + 1 = (e + 1) * 2 ^ 23 + (2 ^ 23 + 1) by omega,
      magUnits_pack (.inr (by omega)) (by omega), pow_succ']
    omega

/-- The magnitude before is one unit in the last place away, or less at a power of two. -/
theorem magUnits_le_of_lt_pack {e m q : Nat} (he : e = 0 ∨ 2 ^ 23 ≤ m) (hm : m ≤ 2 ^ 24)
    (hq : q < e * 2 ^ 23 + m) : magUnits q + 2 ^ e ≤ m * 2 ^ e ∨ m = 2 ^ 23 ∧ e ≠ 0 := by
  by_cases hbin : m = 2 ^ 23 ∧ e ≠ 0
  · exact .inr hbin
  · obtain ⟨m, rfl⟩ : ∃ m', m = m' + 1 := ⟨m - 1, by omega⟩
    have h := magUnits_strictMono.monotone (show q ≤ e * 2 ^ 23 + m by omega)
    rw [magUnits_pack (by omega) (by omega)] at h
    exact .inl (by rw [Nat.succ_mul]; omega)

/-- A significand within half a unit in the last place, even when it is exactly half a unit away,
packs to the nearest magnitude; the exponent must not be too great for x. -/
theorem nearest_pack {x : ℝ} {e m : Nat} (he : e = 0 ∨ 2 ^ 23 ≤ m) (hm : m ≤ 2 ^ 24)
    (hx : e ≠ 0 → (2 ^ 23 : ℝ) * 2 ^ e ≤ x)
    (hnear : |2 * x - 2 * (m * 2 ^ e)| ≤ 2 ^ e)
    (htie : |2 * x - 2 * (m * 2 ^ e)| = 2 ^ e → m % 2 = 0) : Nearest x (e * 2 ^ 23 + m) := by
  have hpos : (0 : ℝ) < 2 ^ e := by positivity
  have heven (h : m % 2 = 0) : (e * 2 ^ 23 + m) % 2 = 0 := by omega
  obtain ⟨hlo, hhi⟩ := abs_le.1 hnear
  constructor
  · intro q hq
    rw [magUnits_pack_cast he hm]
    rcases magUnits_le_of_lt_pack he hm hq with hle | ⟨rfl, h0⟩
    · have hle : (magUnits q : ℝ) + 2 ^ e ≤ m * 2 ^ e := by exact_mod_cast hle
      refine ⟨by linarith, fun h => heven (htie ?_)⟩
      rw [abs_of_nonpos (by linarith)]; linarith
    · have hlt := magUnits_lt_cast hq
      rw [magUnits_pack_cast he hm] at hlt
      have hx := hx h0
      push_cast at hlt ⊢
      exact ⟨by linarith, fun h => absurd h (by linarith)⟩
  · intro q hq
    have hle : ((m : ℝ) + 1) * 2 ^ e ≤ magUnits q := by
      exact_mod_cast le_magUnits_of_pack_lt he hm hq
    rw [magUnits_pack_cast he hm]
    refine ⟨by linarith, fun h => heven (htie ?_)⟩
    rw [abs_of_nonneg (by linarith)]; linarith

/-! ### What `roundMag` answers -/

/-- `roundShift` is within half a unit, and even when it is exactly half a unit away. -/
theorem roundShift_near (n sh : Nat) :
    |2 * (n : ℤ) - 2 * (roundShift n sh * 2 ^ sh)| ≤ 2 ^ sh ∧
    (|2 * (n : ℤ) - 2 * (roundShift n sh * 2 ^ sh)| = 2 ^ sh → roundShift n sh % 2 = 0) := by
  have hdiv : (n : ℤ) = (n / 2 ^ sh : ℕ) * 2 ^ sh + (n % 2 ^ sh : ℕ) := by
    exact_mod_cast (Nat.div_add_mod' n (2 ^ sh)).symm
  have hmod := Nat.mod_lt n (Nat.two_pow_pos sh)
  rw [hdiv]
  unfold roundShift
  generalize n / 2 ^ sh = q at *
  generalize n % 2 ^ sh = r at *
  zify at hmod ⊢
  split
  case isTrue h =>
    rw [show 2 * ((q : ℤ) * 2 ^ sh + r) - 2 * ((q + 1) * 2 ^ sh) = -(2 * (2 ^ sh - r)) by ring,
      abs_neg, abs_of_nonneg (by linarith)]
    omega
  case isFalse h =>
    rw [show 2 * ((q : ℤ) * 2 ^ sh + r) - 2 * (q * 2 ^ sh) = 2 * r by ring,
      abs_of_nonneg (by positivity)]
    omega

/-- `ulpExp` puts the number below 2^24 units in the last place, and at 2^23 of them or more
unless the exponent is the least. -/
theorem ulpExp_bounds (n k : Nat) :
    (ulpExp n k ≠ 0 → 2 ^ 23 * 2 ^ (k + ulpExp n k) ≤ n) ∧
    n < 2 ^ 24 * 2 ^ (k + ulpExp n k) := by
  rw [← pow_add, ← pow_add]
  constructor
  · intro h
    have hlog : 23 + (k + ulpExp n k) = n.log2 := by unfold ulpExp at h ⊢; omega
    have hn : n ≠ 0 := by rintro rfl; simp [ulpExp] at h
    exact hlog ▸ Nat.log2_self_le hn
  · exact Nat.lt_log2_self.trans_le (Nat.pow_le_pow_right (by decide) (by unfold ulpExp; omega))

theorem le_roundShift {c n sh : Nat} (h : c * 2 ^ sh ≤ n) : c ≤ roundShift n sh := by
  have hq : c ≤ n / 2 ^ sh := (Nat.le_div_iff_mul_le (Nat.two_pow_pos sh)).2 h
  unfold roundShift
  dsimp only
  split <;> omega

theorem roundShift_le {c n sh : Nat} (h : n < c * 2 ^ sh) : roundShift n sh ≤ c := by
  have hq : n / 2 ^ sh < c := (Nat.div_lt_iff_lt_mul (Nat.two_pow_pos sh)).2 h
  unfold roundShift
  dsimp only
  split <;> omega

/-- Before it is cut off at infinity, the pattern `roundMag` packs is nearest to its number. -/
theorem nearest_ulpExp_roundShift (n k : Nat) : Nearest (n / 2 ^ k)
    (ulpExp n k * 2 ^ 23 + roundShift n (k + ulpExp n k)) := by
  obtain ⟨hlo, hhi⟩ := ulpExp_bounds n k
  obtain ⟨hnear, htie⟩ := roundShift_near n (k + ulpExp n k)
  have hscale : |2 * ((n : ℝ) / 2 ^ k) - 2 * (roundShift n (k + ulpExp n k) * 2 ^ ulpExp n k)| =
      ((|2 * (n : ℤ) - 2 * (roundShift n (k + ulpExp n k) * 2 ^ (k + ulpExp n k))| : ℤ) : ℝ) /
        2 ^ k := by
    rw [show 2 * ((n : ℝ) / 2 ^ k) - 2 * (roundShift n (k + ulpExp n k) * 2 ^ ulpExp n k) =
      (2 * n - 2 * (roundShift n (k + ulpExp n k) * 2 ^ (k + ulpExp n k))) / 2 ^ k by
        rw [pow_add]; field_simp, abs_div, abs_pow, abs_two]
    push_cast
    rfl
  refine nearest_pack ?_ (roundShift_le hhi) (fun h => ?_) ?_ fun h => htie ?_
  · exact or_iff_not_imp_left.2 fun h => le_roundShift (hlo h)
  · rw [le_div_iff₀ (by positivity), mul_assoc, ← pow_add, add_comm]
    exact_mod_cast hlo h
  · rw [hscale, div_le_iff₀ (by positivity), ← pow_add, add_comm _ k]
    exact_mod_cast hnear
  · rw [hscale, div_eq_iff (by positivity), ← pow_add, add_comm _ k] at h
    exact_mod_cast h

/-! ### The rounded number -/

/-- 2^128 and the greatest finite number, in units of 2^-149. -/
theorem magUnits_infPattern : magUnits infPattern = 2 ^ 24 * 2 ^ 253 := by
  exact magUnits_pack (e := 253) (m := 2 ^ 24) (by decide) (by decide)

theorem magUnits_greatest : magUnits (infPattern - 1) = (2 ^ 24 - 1) * 2 ^ 253 := by
  exact magUnits_pack (e := 253) (m := 2 ^ 24 - 1) (by decide) (by decide)

/-- The nearest magnitude is infinity or beyond exactly from the midpoint of the greatest finite
number and 2^128 on. -/
theorem Nearest.infPattern_le_iff {x : ℝ} {p : Nat} (h : Nearest x p) :
    infPattern ≤ p ↔ (2 ^ 25 - 1) * 2 ^ 252 ≤ x := by
  have hinf : (magUnits infPattern : ℝ) = 2 ^ 24 * 2 ^ 253 := by
    rw [magUnits_infPattern]; norm_num
  have hmax : (magUnits (infPattern - 1) : ℝ) = (2 ^ 24 - 1) * 2 ^ 253 := by
    rw [magUnits_greatest]; norm_num
  constructor
  · intro hp
    have hmid := (h.above (infPattern - 1) (Nat.lt_of_lt_of_le (by decide) hp)).1
    have hle : (magUnits infPattern : ℝ) ≤ magUnits p := by
      exact_mod_cast magUnits_strictMono.monotone hp
    linarith
  · intro hx
    by_contra! hp
    obtain ⟨hmid, htie⟩ := h.below infPattern hp
    rcases Nat.lt_or_eq_of_le (Nat.le_sub_one_of_lt hp) with hlt | rfl
    · linarith [magUnits_lt_cast hlt]
    · exact absurd (htie (by linarith)) (by decide)

/-- No magnitude is nearer to x than the nearest, and one as near makes it even. -/
theorem Nearest.abs_sub_le {x : ℝ} {p : Nat} (h : Nearest x p) (q : Nat) :
    |x - magUnits p| ≤ |x - magUnits q| ∧
    (|x - magUnits p| = |x - magUnits q| → q ≠ p → p % 2 = 0) := by
  rcases lt_trichotomy q p with hlt | rfl | hgt
  · obtain ⟨hmid, htie⟩ := h.above q hlt
    have hU := magUnits_lt_cast hlt
    rw [abs_of_nonneg (show 0 ≤ x - magUnits q by linarith)]
    exact ⟨abs_le.2 ⟨by linarith, by linarith⟩, fun he _ => htie (by
      rcases abs_cases (x - (magUnits p : ℝ)) with ⟨ha, _⟩ | ⟨ha, _⟩ <;> linarith)⟩
  · exact ⟨le_rfl, fun _ hne => absurd rfl hne⟩
  · obtain ⟨hmid, htie⟩ := h.below q hgt
    have hU := magUnits_lt_cast hgt
    rw [abs_of_nonpos (show x - magUnits q ≤ 0 by linarith)]
    exact ⟨abs_le.2 ⟨by linarith, by linarith⟩, fun he _ => htie (by
      rcases abs_cases (x - (magUnits p : ℝ)) with ⟨ha, _⟩ | ⟨ha, _⟩ <;> linarith)⟩

theorem Nearest.pos_of_odd {x : ℝ} {p : Nat} (h : Nearest x p) (hp : p % 2 ≠ 0) :
    0 < x ∧ (0 : ℝ) < magUnits p := by
  have h0 : 0 < p := Nat.pos_of_ne_zero (by rintro rfl; exact hp rfl)
  have hmid := (h.above 0 h0).1
  have hU := magUnits_lt_cast h0
  simp only [magUnits_zero, Nat.cast_zero] at hmid hU
  exact ⟨by linarith, hU⟩

theorem abs_value (a : F32) : |(value a : ℝ)| = magUnits (mag a) := by
  rw [value_eq]
  split <;> simp

/-- With the sign of y, the nearest magnitude is the nearest finite number. -/
theorem Nearest.value_withSign {y : ℝ} {s : Bool} {p : Nat} (h : Nearest |y| p)
    (hs : |y| = if s then -y else y) (hp : p < infPattern) (c : F32) :
    |y - value (withSign s p)| ≤ |y - value c| ∧
    (|y - value (withSign s p)| = |y - value c| → value c ≠ value (withSign s p) →
      fracField (withSign s p) % 2 = 0) := by
  have hp31 : p < 2 ^ 31 := hp.trans (by decide)
  have hr : |y - value (withSign s p)| = |(|y|) - magUnits p| := by
    rw [value_eq, neg_withSign s hp31, mag_withSign s hp31, hs]
    cases s
    · simp
    · rw [← abs_neg]; simp [neg_add_eq_sub]
  have hc : |(|y|) - magUnits (mag c)| ≤ |y - value c| := by
    rw [← abs_value]
    exact abs_abs_sub_abs_le _ _
  obtain ⟨hle, htie⟩ := h.abs_sub_le (mag c)
  refine ⟨hr.trans_le (hle.trans hc), fun heq hne => ?_⟩
  suffices p % 2 = 0 by rw [fracField_eq, mag_withSign s hp31]; omega
  by_cases hq : mag c = p
  · by_contra hodd
    obtain ⟨hy, hU⟩ := h.pos_of_odd hodd
    rw [← mag_withSign s hp31, ← abs_value] at hU
    have habs : |(value c : ℝ)| = |(value (withSign s p) : ℝ)| := by
      rw [abs_value, abs_value, hq, mag_withSign s hp31]
    have hneg : (value c : ℝ) = -value (withSign s p) :=
      (abs_eq_abs.1 habs).resolve_left (by exact_mod_cast hne)
    rw [hneg] at heq
    rcases abs_eq_abs.1 heq with h0 | h0
    · exact abs_pos.1 hU (by linarith)
    · exact abs_pos.1 hy (by linarith)
  · exact htie (le_antisymm hle (by linarith)) hq

/-- The nearest magnitude, cut off at infinity and with the sign of x, is x rounded. -/
theorem Nearest.roundedReal {x : ℝ} {s : Bool} {p : Nat} (h : Nearest |x * 2 ^ 149| p)
    (hs : |x| = if s then -x else x) : Ref.RoundedReal x (withSign s (min p infPattern)) := by
  have hp31 : min p infPattern < 2 ^ 31 := (min_le_right _ _).trans_lt (by decide)
  have hfin : isFinite (withSign s (min p infPattern)) = false ↔ infPattern ≤ p := by
    rw [← Bool.not_eq_true, isFinite_iff, mag_withSign s hp31]
    omega
  have hscale (v : ℝ) : |x - v / 2 ^ 149| = |x * 2 ^ 149 - v| / 2 ^ 149 := by
    rw [show x - v / 2 ^ 149 = (x * 2 ^ 149 - v) / 2 ^ 149 by field_simp, abs_div, abs_pow,
      abs_two]
  refine ⟨fun hr c _ => ?_, ?_, fun hr => ?_⟩
  · have hp : p < infPattern := by
      rw [← not_le, ← hfin]
      simp [hr]
    have hsign : |x * 2 ^ 149| = if s then -(x * 2 ^ 149) else x * 2 ^ 149 := by
      rw [abs_mul, hs, abs_pow, abs_two]
      split <;> ring
    rw [min_eq_left hp.le, hscale, hscale, div_le_div_iff_of_pos_right (by positivity),
      div_left_inj' (by positivity)]
    exact h.value_withSign hsign hp c
  · rw [hfin, h.infPattern_le_iff, abs_mul, abs_pow, abs_two,
      show (2 : ℝ) ^ 252 = 2 ^ 103 * 2 ^ 149 by norm_num, ← mul_assoc,
      mul_le_mul_iff_of_pos_right (by positivity)]
  · rw [isInf_iff, mag_withSign s hp31, min_eq_right (hfin.1 hr)]

end Sys2Proof.Machine.Flt

namespace Sys2Proof.Machine.Ref

theorem RoundedReal.rounded {x : ℤ} {k : Nat} {r : F32}
    (h : RoundedReal (x / 2 ^ (149 + k)) r) : Rounded x k r := by
  have hpos : (0 : ℝ) < 2 ^ (149 + k) := by positivity
  have hscale (v : ℤ) : ((|x - v * 2 ^ k| : ℤ) : ℝ) =
      |(x : ℝ) / 2 ^ (149 + k) - v / 2 ^ 149| * 2 ^ (149 + k) := by
    rw [show (x : ℝ) / 2 ^ (149 + k) - v / 2 ^ 149 = (x - v * 2 ^ k) / 2 ^ (149 + k) by
      rw [pow_add]; field_simp, abs_div, abs_pow, abs_two, div_mul_cancel₀ _ hpos.ne']
    push_cast
    rfl
  refine ⟨fun hr c hc => ?_, ?_, h.infinite⟩
  · obtain ⟨hle, htie⟩ := h.nearest hr c hc
    constructor
    · rw [← Int.cast_le (R := ℝ), hscale, hscale]
      exact mul_le_mul_of_nonneg_right hle hpos.le
    · intro heq
      rw [← Int.cast_inj (α := ℝ), hscale, hscale] at heq
      exact htie (mul_right_cancel₀ hpos.ne' heq)
  · rw [h.overflow, abs_div, abs_of_pos hpos, le_div_iff₀ hpos, mul_assoc, ← pow_add,
      ← Int.cast_le (R := ℝ)]
    push_cast
    rw [show 103 + (149 + k) = 252 + k by omega]
    norm_num

end Sys2Proof.Machine.Ref
end

section
/-! SUPPORT. Sums, differences and products of finite numbers (00_scope.md R21; log 14). -/

namespace Sys2Proof.Machine.Flt

open Sys2Proof

/-- A sign and `roundMag` of the exact magnitude are the exact number rounded. -/
theorem rounded_roundMag {x : ℤ} {s : Bool} (k : Nat) (hs : |x| = if s then -x else x) :
    Ref.Rounded x k (withSign s (roundMag x.natAbs k)) := by
  have hx : |(x : ℝ)| = if s then -(x : ℝ) else x := by exact_mod_cast hs
  refine Ref.RoundedReal.rounded (Nearest.roundedReal ?_ ?_)
  · have hunits : (x : ℝ) / 2 ^ (149 + k) * 2 ^ 149 = x / 2 ^ k := by
      rw [pow_add]
      field_simp
    have hmag : |(x : ℝ) / 2 ^ (149 + k) * 2 ^ 149| = (x.natAbs : ℝ) / 2 ^ k := by
      rw [hunits, abs_div, abs_pow, abs_two, Nat.cast_natAbs, Int.cast_abs]
    exact hmag ▸ nearest_ulpExp_roundShift _ k
  · rw [abs_div, abs_pow, abs_two, hx]
    split
    · rw [neg_div]
    · rfl

theorem roundMag_lt (n k : Nat) : roundMag n k < 2 ^ 31 :=
  (min_le_right _ _).trans_lt (by decide)

theorem roundMag_zero (k : Nat) : roundMag 0 k = 0 := by
  simp [roundMag, ulpExp, roundShift]

theorem isNaN_of_isFinite {a : F32} (h : isFinite a = true) : isNaN a = false := by
  simp_all [isFinite_eq]

theorem isInf_of_isFinite {a : F32} (h : isFinite a = true) : isInf a = false := by
  simp_all [isFinite_eq]

/-! ### Sums and differences -/

theorem add?_of_isFinite {a b : F32} (ha : isFinite a = true) (hb : isFinite b = true) :
    add? a b = some (addFinite a b) := by
  simp [add?, isNaN_of_isFinite, isInf_of_isFinite, ha, hb]

theorem sub?_of_isFinite {a b : F32} (ha : isFinite a = true) (hb : isFinite b = true) :
    sub? a b = some (addFinite a (fneg b)) :=
  add?_of_isFinite ha ((isFinite_fneg b).trans hb)

theorem addFinite_of_ne_zero {a b : F32} (h : value a + value b ≠ 0) : addFinite a b =
    withSign (decide (value a + value b < 0)) (roundMag (value a + value b).natAbs 0) :=
  if_neg h

/-- An exact zero is +0 unless both operands are -0. -/
theorem addFinite_of_eq_zero {a b : F32} (h : value a + value b = 0) : addFinite a b =
    if a = 0x80000000#32 ∧ b = 0x80000000#32 then 0x80000000#32 else 0x00000000#32 := by
  have hboth : (neg a && neg b) = true ↔ a = 0x80000000#32 ∧ b = 0x80000000#32 := by
    simp only [eq_negZero_iff, Bool.and_eq_true]
    refine ⟨fun ⟨ha, hb⟩ => ?_, fun ⟨⟨ha, _⟩, hb, _⟩ => ⟨ha, hb⟩⟩
    rw [value, value, if_pos ha, if_pos hb] at h
    exact ⟨⟨ha, by omega⟩, hb, by omega⟩
  simp only [addFinite, if_pos h, ← hboth]
  cases neg a && neg b <;> rfl

theorem rounded_addFinite (a b : F32) : Ref.Rounded (value a + value b) 0 (addFinite a b) := by
  by_cases h : value a + value b = 0
  · have hz : addFinite a b = withSign (neg a && neg b) (roundMag (0 : ℤ).natAbs 0) := by
      rw [addFinite, if_pos h, Int.natAbs_zero, roundMag_zero]
    rw [hz, h]
    exact rounded_roundMag 0 (by simp)
  · rw [addFinite_of_ne_zero h]
    refine rounded_roundMag 0 ?_
    by_cases hneg : value a + value b < 0
    · simp [hneg, abs_of_neg hneg]
    · simp [hneg, abs_of_nonneg (not_lt.1 hneg)]

theorem neg_addFinite {a b : F32} (h : value a + value b ≠ 0) :
    neg (addFinite a b) = true ↔ value a + value b < 0 := by
  rw [addFinite_of_ne_zero h, neg_withSign _ (roundMag_lt _ _), decide_eq_true_iff]

theorem fneg_eq_negZero_iff (a : F32) : fneg a = 0x80000000#32 ↔ a = 0x00000000#32 := by
  simp [eq_negZero_iff, eq_posZero_iff, units_eq_zero_iff]

/-- Settles O46: `addFinite` is the exact sum rounded; a difference is the sum with the operand
negated. -/
theorem sumIsTheNearestNumber : Obligations.SumIsTheNearestNumber := by
  intro a b ha hb
  refine ⟨⟨_, add?_of_isFinite ha hb, rounded_addFinite a b, neg_addFinite,
    addFinite_of_eq_zero⟩, _, sub?_of_isFinite ha hb, ?_⟩
  simp only [sub_eq_add_neg, ← value_fneg, ← fneg_eq_negZero_iff b]
  exact ⟨rounded_addFinite a _, neg_addFinite, addFinite_of_eq_zero⟩

/-! ### Products -/

theorem mul?_of_isFinite {a b : F32} (ha : isFinite a = true) (hb : isFinite b = true) :
    mul? a b = some (withSign (neg a != neg b) (roundMag (units a * units b) 149)) := by
  simp [mul?, isNaN_of_isFinite, isInf_of_isFinite, ha, hb]

theorem natAbs_value (a : F32) : (value a).natAbs = units a := by
  unfold value
  split <;> simp

/-- The sign of a product is the exclusive or of the signs. -/
theorem abs_value_mul (a b : F32) : |value a * value b| =
    if (neg a != neg b) = true then -(value a * value b) else value a * value b := by
  rw [abs_mul, Int.abs_eq_natAbs, Int.abs_eq_natAbs, natAbs_value, natAbs_value, value, value]
  cases neg a <;> cases neg b <;> simp

/-- Settles O47: `roundMag` of the product of the magnitudes, with the exclusive or of the
signs. -/
theorem productIsTheNearestNumber : Obligations.ProductIsTheNearestNumber := by
  intro a b ha hb
  refine ⟨_, mul?_of_isFinite ha hb, ?_, neg_withSign _ (roundMag_lt _ _)⟩
  rw [← natAbs_value a, ← natAbs_value b, ← Int.natAbs_mul]
  exact rounded_roundMag 149 (abs_value_mul a b)

end Sys2Proof.Machine.Flt
end

section
/-! SUPPORT. What a command can do, said once for every command and every state: it is refused, it
completes, or a fault of the block is recorded; which spaces and registers it changes in each
case; and that the memory keeps its canonical form. The body of a command is followed in steps
from any state, so nothing is asked of ILEN or of the geometry. -/

namespace Sys2Proof.Machine

open Sys2Proof

variable {i : Instr} {s t u : State} {α β : Type}

/-- `t` may be reached from `s` inside the body of the command `i`: its own spaces are written,
NaN patterns are drawn, the cursor moves if the command moves it. -/
structure Inside (i : Instr) (s t : State) : Prop where
  regs : t.regs = s.regs
  csr : t.csr = { s.csr with bitpos := t.csr.bitpos }
  cursor : Ref.movesCursor i = false → t.csr.bitpos = s.csr.bitpos
  cells : ∀ sp, Ref.writes i sp = false → t.mem.cells sp = s.mem.cells sp
  wf : Memory.wf s.mem = true → Memory.wf t.mem = true

/-- `t` may be what the command `i`, started in `s`, leaves when no fault is raised: as `Inside`,
and the result registers and PSHAPE are written by the commands that write them. -/
structure Completed (i : Instr) (s t : State) : Prop where
  res0 : Ref.writesRes0 i = false → t.regs.res0 = s.regs.res0
  res123 : Ref.writesRes123 i = false →
    t.regs.res1 = s.regs.res1 ∧ t.regs.res2 = s.regs.res2 ∧ t.regs.res3 = s.regs.res3
  csr : t.csr = { s.csr with bitpos := t.csr.bitpos, pshape := t.csr.pshape }
  shape : (∀ c, i ≠ .fb c) → t.csr.pshape = s.csr.pshape
  shapeBits : s.csr.pshape &&& ~~~3#32 = 0 → t.csr.pshape &&& ~~~3#32 = 0
  cursor : Ref.movesCursor i = false → t.csr.bitpos = s.csr.bitpos
  cells : ∀ sp, Ref.writes i sp = false → t.mem.cells sp = s.mem.cells sp
  wf : Memory.wf s.mem = true → Memory.wf t.mem = true

/-- The four ways a command answers a next state, the two control commands apart. -/
inductive Answers (i : Instr) (s : State) : State → Prop
  | frameStart (hi : i = .frst) : Answers i s (frameStart s)
  | streamReset (hi : i = .srst) : Answers i s (streamReset s)
  | refused (hf : s.csr.fault ≠ none) : Answers i s s
  | completed {t : State} (hf : s.csr.fault = none) (h : Completed i s t) : Answers i s t
  | faulted {u : State} (hf : s.csr.fault = none) (h : Inside i s u) (f : BlockFault) (w : Word) :
      Answers i s (takeFault f w u)

/-- A part of the body of `i`: run from any state it stays inside `i`, however it ends. -/
def Keeps (i : Instr) (m : Cmd α) : Prop :=
  ∀ s, Sat m s (fun _ t => Inside i s t) fun _ t => Inside i s t

/-- The rest of the body of `i`: it completes `i`, or stops early inside it. -/
def Completes (i : Instr) (m : Cmd Unit) : Prop :=
  ∀ s, Sat m s (fun _ t => Completed i s t) fun _ t => Inside i s t

theorem Inside.refl (i : Instr) (s : State) : Inside i s s :=
  ⟨rfl, rfl, fun _ => rfl, fun _ _ => rfl, id⟩

theorem Inside.trans (h : Inside i s t) (h' : Inside i t u) : Inside i s u where
  regs := h'.regs.trans h.regs
  csr := h'.csr.trans (by rw [h.csr])
  cursor hk := (h'.cursor hk).trans (h.cursor hk)
  cells sp hsp := (h'.cells sp hsp).trans (h.cells sp hsp)
  wf hw := h'.wf (h.wf hw)

theorem Inside.pshape (h : Inside i s t) : t.csr.pshape = s.csr.pshape := by rw [h.csr]

theorem Inside.completed (h : Inside i s t) : Completed i s t where
  res0 _ := by rw [h.regs]
  res123 _ := by simp only [h.regs, and_self]
  csr := h.csr.trans (by rw [h.pshape])
  shape _ := h.pshape
  shapeBits hb := by rw [h.pshape]; exact hb
  cursor := h.cursor
  cells := h.cells
  wf := h.wf

theorem Inside.trans_completed (h : Inside i s t) (h' : Completed i t u) : Completed i s u where
  res0 hr := (h'.res0 hr).trans (by rw [h.regs])
  res123 hr := by rw [← h.regs]; exact h'.res123 hr
  csr := h'.csr.trans (by rw [h.csr])
  shape hi := (h'.shape hi).trans h.pshape
  shapeBits hb := h'.shapeBits (by rw [h.pshape]; exact hb)
  cursor hk := (h'.cursor hk).trans (h.cursor hk)
  cells sp hsp := (h'.cells sp hsp).trans (h.cells sp hsp)
  wf hw := h'.wf (h.wf hw)

theorem Touches.inside {w : Space → Bool} (h : Touches w s t)
    (hw : ∀ sp, w sp = true → Ref.writes i sp = true) : Inside i s t :=
  have h' := h.mono hw
  ⟨h'.regs, by rw [h'.csr], fun _ => by rw [h'.csr], h'.cells, h'.wf⟩

/-! ### The monad -/

theorem keeps_pure (a : α) : Keeps i (pure a) := fun s => .refl i s

theorem keeps_get : Keeps i get := fun s => .refl i s

theorem keeps_raise (f : BlockFault) : Keeps i (raise f : Cmd α) := fun s => .refl i s

theorem keeps_throw (e : Stop) : Keeps i (throw e : Cmd α) := fun s => .refl i s

theorem keeps_ite {p : Prop} [Decidable p] {m m' : Cmd α} (h : Keeps i m) (h' : Keeps i m') :
    Keeps i (if p then m else m') := by
  split
  · exact h
  · exact h'

theorem keeps_check (ok : Bool) (f : BlockFault) : Keeps i (check ok f) :=
  keeps_ite (keeps_pure ()) (keeps_raise f)

theorem keeps_bind {m : Cmd β} {f : β → Cmd α} (h : Keeps i m) (hf : ∀ b, Keeps i (f b)) :
    Keeps i (m >>= f) := fun s => by
  rw [sat_bind]
  exact (h s).imp (fun b t ht => (hf b t).imp (fun _ _ => ht.trans) fun _ _ => ht.trans)
    fun _ _ => id

theorem keeps_map {m : Cmd β} (f : β → α) (h : Keeps i m) : Keeps i (f <$> m) := fun s => by
  rw [sat_map]
  exact h s

theorem keeps_each {f : β → Cmd Unit} (hf : ∀ b, Keeps i (f b)) (l : List β) :
    Keeps i (each f l) := fun s =>
  sat_each_keeps (.refl i s) fun b _ t ht => (hf b t).imp (fun _ _ => ht.trans) fun _ _ => ht.trans

theorem keeps_carry {f : α → β → Cmd α} (hf : ∀ a b, Keeps i (f a b)) (a : α) (l : List β) :
    Keeps i (carry f a l) := fun s =>
  sat_carry_keeps (I := fun _ t => Inside i s t) (.refl i s) fun b _ a t ht =>
    (hf a b t).imp (fun _ _ => ht.trans) fun _ _ => ht.trans

theorem Keeps.completes {m : Cmd Unit} (h : Keeps i m) : Completes i m := fun s =>
  (h s).imp (fun _ _ => Inside.completed) fun _ _ => id

theorem completes_bind {m : Cmd β} {f : β → Cmd Unit} (h : Keeps i m)
    (hf : ∀ b, Completes i (f b)) : Completes i (m >>= f) := fun s => by
  rw [sat_bind]
  exact (h s).imp (fun b t ht => (hf b t).imp (fun _ _ => ht.trans_completed) fun _ _ => ht.trans)
    fun _ _ => id

/-! ### Operations -/

theorem keeps_of_touches {m : Cmd α} {w : Space → Bool} (h : ∀ s, Within (Touches w s) m s)
    (hw : ∀ sp, w sp = true → Ref.writes i sp = true) : Keeps i m := fun s =>
  (h s).imp (fun _ _ ht => ht.inside hw) fun _ _ ht => ht.2.inside hw

theorem keeps_of_touches_only {m : Cmd α} {sp : Space} (h : ∀ s, Within (Touches (only sp) s) m s)
    (hw : Ref.writes i sp = true) : Keeps i m :=
  keeps_of_touches h fun sp' hsp => by
    rw [beq_iff_eq.1 hsp]
    exact hw

theorem keeps_drawing (f : Nat → α × Nat) : Keeps i (drawing f) := fun _ =>
  ⟨rfl, rfl, fun _ => rfl, fun _ _ => rfl, id⟩

theorem keeps_load (sp : Space) (k : Nat) : Keeps i (load sp k) :=
  keeps_bind keeps_get fun _ => keeps_ite (keeps_pure _) (keeps_throw _)

theorem keeps_store {sp : Space} (hw : Ref.writes i sp = true) (k : Nat) (v : BitVec sp.width) :
    Keeps i (store sp k v) := fun s => by
  rw [sat_store]
  split
  · next hk => exact ((Touches.refl (Ref.writes i) s).write hw hk v).inside fun _ => id
  · exact .refl i s

theorem keeps_storeRun {sp : Space} (hw : Ref.writes i sp = true) (k : Nat)
    (vs : List (BitVec sp.width)) : Keeps i (storeRun sp k vs) := fun s => by
  rw [sat_storeRun]
  split
  · next hk => exact ((Touches.refl (Ref.writes i) s).writeRun hw hk).inside fun _ => id
  · exact .refl i s

theorem keeps_loadLine (sp : Space) (c : Channel) (k : Nat) : Keeps i (loadLine sp c k) :=
  keeps_ite (keeps_load _ _) (keeps_throw _)

theorem keeps_storeLine {sp : Space} (hw : Ref.writes i sp = true) (c : Channel) (k : Nat)
    (v : BitVec sp.width) : Keeps i (storeLine sp c k v) :=
  keeps_ite (keeps_store hw _ _) (keeps_throw _)

theorem keeps_storeLines {sp : Space} (hw : Ref.writes i sp = true) (c : Channel) (k : Nat)
    (vs : List (BitVec sp.width)) : Keeps i (storeLines sp c k vs) :=
  keeps_ite (keeps_storeRun hw _ _) (keeps_throw _)

theorem keeps_geomCheck (c : Channel) : Keeps i (geomCheck c) :=
  keeps_bind keeps_get fun _ => keeps_check _ _

theorem keeps_peekBits (n : Nat) : Keeps i (peekBits n) :=
  keeps_bind keeps_get fun _ => keeps_ite (keeps_raise _) (keeps_ite (keeps_pure _) (keeps_throw _))

theorem inside_setBitpos (hk : Ref.movesCursor i = true) (k : Nat) (s : State) :
    Inside i s (setBitpos k s) :=
  ⟨rfl, rfl, fun h => by simp [hk] at h, fun _ _ => rfl, id⟩

theorem keeps_readBits (hk : Ref.movesCursor i = true) (n : Nat) : Keeps i (readBits n) :=
  keeps_bind (keeps_peekBits n) fun _ =>
    keeps_bind (fun s => inside_setBitpos hk _ s) fun _ => keeps_pure _

theorem completes_setRes0 (hr : Ref.writesRes0 i = true) (v : Word) : Completes i (setRes0 v) :=
  fun _ => ⟨fun h => by simp [hr] at h, fun _ => ⟨rfl, rfl, rfl⟩, rfl, fun _ => rfl, id,
    fun _ => rfl, fun _ _ => rfl, id⟩

theorem completes_setResAll (hr : Ref.writesRes0 i = true) (hr' : Ref.writesRes123 i = true)
    (v0 v1 v2 v3 : Word) : Completes i (setResAll v0 v1 v2 v3) :=
  fun _ => ⟨fun h => by simp [hr] at h, fun h => by simp [hr'] at h, rfl, fun _ => rfl, id,
    fun _ => rfl, fun _ _ => rfl, id⟩

/-! ### The bit reader and the Huffman decoder -/

theorem completes_read (hk : Ref.movesCursor i = true) (hr : Ref.writesRes0 i = true) (n : Nat)
    (f : Nat → Word) : Completes i (readBits n >>= fun v => setRes0 (f v)) :=
  completes_bind (keeps_readBits hk n) fun _ => completes_setRes0 hr _

theorem keeps_balCmd : Keeps .bal balCmd := fun s => by
  simp only [balCmd, sat_bind, sat_get, sat_ite, sat_pure, sat_raise, sat_set]
  split
  · exact .refl _ s
  · split
    · exact .refl _ s
    · exact inside_setBitpos rfl _ s

theorem keeps_huffDecode (hk : Ref.movesCursor i = true) (p : Params) (b : Book) :
    Keeps i (huffDecode p b) := by
  have key : ∀ left len acc, Keeps i (huffLoop (p.hcb b) left len acc) := by
    intro left
    induction left with
    | zero => exact fun _ _ => keeps_raise _
    | succ left ih =>
      intro len acc
      refine keeps_bind (keeps_readBits hk 1) fun v => ?_
      cases symbolOf (p.hcb b) (len + 1) (2 * acc + v) with
      | some sym => exact keeps_pure _
      | none => exact ih _ _
  exact key _ _ _

theorem keeps_signBits (hk : Ref.movesCursor i = true) (vs : List Int) :
    Keeps i (signBits vs) := by
  induction vs with
  | nil => exact keeps_pure _
  | cons v vs ih =>
    exact keeps_ite (keeps_bind ih fun _ => keeps_pure _) <|
      keeps_bind (keeps_readBits hk 1) fun _ => keeps_bind ih fun _ => keeps_pure _

theorem keeps_escapePrefix (hk : Ref.movesCursor i = true) (left n : Nat) :
    Keeps i (escapePrefix left n) := by
  induction left generalizing n with
  | zero =>
    exact keeps_bind (keeps_readBits hk 1) fun _ => keeps_ite (keeps_raise _) (keeps_pure _)
  | succ left ih =>
    exact keeps_bind (keeps_readBits hk 1) fun _ => keeps_ite (ih _) (keeps_pure _)

theorem keeps_escape (hk : Ref.movesCursor i = true) (p : Params) : Keeps i (escape p) :=
  keeps_bind (keeps_escapePrefix hk _ _) fun _ =>
    keeps_bind (keeps_readBits hk _) fun _ => keeps_pure _

theorem keeps_escapes (hk : Ref.movesCursor i = true) (p : Params) (vs : List Int) :
    Keeps i (escapes p vs) := by
  induction vs with
  | nil => exact keeps_pure _
  | cons v vs ih =>
    exact keeps_ite
      (keeps_bind (keeps_escape hk p) fun _ => keeps_bind ih fun _ => keeps_pure _)
      (keeps_bind ih fun _ => keeps_pure _)

theorem keeps_huffSpec (hk : Ref.movesCursor i = true) (p : Params) (b : SpecBook) :
    Keeps i (huffSpec p b) := by
  have hend : ∀ v, Keeps i (if b = .b11 then escapes p v else pure v) := fun v =>
    keeps_ite (keeps_escapes hk p v) (keeps_pure v)
  refine keeps_bind (keeps_huffDecode hk p _) fun sym => ?_
  exact keeps_ite (keeps_bind (keeps_pure _) hend) (keeps_bind (keeps_signBits hk _) hend)

theorem completes_hspCmd (p : Params) (cb : BitVec 4) : Completes (.hsp cb) (hspCmd p cb) := by
  unfold hspCmd
  cases codebookOf cb with
  | spectral b =>
    exact completes_bind (keeps_huffSpec rfl p b) fun _ => completes_setResAll rfl rfl _ _ _ _
  | _ => exact (keeps_raise _).completes

/-! ### The channel passes -/

theorem keeps_sfDelta (hk : Ref.movesCursor i = true) (p : Params) : Keeps i (sfDelta p) :=
  keeps_bind (keeps_huffDecode hk p _) fun _ => keeps_pure _

theorem keeps_sfdBand (p : Params) (c : Channel) (k : SfCounters) (gb : Nat × Nat) :
    Keeps (.sfd c) (sfdBand p c k gb) := by
  have hd : Keeps (.sfd c) (sfDelta p) := keeps_sfDelta rfl p
  have hst : ∀ (v : Int) (k' : SfCounters),
      Keeps (.sfd c) (storeSf c gb v >>= fun _ => pure k') := fun v _ =>
    keeps_bind (keeps_store rfl _ _) fun _ => keeps_pure _
  refine keeps_bind keeps_get fun s => ?_
  cases s.cb c gb.1 gb.2 with
  | zero => exact hst _ _
  | intensity2 => exact keeps_bind hd fun _ => hst _ _
  | intensity => exact keeps_bind hd fun _ => hst _ _
  | noise =>
    exact keeps_ite (keeps_bind (keeps_map _ (keeps_readBits rfl _)) fun _ => hst _ _)
      (keeps_bind hd fun _ => hst _ _)
  | spectral b => exact keeps_bind hd fun _ => keeps_bind (keeps_check _ _) fun _ => hst _ _
  | reserved => exact keeps_bind hd fun _ => keeps_bind (keeps_check _ _) fun _ => hst _ _

theorem keeps_sfdCmd (p : Params) (c : Channel) : Keeps (.sfd c) (sfdCmd p c) :=
  keeps_bind keeps_get fun _ => keeps_bind (keeps_check _ _) fun _ =>
    keeps_bind (keeps_geomCheck c) fun _ =>
      keeps_bind (keeps_carry (keeps_sfdBand p c) _ _) fun _ => keeps_pure _

theorem keeps_spdBand (p : Params) (c : Channel) (gb : Nat × Nat) :
    Keeps (.spd c) (spdBand p c gb) := by
  refine keeps_bind keeps_get fun s => ?_
  cases s.cb c gb.1 gb.2 with
  | spectral b =>
    refine keeps_bind (keeps_check _ _) fun _ => keeps_each (fun w => keeps_each (fun k => ?_) _) _
    refine keeps_bind (keeps_huffSpec rfl p b) fun v => keeps_bind keeps_get fun _ => ?_
    exact keeps_each (fun _ => keeps_storeLine rfl _ _ _) _
  | _ => exact keeps_pure _

theorem keeps_spdCmd (p : Params) (c : Channel) : Keeps (.spd c) (spdCmd p c) :=
  keeps_bind keeps_get fun _ => keeps_bind (keeps_check _ _) fun _ =>
    keeps_bind (keeps_geomCheck c) fun _ => keeps_bind (keeps_storeLines rfl _ _ _) fun _ =>
      keeps_each (keeps_spdBand p c) _

/-! ### TNS and FB -/

theorem keeps_tnslCmd (p : Params) (c : Channel) (w : BitVec 3) (f : BitVec 2) :
    Keeps (.tnsl c w f) (tnslCmd p c w f) :=
  keeps_bind (keeps_check _ _) fun _ => keeps_bind keeps_get fun _ =>
    keeps_bind (keeps_check _ _) fun _ => keeps_bind (keeps_check _ _) fun _ =>
      keeps_bind (keeps_drawing _) fun _ => keeps_storeRun rfl _ _

theorem keeps_arFilter (c : Channel) (lpc : List F32) (order : Nat) (l : List Nat) :
    Keeps (.tns c) (arFilter c lpc order l) :=
  keeps_bind (keeps_carry (fun _ _ => keeps_bind (keeps_loadLine _ _ _) fun _ =>
    keeps_bind (keeps_drawing _) fun _ => keeps_bind (keeps_storeLine rfl _ _ _) fun _ =>
      keeps_pure _) _ _) fun _ => keeps_pure _

theorem keeps_tnsSlot (p : Params) (c : Channel) (w top f : Nat) :
    Keeps (.tns c) (tnsSlot p c w top f) :=
  keeps_bind keeps_get fun _ => keeps_ite (keeps_pure _) <|
    keeps_bind (keeps_drawing _) fun _ => keeps_bind (keeps_storeRun rfl _ _) fun _ =>
      keeps_bind (keeps_arFilter c _ _ _) fun _ => keeps_pure _

theorem keeps_tnsCmd (p : Params) (c : Channel) : Keeps (.tns c) (tnsCmd p c) :=
  keeps_bind (keeps_geomCheck c) fun _ => keeps_bind keeps_get fun _ =>
    keeps_bind (keeps_check _ _) fun _ => keeps_each (fun w => keeps_bind keeps_get fun _ =>
      keeps_bind (keeps_carry (fun top f => keeps_tnsSlot p c w top f) _ _) fun _ =>
        keeps_pure _) _

/-- The bits of PSHAPE above the two it has stay 0. -/
theorem setPrevShape_reserved {r : Csr} (h : r.pshape &&& ~~~3#32 = 0) (c : Channel) (v : Bool) :
    (r.setPrevShape c v).pshape &&& ~~~3#32 = 0 := by
  have hbit : (1#32 <<< c.num) &&& ~~~3#32 = 0 := by cases c <;> rfl
  have hkeep : (r.pshape &&& ~~~(1#32 <<< c.num)) &&& ~~~3#32 = 0 := by
    rw [BitVec.and_assoc, BitVec.and_comm (~~~_), ← BitVec.and_assoc, h]
    exact BitVec.zero_and
  cases v with
  | false => exact hkeep
  | true =>
    change (r.pshape &&& ~~~(1#32 <<< c.num) ||| 1#32 <<< c.num) &&& ~~~3#32 = 0
    rw [BitVec.and_or_distrib_right, hkeep, hbit]
    rfl

theorem completes_fbCmd (p : Params) (c : Channel) : Completes (.fb c) (fbCmd p c) :=
  completes_bind keeps_get fun _ => completes_bind (keeps_drawing _) fun _ =>
    completes_bind (keeps_storeLines rfl _ _ _) fun _ =>
      completes_bind (keeps_storeLines rfl _ _ _) fun _ _ =>
        ⟨fun _ => rfl, fun _ => ⟨rfl, rfl, rfl⟩, rfl, fun h => absurd rfl (h c),
          fun h => setPrevShape_reserved h c _, fun _ => rfl, fun _ _ => rfl, id⟩

/-! ### Every command -/

theorem Completes.answers {m : Cmd Unit} (hm : Completes i m) {w : Word}
    (h : runCmd w m s = .next t) : Answers i s t :=
  runCmd_next h .refused fun hf =>
    (hm s).imp (fun _ _ hc => .completed hf hc) fun _ _ hu f _ => .faulted hf hu f w

/-- What a command can do. -/
theorem exec_answers (h : exec i s = .next t) : Answers i s t := by
  cases i with
  | frst => cases h; exact .frameStart rfl
  | srst => cases h; exact .streamReset rfl
  | brd n =>
    exact (completes_bind (keeps_check _ _) fun _ => completes_read rfl rfl _ _).answers h
  | brds n =>
    exact (completes_bind (keeps_check _ _) fun _ => completes_read rfl rfl _ _).answers h
  | brb => exact (completes_read rfl rfl _ _).answers h
  | bpk n =>
    exact (completes_bind (keeps_check _ _) fun _ =>
      completes_bind (keeps_peekBits _) fun _ => completes_setRes0 rfl _).answers h
  | bal => exact keeps_balCmd.completes.answers h
  | blf => exact (completes_bind keeps_get fun _ => completes_setRes0 rfl _).answers h
  | hsf =>
    exact (completes_bind (keeps_huffDecode rfl _ _) fun _ => completes_setRes0 rfl _).answers h
  | hsp cb => exact (completes_hspCmd _ cb).answers h
  | sfd c => exact (keeps_sfdCmd _ c).completes.answers h
  | spd c => exact (keeps_spdCmd _ c).completes.answers h
  | ms => exact (keeps_of_touches_only within_msCmd rfl).completes.answers h
  | is =>
    exact (keeps_of_touches (within_isCmd _) fun sp => by cases sp <;> decide).completes.answers h
  | tnsl c w f => exact (keeps_tnslCmd _ c w f).completes.answers h
  | tns c => exact (keeps_tnsCmd _ c).completes.answers h
  | iq c => exact (keeps_of_touches_only (within_iqCmd _ c) rfl).completes.answers h
  | fb c => exact (completes_fbCmd _ c).answers h

end Sys2Proof.Machine
end

section
/-! SUPPORT. What follows for the whole machine from what a command can do: the invariant
(10_state.md R34, R37, R39), and which spaces and registers each command writes (R31, R38, R46,
R50; 20_memory.md R81). -/

namespace Sys2Proof.Machine

open Sys2Proof

variable {i : Instr} {s t : State}

/-! ### Control and fault entry -/

@[simp] theorem frameStart_regs (s : State) : (frameStart s).regs = s.regs := by
  unfold frameStart; split <;> rfl

@[simp] theorem frameStart_mem (s : State) : (frameStart s).mem = s.mem := by
  unfold frameStart; split <;> rfl

@[simp] theorem frameStart_pshape (s : State) : (frameStart s).csr.pshape = s.csr.pshape := by
  unfold frameStart; split <;> rfl

theorem takeFault_cells_of_ne (f : BlockFault) (w : Word) (s : State) {sp : Space}
    (h : sp ≠ .tout) : (takeFault f w s).mem.cells sp = s.mem.cells sp := by
  unfold takeFault
  split
  · exact cells_setCells_of_ne _ _ h
  · rfl

theorem takeFault_mem_of_ne {f : BlockFault} (h : f ≠ .formatError) (w : Word) (s : State) :
    (takeFault f w s).mem = s.mem := if_neg h

/-! ### The invariant -/

/-- BITPOS may hold anything, PSHAPE anything with its reserved bits 0. -/
theorem Csr.Ok.setCursorShape {r : Csr} (h : r.Ok) (k : Word) {p : Word}
    (hp : p &&& ~~~3#32 = 0) : ({ r with bitpos := k, pshape := p } : Csr).Ok :=
  { h with pshape := hp }

theorem Csr.Ok.setFault_some {r : Csr} (h : r.Ok) (f : BlockFault) (info pos : Word) :
    (r.setFault (some f) info pos).Ok :=
  { h with finfo := nofun, fpos := nofun }

theorem Csr.Ok.frameStart {s : State} (h : s.csr.Ok) : (frameStart s).csr.Ok := by
  unfold Machine.frameStart
  split
  · exact { h with finfo := fun _ => rfl, fpos := fun _ => rfl }
  · exact h

theorem ok_csrReset : Csr.reset.Ok := by constructor <;> decide

/-- Settles O52: the registers by evaluation, the memory because nothing is listed. -/
theorem invariantAtReset : Obligations.InvariantAtReset := ⟨ok_csrReset, wf_reset⟩

theorem regMoveOk_iff {n : Nat} (h4 : 4 ≤ n) (h14 : n ≤ 14) (w : Word) :
    regMoveOk n w = true ↔
      w &&& ~~~(writableBits n) = 0 ∧ (n = 5 → w.toNat ≤ Config.ibufBytes) := by
  have hn : hostWritableReg n = true := by simp [hostWritableReg, h4, h14]
  simp [regMoveOk, hn, imp_iff_not_or]

/-- A register that is not read-write ignores the host's write (10_state.md R48). -/
theorem hostWrite_of_readOnly (r : Csr) {n : Nat} (hn : ¬ (4 ≤ n ∧ n ≤ 14)) (w : Word) :
    r.hostWrite n w = r := by
  unfold Csr.hostWrite
  split
  case h_12 => rfl
  all_goals exact absurd (by decide) hn

/-- A register write the host has keeps the registers' part of the invariant. -/
theorem Csr.Ok.hostWrite {r : Csr} (h : r.Ok) {n : Nat} {w : Word} (hm : regMoveOk n w = true) :
    (r.hostWrite n w).Ok := by
  by_cases hn : 4 ≤ n ∧ n ≤ 14
  · obtain ⟨hbits, hilen⟩ := (regMoveOk_iff hn.1 hn.2 w).1 hm
    unfold Csr.hostWrite
    split
    · exact { h with }
    · exact { h with ilen := hilen rfl }
    · exact { h with cfg := hbits }
    · exact { h with bands := hbits }
    · exact { h with ics0 := hbits }
    · exact { h with ics1 := hbits }
    · exact { h with }
    · exact { h with }
    · exact { h with gg0 := hbits }
    · exact { h with gg1 := hbits }
    · exact { h with cpe := hbits }
    · exact h
  · rw [hostWrite_of_readOnly r hn]
    exact h

theorem Completed.ok (h : Completed i s t) (hs : s.Ok) : t.Ok :=
  ⟨by rw [h.csr]; exact hs.csr.setCursorShape _ (h.shapeBits hs.csr.pshape), h.wf hs.mem⟩

theorem State.Ok.takeFault (hs : s.Ok) (f : BlockFault) (w : Word) : (takeFault f w s).Ok :=
  ⟨hs.csr.setFault_some _ _ _, wf_takeFault hs.mem f w⟩

theorem Answers.ok (h : Answers i s t) (hs : s.Ok) : t.Ok := by
  cases h with
  | frameStart => exact ⟨hs.csr.frameStart, by rw [frameStart_mem]; exact hs.mem⟩
  | streamReset => exact ⟨ok_csrReset, wf_streamReset hs.mem⟩
  | refused => exact hs
  | completed _ h => exact h.ok hs
  | faulted _ h f w => exact (h.completed.ok hs).takeFault f w

theorem command_ok {w : Word} (hs : s.Ok) (h : command w s = .next t) : t.Ok := by
  unfold command at h
  split at h
  · exact (exec_answers h).ok hs
  · exact runCmd_next h (fun _ => hs) fun _ f _ => hs.takeFault f w

theorem hostAccess_ok {a : HostAccess} (hs : s.Ok) (h : hostAccess a s = .next t) : t.Ok := by
  cases a with
  | readReg n => cases h; exact hs
  | readMem sp k =>
    simp only [hostAccess] at h
    split at h
    · cases h; exact hs
    · cases h
  | writeReg n w =>
    simp only [hostAccess] at h
    split at h
    · next hm => cases h; exact ⟨hs.csr.hostWrite hm, hs.mem⟩
    · cases h
  | writeMem sp k v =>
    simp only [hostAccess] at h
    split at h
    · next hm =>
      cases h
      simp only [memMoveOk, Bool.and_eq_true, decide_eq_true_eq] at hm
      exact ⟨hs.csr, wf_write hs.mem hm.1.2 _⟩
    · cases h

/-- Settles O53: a step is a command, an illegal word or a host access, and each keeps the
invariant. -/
theorem stepKeepsInvariant : Obligations.StepKeepsInvariant := by
  intro s t hs h
  unfold step at h
  split at h
  · cases h; exact hs
  · next a rest _ =>
    have hs' : ({ s with host := rest } : State).Ok := ⟨hs.csr, hs.mem⟩
    unfold access at h
    split at h
    · exact command_ok hs' h
    all_goals exact hostAccess_ok hs' h

/-! ### Which commands write what -/

/-- Settles O55: by the ways a command answers; only fault entry writes outside the table. -/
theorem spacesWrittenOnlyByTheirCommands : Obligations.SpacesWrittenOnlyByTheirCommands := by
  intro i s t sp h hw
  cases exec_answers h with
  | frameStart => exact .inl fun k => by simp [State.elem]
  | streamReset hi =>
    subst hi
    refine .inl fun k => read_of_cells_eq ?_ k
    have hz : sp.zeroed = false := by revert hw; cases sp <;> decide
    rw [streamReset_cells, hz]
    rfl
  | refused => exact .inl fun _ => rfl
  | completed _ ht => exact .inl fun k => read_of_cells_eq (ht.cells sp hw) k
  | faulted hf hu f w =>
    by_cases hsp : sp = .tout
    · by_cases hff : f = .formatError
      · exact .inr ⟨hsp, hf, congrArg some hff⟩
      · refine .inl fun k => read_of_cells_eq ?_ k
        rw [takeFault_mem_of_ne hff, hu.cells sp hw]
    · exact .inl fun k => read_of_cells_eq
        ((takeFault_cells_of_ne f w _ hsp).trans (hu.cells sp hw)) k

/-- Settles O56: inside a command no result register is written, and where a command completes no
fault is pending. -/
theorem resultRegistersWritten : Obligations.ResultRegistersWritten := by
  intro i s t h
  have hsame : ∀ {t : State}, t.regs = s.regs →
      (Ref.writesRes0 i = false → t.regs.res0 = s.regs.res0) ∧
      (Ref.writesRes123 i = false →
        t.regs.res1 = s.regs.res1 ∧ t.regs.res2 = s.regs.res2 ∧ t.regs.res3 = s.regs.res3) ∧
      (t.csr.fault ≠ none → t.regs = s.regs) := fun hr => by simp [hr]
  cases exec_answers h with
  | frameStart => exact hsame (frameStart_regs s)
  | streamReset hi => subst hi; exact ⟨nofun, nofun, fun hf => absurd rfl hf⟩
  | refused => exact hsame rfl
  | completed hf ht =>
    refine ⟨ht.res0, ht.res123, fun hne => absurd ?_ hne⟩
    rw [ht.csr]
    exact hf
  | faulted _ hu f w => exact hsame hu.regs

/-- The registers of `t` are those of `s` but for the fault registers, BITPOS and PSHAPE. -/
def SameConfig (s t : State) : Prop :=
  t.csr = { s.csr with
    fault := t.csr.fault, finfo := t.csr.finfo, fpos := t.csr.fpos, bitpos := t.csr.bitpos,
    pshape := t.csr.pshape }

theorem SameConfig.hostReadReg (h : SameConfig s t) {n : Nat} (h5 : 5 ≤ n) (h14 : n ≤ 14) :
    hostReadReg t n = hostReadReg s n := by
  unfold SameConfig at h
  interval_cases n <;> (simp only [Machine.hostReadReg]; rw [h])

theorem sameConfig_frameStart (s : State) : SameConfig s (frameStart s) := by
  unfold frameStart; split <;> rfl

theorem Completed.sameConfig (h : Completed i s t) : SameConfig s t := by
  unfold SameConfig
  rw [h.csr]

theorem SameConfig.takeFault (h : SameConfig s t) (f : BlockFault) (w : Word) :
    SameConfig s (takeFault f w t) := by
  unfold SameConfig at *
  simp only [Machine.takeFault, Csr.setFault]
  rw [h]

/-- Settles O57: by the ways a command answers; fault entry and FRST write the fault registers and
BITPOS only. -/
theorem controlRegistersWritten : Obligations.ControlRegistersWritten := by
  intro i s t h hne
  cases exec_answers h with
  | frameStart hi =>
    subst hi
    exact ⟨fun n => (sameConfig_frameStart s).hostReadReg, fun _ => frameStart_pshape s, nofun⟩
  | streamReset hi => exact absurd hi hne
  | refused => exact ⟨fun _ _ _ => rfl, fun _ => rfl, fun _ => rfl⟩
  | completed _ ht => exact ⟨fun n => ht.sameConfig.hostReadReg, ht.shape, ht.cursor⟩
  | faulted _ hu f w =>
    exact ⟨fun n => (hu.completed.sameConfig.takeFault f w).hostReadReg, fun _ => hu.pshape,
      hu.cursor⟩

end Sys2Proof.Machine
end

section
/-! SUPPORT. No command reads the result registers, PRED or TOUT (10_state.md R31, R50, R55): the
relation between two runs that `exec_twin` needs, which says besides that the runs agree in what
they have written there. -/

namespace Sys2Proof.Machine

open Sys2Proof

variable {s s' t t' : State}

/-- The runs started in `s` and `s'` are in `t` and `t'`: these agree on all a command may read,
and every other place is the same in both or as each run found it. -/
structure Unread (s s' t t' : State) : Prop where
  agree : Ref.Agree t t'
  res0 : Ref.SameOrKept s.regs.res0 s'.regs.res0 t.regs.res0 t'.regs.res0
  res1 : Ref.SameOrKept s.regs.res1 s'.regs.res1 t.regs.res1 t'.regs.res1
  res2 : Ref.SameOrKept s.regs.res2 s'.regs.res2 t.regs.res2 t'.regs.res2
  res3 : Ref.SameOrKept s.regs.res3 s'.regs.res3 t.regs.res3 t'.regs.res3
  elem : ∀ sp k, Ref.SameOrKept (s.elem sp k) (s'.elem sp k) (t.elem sp k) (t'.elem sp k)

theorem Ref.SameOrKept.same {α : Type} (v v' u : α) : Ref.SameOrKept v v' u u := .inl rfl

theorem Ref.SameOrKept.kept {α : Type} (v v' : α) : Ref.SameOrKept v v' v v' := .inr ⟨rfl, rfl⟩

theorem Unread.start (h : Ref.Agree s s') : Unread s s' s s' :=
  ⟨h, .kept _ _, .kept _ _, .kept _ _, .kept _ _, fun _ _ => .kept _ _⟩

theorem Ref.Agree.setCells (h : Ref.Agree t t') (sp : Space) {l l' : Cells sp.width}
    (hl : t.mem.cells sp = t'.mem.cells sp → l = l') :
    Ref.Agree { t with mem := t.mem.setCells sp l } { t' with mem := t'.mem.setCells sp l' } := by
  obtain ⟨hcsr, hhost, hdraws, hcells⟩ := h
  refine ⟨hcsr, hhost, hdraws, fun sp' h1 h2 => ?_⟩
  by_cases hsp : sp' = sp
  · subst hsp
    simp only [cells_setCells]
    exact hl (hcells _ h1 h2)
  · simp only [cells_setCells_of_ne _ _ hsp]
    exact hcells sp' h1 h2

/-- Two runs replace the cells of one space alike: each element of it then reads the same in both
or is left alone. -/
theorem Unread.setCells (h : Unread s s' t t') (sp : Space) {l l' : Cells sp.width}
    (hl : t.mem.cells sp = t'.mem.cells sp → l = l')
    (hk : ∀ k, (t'.mem.setCells sp l').read sp k = (t.mem.setCells sp l).read sp k ∨
      (t.mem.setCells sp l).read sp k = t.elem sp k ∧
        (t'.mem.setCells sp l').read sp k = t'.elem sp k) :
    Unread s s' { t with mem := t.mem.setCells sp l } { t' with mem := t'.mem.setCells sp l' } := by
  refine { h with agree := h.agree.setCells sp hl, elem := fun sp' k => ?_ }
  by_cases hsp : sp' = sp
  · subst hsp
    rcases hk k with hk | ⟨hk, hk'⟩
    · exact .inl hk
    · simp only [State.elem, hk, hk']
      exact h.elem _ k
  · simp only [State.elem, read_of_cells_eq (cells_setCells_of_ne _ _ hsp)]
    exact h.elem sp' k

theorem Unread.write (h : Unread s s' t t') {sp : Space} (hz : sp.zeroed = false) (i : Nat)
    (v : BitVec sp.width) :
    Unread s s' { t with mem := t.mem.write sp i v } { t' with mem := t'.mem.write sp i v } := by
  refine h.setCells sp (fun he => by rw [he]) fun k => ?_
  change (t'.mem.write sp i v).read sp k = (t.mem.write sp i v).read sp k ∨
    (t.mem.write sp i v).read sp k = _ ∧ (t'.mem.write sp i v).read sp k = _
  rw [read_write _ hz, read_write _ hz]
  split
  · exact .inl rfl
  · exact .inr ⟨rfl, rfl⟩

theorem Unread.writeRun (h : Unread s s' t t') (sp : Space) (i : Nat)
    (vs : List (BitVec sp.width)) : Unread s s' { t with mem := t.mem.writeRun sp i vs }
      { t' with mem := t'.mem.writeRun sp i vs } := by
  refine h.setCells sp (fun he => by rw [he]) fun k => ?_
  change (t'.mem.writeRun sp i vs).read sp k = (t.mem.writeRun sp i vs).read sp k ∨
    (t.mem.writeRun sp i vs).read sp k = _ ∧ (t'.mem.writeRun sp i vs).read sp k = _
  rw [read_writeRun, read_writeRun]
  split
  · exact .inl rfl
  · exact .inr ⟨rfl, rfl⟩

/-- Every operation of a command keeps two such runs together. -/
theorem twin_unread (s s' : State) : Twin (Unread s s') where
  csr h := h.agree.1.symm
  nanDraws h := h.agree.2.2.1.symm
  elem h _ _ h1 h2 _ := (read_of_cells_eq (h.agree.2.2.2 _ h1 h2) _).symm
  setCsr h _ := { h with agree := ⟨rfl, h.agree.2⟩ }
  setDraws h _ := { h with agree := ⟨h.agree.1, h.agree.2.1, rfl, h.agree.2.2.2⟩ }
  write h _ _ hz _ v := h.write hz _ v
  writeRun h sp _ _ _ := h.writeRun sp _ _
  res0 h v := { h with agree := h.agree, res0 := .same _ _ v }
  results h q := ⟨h.agree, .same _ _ _, .same _ _ _, .same _ _ _, .same _ _ _, h.elem⟩
  clear h sp hz := h.setCells sp (fun _ => rfl) fun k =>
    .inl (by rw [read_setCells_nil _ hz, read_setCells_nil _ hz])

/-- Settles O58: two runs started in states that agree stay together. -/
theorem outputsAreNeverRead : Obligations.OutputsAreNeverRead := by
  intro i s s' t h ht
  obtain ⟨t', ht', hu⟩ := exec_twin (twin_unread s s') (.start h) ht
  exact ⟨t', ht', hu.agree, hu.res0, hu.res1, hu.res2, hu.res3, hu.elem⟩

end Sys2Proof.Machine
end

section
/-! SUPPORT. The step and the host's accesses (10_state.md R33 to R37, R46 to R48, R72). -/

namespace Sys2Proof.Machine

open Sys2Proof

variable {s : State} {rest : List HostAccess}

/-- With an access pending, a step makes it at the state from which it has been taken. -/
theorem step_of_host {a : HostAccess} (h : s.host = a :: rest) :
    step s = access a { s with host := rest } := by
  unfold step
  rw [h]

theorem command_of_decode {w : Word} {i : Instr} (h : decode w = .ok i) (s : State) :
    command w s = exec i s := by
  unfold command
  rw [h]

@[simp] theorem tableWord_toNat (w : Word) : tableWord 32 w.toNat = w := by
  rw [tableWord, Nat.mod_eq_of_lt w.isLt, BitVec.ofNat_toNat, BitVec.setWidth_eq]

/-- Settles O5: the access is taken, then the word is decoded. -/
theorem stepRunsDecodedCommand : Obligations.StepRunsDecodedCommand := by
  refine ⟨fun s w i rest hs hd => ?_, fun s w i hd => ?_⟩
  · rw [step_of_host hs]
    exact command_of_decode hd _
  · rw [step_of_host (rest := s.host) (a := .writeReg 0 w) (by simp [State.withFetchWord])]
    exact command_of_decode hd s

/-! ### Registers -/

/-- Settles O11: number by number; a read answers the state it is made in. -/
theorem hostReadsRegisters : Obligations.HostReadsRegisters := by
  refine ⟨fun s => ⟨rfl, ?_, rfl, rfl, rfl, rfl, rfl, rfl, rfl, rfl, rfl, rfl, rfl, rfl, rfl, rfl,
    rfl, rfl, rfl, rfl, fun n hn => ?_⟩, fun s n rest hs => ?_, fun s sp i rest hs hi => ?_⟩
  · change s.csr.status = _
    unfold Csr.status
    rcases s.csr.fault with _ | f
    · rfl
    · cases f <;> rfl
  · obtain ⟨n, rfl⟩ := Nat.exists_eq_add_of_le' hn
    rfl
  · rw [step_of_host hs]
    rfl
  · rw [step_of_host hs]
    exact if_pos hi

theorem access_writeReg {n : Nat} (hn : 1 ≤ n) {w : Word} (hm : regMoveOk n w = true) (s : State) :
    access (.writeReg n w) s = .next { s with csr := s.csr.hostWrite n w } := by
  obtain ⟨n, rfl⟩ := Nat.exists_eq_add_of_le' hn
  exact if_pos hm

/-- The register the host writes reads as the value. -/
theorem hostReadReg_hostWrite_self (s : State) {n : Nat} (h4 : 4 ≤ n) (h14 : n ≤ 14) (w : Word) :
    hostReadReg { s with csr := s.csr.hostWrite n w } n = w := by
  interval_cases n <;> rfl

/-- Every other register reads as before. -/
theorem hostReadReg_hostWrite_of_ne (s : State) {n m : Nat} (hm : m ≠ n) (w : Word) :
    hostReadReg { s with csr := s.csr.hostWrite n w } m = hostReadReg s m := by
  unfold Csr.hostWrite
  split <;> (unfold hostReadReg; split) <;> first | rfl | exact absurd rfl hm

/-- Settles O10: `hostWrite` replaces one register, or none where the register is read-only. -/
theorem hostWriteReplacesOneRegister : Obligations.HostWriteReplacesOneRegister := by
  intro s n w rest hs
  rw [step_of_host hs]
  refine ⟨fun h4 h14 hbits hilen => ?_, fun hn => ?_⟩
  · have hm := (regMoveOk_iff h4 h14 w).2 ⟨hbits, hilen⟩
    exact ⟨_, access_writeReg (by omega) hm _, hostReadReg_hostWrite_self _ h4 h14 w,
      fun m hne => hostReadReg_hostWrite_of_ne _ hne w, rfl, rfl, rfl⟩
  · have hro : ¬ (4 ≤ n ∧ n ≤ 14) := by omega
    have hm : regMoveOk n w = true := by simp [regMoveOk, hostWritableReg, hro]
    rw [access_writeReg (by omega) hm, hostWrite_of_readOnly _ hro]

/-! ### Memory elements -/

theorem not_zeroed_of_hostWritable {sp : Space} (h : sp.hostWritable = true) :
    sp.zeroed = false := by
  revert h
  cases sp <;> decide

/-- Settles O9: no space the host may write is one whose zeros are not listed. -/
theorem hostWriteReplacesOneElement : Obligations.HostWriteReplacesOneElement := by
  intro s sp i v rest hs hw hi hv
  have hz := not_zeroed_of_hostWritable hw
  have hm : memMoveOk sp i v = true := by simp [memMoveOk, hw, hi, hv]
  refine ⟨_, (step_of_host hs).trans (if_pos hm), ?_, fun sp' j hne => ?_, ⟨rfl, rfl⟩, rfl, rfl⟩
  · rw [elem_write _ hz, if_pos rfl]
  · exact elem_write_other { s with host := rest } hz _ hne

end Sys2Proof.Machine
end

section
/-! SUPPORT. The geometry of a channel (10_state.md R65 to R70): a rejected one stops every pass
before it does anything else, and LINE covers the frame where it is accepted. -/

namespace Sys2Proof.Machine

open Sys2Proof

variable {s : State} {c : Channel}

/-! ### Rejected geometries -/

theorem formatFault_takeFault (w : Word) (s : State) :
    Ref.FormatFault w s (takeFault .formatError w s) :=
  ⟨rfl, rfl, rfl, fun k _ => read_setCells_nil s.mem rfl k,
    fun _ k hsp => read_of_cells_eq (takeFault_cells_of_ne _ w s hsp) k⟩

/-- A body that raises FormatError before it has changed anything. -/
theorem runCmd_formatFault {m : Cmd Unit} (w : Word) (hf : s.csr.fault = none)
    (hm : Sat m s (fun _ _ => False) fun e t => e = .raised .formatError ∧ t = s) :
    ∃ t, runCmd w m s = .next t ∧ Ref.FormatFault w s t :=
  ⟨_, runCmd_eq_fault hf hm, formatFault_takeFault w s⟩

/-- A rejected geometry ends the body at GeomCheck. -/
theorem sat_geomCheck_rejected (h : ¬ Ref.Geometry s c) {α : Type} (f : Unit → Cmd α)
    {Q : α → State → Prop} {E : Stop → State → Prop} (hE : E (.raised .formatError) s) :
    Sat (geomCheck c >>= f) s Q E := by
  rw [sat_bind, sat_geomCheck]
  exact ⟨fun hg => absurd hg h, fun _ => hE⟩

/-- A rejected geometry of either channel of a pair ends the body at the stereo checks. -/
theorem sat_stereoChecks_rejected (h : ¬ Ref.Geometry s c) (hp : Ref.Pair s)
    (hmode : s.csr.msmode ≠ 3) {α : Type} (f : Unit → Cmd α) {Q : α → State → Prop}
    {E : Stop → State → Prop} (hE : E (.raised .formatError) s) :
    Sat (stereoChecks >>= f) s Q E := by
  have hnot : ¬ (Ref.Geometry s .c0 ∧ Ref.Geometry s .c1) := fun hg => by
    cases c
    · exact h hg.1
    · exact h hg.2
  rw [sat_bind, sat_stereoChecks]
  exact ⟨fun hn => absurd hp hn, fun _ h3 => absurd h3 hmode,
    fun _ _ => ⟨fun hg => absurd hg hnot, fun _ => hE⟩⟩

/-- Settles O30: GeomCheck comes before every other step of a pass but the checks of its flag, of
the pair and of MSMODE. -/
theorem geometryFaults : Obligations.GeometryFaults := by
  intro c s hf hg
  refine ⟨fun hv => runCmd_formatFault _ hf ?_, fun hh => runCmd_formatFault _ hf ?_,
    runCmd_formatFault _ hf ?_, runCmd_formatFault _ hf ?_,
    fun hp hmode => ⟨runCmd_formatFault _ hf ?_, runCmd_formatFault _ hf ?_⟩⟩
  · rw [sfdCmd, sat_bind, sat_get, hv]
    exact sat_geomCheck_rejected hg _ ⟨rfl, rfl⟩
  · rw [spdCmd, sat_bind, sat_get, hh]
    exact sat_geomCheck_rejected hg _ ⟨rfl, rfl⟩
  · exact sat_geomCheck_rejected hg _ ⟨rfl, rfl⟩
  · exact sat_geomCheck_rejected hg _ ⟨rfl, rfl⟩
  · exact sat_stereoChecks_rejected hg hp hmode _ ⟨rfl, rfl⟩
  · exact sat_stereoChecks_rejected hg hp hmode _ ⟨rfl, rfl⟩

/-! ### Accepted geometries -/

/-- A window below the start of group n belongs to one of the groups before. -/
theorem exists_group_of_lt_gstart (r : Csr) (c : Channel) {n k : Nat} (h : k < r.gstart c n) :
    ∃ g w, g < n ∧ w < r.glen c g ∧ r.gstart c g + w = k := by
  induction n with
  | zero => exact absurd h (Nat.not_lt_zero k)
  | succ n ih =>
    by_cases hk : k < r.gstart c n
    · obtain ⟨g, w, hg, hw, he⟩ := ih hk
      exact ⟨g, w, by omega, hw, he⟩
    · have hlt : k < r.gstart c n + r.glen c n := h
      exact ⟨n, k - r.gstart c n, by omega, by omega, by omega⟩

/-- Every index below FL is a line: its window is the quotient by WL, its place there the
remainder. -/
theorem Ref.Geometry.exists_line (h : Ref.Geometry s c) {p : Nat} (hp : p < s.csr.fl) :
    ∃ g w i, Ref.IsLine s c g w i ∧ s.csr.line c g w i = p := by
  have hwin : p / s.csr.wl c < s.csr.gstart c (s.csr.ngrp c) := by
    rw [gstart_eq_sum, h.lengths.2, Nat.div_lt_iff_lt_mul (wl_pos _ _), nwin_mul_wl]
    exact hp
  obtain ⟨g, w, hg, hw, he⟩ := exists_group_of_lt_gstart _ _ hwin
  refine ⟨g, w, p % s.csr.wl c, ⟨hg, hw, Nat.mod_lt _ (wl_pos _ _)⟩, ?_⟩
  rw [Csr.line, he, Nat.div_add_mod']

/-- Settles O31: a line is below FL, is one line only, and division by WL finds it. -/
theorem linesCoverTheFrame : Obligations.LinesCoverTheFrame := fun _ _ h =>
  ⟨fun _ _ _ => h.line_lt, fun _ _ _ _ _ _ => Ref.IsLine.inj, fun _ => h.exists_line⟩

end Sys2Proof.Machine
end

section
/-! SUPPORT. The fields of the registers and descriptors are bits of them (10_state.md R40 to R46,
R61, R65 to R68; 00_scope.md R18). -/

namespace Sys2Proof.Machine

open Sys2Proof

/-! ### Fields of a word -/

/-- A field of a descriptor of at most 32 bits. -/
theorem field_setWidth {n : Nat} (hn : n ≤ 32) (d : BitVec n) {hi lo len : Nat}
    (h : hi + 1 = lo + len) : field (d.setWidth 32) hi lo = (d.extractLsb' lo len).toNat := by
  rw [field, BitVec.toNat_setWidth_of_le hn, BitVec.extractLsb'_toNat, Nat.shiftRight_eq_div_pow,
    show hi + 1 - lo = len by omega]

theorem flag_setWidth {n : Nat} (hn : n ≤ 32) (d : BitVec n) (i : Nat) :
    flag (d.setWidth 32) i = d.getLsbD i := by
  rw [flag, field, BitVec.toNat_setWidth_of_le hn, BitVec.getLsbD, Nat.testBit_eq_decide_div_mod_eq,
    Nat.add_sub_cancel_left]
  rfl

theorem field_eq (v : Word) {hi lo len : Nat} (h : hi + 1 = lo + len) :
    field v hi lo = (v.extractLsb' lo len).toNat := by
  simpa using field_setWidth le_rfl v h

theorem flag_eq (v : Word) (i : Nat) : flag v i = v.getLsbD i := by
  simpa using flag_setWidth le_rfl v i

/-! ### Registers -/

theorem frameLen_eq (r : Csr) :
    r.frameLen = if r.cfg.getLsbD 0 then .small960 else .long1024 := by
  rw [Csr.frameLen, flag_eq]

theorem fl_eq (r : Csr) : r.fl = if r.cfg.getLsbD 0 then 960 else 1024 := by
  rw [Csr.fl, frameLen_eq]
  split <;> rfl

theorem sl_eq (r : Csr) : r.sl = if r.cfg.getLsbD 0 then 120 else 128 := by
  rw [Csr.sl, fl_eq]
  split <;> rfl

theorem flat_eq (r : Csr) : r.flat = if r.cfg.getLsbD 0 then 420 else 448 := by
  rw [Csr.flat, fl_eq, sl_eq]
  split <;> rfl

theorem wseq_eq (r : Csr) (c : Channel) : r.wseq c =
    if (r.ics c).extractLsb' 0 2 = 0#2 then .onlyLong
    else if (r.ics c).extractLsb' 0 2 = 1#2 then .longStart
    else if (r.ics c).extractLsb' 0 2 == 2#2 then .eightShort else .longStop := by
  rw [Csr.wseq, field_eq (len := 2) _ rfl]
  generalize (r.ics c).extractLsb' 0 2 = x
  revert x
  decide

theorem short_eq (r : Csr) (c : Channel) : r.short c = ((r.ics c).extractLsb' 0 2 == 2#2) := by
  rw [Csr.short, wseq_eq]
  generalize (r.ics c).extractLsb' 0 2 = x
  revert x
  decide

theorem glen_eq (r : Csr) (c : Channel) (g : Nat) :
    r.glen c g = ((r.grp c).extractLsb' (4 * g) 4).toNat := field_eq _ rfl

theorem globalGain_eq (r : Csr) (c : Channel) : r.globalGain c =
    ((match c with | .c0 => r.gg0 | .c1 => r.gg1).extractLsb' 0 8).toNat := by
  cases c <;> exact field_eq _ rfl

theorem nwin_eq (r : Csr) (c : Channel) :
    r.nwin c = if (r.ics c).extractLsb' 0 2 == 2#2 then 8 else 1 := by
  rw [Csr.nwin, short_eq]

theorem wl_eq (r : Csr) (c : Channel) :
    r.wl c = if (r.ics c).extractLsb' 0 2 == 2#2 then r.sl else r.fl := by
  rw [Csr.wl, short_eq]

theorem nswb_eq (r : Csr) (c : Channel) :
    r.nswb c = if (r.ics c).extractLsb' 0 2 == 2#2 then (r.bands.extractLsb' 8 4).toNat
      else (r.bands.extractLsb' 0 6).toNat := by
  rw [Csr.nswb, short_eq, field_eq (len := 4) _ rfl, field_eq (len := 6) _ rfl]

theorem maxtns_eq (r : Csr) (c : Channel) :
    r.maxtns c = if (r.ics c).extractLsb' 0 2 == 2#2 then (r.bands.extractLsb' 24 4).toNat
      else (r.bands.extractLsb' 16 6).toNat := by
  rw [Csr.maxtns, short_eq, field_eq (len := 4) _ rfl, field_eq (len := 6) _ rfl]

theorem off_eq (s : State) (c : Channel) (i : Nat) :
    s.off c i = if (s.csr.ics c).extractLsb' 0 2 == 2#2 then (s.elem .swbs i).toNat
      else (s.elem .swbl i).toNat := by
  rw [State.off, short_eq]

theorem line_eq (r : Csr) (c : Channel) (g w i : Nat) :
    r.line c g w i = (∑ j ∈ Finset.range g, r.glen c j + w) * r.wl c + i := by
  rw [Csr.line, gstart_eq_sum]

/-! ### Bands in loop order -/

/-- Rows of m elements, one after the other: element b of row g. -/
theorem getElem?_rows {α : Type} (f : Nat → Nat → α) {n m g b : Nat} (hg : g < n) (hb : b < m) :
    ((List.range n).flatMap fun g => (List.range m).map (f g))[g * m + b]? = some (f g b) := by
  induction n with
  | zero => exact absurd hg (Nat.not_lt_zero g)
  | succ n ih =>
    have hlen : ((List.range n).flatMap fun g => (List.range m).map (f g)).length = n * m := by
      simp [List.length_flatMap]
    rw [List.range_succ, List.flatMap_append]
    rcases Nat.lt_succ_iff_lt_or_eq.1 hg with hg | rfl
    · have hlt : g * m + b < n * m := by
        have := Nat.mul_le_mul_right m (Nat.succ_le_of_lt hg)
        rw [Nat.succ_mul] at this
        omega
      rw [List.getElem?_append_left (by rw [hlen]; exact hlt), ih hg]
    · rw [List.getElem?_append_right (by omega), hlen, Nat.add_sub_cancel_left]
      simp [hb]

theorem bandList_eq (r : Csr) (c : Channel) : r.bandList c =
    (List.range (r.ngrp c)).flatMap fun g => (List.range (r.maxsfb c)).map fun b => (g, b) := by
  simp only [Csr.bandList, upTo_zero]

theorem length_bandList (r : Csr) (c : Channel) :
    (r.bandList c).length = r.ngrp c * r.maxsfb c := by
  simp [bandList_eq, List.length_flatMap]

theorem getElem?_bandList (r : Csr) (c : Channel) {g b : Nat} (hg : g < r.ngrp c)
    (hb : b < r.maxsfb c) : (r.bandList c)[g * r.maxsfb c + b]? = some (g, b) := by
  rw [bandList_eq]
  exact getElem?_rows Prod.mk hg hb

/-! ### Codebooks and filter slots -/

theorem codebookOf_eq_spectral (v : BitVec 4) (b : SpecBook) :
    codebookOf v = .spectral b ↔ v.toNat = (Ref.bookRow b).number := by
  revert v
  cases b <;> decide

theorem codebookOf_eq_other (v : BitVec 4) :
    (codebookOf v = .zero ↔ v.toNat = 0) ∧ (codebookOf v = .reserved ↔ v.toNat = 12) ∧
    (codebookOf v = .noise ↔ v.toNat = 13) ∧ (codebookOf v = .intensity2 ↔ v.toNat = 14) ∧
    (codebookOf v = .intensity ↔ v.toNat = 15) := by
  revert v
  decide

theorem tnsf_eq (s : State) (c : Channel) (w f : Nat) :
    let d := s.elem .tnsf (slotIx c w f)
    (s.tnsf c w f).len = (d.extractLsb' 0 6).toNat ∧
      (s.tnsf c w f).order = (d.extractLsb' 6 5).toNat ∧ (s.tnsf c w f).down = d.getLsbD 11 ∧
      (s.tnsf c w f).res = d.getLsbD 12 ∧ (s.tnsf c w f).cmp = d.getLsbD 13 :=
  have h14 : Space.tnsf.width ≤ 32 := by decide
  ⟨field_setWidth h14 _ rfl, field_setWidth h14 _ rfl, flag_setWidth h14 _ _,
    flag_setWidth h14 _ _, flag_setWidth h14 _ _⟩

/-- Settles O59: each field is the bits of its register or descriptor, and the geometry is computed
from the fields. -/
theorem fieldsOfTheRegisters : Obligations.FieldsOfTheRegisters := by
  intro s c
  exact ⟨fl_eq _, sl_eq _, flat_eq _, frameLen_eq _, flag_eq _ _, flag_eq _ _, wseq_eq _ c,
    flag_eq _ _, field_eq _ rfl, field_eq _ rfl, fun g _ => glen_eq _ c g, globalGain_eq _ c,
    field_eq _ rfl, flag_eq _ _, flag_eq _ _, nwin_eq _ c, wl_eq _ c, nswb_eq _ c,
    maxtns_eq _ c, off_eq s c, line_eq _ c, length_bandList _ c,
    fun _ hg _ hb => getElem?_bandList _ c hg hb,
    fun _ _ => ⟨codebookOf_eq_spectral _, codebookOf_eq_other _⟩, fun _ _ => rfl, fun _ => rfl,
    tnsf_eq s c, fun _ _ _ => rfl⟩

end Sys2Proof.Machine
end

section
/-! SUPPORT. Every index a command computes exists (20_memory.md R82; log 12): the body of each
command, run from any state that meets the invariant, stops early only with a fault of the block.
That the reads which are not checked stay inside too is said by two runs, as for the outputs:
states that differ only beyond the spaces are a relation of the kind `exec_twin` needs. -/

namespace Sys2Proof.Machine

open Sys2Proof

variable {R : State → Prop} {s t : State} {α β : Type} {c : Channel}

/-! ### Bodies that name no element outside a space -/

/-- Run from `s`, the body names only elements that exist: it ends normally or with a fault of the
block. -/
def InRange (m : Cmd α) (s : State) : Prop := Within (fun _ => True) m s

theorem Within.inRange {m : Cmd α} (h : Within R m s) : InRange m s :=
  h.imp (fun _ _ _ => trivial) fun _ _ he => ⟨he.1, trivial⟩

theorem within_inRange_bind {m : Cmd β} {f : β → Cmd α} (h : Within R m s)
    (hf : ∀ b t, R t → InRange (f b) t) : InRange (m >>= f) s := by
  unfold InRange Within
  rw [sat_bind]
  exact h.imp hf fun _ _ he => ⟨he.1, trivial⟩

/-- A check, and what follows where it passes. -/
theorem within_checkThen {ok : Bool} {e : BlockFault} {f : Unit → Cmd α} (h : R s)
    (hf : ok = true → Within R (f ()) s) : Within R (check ok e >>= f) s := by
  unfold Within
  rw [sat_bind, sat_check]
  split
  · next hok => exact hf hok
  · exact ⟨⟨e, rfl⟩, h⟩

theorem inRange_setRes0 (v : Word) (s : State) : InRange (setRes0 v) s := trivial

/-- A command whose body names only elements that exist answers a next state. -/
theorem runCmd_inRange {w : Word} {m : Cmd Unit} (h : s.csr.fault = none → InRange m s) :
    ∃ t, runCmd w m s = .next t := by
  have hne : ∀ r : Fault, runCmd w m s ≠ .fault r :=
    runCmd_ne_fault fun hf => (h hf).imp (fun _ _ _ => trivial) fun _ _ he => he.1
  cases hr : runCmd w m s with
  | next t => exact ⟨t, rfl⟩
  | fault r => exact absurd hr (hne r)
  | refused r => exact absurd hr (runCmd_ne_refused r)

/-! ### The bit reader and the Huffman decoder -/

/-- A peek that the stream allows stays inside IBUF, since ILEN is legal. -/
theorem within_peekBits (n : Nat) (hr : Ref.Ready s) (h : R s) : Within R (peekBits n) s := by
  unfold Within
  rw [sat_peekBits]
  split
  · exact ⟨⟨_, rfl⟩, h⟩
  · next hl =>
    rw [if_pos (hr.inBuffer (Nat.le_of_not_lt hl))]
    exact h

theorem inRange_readThen (n : Nat) (f : Nat → Word) (hr : Ref.Ready s) :
    InRange (readBits n >>= fun v => setRes0 (f v)) s :=
  within_inRange_bind (within_readBits (w := fun _ => false) n hr (.refl _ s))
    fun _ _ _ => inRange_setRes0 _ _

theorem inRange_balCmd (s : State) : InRange balCmd s := by
  unfold InRange Within
  simp only [balCmd, sat_bind, sat_get, sat_ite, sat_pure, sat_raise, sat_set]
  split
  · trivial
  · split
    · exact ⟨⟨_, rfl⟩, trivial⟩
    · trivial

theorem inRange_hsfCmd (hr : Ref.Ready s) : InRange (hsfCmd blockParams) s :=
  within_inRange_bind (within_huffDecode (w := fun _ => false) _ hr (.refl _ s))
    fun _ _ _ => inRange_setRes0 _ _

theorem inRange_hspCmd (cb : BitVec 4) (hr : Ref.Ready s) : InRange (hspCmd blockParams cb) s := by
  unfold hspCmd
  cases codebookOf cb with
  | spectral b =>
    have h : InRange (huffSpec blockParams b) s :=
      (within_huffSpec (w := fun _ => false) b hr (.refl _ s)).imp (fun _ _ _ => trivial)
        fun _ _ he => ⟨he.1, trivial⟩
    exact within_bind h fun _ _ _ => trivial
  | _ => exact within_raise _ trivial

/-! ### TNS -/

theorem within_storeLpc {w : Space → Bool} (hw : w .lpcbuf = true) {lpc : List F32}
    (hl : lpc.length = 21) (h : Touches w s t) :
    Within (Touches w s) (storeRun .lpcbuf 0 lpc) t := by
  have hi : 0 + lpc.length ≤ Space.lpcbuf.size := by rw [hl]; decide
  unfold Within
  rw [sat_storeRun, if_pos hi]
  exact h.writeRun hw hi

/-- TNSL writes LPCBUF, nothing else. -/
theorem within_tnslCmd (c : Channel) (w : BitVec 3) (f : BitVec 2) (s : State) :
    Within (Touches (only .lpcbuf) s) (tnslCmd blockParams c w f) s := by
  have h0 := Touches.refl (only .lpcbuf) s
  refine within_checkThen h0 fun _ => ?_
  unfold Within
  rw [sat_bind, sat_get]
  refine within_checkThen h0 fun _ => within_checkThen h0 fun hv => ?_
  unfold Within
  rw [sat_bind, sat_drawing]
  exact within_storeLpc rfl (lpcFrom_slot ((slotOk_iff _ _ _ _).1 hv) _).1 (h0.nanDraws _)

theorem Touches.tnsf {w : Space → Bool} (h : Touches w s t) (hw : w .tnsf = false) (c : Channel)
    (v f : Nat) : t.tnsf c v f = s.tnsf c v f := by
  simp only [State.tnsf, h.elem hw]

theorem Touches.slotValid {w : Space → Bool} (h : Touches w s t) (hw : w .tnsf = false)
    (hw' : w .tnsc = false) {v f : Nat} (hv : Ref.SlotValid s c v f) : Ref.SlotValid t c v f := by
  simpa only [Ref.SlotValid, h.tnsf hw, State.tnsc, h.elem hw'] using hv

theorem within_arFilter {w : Space → Bool} (hw : w .spec = true) (lpc : List F32) (order : Nat)
    {l : List Nat} (hl : ∀ i ∈ l, i < 1024) (h : Touches w s t) :
    Within (Touches w s) (arFilter c lpc order l) t := by
  refine within_bind (within_carry h fun i hi a u hu => ?_) fun _ _ hu => within_pure _ hu
  unfold Within arLine
  simp only [sat_bind, sat_drawing, sat_pure]
  rw [sat_loadLine .spec c (hl i hi) rfl, sat_storeLine .spec c (hl i hi) rfl]
  exact (hu.nanDraws _).write hw (lineIx_lt_size rfl (hl i hi)) _

theorem mem_slotLines {w i : Nat} {down : Bool} {q : Nat × Nat} :
    i ∈ s.slotLines c w down q ↔ ∃ j, (q.1 ≤ j ∧ j < q.2) ∧ w * s.csr.wl c + j = i := by
  cases down <;> simp [State.slotLines]

/-- A slot's lines are lines of its window: the clip keeps its bands below NSWB. -/
theorem slotLines_lt (hg : Ref.Geometry s c) {w : Nat} (hw : w < s.csr.nwin c) {down : Bool}
    {top bottom i : Nat} (hi : i ∈ s.slotLines c w down (s.slotRange c top bottom)) : i < 1024 := by
  obtain ⟨j, ⟨-, hj⟩, rfl⟩ := mem_slotLines.1 hi
  have hb := hg.bands
  have hoff : (s.slotRange c top bottom).2 ≤ s.csr.wl c := hg.off_le (by omega)
  calc w * s.csr.wl c + j < w * s.csr.wl c + s.csr.wl c := by omega
    _ = (w + 1) * s.csr.wl c := by ring
    _ ≤ s.csr.nwin c * s.csr.wl c := Nat.mul_le_mul_right _ hw
    _ = s.csr.fl := nwin_mul_wl _ _
    _ ≤ 1024 := fl_le _

theorem Touches.slotLines {w : Space → Bool} (h : Touches w s t) (hw : Clear w) (c : Channel)
    (v : Nat) (down : Bool) (top bottom : Nat) :
    t.slotLines c v down (t.slotRange c top bottom) =
      s.slotLines c v down (s.slotRange c top bottom) := by
  simp only [State.slotLines, State.slotRange, h.csr, h.consumes.off hw]

theorem within_tnsSlot (hg : Ref.Geometry s c) {w f : Nat} (hw : w < s.csr.nwin c)
    (hv : Ref.SlotValid s c w f) (top : Nat) (h : Touches (only2 .spec .lpcbuf) s t) :
    Within (Touches (only2 .spec .lpcbuf) s) (tnsSlot blockParams c w top f) t := by
  unfold Within tnsSlot
  rw [sat_bind, sat_get]
  change Within _ (if _ then _ else _) _
  split
  · exact within_pure _ h
  · unfold Within
    rw [sat_bind, sat_drawing]
    have hlen := (lpcFrom_slot (h.slotValid rfl rfl hv) t.nanDraws).1
    refine within_bind (within_storeLpc rfl hlen (h.nanDraws _)) fun _ u hu =>
      within_bind (within_arFilter rfl _ _ (fun i hi => ?_) hu) fun _ _ hx => within_pure _ hx
    rw [h.slotLines ⟨rfl, rfl, rfl⟩] at hi
    exact slotLines_lt hg hw hi

/-- TNS writes SPEC and LPCBUF, nothing else. -/
theorem within_tnsCmd (c : Channel) (s : State) :
    Within (Touches (only2 .spec .lpcbuf) s) (tnsCmd blockParams c) s := by
  have h0 := Touches.refl (only2 .spec .lpcbuf) s
  unfold Within tnsCmd
  rw [sat_bind, sat_geomCheck]
  refine ⟨fun hg => ?_, fun _ => ⟨⟨_, rfl⟩, h0⟩⟩
  rw [sat_bind, sat_get]
  refine within_checkThen h0 fun hok => within_each h0 fun w hw t ht => ?_
  unfold Within tnsWindow
  rw [sat_bind, sat_get]
  refine within_bind (within_carry ht fun f hf top u hu => ?_) fun _ _ hu => within_pure _ hu
  have hf' : f ∈ upTo 0 (s.tnsn c w) := by
    simpa only [State.tnsn, ht.elem (sp := .tnsn) rfl] using hf
  simp only [State.slotsOk, List.all_eq_true] at hok
  exact within_tnsSlot hg (mem_upTo.1 hw).2 ((slotOk_iff _ _ _ _).1 (hok w hw f hf')) top hu

/-! ### FB -/

theorem length_fbFrame (p : Params) (c : Channel) (s : State) (k : Nat) :
    (fbFrame p c s k).1.1.length = s.csr.fl ∧ (fbFrame p c s k).1.2.length = s.csr.fl := by
  unfold fbFrame
  split
  · simp [shortFrame, length_upTo]
  · simp [longFrame, length_upTo]

theorem within_storeLines {w : Space → Bool} {sp : Space} (hw : w sp = true) (hs : sp.size = 2048)
    {i : Nat} {vs : List (BitVec sp.width)} (hi : i + vs.length ≤ 1024) (h : Touches w s t) :
    Within (Touches w s) (storeLines sp c i vs) t := by
  unfold Within
  rw [sat_storeLines sp c hi hs]
  exact h.writeRun hw (lineRun_le hs hi)

theorem inRange_fbCmd (p : Params) (c : Channel) (s : State) : InRange (fbCmd p c) s := by
  obtain ⟨hout, htail⟩ := length_fbFrame p c s s.nanDraws
  have hfl := fl_le s.csr
  have h0 := (Touches.refl (only2 .tout .ovl) s).nanDraws (fbFrame p c s s.nanDraws).2
  unfold InRange Within fbCmd
  rw [sat_bind, sat_get, sat_bind, sat_drawing]
  exact within_inRange_bind (within_storeLines rfl rfl (by omega) h0) fun _ _ h =>
    within_inRange_bind (within_storeLines rfl rfl (by omega) h) fun _ _ _ => trivial

/-! ### Every command answers -/

/-- Every command answers a next state from every state that meets the invariant. -/
theorem exec_next (i : Instr) (hs : s.Ok) : ∃ t, exec i s = .next t := by
  have hr : s.csr.fault = none → Ref.Ready s := fun hf => ⟨hf, hs.csr.ilen⟩
  cases i with
  | frst => exact ⟨_, rfl⟩
  | srst => exact ⟨_, rfl⟩
  | brd n =>
    exact runCmd_inRange fun hf => within_checkThen trivial fun _ => inRange_readThen _ _ (hr hf)
  | brds n =>
    exact runCmd_inRange fun hf => within_checkThen trivial fun _ => inRange_readThen _ _ (hr hf)
  | brb => exact runCmd_inRange fun hf => inRange_readThen _ _ (hr hf)
  | bpk n =>
    exact runCmd_inRange fun hf => within_checkThen trivial fun _ =>
      within_bind (within_peekBits _ (hr hf) trivial) fun _ _ _ => inRange_setRes0 _ _
  | bal => exact runCmd_inRange fun _ => inRange_balCmd s
  | blf => exact runCmd_inRange fun _ => inRange_setRes0 (BitVec.ofNat 32 (bitsLeft s)) s
  | hsf => exact runCmd_inRange fun hf => inRange_hsfCmd (hr hf)
  | hsp cb => exact runCmd_inRange fun hf => inRange_hspCmd cb (hr hf)
  | sfd c => exact runCmd_inRange fun hf => (within_sfdCmd c (hr hf)).inRange
  | spd c => exact runCmd_inRange fun hf => (within_spdCmd c (hr hf)).inRange
  | ms => exact runCmd_inRange fun _ => (within_msCmd s).inRange
  | is => exact runCmd_inRange fun _ => (within_isCmd _ s).inRange
  | tnsl c w f => exact runCmd_inRange fun _ => (within_tnslCmd c w f s).inRange
  | tns c => exact runCmd_inRange fun _ => (within_tnsCmd c s).inRange
  | iq c => exact runCmd_inRange fun _ => (within_iqCmd _ c s).inRange
  | fb c => exact runCmd_inRange fun _ => inRange_fbCmd _ c s

/-- A word written to CMD answers a next state, an illegal one too. -/
theorem command_next (w : Word) (hs : s.Ok) : ∃ t, command w s = .next t := by
  unfold command
  split
  · exact exec_next _ hs
  · exact runCmd_inRange fun _ => within_raise _ trivial

theorem hostAccess_ne_fault (a : HostAccess) (s : State) (r : Fault) :
    hostAccess a s ≠ .fault r := by
  cases a with
  | readReg n => exact nofun
  | _ => simp only [hostAccess]; split <;> exact nofun

theorem access_ne_fault (a : HostAccess) (hs : s.Ok) (r : Fault) : access a s ≠ .fault r := by
  unfold access
  split
  · next w =>
    obtain ⟨t, ht⟩ := command_next w hs
    rw [ht]
    exact nofun
  all_goals exact hostAccess_ne_fault _ s r

theorem step_ne_fault (hs : s.Ok) (r : Fault) : step s ≠ .fault r := by
  unfold step
  split
  · exact nofun
  · next a rest _ =>
    have hs' : ({ s with host := rest } : State).Ok := ⟨hs.csr, hs.mem⟩
    exact access_ne_fault a hs' r

/-! ### Elements listed beyond the spaces -/

theorem Ref.SameInside.cells {s' : State} (h : Ref.SameInside s s') (sp : Space) :
    ∃ extra : Cells sp.width, s'.mem.cells sp = s.mem.cells sp ++ extra ∧
      ∀ c ∈ extra, sp.size ≤ c.1 :=
  have ⟨_, _, _, _, hcells⟩ := h
  hcells sp

/-- The cells of one space are replaced alike up to elements beyond its last one. -/
theorem Ref.SameInside.setCells {s' : State} (h : Ref.SameInside s s') (sp : Space)
    {l : Cells sp.width} (extra : Cells sp.width) (hx : ∀ c ∈ extra, sp.size ≤ c.1) :
    Ref.SameInside { s with mem := s.mem.setCells sp l }
      { s' with mem := s'.mem.setCells sp (l ++ extra) } := by
  obtain ⟨hregs, hcsr, hhost, hdraws, hcells⟩ := h
  refine ⟨hregs, hcsr, hhost, hdraws, fun sp' => ?_⟩
  by_cases hsp : sp' = sp
  · subst hsp
    exact ⟨extra, by simp only [cells_setCells], hx⟩
  · simp only [cells_setCells_of_ne _ _ hsp]
    exact hcells sp'

/-- Elements listed beyond a space are neither read nor written: they stay at the end of its
list. -/
theorem twin_sameInside : Twin Ref.SameInside where
  csr := fun ⟨_, hcsr, _⟩ => hcsr
  nanDraws := fun ⟨_, _, _, hdraws, _⟩ => hdraws
  elem h sp i _ _ hi := by
    obtain ⟨extra, he, hx⟩ := h.cells sp
    simp only [State.elem, Mem.read, he, lookup_append_of_lt fun c hc => hi.trans_le (hx c hc)]
  setCsr := fun ⟨hregs, _, hrest⟩ _ => ⟨hregs, rfl, hrest⟩
  setDraws := fun ⟨hregs, hcsr, hhost, _, hcells⟩ _ => ⟨hregs, hcsr, hhost, rfl, hcells⟩
  write h sp i hz hi v := by
    obtain ⟨extra, he, hx⟩ := h.cells sp
    have hlt : ∀ c ∈ extra, i < c.1 := fun c hc => hi.trans_le (hx c hc)
    simpa only [Mem.write, hz, he, insert_append_of_lt hlt, Bool.false_and, Bool.false_eq_true,
      if_false] using h.setCells sp extra hx
  writeRun h sp base vs hi := by
    obtain ⟨extra, he, hx⟩ := h.cells sp
    have hle : ∀ c ∈ extra, base + vs.length ≤ c.1 := fun c hc => hi.trans (hx c hc)
    simpa only [Mem.writeRun, he, splice_append_of_le hle] using h.setCells sp extra hx
  res0 := fun ⟨hregs, hrest⟩ _ => ⟨by rw [hregs], hrest⟩
  results := fun ⟨_, hrest⟩ _ => ⟨rfl, hrest⟩
  clear h sp _ := h.setCells sp [] nofun

/-- Settles O54: no body stops at an element that does not exist, and elements listed beyond a
space stay as they are. -/
theorem everyIndexIsInRange : Obligations.EveryIndexIsInRange :=
  ⟨fun i _ hs => exec_next i hs, fun _ hs ⟨r, hr⟩ => step_ne_fault hs r hr,
    fun _ _ _ _ h ht => exec_twin twin_sameInside h ht⟩

end Sys2Proof.Machine
end

section
/-! SUPPORT. The command words (30_encoding.md R111 to R122): the fields of a word that is an
opcode and an operand, what each format reads of a word, and the decoder and the match and mask
rows read off them. -/

namespace Sys2Proof.Machine

open Sys2Proof
open Sys2Proof.Laws.MatchMask (rowMatch rowMask)

variable {w : Word} {op : BitVec 8} {k : Nat} {i : Instr}

/-! ### Fields of a command word -/

theorem getLsbD_opWord (op : BitVec 8) (a : BitVec 24) (n : Nat) :
    (opWord op a).getLsbD n = if n < 24 then a.getLsbD n else op.getLsbD (n - 24) :=
  BitVec.getLsbD_append

theorem toNat_opWord (op : BitVec 8) (a : BitVec 24) :
    (opWord op a).toNat = op.toNat * 2 ^ 24 + a.toNat := by
  rw [opWord, BitVec.toNat_append, ← Nat.shiftLeft_add_eq_or_of_lt a.isLt, Nat.shiftLeft_eq]

theorem opField_opWord (op : BitVec 8) (a : BitVec 24) : opField (opWord op a) = op := by
  refine BitVec.eq_of_getLsbD_eq fun n hn => ?_
  simp [opField, getLsbD_opWord, hn]

theorem extractLsb'_operand (hk : k ≤ 24) (op : BitVec 8) (x : BitVec k) :
    (opWord op (x.setWidth 24)).extractLsb' 0 k = x := by
  refine BitVec.eq_of_getLsbD_eq fun n hn => ?_
  simp [getLsbD_opWord, hn, show n < 24 by omega]

theorem extractLsb'_reserved (hk : k ≤ 24) (op : BitVec 8) (x : BitVec k) :
    (opWord op (x.setWidth 24)).extractLsb' k (24 - k) = 0#(24 - k) := by
  refine BitVec.eq_of_getLsbD_eq fun n hn => ?_
  simp [getLsbD_opWord, show k + n < 24 by omega]

/-- A word whose reserved bits are 0 is the word of its opcode and its `k` operand bits. -/
theorem opWord_of_reserved (hk : k ≤ 24) (hop : opField w = op)
    (hz : w.extractLsb' k (24 - k) = 0#(24 - k)) :
    opWord op ((w.extractLsb' 0 k).setWidth 24) = w := by
  have hz := congrArg BitVec.toNat hz
  rw [BitVec.extractLsb'_toNat, Nat.shiftRight_eq_div_pow, BitVec.toNat_zero] at hz
  have hlow : w.toNat % 2 ^ 24 = w.toNat % 2 ^ k := by
    rw [← Nat.add_sub_of_le hk, pow_add, Nat.mod_mul, hz, mul_zero, add_zero]
  apply BitVec.eq_of_toNat_eq
  rw [toNat_opWord, ← hop, opField, BitVec.toNat_setWidth_of_le hk, BitVec.extractLsb'_toNat,
    BitVec.extractLsb'_toNat, Nat.shiftRight_zero, ← hlow, Nat.shiftRight_eq_div_pow]
  omega

/-- The mask of a row with `k` operand bits keeps the others: a word that matches the row is the
word of the row's opcode and of its own operand bits. -/
theorem opWord_of_masked (hk : k ≤ 24) (h : w &&& BitVec.allOnes 32 <<< k = opWord op 0#24) :
    opWord op ((w.extractLsb' 0 k).setWidth 24) = w := by
  have hfield {lo n : Nat} (hlo : k ≤ lo) (hn : lo + n ≤ 32) :
      w.extractLsb' lo n = (opWord op 0#24).extractLsb' lo n := by
    rw [← h]
    refine BitVec.eq_of_getLsbD_eq fun j hj => ?_
    simp [hj, show lo + j < 32 by omega, show k ≤ lo + j by omega, -BitVec.reduceAllOnes]
  refine opWord_of_reserved hk ?_ ?_
  · rw [opField, hfield hk le_rfl]
    exact opField_opWord op _
  · have hzero := extractLsb'_reserved hk op 0#k
    rw [BitVec.setWidth_zero] at hzero
    exact (hfield le_rfl (by omega)).trans hzero

/-- A field taken with a shift and a mask. -/
theorem toNat_shift_and_low {n : Nat} (w : Word) (lo : Nat) (hn : n ≤ 32) :
    (w >>> lo &&& BitVec.ofNat 32 (2 ^ n - 1)).toNat = (w.extractLsb' lo n).toNat := by
  have hlt : 2 ^ n - 1 < 2 ^ 32 := by
    have := Nat.pow_le_pow_right (n := 2) (by decide) hn
    omega
  rw [BitVec.toNat_and, BitVec.toNat_ofNat, Nat.mod_eq_of_lt hlt, Nat.and_two_pow_sub_one_eq_mod,
    BitVec.extractLsb'_toNat, BitVec.toNat_ushiftRight]

/-! ### The operands of formats C and T -/

theorem channelOfBit_bit (c : Channel) : channelOfBit c.bit = c := by cases c <;> rfl

theorem channelOfBit_surjective : Function.Surjective channelOfBit :=
  fun c => ⟨c.bit, channelOfBit_bit c⟩

theorem bit_channelOfBit (b : BitVec 1) : (channelOfBit b).bit = b := by
  revert b; decide

theorem encode_channelOfBit (mk : Channel → Instr)
    (hmk : ∀ c, encode (mk c) = opWord op (c.bit.setWidth 24)) (b : BitVec 1) :
    encode (mk (channelOfBit b)) = opWord op (b.setWidth 24) := by
  rw [hmk, bit_channelOfBit]

/-- The command a row of format T makes of its six operand bits (30_encoding.md R116). -/
def ofSlotOperand (mk : Channel → BitVec 3 → BitVec 2 → Instr) (x : BitVec 6) : Instr :=
  mk (channelOfBit (x.extractLsb' 0 1)) (x.extractLsb' 1 3) (x.extractLsb' 4 2)

theorem ofSlotOperand_append (mk : Channel → BitVec 3 → BitVec 2 → Instr) (c : Channel)
    (win : BitVec 3) (f : BitVec 2) : ofSlotOperand mk (f ++ (win ++ c.bit)) = mk c win f := by
  have hfields : ∀ (b : BitVec 1) (win : BitVec 3) (f : BitVec 2),
      (f ++ (win ++ b)).extractLsb' 0 1 = b ∧ (f ++ (win ++ b)).extractLsb' 1 3 = win ∧
        (f ++ (win ++ b)).extractLsb' 4 2 = f := by decide
  obtain ⟨hb, hwin, hf⟩ := hfields c.bit win f
  rw [ofSlotOperand, hb, hwin, hf, channelOfBit_bit]

theorem exists_ofSlotOperand (mk : Channel → BitVec 3 → BitVec 2 → Instr) :
    (∃ x, ofSlotOperand mk x = i) ↔ ∃ c win f, mk c win f = i :=
  ⟨fun ⟨_, h⟩ => ⟨_, _, _, h⟩,
    fun ⟨c, win, f, h⟩ => ⟨_, (ofSlotOperand_append mk c win f).trans h⟩⟩

theorem encode_ofSlotOperand (mk : Channel → BitVec 3 → BitVec 2 → Instr)
    (hmk : ∀ c win f, encode (mk c win f) = opWord op ((f ++ (win ++ c.bit)).setWidth 24))
    (x : BitVec 6) : encode (ofSlotOperand mk x) = opWord op (x.setWidth 24) := by
  have happend : x.extractLsb' 4 2 ++ (x.extractLsb' 1 3 ++ x.extractLsb' 0 1) = x := by
    revert x; decide
  rw [ofSlotOperand, hmk, bit_channelOfBit, happend]

/-- The operands of format T, read from the word and not from its six operand bits. -/
theorem ofSlotOperand_extractLsb' (mk : Channel → BitVec 3 → BitVec 2 → Instr) (w : Word) :
    ofSlotOperand mk (w.extractLsb' 0 6) =
      mk (channelOfBit (w.extractLsb' 0 1)) (w.extractLsb' 1 3) (w.extractLsb' 4 2) := by
  simp only [ofSlotOperand, BitVec.extractLsb'_extractLsb'_of_le (by decide : 0 + 1 ≤ 6),
    BitVec.extractLsb'_extractLsb'_of_le (by decide : 1 + 3 ≤ 6),
    BitVec.extractLsb'_extractLsb'_of_le (by decide : 4 + 2 ≤ 6)]

/-! ### What each format reads of a word

For a row with opcode `op` whose operand `x` gives the command `mk x`, each format accepts exactly
the words of the row's well-formed commands. -/

/-- The checks of a format with `k` operand bits, as a property of the command read. -/
theorem format_iff {mk : BitVec k → Instr} (hk : k ≤ 24)
    (hmk : ∀ x, encode (mk x) = opWord op (x.setWidth 24)) (hop : (opField w).toNat = op.toNat) :
    (w.extractLsb' k (24 - k) = 0#(24 - k) ∧ WellFormed (mk (w.extractLsb' 0 k)) = true ∧
      mk (w.extractLsb' 0 k) = i) ↔
    (WellFormed i = true ∧ encode i = w) ∧ ∃ x, mk x = i := by
  constructor
  · rintro ⟨hz, hwf, rfl⟩
    exact ⟨⟨hwf, (hmk _).trans (opWord_of_reserved hk (BitVec.eq_of_toNat_eq hop) hz)⟩, _, rfl⟩
  · rintro ⟨⟨hwf, rfl⟩, x, rfl⟩
    rw [hmk, extractLsb'_operand hk, extractLsb'_reserved hk]
    exact ⟨rfl, hwf, rfl⟩

/-- A check of the reserved bits and one of the operand's range. -/
theorem checked_eq_ok_iff {p q : Prop} [Decidable p] [Decidable q] {e e' : DecodeError}
    {j : Instr} :
    (if ¬ p then .error e else if q then .ok j else .error e' : Except DecodeError Instr) = .ok i ↔
      p ∧ q ∧ j = i := by
  split_ifs <;> simp [*]

theorem decodeZ_eq_ok_iff {j : Instr} (hj : encode j = opWord op 0#24) (hwf : WellFormed j = true)
    (hop : (opField w).toNat = op.toNat) :
    decodeZ w j = .ok i ↔ (WellFormed i = true ∧ encode i = w) ∧ j = i := by
  have hiff := format_iff (mk := fun _ : BitVec 0 => j) (i := i) (by decide)
    (fun x => by rw [hj, BitVec.eq_nil x]; rfl) hop
  rw [exists_const] at hiff
  rw [← hiff]
  unfold decodeZ
  split_ifs <;> simp [*]

theorem decodeN_eq_ok_iff {mk : BitVec 6 → Instr}
    (hmk : ∀ n, encode (mk n) = opWord op (n.setWidth 24))
    (hwf : ∀ n, WellFormed (mk n) = decide (legalCount n)) (hop : (opField w).toNat = op.toNat) :
    decodeN w mk = .ok i ↔ (WellFormed i = true ∧ encode i = w) ∧ ∃ n, mk n = i := by
  rw [← format_iff (by decide) hmk hop, hwf, decide_eq_true_iff]
  exact checked_eq_ok_iff

theorem decodeC_eq_ok_iff {mk : Channel → Instr}
    (hmk : ∀ c, encode (mk c) = opWord op (c.bit.setWidth 24))
    (hwf : ∀ c, WellFormed (mk c) = true) (hop : (opField w).toNat = op.toNat) :
    decodeC w mk = .ok i ↔
      (WellFormed i = true ∧ encode i = w) ∧ ∃ c, mk c = i := by
  rw [channelOfBit_surjective.exists, ← format_iff (by decide) (encode_channelOfBit mk hmk) hop,
    hwf]
  unfold decodeC
  split_ifs <;> simp [*]

theorem decodeB_eq_ok_iff {mk : BitVec 4 → Instr}
    (hmk : ∀ cb, encode (mk cb) = opWord op (cb.setWidth 24))
    (hwf : ∀ cb, WellFormed (mk cb) = decide (legalCodebook cb))
    (hop : (opField w).toNat = op.toNat) :
    decodeB w mk = .ok i ↔ (WellFormed i = true ∧ encode i = w) ∧ ∃ cb, mk cb = i := by
  rw [← format_iff (by decide) hmk hop, hwf, decide_eq_true_iff]
  exact checked_eq_ok_iff

theorem decodeT_eq_ok_iff {mk : Channel → BitVec 3 → BitVec 2 → Instr}
    (hmk : ∀ c win f, encode (mk c win f) = opWord op ((f ++ (win ++ c.bit)).setWidth 24))
    (hwf : ∀ c win f, WellFormed (mk c win f) = decide (legalSlot f))
    (hop : (opField w).toNat = op.toNat) :
    decodeT w mk = .ok i ↔
      (WellFormed i = true ∧ encode i = w) ∧ ∃ c win f, mk c win f = i := by
  rw [← exists_ofSlotOperand, ← format_iff (by decide) (encode_ofSlotOperand mk hmk) hop,
    ofSlotOperand_extractLsb', hwf, decide_eq_true_iff]
  exact checked_eq_ok_iff

/-! ### The decoder -/

/-- A word the decoder accepts is the word of the well-formed command it names, row by row. -/
theorem encode_of_decode (h : decode w = .ok i) : WellFormed i = true ∧ encode i = w := by
  unfold decode at h
  split at h
  -- the rows in the order of the table, gathered by format: Z, N, C, B, T, and no row
  case h_1 hop | h_2 hop | h_5 hop | h_7 hop | h_8 hop | h_9 hop | h_13 hop | h_14 hop =>
    exact ((decodeZ_eq_ok_iff rfl rfl hop).1 h).1
  case h_3 hop | h_4 hop | h_6 hop =>
    exact ((decodeN_eq_ok_iff (fun _ => rfl) (fun _ => rfl) hop).1 h).1
  case h_11 hop | h_12 hop | h_16 hop | h_17 hop | h_18 hop =>
    exact ((decodeC_eq_ok_iff (fun _ => rfl) (fun _ => rfl) hop).1 h).1
  case h_10 hop => exact ((decodeB_eq_ok_iff (fun _ => rfl) (fun _ => rfl) hop).1 h).1
  case h_15 hop => exact ((decodeT_eq_ok_iff (fun _ _ _ => rfl) (fun _ _ _ => rfl) hop).1 h).1
  case h_19 => cases h

/-- The opcode of a command's word selects its row, and the row's format accepts the word. -/
theorem decode_encode (h : WellFormed i = true) : decode (encode i) = .ok i := by
  have hop (op : BitVec 8) (a : BitVec 24) : (opField (opWord op a)).toNat = op.toNat := by
    rw [opField_opWord]
  cases i with
  | frst | srst | brb | bal | blf | hsf | ms | is =>
    simp only [decode, encode, opField_opWord]
    exact (decodeZ_eq_ok_iff rfl rfl (hop _ _)).2 ⟨⟨h, rfl⟩, rfl⟩
  | brd n | brds n | bpk n =>
    simp only [decode, encode, opField_opWord]
    exact (decodeN_eq_ok_iff (fun _ => rfl) (fun _ => rfl) (hop _ _)).2 ⟨⟨h, rfl⟩, n, rfl⟩
  | sfd c | spd c | tns c | iq c | fb c =>
    simp only [decode, encode, opField_opWord]
    exact (decodeC_eq_ok_iff (fun _ => rfl) (fun _ => rfl) (hop _ _)).2 ⟨⟨h, rfl⟩, c, rfl⟩
  | hsp cb =>
    simp only [decode, encode, opField_opWord]
    exact (decodeB_eq_ok_iff (fun _ => rfl) (fun _ => rfl) (hop _ _)).2 ⟨⟨h, rfl⟩, cb, rfl⟩
  | tnsl c win f =>
    simp only [decode, encode, opField_opWord]
    exact (decodeT_eq_ok_iff (fun _ _ _ => rfl) (fun _ _ _ => rfl) (hop _ _)).2
      ⟨⟨h, rfl⟩, c, win, f, rfl⟩

theorem decode_eq_ok_iff : decode w = .ok i ↔ WellFormed i = true ∧ encode i = w :=
  ⟨encode_of_decode, fun ⟨hwf, hw⟩ => hw ▸ decode_encode hwf⟩

/-! ### The match and mask rows -/

/-- The operand ranges, said of the fields the decoder extracts. -/
theorem operandsLegal_iff (row w : Word) : Ref.operandsLegal row w ↔
    (row = 0x10000000#32 ∨ row = 0x11000000#32 ∨ row = 0x13000000#32 →
      legalCount (w.extractLsb' 0 6)) ∧
    (row = 0x21000000#32 → legalCodebook (w.extractLsb' 0 4)) ∧
    (row = 0x38000000#32 → legalSlot (w.extractLsb' 4 2)) := by
  rw [legalCount, legalCodebook, legalSlot, ← toNat_shift_and_low w 0 (by decide),
    ← toNat_shift_and_low w 0 (by decide), ← toNat_shift_and_low w 4 (by decide),
    BitVec.ushiftRight_zero]
  rfl

/-- A word that matches a row decodes, if the row's command with the word's operand bits is well
formed. -/
theorem decodes_of_masked {mk : BitVec k → Instr} (hk : k ≤ 24)
    (hmk : ∀ x, encode (mk x) = opWord op (x.setWidth 24))
    (hm : w &&& BitVec.allOnes 32 <<< k = opWord op 0#24)
    (hwf : WellFormed (mk (w.extractLsb' 0 k)) = true) : ∃ i, decode w = .ok i :=
  ⟨_, decode_eq_ok_iff.2 ⟨hwf, (hmk _).trans (opWord_of_masked hk hm)⟩⟩

/-- The row without operand bits: its mask keeps the whole word. -/
theorem decodes_of_eq {m : Word} (i : Instr) (hi : encode i = m) (hwf : WellFormed i = true)
    (hm : w &&& 0xFFFFFFFF#32 = m) : ∃ i, decode w = .ok i :=
  ⟨i, decode_eq_ok_iff.2 ⟨hwf, hi.trans (hm.symm.trans BitVec.and_allOnes)⟩⟩

/-- Each row of the command table, with the range of its operand if it has one. -/
theorem decodes_of_legalWord (h : Ref.LegalWord w) : ∃ i, decode w = .ok i := by
  obtain ⟨row, hrow, hm, hl⟩ := h
  obtain ⟨hcount, hbook, hslot⟩ := (operandsLegal_iff _ _).1 hl
  simp only [Ref.commandRows, List.mem_cons, List.not_mem_nil, or_false] at hrow
  rcases hrow with rfl | rfl | rfl | rfl | rfl | rfl | rfl | rfl | rfl | rfl | rfl | rfl | rfl |
    rfl | rfl | rfl | rfl | rfl
  · exact decodes_of_eq .frst rfl rfl hm
  · exact decodes_of_eq .srst rfl rfl hm
  · exact decodes_of_masked (mk := .brd) (by decide) (fun _ => rfl) hm
      (decide_eq_true (hcount (.inl rfl)))
  · exact decodes_of_masked (mk := .brds) (by decide) (fun _ => rfl) hm
      (decide_eq_true (hcount (.inr (.inl rfl))))
  · exact decodes_of_eq .brb rfl rfl hm
  · exact decodes_of_masked (mk := .bpk) (by decide) (fun _ => rfl) hm
      (decide_eq_true (hcount (.inr (.inr rfl))))
  · exact decodes_of_eq .bal rfl rfl hm
  · exact decodes_of_eq .blf rfl rfl hm
  · exact decodes_of_eq .hsf rfl rfl hm
  · exact decodes_of_masked (mk := .hsp) (by decide) (fun _ => rfl) hm
      (decide_eq_true (hbook rfl))
  · exact decodes_of_masked (by decide) (encode_channelOfBit .sfd fun _ => rfl) hm rfl
  · exact decodes_of_masked (by decide) (encode_channelOfBit .spd fun _ => rfl) hm rfl
  · exact decodes_of_eq .ms rfl rfl hm
  · exact decodes_of_eq .is rfl rfl hm
  · refine decodes_of_masked (by decide) (encode_ofSlotOperand .tnsl fun _ _ _ => rfl) hm ?_
    rw [ofSlotOperand_extractLsb']
    exact decide_eq_true (hslot rfl)
  · exact decodes_of_masked (by decide) (encode_channelOfBit .tns fun _ => rfl) hm rfl
  · exact decodes_of_masked (by decide) (encode_channelOfBit .iq fun _ => rfl) hm rfl
  · exact decodes_of_masked (by decide) (encode_channelOfBit .fb fun _ => rfl) hm rfl

/-- The instruction's row (`rowMatch`, `rowMask`) stands in the command table. -/
theorem row_mem_commandRows (i : Instr) :
    (rowMatch i, rowMask i) ∈ Ref.commandRows := by
  cases i <;> simp [rowMatch, rowMask, Ref.commandRows]

theorem encode_matches_row (i : Instr) : Laws.MatchMask.Statement i := by
  open Laws.MatchMask in
  cases i
  exacts [frst, srst, brd _, brds _, brb, bpk _, bal, blf, hsf, hsp _, sfd _, spd _, ms, is,
    tnsl _ _ _, tns _, iq _, fb _]

theorem operandsLegal_encode (h : WellFormed i = true) :
    Ref.operandsLegal (rowMatch i) (encode i) := by
  rw [operandsLegal_iff]
  cases i with
  | brd n | brds n | bpk n =>
    refine ⟨fun _ => ?_, by simp [rowMatch], by simp [rowMatch]⟩
    rw [encode, extractLsb'_operand (by decide)]
    exact of_decide_eq_true h
  | hsp cb =>
    refine ⟨by simp [rowMatch], fun _ => ?_, by simp [rowMatch]⟩
    rw [encode, extractLsb'_operand (by decide)]
    exact of_decide_eq_true h
  | tnsl c win f =>
    refine ⟨by simp [rowMatch], by simp [rowMatch], fun _ => ?_⟩
    have hf : (encode (.tnsl c win f)).extractLsb' 4 2 = f := by
      cases c <;> revert win f <;> decide
    rw [hf]
    exact of_decide_eq_true h
  | _ => simp [rowMatch]

/-- The legal words are those that decode. -/
theorem legalWord_iff : Ref.LegalWord w ↔ ∃ i, decode w = .ok i := by
  refine ⟨decodes_of_legalWord, ?_⟩
  rintro ⟨i, h⟩
  obtain ⟨hwf, rfl⟩ := encode_of_decode h
  exact ⟨_, row_mem_commandRows i, encode_matches_row i, operandsLegal_encode hwf⟩

/-! ### The obligations -/

/-- Settles O1, command by command. -/
theorem decodeOfEncode : Obligations.DecodeOfEncode := fun _ => decode_encode

/-- Settles O2, row by row of the decoder. -/
theorem encodeOfDecode : Obligations.EncodeOfDecode := fun _ _ => encode_of_decode

/-- Settles O3: the rows accept the words the decoder accepts. -/
theorem decodingFollowsTheTable : Obligations.DecodingFollowsTheTable := by
  intro w
  rw [legalWord_iff]
  split
  next i h => exact ⟨⟨i, h⟩, (encode_of_decode h).2⟩
  next e h => simp [h]

/-- Settles O4: each word is the word of its command. -/
theorem exampleWordsDecode : Obligations.ExampleWordsDecode :=
  ⟨decode_encode (i := .brd 8) rfl, decode_encode (i := .brds 32) rfl,
    decode_encode (i := .hsp 11) rfl, decode_encode (i := .spd .c1) rfl,
    decode_encode (i := .tnsl .c0 2 1) rfl, decode_encode (i := .fb .c0) rfl,
    decode_encode (i := .frst) rfl, decode_encode (i := .srst) rfl⟩

theorem command_of_not_legalWord (h : ¬ Ref.LegalWord w) (s : State) :
    command w s = illegalWord w s := by
  unfold command
  split
  next i hd => exact absurd (legalWord_iff.2 ⟨i, hd⟩) h
  next => rfl

theorem illegalWord_of_ready {s : State} (h : s.csr.fault = none) (w : Word) :
    illegalWord w s = .next (Ref.recorded .cmdError w s) :=
  runCmd_eq_fault h ((sat_raise _).2 ⟨rfl, rfl⟩)

/-- Settles O7: the word does not decode, and what is run for it only raises CmdError. -/
theorem illegalWordRaisesCmdError : Obligations.IllegalWordRaisesCmdError := by
  intro s w rest hs hw hf
  rw [step_of_host hs]
  exact (command_of_not_legalWord hw _).trans
    (illegalWord_of_ready (s := { s with host := rest }) hf w)

end Sys2Proof.Machine
end

section
/-! SUPPORT. The cursor (40_bitreader.md R141): no part of a command's body moves BITPOS past the
end of the stream. `Keeps` says whether a body may move the cursor, not where to, and ILEN may be
any word here, so the lemmas about ready states do not apply: the bodies that read are followed
again. -/

namespace Sys2Proof.Machine

open Sys2Proof

variable {s t u : State} {α β : Type}

/-- From `s` to `t` ILEN has not changed, and the cursor has not moved or is inside the stream. -/
structure CursorKept (s t : State) : Prop where
  ilen : t.csr.ilen = s.csr.ilen
  cursor : t.csr.bitpos = s.csr.bitpos ∨ Ref.InStream t t.csr.bitpos.toNat

/-- A part of a body that keeps the cursor in the stream, whatever state it is run from and however
it ends. -/
def KeepsCursor (m : Cmd α) : Prop :=
  ∀ s, Sat m s (fun _ t => CursorKept s t) fun _ t => CursorKept s t

theorem CursorKept.refl (s : State) : CursorKept s s := ⟨rfl, .inl rfl⟩

theorem CursorKept.trans (h : CursorKept s t) (h' : CursorKept t u) : CursorKept s u := by
  refine ⟨h'.ilen.trans h.ilen, ?_⟩
  rcases h'.cursor with hkept | hin
  · unfold Ref.InStream
    rw [hkept, h'.ilen]
    exact h.cursor
  · exact .inr hin

/-- Moving the cursor over bits that are left keeps it in the stream: where the sum does not fit the
register, what it wraps around to is smaller still. -/
theorem cursorKept_setBitpos {n : Nat} (hn : n ≤ bitsLeft s) :
    CursorKept s (setBitpos (s.csr.bitpos.toNat + n) s) := by
  refine ⟨rfl, ?_⟩
  by_cases h0 : n = 0
  · exact .inl (by rw [h0, Nat.add_zero, setBitpos_self])
  · right
    have hwrap := Nat.mod_le (s.csr.bitpos.toNat + n) (2 ^ 32)
    simp only [Ref.InStream, bitsLeft, setBitpos_csr_bitpos, setBitpos_csr_ilen,
      BitVec.toNat_ofNat] at *
    omega

/-! ### The monad -/

theorem keepsCursor_pure (a : α) : KeepsCursor (pure a) := .refl

theorem keepsCursor_get : KeepsCursor get := .refl

theorem keepsCursor_raise (f : BlockFault) : KeepsCursor (raise f : Cmd α) := .refl

theorem keepsCursor_throw (e : Stop) : KeepsCursor (throw e : Cmd α) := .refl

theorem keepsCursor_ite {p : Prop} [Decidable p] {m m' : Cmd α} (h : KeepsCursor m)
    (h' : KeepsCursor m') : KeepsCursor (if p then m else m') := by
  split
  · exact h
  · exact h'

theorem keepsCursor_check (ok : Bool) (f : BlockFault) : KeepsCursor (check ok f) :=
  keepsCursor_ite (keepsCursor_pure ()) (keepsCursor_raise f)

theorem keepsCursor_bind {m : Cmd β} {f : β → Cmd α} (h : KeepsCursor m)
    (hf : ∀ b, KeepsCursor (f b)) : KeepsCursor (m >>= f) := fun s => by
  rw [sat_bind]
  exact (h s).imp (fun b t ht => (hf b t).imp (fun _ _ => ht.trans) fun _ _ => ht.trans)
    fun _ _ => id

theorem keepsCursor_map {m : Cmd β} (f : β → α) (h : KeepsCursor m) : KeepsCursor (f <$> m) :=
  fun s => by
    rw [sat_map]
    exact h s

theorem keepsCursor_each {f : β → Cmd Unit} (hf : ∀ b, KeepsCursor (f b)) (l : List β) :
    KeepsCursor (each f l) := fun s =>
  sat_each_keeps (.refl s) fun b _ t ht => (hf b t).imp (fun _ _ => ht.trans) fun _ _ => ht.trans

theorem keepsCursor_carry {f : α → β → Cmd α} (hf : ∀ a b, KeepsCursor (f a b)) (a : α)
    (l : List β) : KeepsCursor (carry f a l) := fun s =>
  sat_carry_keeps (I := fun _ t => CursorKept s t) (.refl s) fun b _ a t ht =>
    (hf a b t).imp (fun _ _ => ht.trans) fun _ _ => ht.trans

/-! ### Operations -/

theorem keepsCursor_store (sp : Space) (k : Nat) (v : BitVec sp.width) :
    KeepsCursor (store sp k v) := fun s => by
  rw [sat_store]
  split <;> exact ⟨rfl, .inl rfl⟩

theorem keepsCursor_storeRun (sp : Space) (k : Nat) (vs : List (BitVec sp.width)) :
    KeepsCursor (storeRun sp k vs) := fun s => by
  rw [sat_storeRun]
  split <;> exact ⟨rfl, .inl rfl⟩

theorem keepsCursor_geomCheck (c : Channel) : KeepsCursor (geomCheck c) :=
  keepsCursor_bind keepsCursor_get fun _ => keepsCursor_check _ _

theorem keepsCursor_setRes0 (v : Word) : KeepsCursor (setRes0 v) := fun _ => ⟨rfl, .inl rfl⟩

theorem keepsCursor_readBits (n : Nat) : KeepsCursor (readBits n) := fun s => by
  rw [sat_readBits]
  split
  · exact .refl s
  next hn =>
    split
    · exact cursorKept_setBitpos (Nat.le_of_not_lt hn)
    · exact .refl s

/-- The branches of BAL (40_bitreader.md R149). -/
theorem sat_balCmd {Q : Unit → State → Prop} {E : Stop → State → Prop} :
    Sat balCmd s Q E ↔
      if s.csr.bitpos.toNat % 8 = 0 then Q () s
      else if bitsLeft s < 8 - s.csr.bitpos.toNat % 8 then E (.raised .endOfStream) s
      else Q () (setBitpos (s.csr.bitpos.toNat + (8 - s.csr.bitpos.toNat % 8)) s) := by
  simp only [balCmd, sat_bind, sat_get, sat_ite, sat_pure, sat_raise, sat_set]

theorem keepsCursor_balCmd : KeepsCursor balCmd := fun s => by
  rw [sat_balCmd]
  split
  · exact .refl s
  · split
    · exact .refl s
    next hn => exact cursorKept_setBitpos (Nat.le_of_not_lt hn)

/-! ### The Huffman decoder -/

theorem keepsCursor_huffDecode (p : Params) (b : Book) : KeepsCursor (huffDecode p b) := by
  have key : ∀ left len acc, KeepsCursor (huffLoop (p.hcb b) left len acc) := by
    intro left
    induction left with
    | zero => exact fun _ _ => keepsCursor_raise _
    | succ left ih =>
      intro len acc
      refine keepsCursor_bind (keepsCursor_readBits 1) fun v => ?_
      cases symbolOf (p.hcb b) (len + 1) (2 * acc + v) with
      | some sym => exact keepsCursor_pure _
      | none => exact ih _ _
  exact key _ _ _

theorem keepsCursor_signBits (vs : List Int) : KeepsCursor (signBits vs) := by
  induction vs with
  | nil => exact keepsCursor_pure _
  | cons v vs ih =>
    have hrest : ∀ x : Int, KeepsCursor (signBits vs >>= fun rest => pure (x :: rest)) := fun _ =>
      keepsCursor_bind ih fun _ => keepsCursor_pure _
    exact keepsCursor_ite (hrest v) (keepsCursor_bind (keepsCursor_readBits 1) fun _ => hrest _)

theorem keepsCursor_escapePrefix (left n : Nat) : KeepsCursor (escapePrefix left n) := by
  induction left generalizing n with
  | zero =>
    exact keepsCursor_bind (keepsCursor_readBits 1) fun _ =>
      keepsCursor_ite (keepsCursor_raise _) (keepsCursor_pure _)
  | succ left ih =>
    exact keepsCursor_bind (keepsCursor_readBits 1) fun _ =>
      keepsCursor_ite (ih _) (keepsCursor_pure _)

theorem keepsCursor_escape (p : Params) : KeepsCursor (escape p) :=
  keepsCursor_bind (keepsCursor_escapePrefix _ _) fun _ =>
    keepsCursor_bind (keepsCursor_readBits _) fun _ => keepsCursor_pure _

theorem keepsCursor_escapes (p : Params) (vs : List Int) : KeepsCursor (escapes p vs) := by
  induction vs with
  | nil => exact keepsCursor_pure _
  | cons v vs ih =>
    have hrest : ∀ x : Int, KeepsCursor (escapes p vs >>= fun rest => pure (x :: rest)) := fun _ =>
      keepsCursor_bind ih fun _ => keepsCursor_pure _
    exact keepsCursor_ite (keepsCursor_bind (keepsCursor_escape p) fun _ => hrest _) (hrest v)

theorem keepsCursor_huffSpec (p : Params) (b : SpecBook) : KeepsCursor (huffSpec p b) := by
  have hend : ∀ v, KeepsCursor (if b = .b11 then escapes p v else pure v) := fun v =>
    keepsCursor_ite (keepsCursor_escapes p v) (keepsCursor_pure v)
  refine keepsCursor_bind (keepsCursor_huffDecode p _) fun sym => ?_
  exact keepsCursor_ite (keepsCursor_bind (keepsCursor_pure _) hend)
    (keepsCursor_bind (keepsCursor_signBits _) hend)

theorem keepsCursor_hspCmd (p : Params) (cb : BitVec 4) : KeepsCursor (hspCmd p cb) := by
  unfold hspCmd
  cases codebookOf cb with
  | spectral b => exact keepsCursor_bind (keepsCursor_huffSpec p b) fun _ _ => ⟨rfl, .inl rfl⟩
  | _ => exact keepsCursor_raise _

/-! ### The channel passes -/

theorem keepsCursor_sfdBand (p : Params) (c : Channel) (k : SfCounters) (gb : Nat × Nat) :
    KeepsCursor (sfdBand p c k gb) := by
  have hd : KeepsCursor (sfDelta p) :=
    keepsCursor_bind (keepsCursor_huffDecode p _) fun _ => keepsCursor_pure _
  have hst : ∀ (v : Int) (k' : SfCounters),
      KeepsCursor (storeSf c gb v >>= fun _ => pure k') := fun _ _ =>
    keepsCursor_bind (keepsCursor_store _ _ _) fun _ => keepsCursor_pure _
  refine keepsCursor_bind keepsCursor_get fun s => ?_
  cases s.cb c gb.1 gb.2 with
  | zero => exact hst _ _
  | intensity2 | intensity => exact keepsCursor_bind hd fun _ => hst _ _
  | noise =>
    exact keepsCursor_ite
      (keepsCursor_bind (keepsCursor_map _ (keepsCursor_readBits _)) fun _ => hst _ _)
      (keepsCursor_bind hd fun _ => hst _ _)
  | spectral | reserved =>
    exact keepsCursor_bind hd fun _ => keepsCursor_bind (keepsCursor_check _ _) fun _ => hst _ _

theorem keepsCursor_sfdCmd (p : Params) (c : Channel) : KeepsCursor (sfdCmd p c) :=
  keepsCursor_bind keepsCursor_get fun _ => keepsCursor_bind (keepsCursor_check _ _) fun _ =>
    keepsCursor_bind (keepsCursor_geomCheck c) fun _ =>
      keepsCursor_bind (keepsCursor_carry (keepsCursor_sfdBand p c) _ _) fun _ =>
        keepsCursor_pure _

theorem keepsCursor_spdBand (p : Params) (c : Channel) (gb : Nat × Nat) :
    KeepsCursor (spdBand p c gb) := by
  refine keepsCursor_bind keepsCursor_get fun s => ?_
  cases s.cb c gb.1 gb.2 with
  | spectral b =>
    refine keepsCursor_bind (keepsCursor_check _ _) fun _ =>
      keepsCursor_each (fun w => keepsCursor_each (fun k => ?_) _) _
    refine keepsCursor_bind (keepsCursor_huffSpec p b) fun v =>
      keepsCursor_bind keepsCursor_get fun _ => keepsCursor_each (fun _ => ?_) _
    exact keepsCursor_ite (keepsCursor_store _ _ _) (keepsCursor_throw _)
  | _ => exact keepsCursor_pure _

theorem keepsCursor_spdCmd (p : Params) (c : Channel) : KeepsCursor (spdCmd p c) :=
  keepsCursor_bind keepsCursor_get fun _ => keepsCursor_bind (keepsCursor_check _ _) fun _ =>
    keepsCursor_bind (keepsCursor_geomCheck c) fun _ =>
      keepsCursor_bind (keepsCursor_ite (keepsCursor_storeRun _ _ _) (keepsCursor_throw _))
        fun _ => keepsCursor_each (keepsCursor_spdBand p c) _

/-! ### Every command -/

/-- Fault entry leaves BITPOS and ILEN alone, so what holds of the body holds of the command. -/
theorem KeepsCursor.cursorKept {m : Cmd Unit} (hm : KeepsCursor m) {w : Word}
    (h : runCmd w m s = .next t) : CursorKept s t :=
  runCmd_next h (fun _ => .refl s) fun _ =>
    (hm s).imp (fun _ _ => id) fun _ _ ht _ _ => ⟨ht.ilen, ht.cursor⟩

/-- Settles O24: the bodies that read the stream keep the cursor in it, FRST and SRST set it to 0,
and the other commands do not move it. -/
theorem cursorStaysInTheStream : Obligations.CursorStaysInTheStream := by
  intro i s t h
  have hread : ∀ n (f : Nat → Word), KeepsCursor (readBits n >>= fun v => setRes0 (f v)) :=
    fun n _ => keepsCursor_bind (keepsCursor_readBits n) fun _ => keepsCursor_setRes0 _
  cases i with
  | frst =>
    cases h
    unfold frameStart
    split
    · exact .inr (Nat.zero_le _)
    · exact .inl rfl
  | srst =>
    cases h
    exact .inr (Nat.zero_le _)
  | brd n | brds n =>
    exact (keepsCursor_bind (keepsCursor_check _ _) fun _ => hread _ _).cursorKept h |>.cursor
  | brb => exact (hread _ _).cursorKept h |>.cursor
  | bal => exact keepsCursor_balCmd.cursorKept h |>.cursor
  | hsf =>
    exact (keepsCursor_bind (keepsCursor_huffDecode _ _) fun _ => keepsCursor_setRes0 _).cursorKept
      h |>.cursor
  | hsp cb => exact (keepsCursor_hspCmd _ cb).cursorKept h |>.cursor
  | sfd c => exact (keepsCursor_sfdCmd _ c).cursorKept h |>.cursor
  | spd c => exact (keepsCursor_spdCmd _ c).cursorKept h |>.cursor
  | bpk | blf | ms | is | tnsl | tns | iq | fb =>
    obtain ⟨-, -, hcursor⟩ := controlRegistersWritten _ s t h nofun
    exact .inl (hcursor rfl)

end Sys2Proof.Machine
end

section
/-! SUPPORT. The bit-reader commands (40_bitreader.md R140 to R151): their words, and what a command
answers that puts a field of the stream into x[0]. -/

namespace Sys2Proof.Machine

open Sys2Proof

variable {s t : State} {w : Word} {i : Instr} {op : BitVec 8}

/-! ### Command words -/

/-- The word of an opcode and an operand, as the statements write it. -/
theorem opWord_eq_or {k : Nat} (hk : k ≤ 24) (op : BitVec 8) (x : BitVec k) :
    opWord op (x.setWidth 24) = opWord op 0#24 ||| x.setWidth 32 := by
  refine BitVec.eq_of_getLsbD_eq fun n hn => ?_
  simp only [getLsbD_opWord, BitVec.getLsbD_or, BitVec.getLsbD_setWidth, BitVec.getLsbD_zero]
  by_cases h : n < 24
  · simp [h, hn]
  · simp [h, BitVec.getLsbD_of_ge x n (by omega)]

/-- A word with the opcode of a command without operands and another bit set is illegal: CmdError. -/
theorem command_of_reservedBits (hop : opField w = op) (hd : decode w = decodeZ w i)
    (hi : encode i = opWord op 0#24) (hwf : WellFormed i = true) (hw : w ≠ encode i)
    (hf : s.csr.fault = none) : command w s = .next (Ref.recorded .cmdError w s) := by
  have hillegal : ¬ Ref.LegalWord w := by
    rw [legalWord_iff]
    rintro ⟨j, hj⟩
    obtain ⟨⟨-, henc⟩, rfl⟩ := (decodeZ_eq_ok_iff hi hwf (by rw [hop])).1 (hd ▸ hj)
    exact hw henc.symm
  rw [command_of_not_legalWord hillegal, illegalWord_of_ready hf]

/-! ### Bodies that raise a fault at once -/

theorem takeFault_eq_recorded {f : BlockFault} (h : f ≠ .formatError) (w : Word) (s : State) :
    takeFault f w s = Ref.recorded f w s := by
  unfold takeFault
  rw [if_neg h]
  rfl

theorem runCmd_recorded {m : Cmd Unit} {f : BlockFault} (h : f ≠ .formatError)
    (hf : s.csr.fault = none)
    (hm : Sat m s (fun _ _ => False) fun e t => e = .raised f ∧ t = s) (w : Word) :
    runCmd w m s = .next (Ref.recorded f w s) := by
  rw [runCmd_eq_fault hf hm, takeFault_eq_recorded h]

/-! ### Fields of the stream -/

/-- Run from `s`, the body `m` answers the n-bit field at the cursor and leaves the state `t`, or
raises EndOfStream when fewer bits are left. -/
def TakesField (m : Cmd Nat) (n : Nat) (s t : State) : Prop :=
  ∀ (Q : Nat → State → Prop) (E : Stop → State → Prop), Sat m s Q E ↔
    if bitsLeft s < n then E (.raised .endOfStream) s
    else Q (Ref.bits s s.csr.bitpos.toNat n) t

theorem takesField_readBits (h : Ref.Ready s) (n : Nat) :
    TakesField (readBits n) n s (Ref.withCursor (s.csr.bitpos.toNat + n) s) :=
  fun _ _ => sat_readBits_ready h n

theorem takesField_peekBits (h : Ref.Ready s) (n : Nat) : TakesField (peekBits n) n s s := by
  intro Q E
  rw [sat_peekBits]
  split
  · rfl
  next hn => rw [if_pos (h.inBuffer (Nat.le_of_not_lt hn)), fieldAt_eq_bits]

theorem TakesField.runCmd_res0 {m : Cmd Nat} {n : Nat} (h : TakesField m n s t)
    (hf : s.csr.fault = none) (hn : (n : Int) ≤ Ref.left s) (w : Word) (f : Nat → Word) :
    runCmd w (m >>= fun v => setRes0 (f v)) s =
      .next (Ref.withRes0 (f (Ref.bits s s.csr.bitpos.toNat n)) t) := by
  rw [left_eq_bitsLeft] at hn
  refine runCmd_eq_next hf ?_
  rw [sat_bind, h, if_neg (by omega)]
  rfl

theorem TakesField.runCmd_endOfStream {m : Cmd Nat} {n : Nat} (h : TakesField m n s t)
    (hf : s.csr.fault = none) (hn : Ref.left s < n) (w : Word) (f : Nat → Cmd Unit) :
    runCmd w (m >>= f) s = .next (Ref.recorded .endOfStream w s) := by
  rw [left_eq_bitsLeft] at hn
  refine runCmd_recorded (by decide) hf ?_ w
  rw [sat_bind, h, if_pos (by omega)]
  exact ⟨rfl, rfl⟩

/-- What BRD, BRDS and BPK have in common: the count is checked, a field taken, and the word `f`
makes of it put into x[0]. -/
theorem exec_fieldCommand {n : BitVec 6} {m : Cmd Nat} (f : Nat → Word) (hr : Ref.Ready s)
    (hword : encode i = w) (hwf : WellFormed i = decide (legalCount n))
    (hexec : exec i s = runCmd (encode i) (do
      check (decide (legalCount n)) .cmdError
      let v ← m
      setRes0 (f v)) s)
    (hm : TakesField m n.toNat s t) :
    (n.toNat ≤ 32 → decode w = .ok i) ∧
    (n.toNat ≤ 32 → (n.toNat : Int) ≤ Ref.left s →
      exec i s = .next (Ref.withRes0 (f (Ref.bits s s.csr.bitpos.toNat n.toNat)) t)) ∧
    (n.toNat ≤ 32 → Ref.left s < n.toNat → exec i s = .next (Ref.recorded .endOfStream w s)) ∧
    (32 < n.toNat → exec i s = .next (Ref.recorded .cmdError w s)) := by
  subst hword
  rw [hexec]
  obtain ⟨hf, -⟩ := hr
  have hlegal : n.toNat ≤ 32 → decide (legalCount n) = true := decide_eq_true
  refine ⟨fun hn => ?_, fun hn hl => ?_, fun hn hl => ?_, fun hn => ?_⟩
  · exact decode_encode (hwf.trans (hlegal hn))
  · rw [hlegal hn]
    exact hm.runCmd_res0 hf hl _ f
  · rw [hlegal hn]
    exact hm.runCmd_endOfStream hf hl _ _
  · rw [decide_eq_false (Nat.not_le_of_lt hn)]
    exact runCmd_recorded (by decide) hf ((sat_raise _).2 ⟨rfl, rfl⟩) _

/-- Settles O18: the command takes a field and moves the cursor. -/
theorem brdReadsAField : Obligations.BrdReadsAField := fun n _ hr =>
  exec_fieldCommand (BitVec.ofNat 32) hr (opWord_eq_or (by decide) 0x10#8 n) rfl rfl
    (takesField_readBits hr n.toNat)

/-- The n low bits of a value below 2^n, sign-extended. -/
theorem ofInt_sext {n v : Nat} (hv : v < 2 ^ n) :
    BitVec.ofInt 32 (sext n v) = (BitVec.ofNat n v).signExtend 32 := by
  rw [BitVec.signExtend, BitVec.toInt_eq_toNat_cond, BitVec.toNat_ofNat, Nat.mod_eq_of_lt hv]
  congr 1
  cases n with
  | zero =>
    obtain rfl : v = 0 := by omega
    rfl
  | succ n =>
    have hhalf : 2 * v < 2 ^ (n + 1) ↔ v < 2 ^ n := by omega
    simp [sext, hhalf]

/-- Settles O19: as BRD, and the field is sign-extended. -/
theorem brdsReadsASignedField : Obligations.BrdsReadsASignedField := by
  intro n s hr
  rw [← ofInt_sext (bits_lt s _ _)]
  exact exec_fieldCommand (fun v => BitVec.ofInt 32 (sext n.toNat v)) hr
    (opWord_eq_or (by decide) 0x11#8 n) rfl rfl (takesField_readBits hr n.toNat)

/-- Settles O21: the command takes a field and leaves the cursor. -/
theorem bpkPeeksAtAField : Obligations.BpkPeeksAtAField := fun n _ hr =>
  exec_fieldCommand (BitVec.ofNat 32) hr (opWord_eq_or (by decide) 0x13#8 n) rfl rfl
    (takesField_peekBits hr n.toNat)

/-! ### Commands without operands -/

/-- Settles O20: the command takes a field of one bit. -/
theorem brbReadsABit : Obligations.BrbReadsABit := by
  refine ⟨decode_encode (i := .brb) rfl, fun w s hop => ?_,
    fun s hr => ⟨fun hl => ?_, fun hl => ?_⟩⟩
  · exact command_of_reservedBits (i := .brb) hop (by simp [decode, hop]) rfl rfl
  · rw [← bits_one]
    exact (takesField_readBits hr 1).runCmd_res0 hr.1 hl _ (BitVec.ofNat 32)
  · exact (takesField_readBits hr 1).runCmd_endOfStream hr.1 hl _ _

/-- Settles O22: the three branches of the body. -/
theorem balAlignsTheCursor : Obligations.BalAlignsTheCursor := by
  refine ⟨decode_encode (i := .bal) rfl, fun w s hop => ?_, fun s ⟨hf, _⟩ => ?_⟩
  · exact command_of_reservedBits (i := .bal) hop (by simp [decode, hop]) rfl rfl
  · rw [left_eq_bitsLeft]
    refine ⟨fun ha => ?_, fun ha hl => ?_, fun ha hl => ?_⟩
    · refine runCmd_eq_next hf ?_
      rw [sat_balCmd, if_pos ha]
    · have hnext : 8 * (s.csr.bitpos.toNat / 8 + 1) =
          s.csr.bitpos.toNat + (8 - s.csr.bitpos.toNat % 8) := by omega
      rw [hnext]
      refine runCmd_eq_next hf ?_
      rw [sat_balCmd, if_neg ha, if_neg (by omega)]
      rfl
    · refine runCmd_recorded (by decide) hf ?_ _
      rw [sat_balCmd, if_neg ha, if_pos (by omega)]
      exact ⟨rfl, rfl⟩

/-- Settles O23: the body counts the bits left. -/
theorem blfCountsBitsLeft : Obligations.BlfCountsBitsLeft := by
  refine ⟨decode_encode (i := .blf) rfl, fun w s hop => ?_, fun s hf => ?_⟩
  · exact command_of_reservedBits (i := .blf) hop (by simp [decode, hop]) rfl rfl
  · rw [left_eq_bitsLeft, BitVec.ofInt_natCast]
    exact runCmd_eq_next hf rfl

end Sys2Proof.Machine
end

section
/-! SUPPORT. The Huffman commands (41_huffman.md R160 to R176): the constraints on the code tables
as R161 states them, and what a command answers whose body first runs one reader of the stream. -/

namespace Sys2Proof.Machine

open Sys2Proof

variable {s t : State} {w : Word} {α β : Type} {rom : Book → HuffTable}

/-! ### The code tables -/

/-- The entry of a symbol of a valid table is unique. -/
theorem validTable_symbol_unique {b : Book} {tbl : HuffTable} (h : Rom.validTable b tbl = true)
    {sym : Nat} (hs : sym < b.nsym) :
    ∃ e ∈ tbl, e.sym = sym ∧ ∀ e' ∈ tbl, e'.sym = sym → e' = e := by
  simp only [Rom.validTable, Bool.and_eq_true, List.all_eq_true, List.mem_range, beq_iff_eq] at h
  obtain ⟨⟨-, hcount⟩, -⟩ := h
  have hone := hcount sym hs
  rw [List.countP_eq_length_filter, List.length_eq_one_iff] at hone
  obtain ⟨e, he⟩ := hone
  have hmem : ∀ e', (e' ∈ tbl ∧ e'.sym = sym) ↔ e' = e := fun e' => by
    rw [← List.mem_singleton (a := e') (b := e), ← he, List.mem_filter, beq_iff_eq]
  obtain ⟨hin, hsym⟩ := (hmem e).2 rfl
  exact ⟨e, hin, hsym, fun e' h1 h2 => (hmem e').1 ⟨h1, h2⟩⟩

/-- Some codeword of a valid table has the greatest length. -/
theorem validTable_longest {b : Book} {tbl : HuffTable} (h : Rom.validTable b tbl = true) :
    ∃ e ∈ tbl, e.len = Rom.maxLen b := by
  simp only [Rom.validTable, Bool.and_eq_true, List.any_eq_true, beq_iff_eq] at h
  exact h.2

/-- Settles O25: the tables are valid whatever their contents are. -/
theorem codeTablesMeetTheConstraints : Obligations.CodeTablesMeetTheConstraints := by
  intro b
  have hv : Rom.validTable b (blockParams.hcb b) = true := hcb_valid b
  rw [← nsym_eq, ← maxLen_eq]
  refine ⟨fun e he e' he' hle hcode => ?_, fun sym hs => validTable_symbol_unique hv hs,
    fun e he => ?_, validTable_longest hv⟩
  · refine validTable_prefix hv he he' ?_
    simp only [Rom.isPrefix, Bool.and_eq_true, decide_eq_true_eq, beq_iff_eq]
    exact ⟨hle, hcode⟩
  · obtain ⟨hpos, hmax, -, -⟩ := validTable_entry hv he
    exact ⟨hpos, hmax⟩

/-! ### Bodies that raise a fault -/

/-- Run from `s`, the body `m` raises `f` with the cursor at k' and nothing else changed. -/
def RaisesAt (m : Cmd α) (s : State) (f : BlockFault) (k' : Nat) : Prop :=
  Sat m s (fun _ _ => False) fun e u => e = .raised f ∧ u = Ref.withCursor k' s

theorem RaisesAt.bind {m : Cmd β} {f : BlockFault} {k' : Nat} (h : RaisesAt m s f k')
    (g : β → Cmd α) : RaisesAt (m >>= g) s f k' :=
  sat_bind.2 (Sat.imp h (fun _ _ hn => hn.elim) fun _ _ he => he)

theorem RaisesAt.runCmd_eq {m : Cmd Unit} {f : BlockFault} {k' : Nat} (h : RaisesAt m s f k')
    (hf : s.csr.fault = none) (w : Word) :
    runCmd w m s = .next (takeFault f w (Ref.withCursor k' s)) := runCmd_eq_fault hf h

/-- A recorded fault changes STATUS, FINFO, FPOS and, for FormatError, TOUT. -/
theorem faultedAt_takeFault (f : BlockFault) (w : Word) (k' : Nat) (s : State) :
    Ref.FaultedAt f w k' s (takeFault f w (Ref.withCursor k' s)) fun _ _ => False := by
  refine ⟨rfl, rfl, rfl, ?_, fun sp i _ hout => ?_⟩
  · rintro rfl i -
    exact read_setCells_nil s.mem rfl i
  · by_cases hf : f = .formatError
    · exact read_of_cells_eq (takeFault_cells_of_ne f w _ fun hsp => hout ⟨hf, hsp⟩) i
    · exact congrArg (·.read sp i) (takeFault_mem_of_ne hf w (Ref.withCursor k' s))

/-! ### Readers of the stream -/

/-- What is true of every end of a body is true of the end it comes to. -/
theorem Sat.of_forall {m : Cmd α} {Q : α → State → Prop} {E : Stop → State → Prop}
    (hq : ∀ a t, Q a t) (he : ∀ e t, E e t) : Sat m s Q E := by
  unfold Sat
  split
  · exact hq _ _
  · exact he _ _

/-- Run from `s`, the body `m` ends normally in a value v with the cursor at k' where `Ends v k'`
holds, and raises f with the cursor at k' where `Fails f k'` holds; no two of these hold
together, and nothing but the cursor changes. -/
structure Reads (m : Cmd α) (s : State) (Ends : α → Nat → Prop) (Fails : BlockFault → Nat → Prop) :
    Prop where
  sat : Sat m s (fun v u => ∃ k', Ends v k' ∧ u = Ref.withCursor k' s) (FailsAt Fails s)
  ends_unique : ∀ {v v' k k'}, Ends v k → Ends v' k' → v = v' ∧ k = k'
  not_ends : ∀ {f v k k'}, Fails f k → ¬ Ends v k'
  fails_unique : ∀ {f f' k k'}, Fails f k → Fails f' k' → f = f' ∧ k = k'

variable {m : Cmd α} {Ends : α → Nat → Prop} {Fails : BlockFault → Nat → Prop}

/-- HuffDecode reads the symbol that stands at the cursor (41_huffman.md R164, R165). -/
theorem reads_huffDecode (hl : Ref.LegalRom rom) (b : Book) (hr : Ref.Ready s) :
    Reads (huffDecode (Ref.withRom rom) b) s (Ref.SymbolAt rom s b s.csr.bitpos.toNat)
      (Ref.SymbolFails rom s b s.csr.bitpos.toNat) where
  sat := sat_huffDecode_rom hl b hr
  ends_unique := symbolAt_unique hl
  not_ends := symbolFails_not_at
  fails_unique := symbolFails_unique

/-- HuffSpec reads the tuple that stands at the cursor (41_huffman.md R170). -/
theorem reads_huffSpec (hl : Ref.LegalRom rom) (b : SpecBook) (hr : Ref.Ready s) :
    Reads (huffSpec (Ref.withRom rom) b) s (Ref.TupleAt rom s b s.csr.bitpos.toNat)
      (Ref.TupleFails rom s b s.csr.bitpos.toNat) where
  sat := (sat_huffSpec hl b hr).imp (fun _ _ ⟨k', hat, _, hu⟩ => ⟨k', hat, hu⟩) fun _ _ he => he
  ends_unique := tupleAt_unique hl
  not_ends := tupleFails_not_at hl
  fails_unique := tupleFails_unique hl

/-- What a command does with the value its reader has read. -/
theorem Reads.runCmd_eq (h : Reads m s Ends Fails) (hf : s.csr.fault = none) {v : α} {k' : Nat}
    (hat : Ends v k') (w : Word) {g : α → Cmd Unit}
    (hg : Sat (g v) (Ref.withCursor k' s) (fun _ u => u = t) fun _ _ => False) :
    runCmd w (m >>= g) s = .next t := by
  refine runCmd_eq_next hf (sat_bind.2 (h.sat.imp ?_ ?_))
  · rintro v' u ⟨k'', hat', rfl⟩
    obtain ⟨rfl, rfl⟩ := h.ends_unique hat hat'
    exact hg
  · rintro e u ⟨-, f, k'', -, hfail, -⟩
    exact h.not_ends hfail hat

/-- A command that ends without a fault has read a value. -/
theorem Reads.ends_of_completed (h : Reads m s Ends Fails) (hf : s.csr.fault = none)
    {g : α → Cmd Unit} (hrun : runCmd w (m >>= g) s = .next t) (ht : t.csr.fault = none) :
    ∃ v k', Ends v k' := by
  refine runCmd_next (P := fun u => u.csr.fault = none → ∃ v k', Ends v k') hrun
    (fun hs => absurd hf hs) (fun _ => sat_bind.2 (h.sat.imp ?_ ?_)) ht
  · rintro v u ⟨k', hat, -⟩
    exact .of_forall (fun _ _ _ => ⟨v, k', hat⟩) fun _ _ _ _ _ => ⟨v, k', hat⟩
  · intro e u _ f _ hnone
    cases hnone

theorem Reads.raisesAt (h : Reads m s Ends Fails) {f : BlockFault} {k' : Nat} (hfail : Fails f k') :
    RaisesAt m s f k' := by
  refine h.sat.imp ?_ ?_
  · rintro v u ⟨k'', hat, -⟩
    exact h.not_ends hfail hat
  · rintro e u ⟨-, f', k'', rfl, hfail', rfl⟩
    obtain ⟨rfl, rfl⟩ := h.fails_unique hfail hfail'
    exact ⟨rfl, rfl⟩

/-- A command whose reader fails ends in the reader's fault. -/
theorem Reads.runCmd_faultedAt (h : Reads m s Ends Fails) (hf : s.csr.fault = none) {f : BlockFault}
    {k' : Nat} (hfail : Fails f k') (w : Word) (g : α → Cmd Unit) :
    ∃ t, runCmd w (m >>= g) s = .next t ∧ Ref.FaultedAt f w k' s t fun _ _ => False :=
  ⟨_, ((h.raisesAt hfail).bind g).runCmd_eq hf w, faultedAt_takeFault f w k' s⟩

/-! ### HSF and HSP -/

/-- The body of HSP at a spectral codebook. -/
theorem hspCmd_of_spectral (p : Params) {cb : BitVec 4} {b : SpecBook}
    (h : cb.toNat = (Ref.bookRow b).number) :
    hspCmd p cb = huffSpec p b >>= fun v =>
      setResAll (BitVec.ofInt 32 (v.getD 0 0)) (BitVec.ofInt 32 (v.getD 1 0))
        (BitVec.ofInt 32 (v.getD 2 0)) (BitVec.ofInt 32 (v.getD 3 0)) := by
  rw [hspCmd, (codebookOf_eq_spectral cb b).2 h]

theorem exec_hsf (s : State) :
    exec .hsf s = runCmd 0x20000000#32 (hsfCmd (Ref.withRom Rom.hcb)) s := rfl

theorem exec_hsp (cb : BitVec 4) (s : State) : exec (.hsp cb) s =
    runCmd (0x21000000#32 ||| cb.setWidth 32) (hspCmd (Ref.withRom Rom.hcb) cb) s :=
  congrArg (fun w => runCmd w (hspCmd blockParams cb) s) (opWord_eq_or (by decide) 0x21#8 cb)

/-- Settles O26: HSF is HuffDecode and one register write. -/
theorem hsfReadsASymbol : Obligations.HsfReadsASymbol := by
  intro s hr
  have h := reads_huffDecode legalRom_hcb .sf hr
  rw [exec_hsf]
  exact ⟨fun sym k' hat => h.runCmd_eq hr.1 hat _ rfl,
    fun t hrun ht => h.ends_of_completed hr.1 hrun ht⟩

/-- Settles O28: HSP is HuffSpec and the write of the result registers. -/
theorem hspReadsATuple : Obligations.HspReadsATuple := by
  intro cb b s hr hcb
  have h := reads_huffSpec legalRom_hcb b hr
  rw [exec_hsp, hspCmd_of_spectral _ hcb]
  exact ⟨fun v k' hat => h.runCmd_eq hr.1 hat _ rfl,
    fun t hrun ht => h.ends_of_completed hr.1 hrun ht⟩

/-! ### HuffDecode for every parameter record -/

section

variable {p : Params} {b : Book}

theorem raisesAt_huffDecode_formatError (hr : Ref.Ready s) (hlen : (p.maxLen b : Int) ≤ Ref.left s)
    (hno : ∀ e ∈ p.hcb b, ¬ Ref.CodewordAt s s.csr.bitpos.toNat e) :
    RaisesAt (huffDecode p b) s .formatError (s.csr.bitpos.toNat + p.maxLen b) := by
  rw [left_eq_bitsLeft] at hlen
  refine (sat_huffDecode p b hr).imp ?_ ?_
  · rintro sym u ⟨e, he, -, -, -, hat, -⟩
    exact hno e he hat
  · rintro e u (⟨rfl, -, rfl, -⟩ | ⟨-, hless, -⟩)
    · exact ⟨rfl, rfl⟩
    · omega

theorem raisesAt_huffDecode_endOfStream (hr : Ref.Ready s) (hlen : Ref.left s < p.maxLen b)
    (hin : Ref.InStream s s.csr.bitpos.toNat)
    (hno : ∀ e ∈ p.hcb b, (e.len : Int) ≤ Ref.left s →
      ¬ Ref.CodewordAt s s.csr.bitpos.toNat e) :
    RaisesAt (huffDecode p b) s .endOfStream (8 * s.csr.ilen.toNat) := by
  rw [left_eq_bitsLeft] at hlen hno
  have hend : s.csr.bitpos.toNat + bitsLeft s = 8 * s.csr.ilen.toNat := by
    simp only [Ref.InStream, bitsLeft] at *
    omega
  refine (sat_huffDecode p b hr).imp ?_ ?_
  · rintro sym u ⟨e, he, -, -, -, hat, hfits, -⟩
    refine hno e he ?_ hat
    simp only [Ref.InStream] at hfits
    omega
  · rintro e u (⟨-, hmore, -⟩ | ⟨rfl, -, rfl, -⟩)
    · omega
    · exact ⟨rfl, by rw [hend]; rfl⟩

/-- A fault of HuffDecode is one of the command whose body begins with it. -/
theorem RaisesAt.huffCommand {m : Cmd Unit} {f : BlockFault} {k' : Nat}
    (h : RaisesAt (huffDecode p b) s f k')
    (hm : b = .sf ∧ w = 0x20000000#32 ∧ m = hsfCmd p ∨
      ∃ bk, ∃ cb : BitVec 4, b = .spectral bk ∧ cb.toNat = (Ref.bookRow bk).number ∧
        w = 0x21000000#32 ||| cb.setWidth 32 ∧ m = hspCmd p cb) : RaisesAt m s f k' := by
  obtain ⟨rfl, -, rfl⟩ | ⟨bk, cb, rfl, hcb, -, rfl⟩ := hm
  · exact h.bind _
  · rw [hspCmd_of_spectral p hcb]
    exact (h.bind _).bind _

end

/-- Settles O27: a fault of HuffDecode, for any parameters, and of HuffSpec, for a legal ROM, is
recorded as the command's. -/
theorem huffDecodeFaults : Obligations.HuffDecodeFaults := by
  refine ⟨fun p b w m s hr hm => ⟨fun hlen hno => ?_, fun hlen hin hno => ?_⟩,
    fun rom s f k' hl hr => ⟨fun hfail => ?_, fun bk cb hcb hfail => ?_⟩,
    fun s => ⟨exec_hsf s, fun cb => exec_hsp cb s⟩⟩
  · have h := (raisesAt_huffDecode_formatError hr hlen hno).huffCommand hm
    exact ⟨_, h.runCmd_eq hr.1 w, formatFault_takeFault w _⟩
  · have h := (raisesAt_huffDecode_endOfStream hr hlen hin hno).huffCommand hm
    rw [h.runCmd_eq hr.1 w, takeFault_eq_recorded (by decide)]
  · exact (reads_huffDecode hl .sf hr).runCmd_faultedAt hr.1 hfail _ _
  · rw [hspCmd_of_spectral _ hcb]
    exact (reads_huffSpec hl bk hr).runCmd_faultedAt hr.1 hfail _ _

end Sys2Proof.Machine
end

section
/-! SUPPORT. What the channel passes share (42_icstream_passes.md R190, R198): a loop over a list
cut in two, the stream read at a later point of a command, the elements of one space a pass has
written so far, and the fault that ends a pass. -/

namespace Sys2Proof.Machine

open Sys2Proof

variable {s t : State} {w : Space → Bool} {α β : Type} {rom : Book → HuffTable} {m : Cmd α}
  {Ends : α → Nat → Prop} {Fails : BlockFault → Nat → Prop}

/-! ### Loops over a list cut in two -/

theorem each_append (f : β → Cmd Unit) (l l' : List β) :
    each f (l ++ l') = each f l >>= fun _ => each f l' := by
  induction l with
  | nil => simp [each]
  | cons a l ih => simp [each, ih]

theorem each_map (f : β → Cmd Unit) (g : α → β) (l : List α) :
    each f (l.map g) = each (fun a => f (g a)) l := by
  induction l with
  | nil => rfl
  | cons a l ih => simp [each, ih]

theorem each_flatMap (f : β → Cmd Unit) (g : α → List β) (l : List α) :
    each f (l.flatMap g) = each (fun a => each f (g a)) l := by
  induction l with
  | nil => rfl
  | cons a l ih => simp [each, each_append, ih]

theorem carry_append (f : α → β → Cmd α) (a : α) (l l' : List β) :
    carry f a (l ++ l') = carry f a l >>= fun a' => carry f a' l' := by
  induction l generalizing a with
  | nil => simp [carry]
  | cons b l ih => simp [carry, ih]

/-! ### Readers of the stream -/

/-- A reader ends in the value that stands at the cursor. -/
theorem Reads.sat_of_ends (h : Reads m s Ends Fails) {v : α} {k' : Nat} (hat : Ends v k')
    {Q : α → State → Prop} {E : Stop → State → Prop} (hq : Q v (Ref.withCursor k' s)) :
    Sat m s Q E := by
  refine h.sat.imp ?_ ?_
  · rintro v' u ⟨k'', hat', rfl⟩
    obtain ⟨rfl, rfl⟩ := h.ends_unique hat hat'
    exact hq
  · rintro e u ⟨-, f, k'', -, hfail, -⟩
    exact absurd hat (h.not_ends hfail)

/-- A value computed from the one a reader answers. -/
theorem Reads.map (h : Reads m s Ends Fails) {g : α → β} {Ends' : β → Nat → Prop}
    (hE : ∀ d k', Ends' d k' ↔ ∃ v, Ends v k' ∧ d = g v) : Reads (g <$> m) s Ends' Fails where
  sat := sat_map.2 (h.sat.imp (fun v _ ⟨k', hat, hu⟩ => ⟨k', (hE _ _).2 ⟨v, hat, rfl⟩, hu⟩)
    fun _ _ he => he)
  ends_unique := by
    intro d d' k k' hd hd'
    obtain ⟨v, hv, rfl⟩ := (hE _ _).1 hd
    obtain ⟨v', hv', rfl⟩ := (hE _ _).1 hd'
    obtain ⟨rfl, rfl⟩ := h.ends_unique hv hv'
    exact ⟨rfl, rfl⟩
  not_ends := by
    intro f d k k' hf hd
    obtain ⟨v, hv, -⟩ := (hE _ _).1 hd
    exact h.not_ends hf hv
  fails_unique := h.fails_unique

/-- A body that answers a value and reads nothing. -/
theorem reads_pure (a : α) :
    Reads (pure a) s (fun v k' => v = a ∧ k' = s.csr.bitpos.toNat) fun _ _ => False where
  sat := ⟨_, ⟨rfl, rfl⟩, (setBitpos_self s).symm⟩
  ends_unique := fun ⟨hv, hk⟩ ⟨hv', hk'⟩ => ⟨hv.trans hv'.symm, hk.trans hk'.symm⟩
  not_ends := fun h => h.elim
  fails_unique := fun h => h.elim

/-- ReadBits(n) reads the n-bit field at the cursor, or raises EndOfStream and leaves the cursor
(40_bitreader.md R142). -/
theorem reads_readBits (hr : Ref.Ready s) {n : Nat} (hn : 0 < n) :
    Reads (readBits n) s
      (fun v k' => v = Ref.bits s s.csr.bitpos.toNat n ∧ k' = s.csr.bitpos.toNat + n ∧
        Ref.InStream s k')
      (fun f k' => f = .endOfStream ∧ k' = s.csr.bitpos.toNat ∧
        ¬ Ref.InStream s (s.csr.bitpos.toNat + n)) where
  sat := by
    have hin : bitsLeft s < n ↔ ¬ Ref.InStream s (s.csr.bitpos.toNat + n) := by
      simp only [bitsLeft, Ref.InStream]
      omega
    rw [sat_readBits_ready hr]
    split
    next h => exact ⟨.refl s, _, _, rfl, ⟨rfl, rfl, hin.1 h⟩, (setBitpos_self s).symm⟩
    next h => exact ⟨_, ⟨rfl, rfl, not_not.1 (mt hin.2 h)⟩, rfl⟩
  ends_unique := fun ⟨hv, hk, _⟩ ⟨hv', hk', _⟩ => ⟨hv.trans hv'.symm, hk.trans hk'.symm⟩
  not_ends := fun ⟨_, _, hout⟩ ⟨_, hk, hin⟩ => hout (hk ▸ hin)
  fails_unique := fun ⟨hf, hk, _⟩ ⟨hf', hk', _⟩ => ⟨hf.trans hf'.symm, hk.trans hk'.symm⟩

/-! ### The stream at a later point of a command -/

theorem symbolAt_congr (hi : s.mem.ibuf = t.mem.ibuf) (hl : s.csr.ilen = t.csr.ilen) (b : Book) :
    Ref.SymbolAt rom s b = Ref.SymbolAt rom t b := by
  funext k sym k'
  simp only [Ref.SymbolAt, Ref.CodewordAt, Ref.InStream, bits_congr hi, hl]

theorem symbolFails_congr (hi : s.mem.ibuf = t.mem.ibuf) (hl : s.csr.ilen = t.csr.ilen)
    (b : Book) : Ref.SymbolFails rom s b = Ref.SymbolFails rom t b := by
  funext k f k'
  cases f <;> simp only [Ref.SymbolFails, Ref.CodewordAt, Ref.InStream, bits_congr hi, hl]

theorem signedTuple_congr (hi : s.mem.ibuf = t.mem.ibuf) (k : Nat) (v : List Int) :
    Ref.signedTuple s k v = Ref.signedTuple t k v := by
  refine List.map_congr_left fun j _ => ?_
  simp only [Ref.signedValue, bit_congr hi]

theorem tupleAt_congr (hi : s.mem.ibuf = t.mem.ibuf) (hl : s.csr.ilen = t.csr.ilen)
    (b : SpecBook) : Ref.TupleAt rom s b = Ref.TupleAt rom t b := by
  funext k out k'
  simp only [Ref.TupleAt, symbolAt_congr hi hl, signedTuple_congr hi, escapesAt_congr hi hl,
    Ref.InStream, hl]

theorem tupleFails_congr (hi : s.mem.ibuf = t.mem.ibuf) (hl : s.csr.ilen = t.csr.ilen)
    (b : SpecBook) : Ref.TupleFails rom s b = Ref.TupleFails rom t b := by
  funext k f k'
  simp only [Ref.TupleFails, symbolAt_congr hi hl, symbolFails_congr hi hl, signedTuple_congr hi,
    escapesFail_congr hi hl, Ref.InStream, hl]

theorem escapesAt_inStream {k k' : Nat} {vs out : List Int} (h : Ref.EscapesAt s k vs out k')
    (hk : Ref.InStream s k) : Ref.InStream s k' := by
  induction vs generalizing k out with
  | nil => exact h.2 ▸ hk
  | cons v vs ih =>
    obtain ⟨m, k1, rest, hrest, -, hv⟩ := h
    refine ih hrest ?_
    split at hv
    · obtain ⟨x, ⟨n, -, -, -, -, -, hin⟩, -⟩ := hv
      exact hin
    · exact hv.2 ▸ hk

/-- A tuple ends inside the stream. -/
theorem tupleAt_inStream {b : SpecBook} {k k' : Nat} {v : List Int}
    (h : Ref.TupleAt rom s b k v k') : Ref.InStream s k' := by
  obtain ⟨sym, k1, u, k2, hsym, hu, hend⟩ := h
  have hk2 : Ref.InStream s k2 := by
    split at hu
    · exact hu.2 ▸ (symbolAt_le hsym).2
    · exact hu.2.2
  split at hend
  · exact escapesAt_inStream hend hk2
  · exact hend.2 ▸ hk2

theorem Consumes.ibuf (h : Consumes w s t) (hw : w .ibuf = false) : t.mem.ibuf = s.mem.ibuf :=
  h.cells .ibuf hw

/-- HuffDecode at a later point of a command reads the symbol of the stream the command was started
with. -/
theorem Consumes.reads_huffDecode (h : Consumes w s t) (hw : w .ibuf = false)
    (hl : Ref.LegalRom rom) (hr : Ref.Ready s) (b : Book) :
    Reads (huffDecode (Ref.withRom rom) b) t (Ref.SymbolAt rom s b t.csr.bitpos.toNat)
      (Ref.SymbolFails rom s b t.csr.bitpos.toNat) := by
  rw [← symbolAt_congr (h.ibuf hw) h.ilen, ← symbolFails_congr (h.ibuf hw) h.ilen]
  exact Machine.reads_huffDecode hl b (h.ready hr)

/-- HuffSpec at a later point of a command. -/
theorem Consumes.reads_huffSpec (h : Consumes w s t) (hw : w .ibuf = false)
    (hl : Ref.LegalRom rom) (hr : Ref.Ready s) (b : SpecBook) :
    Reads (huffSpec (Ref.withRom rom) b) t (Ref.TupleAt rom s b t.csr.bitpos.toNat)
      (Ref.TupleFails rom s b t.csr.bitpos.toNat) := by
  rw [← tupleAt_congr (h.ibuf hw) h.ilen, ← tupleFails_congr (h.ibuf hw) h.ilen]
  exact Machine.reads_huffSpec hl b (h.ready hr)

/-- ReadBits at a later point of a command. -/
theorem Consumes.reads_readBits (h : Consumes w s t) (hw : w .ibuf = false) (hr : Ref.Ready s)
    {n : Nat} (hn : 0 < n) :
    Reads (readBits n) t
      (fun v k' => v = Ref.bits s t.csr.bitpos.toNat n ∧ k' = t.csr.bitpos.toNat + n ∧
        Ref.InStream s k')
      (fun f k' => f = .endOfStream ∧ k' = t.csr.bitpos.toNat ∧
        ¬ Ref.InStream s (t.csr.bitpos.toNat + n)) := by
  have := Machine.reads_readBits (h.ready hr) hn
  simpa only [bits_congr (h.ibuf hw), Ref.InStream, h.ilen] using this

/-! ### What a pass has done so far -/

/-- A pass over the space `sp`, started in `s`, has read the stream up to k and written the elements
and values `ws`; the other elements of the space have their values of `init`. -/
structure Passed (sp : Space) (s : State) (init : Nat → BitVec sp.width)
    (ws : List (Nat × BitVec sp.width)) (k : Nat) (t : State) : Prop where
  consumes : Consumes (only sp) s t
  cursor : t.csr.bitpos.toNat = k
  cells : ∀ i, (i, t.elem sp i) ∈ ws ∨ (∀ v, (i, v) ∉ ws) ∧ t.elem sp i = init i

variable {sp : Space} {init : Nat → BitVec sp.width} {ws : List (Nat × BitVec sp.width)} {k : Nat}

theorem Passed.start (s : State) : Passed sp s (s.elem sp) [] s.csr.bitpos.toNat s :=
  ⟨.refl _ s, rfl, fun _ => .inr ⟨fun _ => List.not_mem_nil, rfl⟩⟩

/-- An element written with one value only holds it. -/
theorem Passed.elem_of_mem (h : Passed sp s init ws k t) {i : Nat} {v : BitVec sp.width}
    (hi : (i, v) ∈ ws) (hu : ∀ v', (i, v') ∈ ws → v' = v) : t.elem sp i = v :=
  (h.cells i).elim (hu _) fun hno => absurd hi (hno.1 v)

/-- An element not written has its first value. -/
theorem Passed.elem_of_not_mem (h : Passed sp s init ws k t) {i : Nat}
    (hi : ∀ v, (i, v) ∉ ws) : t.elem sp i = init i :=
  (h.cells i).elim (fun hin => absurd hin (hi _)) And.right

/-- Reading up to k'. -/
theorem Passed.read (h : Passed sp s init ws k t) (hr : Ref.Ready s) {k' : Nat} (hk : k ≤ k')
    (hin : Ref.InStream s k') : Passed sp s init ws k' (Ref.withCursor k' t) where
  consumes := h.consumes.advance (h.consumes.ready hr)
    (advance_of_inStream (h.cursor ▸ hk) (by rwa [Ref.InStream, h.consumes.ilen]))
  cursor := (BitVec.toNat_ofNat _ _).trans (Nat.mod_eq_of_lt (hr.lt_of_inStream hin))
  cells := h.cells

/-- Reading nothing. -/
theorem Passed.withCursor_self (h : Passed sp s init ws k t) : Ref.withCursor k t = t :=
  h.cursor ▸ setBitpos_self t

/-- Writing one element more. -/
theorem Passed.write (h : Passed sp s init ws k t) (hz : sp.zeroed = false) {i : Nat}
    (hi : i < sp.size) (v : BitVec sp.width) :
    Passed sp s init (ws ++ [(i, v)]) k { t with mem := t.mem.write sp i v } where
  consumes := h.consumes.write (w := only sp) (beq_self_eq_true sp) hi v
  cursor := h.cursor
  cells := by
    intro j
    rw [elem_write t hz]
    by_cases hj : j = i
    · subst hj
      simp
    · simpa [hj] using h.cells j

/-- No control register but the cursor has changed. -/
theorem Passed.csr_eq (h : Passed sp s init ws k t) :
    t.csr = { s.csr with bitpos := BitVec.ofNat 32 k } := by
  rw [← h.cursor, BitVec.ofNat_toNat, BitVec.setWidth_eq]
  exact h.consumes.csr

/-- Outside its space a pass has written nothing. -/
theorem Consumes.sameExcept (h : Consumes (only sp) s t) {out : Space → Nat → Prop}
    (hout : ∀ i, ¬ out sp i → t.elem sp i = s.elem sp i) : Ref.SameExcept s t out := by
  intro sp' i hi
  by_cases hsp : sp' = sp
  · subst hsp
    exact hout i hi
  · exact h.elem (beq_false_of_ne hsp) i

/-! ### The fault that ends a pass -/

/-- A command whose body raises `f` in a state with `P`, the cursor apart, ends in that fault. -/
theorem runCmd_eq_takeFault {m : Cmd Unit} {f : BlockFault} {k' : Nat} {P : State → Prop}
    (hf : s.csr.fault = none) (word : Word)
    (hm : Sat m s (fun _ _ => False) fun e u =>
      e = .raised f ∧ ∃ t, P t ∧ u = Ref.withCursor k' t) :
    ∃ t, P t ∧ runCmd word m s = .next (takeFault f word (Ref.withCursor k' t)) := by
  rw [runCmd_of_ready hf]
  unfold Sat at hm
  split at hm
  · exact hm.elim
  next heq =>
    obtain ⟨rfl, t, ht, rfl⟩ := hm
    exact ⟨t, ht, by rw [heq]; rfl⟩

theorem RaisesAt.sat {f : BlockFault} {k' : Nat} {P : State → Prop} (h : RaisesAt m t f k')
    (ht : P t) :
    Sat m t (fun _ _ => False) fun e u => e = .raised f ∧ ∃ t, P t ∧ u = Ref.withCursor k' t :=
  Sat.imp h (fun _ _ hn => hn) fun _ _ ⟨he, hu⟩ => ⟨he, t, ht, hu⟩

/-- A recorded fault leaves every space but TOUT as it was. -/
theorem elem_takeFault_withCursor (hsp : sp ≠ .tout) (f : BlockFault) (word : Word) (k' i : Nat)
    (t : State) : (takeFault f word (Ref.withCursor k' t)).elem sp i = t.elem sp i :=
  (faultedAt_takeFault f word k' t).2.2.2.2 sp i id fun h => hsp h.2

/-- A fault at a later point of a pass: nothing has changed since its start but the elements
written. -/
theorem Consumes.faultedAt (h : Consumes (only sp) s t) {out : Space → Nat → Prop}
    (hout : ∀ i, ¬ out sp i → t.elem sp i = s.elem sp i) (f : BlockFault) (word : Word)
    (k' : Nat) : Ref.FaultedAt f word k' s (takeFault f word (Ref.withCursor k' t)) out := by
  obtain ⟨hregs, hcsr, hhost, htout, hsame⟩ := faultedAt_takeFault f word k' t
  refine ⟨hregs.trans h.regs, hcsr.trans ?_, hhost.trans h.host, htout, fun sp' i hi hf => ?_⟩
  · simp only [Ref.recorded, Ref.withCursor]
    rw [h.csr]
  · exact (hsame sp' i id hf).trans (h.sameExcept hout sp' i hi)

end Sys2Proof.Machine
end

section
/-! SUPPORT. SFD (42_icstream_passes.md R191 to R194): one band in terms of its class and its delta,
the counters and the stored values after the first n bands, and how the pass ends. -/

namespace Sys2Proof.Machine

open Sys2Proof

variable {s t : State} {c : Channel} {rom : Book → HuffTable} {ds : List Int}

/-! ### The delta of one band -/

/-- The delta of one band, read from position k to k'; `first` says whether a noise band would be
the first (42_icstream_passes.md R192, R193). -/
def DeltaAt (rom : Book → HuffTable) (s : State) (cb : Codebook) (first : Bool) (k : Nat) (d : Int)
    (k' : Nat) : Prop :=
  match cb with
  | .zero => d = 0 ∧ k' = k
  | .noise =>
    if first then d = Ref.bits s k 9 ∧ k' = k + 9 ∧ Ref.InStream s k'
    else ∃ sym, Ref.SymbolAt rom s .sf k sym k' ∧ d = sym - 60
  | .spectral _ | .reserved | .intensity2 | .intensity =>
    ∃ sym, Ref.SymbolAt rom s .sf k sym k' ∧ d = sym - 60

/-- Reading the delta of one band at position k raises f and leaves the cursor at k'. -/
def DeltaFails (rom : Book → HuffTable) (s : State) (cb : Codebook) (first : Bool) (k : Nat)
    (f : BlockFault) (k' : Nat) : Prop :=
  match cb with
  | .zero => False
  | .noise =>
    if first then f = .endOfStream ∧ k' = k ∧ ¬ Ref.InStream s (k + 9)
    else Ref.SymbolFails rom s .sf k f k'
  | .spectral _ | .reserved | .intensity2 | .intensity => Ref.SymbolFails rom s .sf k f k'

theorem deltasAt_cons {gb : Nat × Nat} {l : List (Nat × Nat)} {k k' : Nat} {first : Bool} :
    Ref.DeltasAt rom s c (gb :: l) k first ds k' ↔
      ∃ d k1 more, ds = d :: more ∧
        Ref.DeltasAt rom s c l k1 (first && s.cb c gb.1 gb.2 != .noise) more k' ∧
        DeltaAt rom s (s.cb c gb.1 gb.2) first k d k1 := Iff.rfl

/-- The deltas of a list of bands and of one more after them. -/
theorem deltasAt_snoc {l : List (Nat × Nat)} {gb : Nat × Nat} {k k' : Nat} {first : Bool}
    (h : Ref.DeltasAt rom s c (l ++ [gb]) k first ds k') :
    ∃ ds' d k1, ds = ds' ++ [d] ∧ Ref.DeltasAt rom s c l k first ds' k1 ∧
      DeltaAt rom s (s.cb c gb.1 gb.2) (first && l.all fun gb => s.cb c gb.1 gb.2 != .noise)
        k1 d k' := by
  induction l generalizing k first ds with
  | nil =>
    obtain ⟨d, k1, more, rfl, ⟨rfl, rfl⟩, hd⟩ := deltasAt_cons.1 h
    exact ⟨[], d, k, rfl, ⟨rfl, rfl⟩, by simpa using hd⟩
  | cons gb' l ih =>
    obtain ⟨d', k1, more, rfl, hmore, hd'⟩ := deltasAt_cons.1 h
    obtain ⟨ds', d, k2, rfl, hds', hd⟩ := ih hmore
    refine ⟨d' :: ds', d, k2, rfl, deltasAt_cons.2 ⟨d', k1, ds', rfl, hds', hd'⟩, ?_⟩
    rwa [List.all_cons, ← Bool.and_assoc]

theorem length_of_deltasAt {l : List (Nat × Nat)} {k k' : Nat} {first : Bool}
    (h : Ref.DeltasAt rom s c l k first ds k') : ds.length = l.length := by
  induction l generalizing k first ds with
  | nil => rw [h.1]; rfl
  | cons gb l ih =>
    obtain ⟨d, k1, more, rfl, hmore, -⟩ := deltasAt_cons.1 h
    simp [ih hmore]

/-- The part of `sfdBand` that reads the stream. -/
def bandDelta (p : Params) (cb : Codebook) (first : Bool) : Cmd Int :=
  match cb with
  | .zero => pure 0
  | .noise =>
    if first then (fun v : Nat => (v : Int)) <$> readBits Config.noiseFirstBits else sfDelta p
  | .spectral _ | .reserved | .intensity2 | .intensity => sfDelta p

theorem Consumes.reads_sfDelta {w : Space → Bool} (h : Consumes w s t) (hw : w .ibuf = false)
    (hl : Ref.LegalRom rom) (hr : Ref.Ready s) :
    Reads (sfDelta (Ref.withRom rom)) t
      (fun d k' => ∃ sym, Ref.SymbolAt rom s .sf t.csr.bitpos.toNat sym k' ∧ d = (sym : Int) - 60)
      (Ref.SymbolFails rom s .sf t.csr.bitpos.toNat) := by
  have heq : sfDelta (Ref.withRom rom) =
      (fun sym : Nat => (sym : Int) - 60) <$> huffDecode (Ref.withRom rom) .sf :=
    (map_eq_pure_bind _ _).symm
  rw [heq]
  exact (h.reads_huffDecode hw hl hr .sf).map fun _ _ => Iff.rfl

/-- A band's delta at a later point of a pass is the one of the stream the pass was started with. -/
theorem Consumes.reads_bandDelta {w : Space → Bool} (h : Consumes w s t) (hw : w .ibuf = false)
    (hl : Ref.LegalRom rom) (hr : Ref.Ready s) (cb : Codebook) (first : Bool) :
    Reads (bandDelta (Ref.withRom rom) cb first) t (DeltaAt rom s cb first t.csr.bitpos.toNat)
      (DeltaFails rom s cb first t.csr.bitpos.toNat) := by
  have hsym := h.reads_sfDelta hw hl hr
  cases cb with
  | zero => exact reads_pure 0
  | noise =>
    cases first with
    | false => exact hsym
    | true =>
      exact (h.reads_readBits hw hr (n := 9) (by decide)).map fun d k' =>
        ⟨fun ⟨hd, hk, hin⟩ => ⟨_, ⟨rfl, hk, hin⟩, hd⟩,
          fun ⟨v, ⟨hv, hk, hin⟩, hd⟩ => ⟨hd.trans (congrArg _ hv), hk, hin⟩⟩
  | spectral b => exact hsym
  | reserved => exact hsym
  | intensity2 => exact hsym
  | intensity => exact hsym

/-- Where a band's delta stands, what the pass has done so far is done up to its end. -/
theorem Passed.readDelta {sp : Space} {init : Nat → BitVec sp.width}
    {ws : List (Nat × BitVec sp.width)} {k k' : Nat} (h : Passed sp s init ws k t)
    (hr : Ref.Ready s) {cb : Codebook} {first : Bool} {d : Int}
    (hd : DeltaAt rom s cb first k d k') : Passed sp s init ws k' (Ref.withCursor k' t) := by
  have hsym : (∃ sym, Ref.SymbolAt rom s .sf k sym k' ∧ d = (sym : Int) - 60) →
      Passed sp s init ws k' (Ref.withCursor k' t) := fun ⟨_, hat, _⟩ =>
    h.read hr (symbolAt_le hat).1 (symbolAt_le hat).2
  cases cb with
  | zero =>
    obtain ⟨-, rfl⟩ := hd
    rwa [h.withCursor_self]
  | noise =>
    cases first with
    | false => exact hsym hd
    | true =>
      obtain ⟨-, rfl, hin⟩ := hd
      exact h.read hr (Nat.le_add_right _ _) hin
  | spectral b => exact hsym hd
  | reserved => exact hsym hd
  | intensity2 => exact hsym hd
  | intensity => exact hsym hd

/-! ### One band -/

/-- The counters after a delta of the given class (42_icstream_passes.md R192). -/
def SfCounters.add (n : SfCounters) (d : Int) : Ref.SfClass → SfCounters
  | .none => n
  | .gain => { n with gain := n.gain + d }
  | .position => { n with pos := n.pos + d }
  | .noise => { n with noise := n.noise + d, first := false }

/-- The counter a band of the given class stores. -/
def SfCounters.value (n : SfCounters) : Ref.SfClass → Int
  | .none => 0
  | .gain => n.gain
  | .position => n.pos
  | .noise => n.noise

/-- The check of a band: a gain inside its range (42_icstream_passes.md R194). -/
def SfCounters.gainOk (n : SfCounters) (p : Params) (cls : Ref.SfClass) : Bool :=
  cls != .gain || (decide (p.sfGainMin ≤ n.gain) && decide (n.gain ≤ p.sfGainMax))

/-- A band whose codebook is cb, with its cases put together: read the delta, add it, check the
gain, store the counter. -/
def sfdStep (p : Params) (c : Channel) (cb : Codebook) (n : SfCounters) (gb : Nat × Nat) :
    Cmd SfCounters := do
  let d ← bandDelta p cb n.first
  let n' := n.add d (Ref.sfClass cb)
  check (n'.gainOk p (Ref.sfClass cb)) .formatError
  storeSf c gb (n'.value (Ref.sfClass cb))
  pure n'

theorem sfdBand_eq_sfdStep (p : Params) (c : Channel) (n : SfCounters) (gb : Nat × Nat)
    (t : State) : sfdBand p c n gb t = sfdStep p c (t.cb c gb.1 gb.2) n gb t := by
  have hget : ∀ f : State → Cmd SfCounters, (get >>= f) t = f t t := fun _ => rfl
  rw [sfdBand, hget]
  cases t.cb c gb.1 gb.2 with
  | noise => cases hf : n.first <;> simp only [sfdStep, bandDelta, hf] <;> rfl
  | zero => rfl
  | spectral b => rfl
  | reserved => rfl
  | intensity2 => rfl
  | intensity => rfl

theorem gainOk_withRom (rom : Book → HuffTable) (n : SfCounters) (cls : Ref.SfClass) :
    n.gainOk (Ref.withRom rom) cls = true ↔ (cls = .gain → 0 ≤ n.gain ∧ n.gain ≤ 255) := by
  have hmin : (Ref.withRom rom).sfGainMin = 0 := rfl
  have hmax : (Ref.withRom rom).sfGainMax = 255 := rfl
  simp only [SfCounters.gainOk, hmin, hmax]
  cases cls <;> simp

section

variable {ws : List (Nat × BitVec 32)} {k k' : Nat} {n : SfCounters} {gb : Nat × Nat}

/-- A band whose delta stands at the cursor and whose gain is in range is stored. -/
theorem sat_sfdBand (hl : Ref.LegalRom rom) (hr : Ref.Ready s)
    (h : Passed .sf s (s.elem .sf) ws k t) (hg : gb.1 < 8) (hb : gb.2 < 64) {d : Int}
    {n' : SfCounters}
    (hd : DeltaAt rom s (s.cb c gb.1 gb.2) n.first k d k')
    (hn' : n.add d (Ref.sfClass (s.cb c gb.1 gb.2)) = n')
    (hok : Ref.sfClass (s.cb c gb.1 gb.2) = .gain → 0 ≤ n'.gain ∧ n'.gain ≤ 255) :
    Sat (sfdBand (Ref.withRom rom) c n gb) t
      (fun n'' u => n'' = n' ∧ Passed .sf s (s.elem .sf) (ws ++ [(bandIx c gb.1 gb.2,
        BitVec.ofInt 32 (n'.value (Ref.sfClass (s.cb c gb.1 gb.2))))]) k' u)
      fun _ _ => False := by
  subst hn'
  have hcb := h.consumes.cb clear_sf c gb.1 gb.2
  have hi : bandIx c gb.1 gb.2 < Space.sf.size := bandIx_lt hg hb
  unfold Sat
  rw [sfdBand_eq_sfdStep, hcb]
  refine sat_bind.2 ((h.consumes.reads_bandDelta rfl hl hr _ _).sat_of_ends (h.cursor ▸ hd) ?_)
  rw [sat_bind, sat_check, if_pos ((gainOk_withRom rom _ _).2 hok), sat_bind, storeSf, sat_store,
    if_pos hi]
  exact ⟨rfl, (h.readDelta hr hd).write rfl hi _⟩

/-- A band whose delta fails raises its fault and stores nothing. -/
theorem raisesAt_sfdBand_delta (hl : Ref.LegalRom rom) (hr : Ref.Ready s)
    (h : Passed .sf s (s.elem .sf) ws k t) {f : BlockFault}
    (hd : DeltaFails rom s (s.cb c gb.1 gb.2) n.first k f k') :
    RaisesAt (sfdBand (Ref.withRom rom) c n gb) t f k' := by
  have hcb := h.consumes.cb clear_sf c gb.1 gb.2
  unfold RaisesAt Sat
  rw [sfdBand_eq_sfdStep, hcb]
  exact ((h.consumes.reads_bandDelta rfl hl hr _ _).raisesAt (h.cursor ▸ hd)).bind _

/-- A band whose delta takes the gain out of its range raises FormatError and stores nothing. -/
theorem raisesAt_sfdBand_gain (hl : Ref.LegalRom rom) (hr : Ref.Ready s)
    (h : Passed .sf s (s.elem .sf) ws k t) (hcls : Ref.sfClass (s.cb c gb.1 gb.2) = .gain) {d : Int}
    (hd : DeltaAt rom s (s.cb c gb.1 gb.2) n.first k d k')
    (hout : ¬ (0 ≤ (n.add d .gain).gain ∧ (n.add d .gain).gain ≤ 255)) :
    RaisesAt (sfdBand (Ref.withRom rom) c n gb) t .formatError k' := by
  have hcb := h.consumes.cb clear_sf c gb.1 gb.2
  unfold RaisesAt Sat
  rw [sfdBand_eq_sfdStep, hcb]
  refine sat_bind.2 ((h.consumes.reads_bandDelta rfl hl hr _ _).sat_of_ends (h.cursor ▸ hd) ?_)
  rw [sat_bind, sat_check, if_neg]
  · exact ⟨rfl, rfl⟩
  · rw [gainOk_withRom, hcls]
    exact fun hok => hout (hok rfl)

end

/-! ### The counters and the stored values after the first bands -/

/-- Band number n of a channel in loop order. -/
def bandAt (s : State) (c : Channel) (n : Nat) : Nat × Nat := (s.csr.bandList c).getD n (0, 0)

/-- The class of band number n. -/
def classAt (s : State) (c : Channel) (n : Nat) : Ref.SfClass :=
  Ref.sfClass (s.cb c (bandAt s c n).1 (bandAt s c n).2)

/-- The counters of SFD after the first n bands. -/
def countersAfter (s : State) (c : Channel) (ds : List Int) (n : Nat) : SfCounters where
  gain := s.csr.globalGain c + Ref.classSum s c (s.csr.bandList c) ds .gain n
  pos := Ref.classSum s c (s.csr.bandList c) ds .position n
  noise := s.csr.globalGain c - 90 - 256 + Ref.classSum s c (s.csr.bandList c) ds .noise n
  first := ((s.csr.bandList c).take n).all fun gb => s.cb c gb.1 gb.2 != .noise

/-- The elements of SF the first n bands write, and their values. -/
def sfCells (s : State) (c : Channel) (ds : List Int) (n : Nat) : List (Nat × BitVec 32) :=
  (List.range n).map fun j => (bandIx c (bandAt s c j).1 (bandAt s c j).2,
    BitVec.ofInt 32 (Ref.sfValue s c (s.csr.bandList c) ds j))

theorem getElem?_bandList_of_lt {n : Nat} (hn : n < (s.csr.bandList c).length) :
    (s.csr.bandList c)[n]? = some (bandAt s c n) := by
  rw [bandAt, List.getD_eq_getElem?_getD, List.getElem?_eq_getElem hn, Option.getD_some]

theorem take_succ_bandList {n : Nat} (hn : n < (s.csr.bandList c).length) :
    (s.csr.bandList c).take (n + 1) = (s.csr.bandList c).take n ++ [bandAt s c n] := by
  rw [List.take_add_one, getElem?_bandList_of_lt hn, Option.toList_some]

theorem bandAt_mem {n : Nat} (hn : n < (s.csr.bandList c).length) :
    bandAt s c n ∈ s.csr.bandList c := List.mem_of_getElem? (getElem?_bandList_of_lt hn)

theorem nodup_bandList (r : Csr) (c : Channel) : (r.bandList c).Nodup := by
  rw [bandList_eq]
  exact List.nodup_range.product List.nodup_range

theorem countersAfter_zero : countersAfter s c ds 0 = SfCounters.seed (s.csr.globalGain c) := by
  simp [countersAfter, SfCounters.seed, Ref.classSum, Config.noiseSeedOffset]
  omega

theorem classSum_succ {n : Nat} (hn : n < (s.csr.bandList c).length) (cls : Ref.SfClass) :
    Ref.classSum s c (s.csr.bandList c) ds cls (n + 1) =
      Ref.classSum s c (s.csr.bandList c) ds cls n +
        if classAt s c n = cls then ds.getD n 0 else 0 := by
  simp only [Ref.classSum, Finset.sum_range_succ, getElem?_bandList_of_lt hn, Option.map_some,
    Option.some_inj]
  rfl

theorem sfClass_eq_noise (cb : Codebook) : Ref.sfClass cb = .noise ↔ cb = .noise := by
  cases cb <;> simp [Ref.sfClass]

/-- One band more adds its delta to the counter of its class. -/
theorem countersAfter_succ {n : Nat} (hn : n < (s.csr.bandList c).length) :
    countersAfter s c ds (n + 1) = (countersAfter s c ds n).add (ds.getD n 0) (classAt s c n) := by
  have hfirst : classAt s c n = .noise ↔ s.cb c (bandAt s c n).1 (bandAt s c n).2 = .noise :=
    sfClass_eq_noise _
  simp only [countersAfter, classSum_succ hn, take_succ_bandList hn, List.all_append]
  cases hcls : classAt s c n <;> simp_all [SfCounters.add, Int.add_assoc]

/-- The value stored for a band is the counter of its class after its delta. -/
theorem sfValue_eq (n : Nat) : Ref.sfValue s c (s.csr.bandList c) ds n =
    (countersAfter s c ds (n + 1)).value (classAt s c n) := by
  simp only [Ref.sfValue, classAt, bandAt]
  generalize (s.csr.bandList c).getD n (0, 0) = gb
  cases Ref.sfClass (s.cb c gb.1 gb.2) <;> rfl

/-- The first n values depend on the first n deltas only. -/
theorem classSum_append {n : Nat} (hn : n ≤ ds.length) (ds' : List Int) (cls : Ref.SfClass) :
    Ref.classSum s c (s.csr.bandList c) (ds ++ ds') cls n =
      Ref.classSum s c (s.csr.bandList c) ds cls n :=
  Finset.sum_congr rfl fun j hj => by
    rw [List.getD_append _ _ _ _ (lt_of_lt_of_le (Finset.mem_range.1 hj) hn)]

theorem countersAfter_append {n : Nat} (hn : n ≤ ds.length) (ds' : List Int) :
    countersAfter s c (ds ++ ds') n = countersAfter s c ds n := by
  simp only [countersAfter, classSum_append hn]

/-- The delta of band number n joins the counters of the bands before it. -/
theorem countersAfter_snoc {n : Nat} (hn : n < (s.csr.bandList c).length) (hlen : ds.length = n)
    (d : Int) : countersAfter s c (ds ++ [d]) (n + 1) =
      (countersAfter s c ds n).add d (classAt s c n) := by
  subst hlen
  rw [countersAfter_succ hn, countersAfter_append (le_refl _)]
  simp

theorem sfValue_append {n : Nat} (hn : n < ds.length) (ds' : List Int) :
    Ref.sfValue s c (s.csr.bandList c) (ds ++ ds') n =
      Ref.sfValue s c (s.csr.bandList c) ds n := by
  rw [sfValue_eq, sfValue_eq, countersAfter_append hn]

theorem gainsInRange_append {n : Nat} (hn : n ≤ ds.length) (ds' : List Int) :
    Ref.GainsInRange s c (ds ++ ds') n ↔ Ref.GainsInRange s c ds n :=
  forall₂_congr fun j hj => by rw [sfValue_append (lt_of_lt_of_le hj hn)]

theorem sfCells_append {n : Nat} (hn : n ≤ ds.length) (ds' : List Int) :
    sfCells s c (ds ++ ds') n = sfCells s c ds n :=
  List.map_congr_left fun j hj => by
    rw [sfValue_append (lt_of_lt_of_le (List.mem_range.1 hj) hn)]

theorem sfCells_succ (n : Nat) :
    sfCells s c ds (n + 1) = sfCells s c ds n ++ [(bandIx c (bandAt s c n).1 (bandAt s c n).2,
      BitVec.ofInt 32 (Ref.sfValue s c (s.csr.bandList c) ds n))] := by
  rw [sfCells, List.range_succ, List.map_append]
  rfl

/-! ### The first bands of the loop -/

/-- A band of the loop lies inside SF. -/
theorem bandAt_lt (hg : Ref.Geometry s c) {n : Nat} (hn : n < (s.csr.bandList c).length) :
    (bandAt s c n).1 < 8 ∧ (bandAt s c n).2 < 64 := by
  obtain ⟨hgrp, hband⟩ := mem_bandList.1 (bandAt_mem hn)
  exact ⟨hg.group_lt hgrp, hband.trans (maxsfb_lt _ _)⟩

/-- Where the deltas of the first n bands stand and the gains are in range, the loop stores those
bands. -/
theorem sat_sfdBands (hl : Ref.LegalRom rom) (hr : Ref.Ready s) (hg : Ref.Geometry s c) {n k : Nat}
    (hn : n ≤ (s.csr.bandList c).length)
    (hds : Ref.DeltasAt rom s c ((s.csr.bandList c).take n) s.csr.bitpos.toNat true ds k)
    (hgain : Ref.GainsInRange s c ds n) :
    Sat (carry (sfdBand (Ref.withRom rom) c) (SfCounters.seed (s.csr.globalGain c))
        ((s.csr.bandList c).take n)) s
      (fun m t => m = countersAfter s c ds n ∧ Passed .sf s (s.elem .sf) (sfCells s c ds n) k t)
      fun _ _ => False := by
  induction n generalizing ds k with
  | zero =>
    obtain ⟨rfl, rfl⟩ := hds
    exact ⟨countersAfter_zero.symm, .start s⟩
  | succ n ih =>
    rw [take_succ_bandList hn] at hds ⊢
    obtain ⟨ds', d, k1, rfl, hds', hd⟩ := deltasAt_snoc hds
    have hlen : ds'.length = n := by
      rw [length_of_deltasAt hds', List.length_take]
      omega
    rw [carry_append, sat_bind]
    refine (ih (Nat.le_of_succ_le hn) hds' ?_).imp ?_ fun _ _ he => he
    · exact (gainsInRange_append hlen.ge [d]).1 fun j hj => hgain j (Nat.lt_succ_of_lt hj)
    rintro m t ⟨rfl, ht⟩
    obtain ⟨hgrp, hband⟩ := bandAt_lt hg hn
    have hcells := sfCells_append (s := s) (c := c) hlen.ge [d]
    have hok : classAt s c n = .gain → 0 ≤ (countersAfter s c (ds' ++ [d]) (n + 1)).gain ∧
        (countersAfter s c (ds' ++ [d]) (n + 1)).gain ≤ 255 := by
      intro hcls
      have := hgain n (Nat.lt_succ_self n) hcls
      rwa [sfValue_eq, hcls] at this
    rw [sfCells_succ, hcells, sfValue_eq]
    simp only [carry, bind_pure]
    exact sat_sfdBand hl hr ht hgrp hband hd (countersAfter_snoc hn hlen d).symm hok

/-- Band number n fails in its delta, or its delta takes the gain out of range. -/
theorem bandFails_cases {n k k' : Nat} {f : BlockFault}
    (h : Ref.BandFails rom s c ds n k f k') :
    DeltaFails rom s (s.cb c (bandAt s c n).1 (bandAt s c n).2) (countersAfter s c ds n).first
        k f k' ∨
      classAt s c n = .gain ∧ f = .formatError ∧ ∃ d,
        DeltaAt rom s (s.cb c (bandAt s c n).1 (bandAt s c n).2) (countersAfter s c ds n).first
          k d k' ∧
        ¬ (0 ≤ Ref.sfValue s c (s.csr.bandList c) (ds ++ [d]) n ∧
          Ref.sfValue s c (s.csr.bandList c) (ds ++ [d]) n ≤ 255) := by
  simp only [classAt, bandAt]
  revert h
  simp only [Ref.BandFails]
  generalize (s.csr.bandList c).getD n (0, 0) = gb
  cases s.cb c gb.1 gb.2 <;> intro h
  case zero => exact h.elim
  case spectral | reserved =>
    exact h.imp_right fun ⟨hf, sym, hat, hout⟩ => ⟨rfl, hf, _, ⟨sym, hat, rfl⟩, hout⟩
  all_goals exact .inl h

/-- A band that fails raises its fault and stores nothing. -/
theorem raisesAt_sfdBand (hl : Ref.LegalRom rom) (hr : Ref.Ready s) {n k k' : Nat}
    (hn : n < (s.csr.bandList c).length) (hlen : ds.length = n)
    (h : Passed .sf s (s.elem .sf) (sfCells s c ds n) k t) {f : BlockFault}
    (hfail : Ref.BandFails rom s c ds n k f k') :
    RaisesAt (sfdBand (Ref.withRom rom) c (countersAfter s c ds n) (bandAt s c n)) t f k' := by
  obtain hd | ⟨hcls, rfl, d, hd, hout⟩ := bandFails_cases hfail
  · exact raisesAt_sfdBand_delta hl hr h hd
  · rw [sfValue_eq, countersAfter_snoc hn hlen, hcls] at hout
    exact raisesAt_sfdBand_gain hl hr h hcls hd hout

/-! ### The pass -/

/-- SFD without the error-resilience flag on a legal geometry is its loop. -/
theorem sat_sfdCmd {p : Params} (hv : s.csr.errvlc = false) (hg : Ref.Geometry s c)
    {E : Stop → State → Prop} {Q : Unit → State → Prop}
    (h : Sat (carry (sfdBand p c) (SfCounters.seed (s.csr.globalGain c)) (s.csr.bandList c)) s
      (fun _ t => Q () t) E) : Sat (sfdCmd p c) s Q E := by
  unfold sfdCmd
  simp only [sat_bind, sat_get, sat_check, sat_geomCheck, sat_pure, hv, Bool.not_false, if_true]
  exact ⟨fun _ => h, fun hno => absurd hg hno⟩

theorem bandIx_inj {g g' b b' : Nat} (hb : b < 64) (hb' : b' < 64)
    (h : bandIx c g b = bandIx c g' b') : (g, b) = (g', b') := by
  unfold bandIx at h
  rw [Prod.mk.injEq]
  omega

/-- Two bands of the loop with the same element of SF are the same. -/
theorem bandAt_inj {j j' : Nat} (hj : j < (s.csr.bandList c).length)
    (hj' : j' < (s.csr.bandList c).length)
    (h : bandIx c (bandAt s c j).1 (bandAt s c j).2 =
      bandIx c (bandAt s c j').1 (bandAt s c j').2) : j = j' := by
  have hlt : ∀ {i}, i < (s.csr.bandList c).length → (bandAt s c i).2 < 64 := fun hi =>
    (mem_bandList.1 (bandAt_mem hi)).2.trans (maxsfb_lt _ _)
  have hband : bandAt s c j = bandAt s c j' := bandIx_inj (hlt hj) (hlt hj') h
  refine (List.getElem?_inj hj (nodup_bandList s.csr c)).1 ?_
  rw [getElem?_bandList_of_lt hj, hband, getElem?_bandList_of_lt hj']

/-- The bands a pass has written hold their values. -/
theorem Passed.elem_sf {n k : Nat} (h : Passed .sf s (s.elem .sf) (sfCells s c ds n) k t)
    (hn : n ≤ (s.csr.bandList c).length) {j : Nat} (hj : j < n) :
    t.elem .sf (bandIx c (bandAt s c j).1 (bandAt s c j).2) =
      BitVec.ofInt 32 (Ref.sfValue s c (s.csr.bandList c) ds j) := by
  refine h.elem_of_mem (List.mem_map.2 ⟨j, List.mem_range.2 hj, rfl⟩) fun v hv => ?_
  obtain ⟨j', hj', heq⟩ := List.mem_map.1 hv
  obtain ⟨hix, rfl⟩ := Prod.ext_iff.1 heq
  rw [bandAt_inj (lt_of_lt_of_le (List.mem_range.1 hj') hn) (lt_of_lt_of_le hj hn) hix]

/-- Every other element of SF is as it was. -/
theorem Passed.elem_sf_other {n k : Nat} (h : Passed .sf s (s.elem .sf) (sfCells s c ds n) k t)
    (hn : n ≤ (s.csr.bandList c).length) {i : Nat}
    (hi : ¬ ∃ gb ∈ (s.csr.bandList c).take n, i = bandIx c gb.1 gb.2) :
    t.elem .sf i = s.elem .sf i := by
  refine h.elem_of_not_mem fun v hv => hi ?_
  obtain ⟨j, hj, heq⟩ := List.mem_map.1 hv
  have hjn := List.mem_range.1 hj
  refine ⟨bandAt s c j, List.mem_of_getElem? (i := j) ?_, (Prod.ext_iff.1 heq).1.symm⟩
  rw [List.getElem?_take_of_lt hjn, getElem?_bandList_of_lt (lt_of_lt_of_le hjn hn)]

theorem exec_sfd (c : Channel) (s : State) : exec (.sfd c) s =
    runCmd (0x28000000#32 ||| c.bit.setWidth 32) (sfdCmd (Ref.withRom Rom.hcb) c) s :=
  congrArg (fun w => runCmd w (sfdCmd blockParams c) s) (opWord_eq_or (by decide) 0x28#8 c.bit)

/-- Where every delta stands and every gain is in range, SFD completes. -/
theorem runCmd_sfdCmd (hl : Ref.LegalRom rom) (hr : Ref.Ready s) (hv : s.csr.errvlc = false)
    (hg : Ref.Geometry s c) {k' : Nat}
    (hds : Ref.DeltasAt rom s c (s.csr.bandList c) s.csr.bitpos.toNat true ds k')
    (hgain : Ref.GainsInRange s c ds (s.csr.bandList c).length) (w : Word) :
    ∃ t, runCmd w (sfdCmd (Ref.withRom rom) c) s = .next t ∧
      Passed .sf s (s.elem .sf) (sfCells s c ds (s.csr.bandList c).length) k' t := by
  have hall := List.take_length (l := s.csr.bandList c)
  have h := sat_sfdBands hl hr hg (le_refl _) (hall.symm ▸ hds) hgain
  rw [hall] at h
  exact runCmd_completes hr.1 (sat_sfdCmd hv hg (h.imp (fun _ _ ht => ht.2) fun _ _ he => he))

/-- Where the bands before number n stand and band n fails, SFD ends in its fault. -/
theorem runCmd_sfdCmd_fails (hl : Ref.LegalRom rom) (hr : Ref.Ready s) (hv : s.csr.errvlc = false)
    (hg : Ref.Geometry s c) {n k k' : Nat} {f : BlockFault} (hn : n < (s.csr.bandList c).length)
    (hds : Ref.DeltasAt rom s c ((s.csr.bandList c).take n) s.csr.bitpos.toNat true ds k)
    (hgain : Ref.GainsInRange s c ds n) (hfail : Ref.BandFails rom s c ds n k f k') (w : Word) :
    ∃ t, Passed .sf s (s.elem .sf) (sfCells s c ds n) k t ∧
      runCmd w (sfdCmd (Ref.withRom rom) c) s =
        .next (takeFault f w (Ref.withCursor k' t)) := by
  have hlen : ds.length = n := by
    rw [length_of_deltasAt hds, List.length_take]
    omega
  have hsplit : s.csr.bandList c =
      (s.csr.bandList c).take n ++ bandAt s c n :: (s.csr.bandList c).drop (n + 1) := by
    rw [List.append_cons, ← take_succ_bandList hn, List.take_append_drop]
  refine runCmd_eq_takeFault hr.1 w (sat_sfdCmd hv hg ?_)
  refine (congrArg (fun l => Sat (carry _ _ l) s _ _) hsplit).mpr ?_
  rw [carry_append, sat_bind]
  refine (sat_sfdBands hl hr hg hn.le hds hgain).imp ?_ fun _ _ he => he.elim
  rintro m t ⟨rfl, ht⟩
  exact ((raisesAt_sfdBand hl hr hn hlen ht hfail).bind _).sat ht

/-- Settles O32: each band adds its delta to the counter of its class and stores the counter. -/
theorem sfdStoresScaleFactors : Obligations.SfdStoresScaleFactors := by
  refine ⟨fun c s ds k' hr hv hg hds hgain => ?_,
    fun rom c s n k ds f k' hl hr hv hg hn hds hgain hfail => ?_, exec_sfd⟩
  · rw [exec_sfd]
    obtain ⟨t, hrun, ht⟩ := runCmd_sfdCmd legalRom_hcb hr hv hg hds hgain _
    refine ⟨t, hrun, ht.consumes.regs, ht.consumes.host, ht.csr_eq,
      fun n hn => ht.elem_sf (le_refl _) hn, ht.consumes.sameExcept fun i hi => ?_⟩
    refine ht.elem_sf_other (le_refl _) fun ⟨gb, hgb, hix⟩ => hi ?_
    obtain ⟨hgrp, hband⟩ := mem_bandList.1 (List.mem_of_mem_take hgb)
    exact ⟨rfl, gb.1, hgrp, gb.2, hband, hix⟩
  · obtain ⟨t, ht, hrun⟩ := runCmd_sfdCmd_fails hl hr hv hg hn hds hgain hfail
      (0x28000000#32 ||| c.bit.setWidth 32)
    refine ⟨_, hrun, fun j hj => ?_, ht.consumes.faultedAt (fun i hi => ?_) f _ k'⟩
    · rw [elem_takeFault_withCursor (by decide)]
      exact ht.elem_sf hn.le hj
    · exact ht.elem_sf_other hn.le fun hex => hi ⟨rfl, hex⟩

end Sys2Proof.Machine
end

section
/-! SUPPORT. SPD (42_icstream_passes.md R195 to R197): its loops over bands, windows and tuples as
one loop over the tuples of the channel, what that loop writes, and how the pass ends. -/

namespace Sys2Proof.Machine

open Sys2Proof

variable {s t : State} {c : Channel} {rom : Book → HuffTable} {α β : Type}

/-! ### The lines of a tuple -/

/-- Value j of tuple k in window w of the band gb, whose codebook is b, stands on line p. -/
structure TupleValue (s : State) (c : Channel) (gb : Nat × Nat) (b : SpecBook) (w k j p : Nat) :
    Prop where
  band : gb ∈ s.csr.bandList c
  book : s.cb c gb.1 gb.2 = .spectral b
  window : w < s.csr.glen c gb.1
  tuple : k < (s.off c (gb.2 + 1) - s.off c gb.2) / b.dim
  value : j < b.dim
  line : p = s.csr.line c gb.1 w (s.off c gb.2 + b.dim * k) + j

section

variable {gb gb' : Nat × Nat} {b b' : SpecBook} {w w' k k' j j' p : Nat}

theorem TupleValue.inBand (h : TupleValue s c gb b w k j p) :
    Ref.InBand s c gb.2 (s.off c gb.2 + (b.dim * k + j)) := by
  have hend : b.dim * (k + 1) ≤ s.off c (gb.2 + 1) - s.off c gb.2 :=
    (Nat.mul_le_mul_left _ h.tuple).trans (Nat.mul_div_le _ _)
  have hj := h.value
  rw [Nat.mul_succ] at hend
  exact ⟨(mem_bandList.1 h.band).2, Nat.le_add_right _ _, by omega⟩

theorem TupleValue.isLine (h : TupleValue s c gb b w k j p) (hg : Ref.Geometry s c) :
    Ref.IsLine s c gb.1 w (s.off c gb.2 + (b.dim * k + j)) :=
  hg.isLine (mem_bandList.1 h.band).1 h.window h.inBand

theorem TupleValue.line_eq (h : TupleValue s c gb b w k j p) :
    p = s.csr.line c gb.1 w (s.off c gb.2 + (b.dim * k + j)) := by
  rw [h.line, ← line_add, Nat.add_assoc]

theorem TupleValue.lt_fl (h : TupleValue s c gb b w k j p) (hg : Ref.Geometry s c) :
    p < s.csr.fl := h.line_eq ▸ hg.line_lt (h.isLine hg)

/-- No two values of a channel stand on one line. -/
theorem TupleValue.inj (h : TupleValue s c gb b w k j p) (h' : TupleValue s c gb' b' w' k' j' p)
    (hg : Ref.Geometry s c) : gb = gb' ∧ b = b' ∧ w = w' ∧ k = k' ∧ j = j' := by
  obtain ⟨hgrp, hwin, hi⟩ := (h.isLine hg).inj (h'.isLine hg) (h.line_eq.symm.trans h'.line_eq)
  have hband := hg.band_unique h.inBand (hi ▸ h'.inBand)
  obtain rfl : gb = gb' := Prod.ext hgrp hband
  obtain rfl : b = b' := Codebook.spectral.inj (h.book.symm.trans h'.book)
  have hkj : b.dim * k + j = b.dim * k' + j' := Nat.add_left_cancel hi
  have hpos : 0 < b.dim := Nat.zero_lt_of_lt h.value
  have hk : k = k' := by
    have hdiv := congrArg (· / b.dim) hkj
    simpa [Nat.mul_add_div hpos, Nat.div_eq_of_lt h.value, Nat.div_eq_of_lt h'.value] using hdiv
  subst hk
  exact ⟨rfl, rfl, hwin, rfl, Nat.add_left_cancel hkj⟩

end

/-! ### The tuples of a channel -/

theorem tuplesOf_append (s : State) (c : Channel) (l l' : List (Nat × Nat)) :
    Ref.tuplesOf s c (l ++ l') = Ref.tuplesOf s c l ++ Ref.tuplesOf s c l' :=
  List.flatMap_append

theorem tuplesOf_initial {l : List (Nat × Nat)} (h : l <+: s.csr.bandList c) :
    Ref.tuplesOf s c l <+: Ref.tuples s c := by
  obtain ⟨rest, heq⟩ := h
  exact ⟨Ref.tuplesOf s c rest, by rw [← tuplesOf_append, heq]; rfl⟩

/-- The tuples of one window of a band. -/
def windowTuples (s : State) (c : Channel) (gb : Nat × Nat) (b : SpecBook) (w : Nat) :
    List (SpecBook × Nat) :=
  (List.range ((s.off c (gb.2 + 1) - s.off c gb.2) / b.dim)).map fun k =>
    (b, s.csr.line c gb.1 w (s.off c gb.2 + b.dim * k))

theorem tuplesOf_spectral {gb : Nat × Nat} {b : SpecBook} (h : s.cb c gb.1 gb.2 = .spectral b) :
    Ref.tuplesOf s c [gb] =
      (List.range (s.csr.glen c gb.1)).flatMap (windowTuples s c gb b) := by
  simp only [Ref.tuplesOf, List.flatMap_cons, List.flatMap_nil, List.append_nil, h, bookRow_dim]
  rfl

theorem tuplesOf_not_spectral {gb : Nat × Nat} (h : ∀ b, s.cb c gb.1 gb.2 ≠ .spectral b) :
    Ref.tuplesOf s c [gb] = [] := by
  cases hcb : s.cb c gb.1 gb.2 with
  | spectral b => exact absurd hcb (h b)
  | _ => simp [Ref.tuplesOf, hcb]

theorem tuplesOf_eq_flatMap (s : State) (c : Channel) (l : List (Nat × Nat)) :
    Ref.tuplesOf s c l = l.flatMap fun gb => Ref.tuplesOf s c [gb] := by
  simp [Ref.tuplesOf]

theorem tupleValue_of_mem_windowTuples {gb : Nat × Nat} {b b' : SpecBook} {w q j : Nat}
    (hgb : gb ∈ s.csr.bandList c) (hcb : s.cb c gb.1 gb.2 = .spectral b)
    (hw : w < s.csr.glen c gb.1) (h : (b', q) ∈ windowTuples s c gb b w) (hj : j < b'.dim) :
    b' = b ∧ ∃ k, TupleValue s c gb b w k j (q + j) := by
  obtain ⟨k, hk, heq⟩ := List.mem_map.1 h
  obtain ⟨rfl, rfl⟩ := Prod.mk.inj heq
  exact ⟨rfl, k, hgb, hcb, hw, List.mem_range.1 hk, hj, rfl⟩

theorem tupleValue_of_mem_band {gb : Nat × Nat} {b : SpecBook} {q j : Nat}
    (hgb : gb ∈ s.csr.bandList c) (h : (b, q) ∈ Ref.tuplesOf s c [gb]) (hj : j < b.dim) :
    ∃ w k, TupleValue s c gb b w k j (q + j) := by
  cases hcb : s.cb c gb.1 gb.2 with
  | spectral b' =>
    rw [tuplesOf_spectral hcb] at h
    obtain ⟨w, hw, hmem⟩ := List.mem_flatMap.1 h
    obtain ⟨rfl, k, hk⟩ :=
      tupleValue_of_mem_windowTuples hgb hcb (List.mem_range.1 hw) hmem hj
    exact ⟨w, k, hk⟩
  | _ =>
    rw [tuplesOf_not_spectral fun b' => by simp [hcb]] at h
    exact absurd h List.not_mem_nil

/-- Every value of a tuple of the channel stands on a line of its own. -/
theorem tupleValue_of_mem {b : SpecBook} {q j : Nat} (h : (b, q) ∈ Ref.tuples s c)
    (hj : j < b.dim) : ∃ gb w k, TupleValue s c gb b w k j (q + j) := by
  rw [Ref.tuples, tuplesOf_eq_flatMap] at h
  obtain ⟨gb, hgb, hmem⟩ := List.mem_flatMap.1 h
  exact ⟨gb, tupleValue_of_mem_band hgb hmem hj⟩

theorem dim_pos (b : SpecBook) : 0 < b.dim := by cases b <;> decide

/-- Two tuples of the channel that share a line are the same. -/
theorem tuple_eq_of_line_eq (hg : Ref.Geometry s c) {b b' : SpecBook} {q q' j j' : Nat}
    (h : (b, q) ∈ Ref.tuples s c) (h' : (b', q') ∈ Ref.tuples s c) (hj : j < b.dim)
    (hj' : j' < b'.dim) (hline : q + j = q' + j') : (b, q) = (b', q') ∧ j = j' := by
  obtain ⟨gb, w, k, hv⟩ := tupleValue_of_mem h hj
  obtain ⟨gb', w', k', hv'⟩ := tupleValue_of_mem h' hj'
  obtain ⟨-, rfl, -, -, rfl⟩ := hv.inj (hline ▸ hv') hg
  exact ⟨by rw [Nat.add_right_cancel hline], rfl⟩

theorem tuple_lt_fl (hg : Ref.Geometry s c) {b : SpecBook} {q j : Nat}
    (h : (b, q) ∈ Ref.tuples s c) (hj : j < b.dim) : q + j < s.csr.fl := by
  obtain ⟨gb, w, k, hv⟩ := tupleValue_of_mem h hj
  exact hv.lt_fl hg

/-- Lists without repetition that share no element, one after the other, have no repetition. -/
theorem nodup_flatMap_of_inj {l : List α} {f : α → List β} (hl : l.Nodup)
    (hf : ∀ a ∈ l, (f a).Nodup)
    (hinj : ∀ a ∈ l, ∀ a' ∈ l, ∀ x, x ∈ f a → x ∈ f a' → a = a') : (l.flatMap f).Nodup :=
  List.nodup_flatMap.2 ⟨hf, hl.pairwise_of_forall_ne fun a ha a' ha' hne x hx hx' =>
    hne (hinj a ha a' ha' x hx hx')⟩

theorem nodup_windowTuples (hg : Ref.Geometry s c) {gb : Nat × Nat} {b : SpecBook} {w : Nat}
    (hgb : gb ∈ s.csr.bandList c) (hcb : s.cb c gb.1 gb.2 = .spectral b)
    (hw : w < s.csr.glen c gb.1) : (windowTuples s c gb b w).Nodup := by
  refine List.Nodup.map_on (fun k hk k' hk' heq => ?_) List.nodup_range
  have hv : ∀ {i}, i ∈ List.range ((s.off c (gb.2 + 1) - s.off c gb.2) / b.dim) →
      TupleValue s c gb b w i 0 (s.csr.line c gb.1 w (s.off c gb.2 + b.dim * i)) := fun hi =>
    ⟨hgb, hcb, hw, List.mem_range.1 hi, dim_pos b, rfl⟩
  obtain ⟨-, -, -, hkk, -⟩ := (hv hk).inj ((Prod.mk.inj heq).2 ▸ hv hk') hg
  exact hkk

/-- No tuple of a channel is read twice. -/
theorem nodup_tuples (hg : Ref.Geometry s c) : (Ref.tuples s c).Nodup := by
  rw [Ref.tuples, tuplesOf_eq_flatMap]
  refine nodup_flatMap_of_inj (nodup_bandList _ _) (fun gb hgb => ?_)
    fun gb hgb gb' hgb' ⟨b, q⟩ hx hx' => ?_
  · cases hcb : s.cb c gb.1 gb.2 with
    | spectral b =>
      rw [tuplesOf_spectral hcb]
      refine nodup_flatMap_of_inj List.nodup_range
        (fun w hw => nodup_windowTuples hg hgb hcb (List.mem_range.1 hw))
        fun w hw w' hw' ⟨b', q⟩ hx hx' => ?_
      obtain ⟨-, k, hv⟩ :=
        tupleValue_of_mem_windowTuples hgb hcb (List.mem_range.1 hw) hx (dim_pos b')
      obtain ⟨-, k', hv'⟩ :=
        tupleValue_of_mem_windowTuples hgb hcb (List.mem_range.1 hw') hx' (dim_pos b')
      exact (hv.inj hv' hg).2.2.1
    | _ =>
      rw [tuplesOf_not_spectral fun b => by simp [hcb]]
      exact List.nodup_nil
  · obtain ⟨w, k, hv⟩ := tupleValue_of_mem_band hgb hx (dim_pos b)
    obtain ⟨w', k', hv'⟩ := tupleValue_of_mem_band hgb' hx' (dim_pos b)
    exact (hv.inj hv' hg).1

/-! ### The loop over the tuples -/

/-- Write the values v on the lines q, q + 1, … of QSPEC. -/
def storeValues (c : Channel) (q : Nat) (v : List Int) : Cmd Unit :=
  each (fun x => storeLine .qspec c (q + x.2) (BitVec.ofInt 16 x.1)) v.zipIdx

/-- Read one tuple and write its values on its lines. -/
def spdTuple (p : Params) (c : Channel) (bq : SpecBook × Nat) : Cmd Unit := do
  let v ← huffSpec p bq.1
  storeValues c bq.2 v

/-- The elements of QSPEC that `storeValues` writes, and their values. -/
def valueCells (c : Channel) (q : Nat) (v : List Int) : List (Nat × BitVec 16) :=
  v.zipIdx.map fun x => (lineIx c (q + x.2), BitVec.ofInt 16 x.1)

/-- The elements of QSPEC that tuples with the given values write. -/
def spectrumCells (c : Channel) (ts : List (SpecBook × Nat)) (vs : List (List Int)) :
    List (Nat × BitVec 16) :=
  (ts.zip vs).flatMap fun x => valueCells c x.1.2 x.2

section

variable {init : Nat → BitVec 16} {ws : List (Nat × BitVec 16)} {k k' : Nat}

theorem sat_storeValues (h : Passed .qspec s init ws k t) {q : Nat} {v : List Int}
    (hq : ∀ j < v.length, q + j < 1024) :
    Sat (storeValues c q v) t
      (fun _ u => Passed .qspec s init (ws ++ valueCells c q v) k u) fun _ _ => False := by
  refine sat_each (I := fun (done : List (Int × Nat)) u => Passed .qspec s init
    (ws ++ done.map fun x => (lineIx c (q + x.2), BitVec.ofInt 16 x.1)) k u)
    (by simpa using h) fun done x rest heq u hu => ?_
  have hx : x ∈ v.zipIdx := heq ▸ List.mem_append_right _ List.mem_cons_self
  have hlt := hq x.2 (List.mem_zipIdx' hx).1
  rw [sat_storeLine .qspec c hlt rfl, List.map_append, ← List.append_assoc]
  exact hu.write rfl (lineIx_lt_size rfl hlt) _

/-- Where tuples stand in the stream, their loop writes their values. -/
theorem sat_spdTuples (hl : Ref.LegalRom rom) (hr : Ref.Ready s) {ts : List (SpecBook × Nat)}
    {vs : List (List Int)} (h : Passed .qspec s init ws k t) (hat : Ref.TuplesAt rom s ts k vs k')
    (hq : ∀ b q, (b, q) ∈ ts → ∀ j < b.dim, q + j < 1024) :
    Sat (each (spdTuple (Ref.withRom rom) c) ts) t
      (fun _ u => Passed .qspec s init (ws ++ spectrumCells c ts vs) k' u) fun _ _ => False := by
  induction ts generalizing vs k t ws with
  | nil =>
    obtain ⟨rfl, rfl⟩ := hat
    simpa [each, spectrumCells] using h
  | cons bq ts ih =>
    obtain ⟨v, k1, more, rfl, htup, hmore⟩ := hat
    obtain ⟨hle, hlen⟩ := tupleAt_le htup
    rw [each, sat_bind, spdTuple, sat_bind]
    refine (h.consumes.reads_huffSpec rfl hl hr bq.1).sat_of_ends (h.cursor ▸ htup) ?_
    refine (sat_storeValues (h.read hr hle (tupleAt_inStream htup)) fun j hj => ?_).imp
      (fun _ u hu => ?_) fun _ _ he => he
    · exact hq bq.1 bq.2 List.mem_cons_self j (hlen ▸ hj)
    · have := ih hu hmore fun b q hmem => hq b q (List.mem_cons_of_mem _ hmem)
      simpa [spectrumCells] using this

/-- A tuple that fails raises its fault and writes nothing. -/
theorem raisesAt_spdTuple (hl : Ref.LegalRom rom) (hr : Ref.Ready s)
    (h : Passed .qspec s init ws k t) {b : SpecBook} {q : Nat} {f : BlockFault}
    (hfail : Ref.TupleFails rom s b k f k') :
    RaisesAt (spdTuple (Ref.withRom rom) c (b, q)) t f k' :=
  ((h.consumes.reads_huffSpec rfl hl hr b).raisesAt (h.cursor ▸ hfail)).bind _

end

/-! ### The loops of SPD are the loop over the tuples -/

/-- The same state, reached from `s` by reading the stream and writing QSPEC. -/
def InSpd (s t t' : State) : Prop := t' = t ∧ Consumes (only .qspec) s t

/-- A body that stays inside SPD runs like itself. -/
theorem both_inSpd {m : Cmd α} (h : Sat m t (fun _ u => Consumes (only .qspec) s u)
    fun _ u => Consumes (only .qspec) s u) : Both (InSpd s) m m t t := by
  unfold Both Sat InSpd at *
  cases heq : m t <;> rw [heq] at h <;> exact ⟨rfl, rfl, h⟩

/-- What one of two bodies that run alike does, the other does. -/
theorem Both.sat {m m' : Cmd α} (h : Both (InSpd s) m m' t t) {Q : α → State → Prop}
    {E : Stop → State → Prop} (hm : Sat m' t Q E) : Sat m t Q E := by
  unfold Both Sat at *
  split at h <;> simp_all [InSpd]

theorem both_storeLine_inSpd (h : Consumes (only .qspec) s t) (q : Nat) (v : BitVec 16) :
    Both (InSpd s) (storeLine .qspec c q v) (storeLine .qspec c q v) t t := by
  refine both_inSpd ?_
  by_cases hq : q < 1024
  · exact (sat_storeLine .qspec c hq rfl v).2 (h.write (sp := .qspec) rfl (lineIx_lt_size rfl hq) v)
  · rw [storeLine, if_neg hq]
    exact h

/-- Storing a tuple at (g, w, i) is storing its values from the line of i on. -/
theorem both_storeTuple_storeValues (h : Consumes (only .qspec) s t) (g w i : Nat) (v : List Int) :
    Both (InSpd s) (storeTuple c g w i v) (storeValues c (s.csr.line c g w i) v) t t := by
  refine both_each rfl ⟨rfl, h⟩ fun x _ u u' hu => ?_
  obtain ⟨rfl, hu⟩ := hu
  rw [h.line, line_add]
  exact both_storeLine_inSpd hu _ _

theorem both_huffSpec_inSpd (hl : Ref.LegalRom rom) (hr : Ref.Ready s)
    (h : Consumes (only .qspec) s t) (b : SpecBook) :
    Both (InSpd s) (huffSpec (Ref.withRom rom) b) (huffSpec (Ref.withRom rom) b) t t := by
  refine both_inSpd ((sat_huffSpec hl b (h.ready hr)).imp ?_ ?_)
  · rintro v u ⟨k', hat, hin, rfl⟩
    exact h.advance (h.ready hr) (advance_of_inStream (tupleAt_le hat).1 hin)
  · rintro e u ⟨hu, -⟩
    exact h.advance (h.ready hr) hu

theorem both_spdWindow_tuples (hl : Ref.LegalRom rom) (hr : Ref.Ready s)
    (h : Consumes (only .qspec) s t) (gb : Nat × Nat) (b : SpecBook) (w : Nat) :
    Both (InSpd s)
      (spdWindow (Ref.withRom rom) c b gb.1 (s.off c gb.2) (s.off c (gb.2 + 1)) w)
      (each (spdTuple (Ref.withRom rom) c) (windowTuples s c gb b w)) t t := by
  rw [windowTuples, each_map, spdWindow, upTo_zero]
  refine both_each rfl ⟨rfl, h⟩ fun k _ u u' hu => ?_
  obtain ⟨rfl, hu⟩ := hu
  refine both_seq (both_huffSpec_inSpd hl hr hu b) fun v u u' hu => ?_
  obtain ⟨rfl, hu⟩ := hu
  rw [Nat.mul_comm]
  exact both_storeTuple_storeValues hu _ _ _ _

/-- A band whose width fits is its tuples. -/
theorem both_spdBand_tuples (hl : Ref.LegalRom rom) (hr : Ref.Ready s)
    (h : Consumes (only .qspec) s t) {gb : Nat × Nat} (hfit : Ref.WidthFits s c gb) :
    Both (InSpd s) (spdBand (Ref.withRom rom) c gb)
      (each (spdTuple (Ref.withRom rom) c) (Ref.tuplesOf s c [gb])) t t := by
  have hget : ∀ {f : State → Cmd Unit} {m : Cmd Unit}, Both (InSpd s) (f t) m t t →
      Both (InSpd s) (get >>= f) m t t := fun hf => hf
  refine hget ?_
  rw [h.cb clear_qspec, h.off clear_qspec, h.glen]
  cases hcb : s.cb c gb.1 gb.2 with
  | spectral b =>
    have hmod : (s.off c (gb.2 + 1) - s.off c gb.2) % b.dim = 0 := by
      simpa using hfit b hcb
    rw [tuplesOf_spectral hcb, each_flatMap, ← upTo_zero]
    simp only [hmod, decide_true]
    refine both_each rfl ⟨rfl, h⟩ fun w _ u u' hu => ?_
    obtain ⟨rfl, hu⟩ := hu
    exact both_spdWindow_tuples hl hr hu gb b w
  | _ =>
    rw [tuplesOf_not_spectral fun b => by simp [hcb]]
    exact ⟨rfl, rfl, h⟩

/-- Bands whose widths fit do what the loop over their tuples does. -/
theorem sat_spdBands (hl : Ref.LegalRom rom) (hr : Ref.Ready s) (h : Consumes (only .qspec) s t)
    {bands : List (Nat × Nat)} (hfit : ∀ gb ∈ bands, Ref.WidthFits s c gb)
    {Q : Unit → State → Prop} {E : Stop → State → Prop}
    (hm : Sat (each (spdTuple (Ref.withRom rom) c) (Ref.tuplesOf s c bands)) t Q E) :
    Sat (each (spdBand (Ref.withRom rom) c) bands) t Q E := by
  rw [tuplesOf_eq_flatMap, each_flatMap] at hm
  refine Both.sat (both_each rfl ⟨rfl, h⟩ fun gb hgb u u' hu => ?_) hm
  obtain ⟨rfl, hu⟩ := hu
  exact both_spdBand_tuples hl hr hu (hfit gb hgb)

/-- A band whose width does not fit raises FormatError and reads nothing. -/
theorem raisesAt_spdBand {init : Nat → BitVec 16} {ws : List (Nat × BitVec 16)} {k : Nat}
    (h : Passed .qspec s init ws k t) {p : Params} {gb : Nat × Nat}
    (hfit : ¬ Ref.WidthFits s c gb) : RaisesAt (spdBand p c gb) t .formatError k := by
  obtain ⟨b, hcb, hmod⟩ : ∃ b, s.cb c gb.1 gb.2 = .spectral b ∧
      ¬ (s.off c (gb.2 + 1) - s.off c gb.2) % b.dim = 0 := by
    simpa [Ref.WidthFits] using hfit
  unfold RaisesAt spdBand
  rw [sat_bind, sat_get, h.consumes.cb clear_qspec, h.consumes.off clear_qspec, hcb]
  dsimp only
  rw [decide_eq_false hmod]
  exact ⟨rfl, h.withCursor_self.symm⟩

/-! ### What the pass leaves in QSPEC -/

/-- The state in which the lines of a channel are cleared. -/
def cleared (s : State) (c : Channel) : State :=
  { s with mem := s.mem.writeRun .qspec (lineIx c 0) (List.replicate s.csr.fl 0) }

theorem elem_cleared_of_onLines {i : Nat} (h : Ref.OnLines s .qspec c .qspec i) :
    (cleared s c).elem .qspec i = 0 := by
  obtain ⟨-, hlo, hhi⟩ := h
  refine (elem_writeRun s .qspec _ _ i).trans ((if_pos ⟨hlo, ?_⟩).trans ?_)
  · simp
  · rwa [List.length_replicate]

theorem elem_cleared_of_not_onLines {i : Nat} (h : ¬ Ref.OnLines s .qspec c .qspec i) :
    (cleared s c).elem .qspec i = s.elem .qspec i := by
  refine (elem_writeRun s .qspec _ _ i).trans (if_neg fun ⟨hlo, hhi⟩ => h ⟨rfl, hlo, ?_⟩)
  rwa [List.length_replicate] at hhi

theorem passed_cleared (s : State) (c : Channel) :
    Passed .qspec s ((cleared s c).elem .qspec) [] s.csr.bitpos.toNat (cleared s c) where
  consumes := (Consumes.refl _ s).writeRun rfl (lineRun_le rfl (by simpa using fl_le s.csr))
  cursor := rfl
  cells := fun _ => .inr ⟨fun _ => List.not_mem_nil, rfl⟩

theorem mem_valueCells {q i : Nat} {v : List Int} {x : BitVec 16} :
    (i, x) ∈ valueCells c q v ↔
      ∃ j < v.length, i = lineIx c (q + j) ∧ x = BitVec.ofInt 16 (v.getD j 0) := by
  simp only [valueCells, List.mem_map, List.mem_zipIdx_iff_getElem?, Prod.exists, Prod.mk.injEq]
  constructor
  · rintro ⟨y, j, hy, rfl, rfl⟩
    exact ⟨j, (List.getElem?_eq_some_iff.1 hy).1, rfl, by
      rw [List.getD_eq_getElem?_getD, hy, Option.getD_some]⟩
  · rintro ⟨j, hj, rfl, rfl⟩
    exact ⟨v.getD j 0, j, by simp [hj], rfl, rfl⟩

/-- The elements written are the lines of the tuples, with their values. -/
theorem mem_spectrumCells {ts : List (SpecBook × Nat)} {vs : List (List Int)} {k k' i : Nat}
    (hat : Ref.TuplesAt rom s ts k vs k') {x : BitVec 16} :
    (i, x) ∈ spectrumCells c ts vs ↔ ∃ (n : Nat) (b : SpecBook) (q j : Nat),
      ts[n]? = some (b, q) ∧ j < b.dim ∧ i = lineIx c (q + j) ∧
        x = BitVec.ofInt 16 ((vs.getD n []).getD j 0) := by
  induction ts generalizing vs k with
  | nil => simp [spectrumCells]
  | cons bq ts ih =>
    obtain ⟨v, k1, more, rfl, htup, hmore⟩ := hat
    have hcons : spectrumCells c (bq :: ts) (v :: more) =
        valueCells c bq.2 v ++ spectrumCells c ts more := by simp [spectrumCells]
    rw [hcons, List.mem_append, ih hmore, mem_valueCells, (tupleAt_le htup).2]
    constructor
    · rintro (⟨j, hj, rfl, rfl⟩ | ⟨n, b, q, j, h⟩)
      · exact ⟨0, bq.1, bq.2, j, rfl, hj, rfl, rfl⟩
      · exact ⟨n + 1, b, q, j, h⟩
    · rintro ⟨_ | n, b, q, j, hn, hj, rfl, rfl⟩
      · obtain rfl := Option.some.inj hn
        exact .inl ⟨j, hj, rfl, rfl⟩
      · exact .inr ⟨n, b, q, j, hn, hj, rfl, rfl⟩

section

variable {ts : List (SpecBook × Nat)} {vs : List (List Int)} {k k' k'' : Nat}

/-- The tuples read stand on their lines, and every other line of the channel is 0. -/
theorem Passed.tuplesStored (hg : Ref.Geometry s c) (hts : ts <+: Ref.tuples s c)
    (hat : Ref.TuplesAt rom s ts k vs k')
    (h : Passed .qspec s ((cleared s c).elem .qspec) (spectrumCells c ts vs) k'' t) :
    Ref.TuplesStored s t c ts vs := by
  have hmem : ∀ {n b q}, ts[n]? = some (b, q) → (b, q) ∈ Ref.tuples s c := fun hn =>
    hts.subset (List.mem_of_getElem? hn)
  refine ⟨fun n b p hn j hj => ?_, fun p hp hno => ?_⟩
  · rw [bookRow_dim] at hj
    refine h.elem_of_mem ((mem_spectrumCells hat).2 ⟨n, b, p, j, hn, hj, rfl, rfl⟩) fun x hx => ?_
    obtain ⟨n', b', q, j', hn', hj', hix, rfl⟩ := (mem_spectrumCells hat).1 hx
    have hline : p + j = q + j' := Nat.add_left_cancel hix
    obtain ⟨heq, rfl⟩ := tuple_eq_of_line_eq hg (hmem hn) (hmem hn') hj hj' hline
    have hlt := (List.getElem?_eq_some_iff.1 hn).1
    rw [(List.getElem?_inj hlt (hts.sublist.nodup (nodup_tuples hg))).1
      (hn.trans (heq ▸ hn'.symm))]
  · refine (h.elem_of_not_mem fun x hx => ?_).trans
      (elem_cleared_of_onLines ⟨rfl, Nat.le_add_right _ _, Nat.add_lt_add_left hp _⟩)
    obtain ⟨n, b, q, j, hn, hj, hix, -⟩ := (mem_spectrumCells hat).1 hx
    exact hno b q j (List.mem_of_getElem? hn) (by rwa [bookRow_dim]) (Nat.add_left_cancel hix)

/-- The pass writes lines of the channel only. -/
theorem Passed.elem_qspec_other (hg : Ref.Geometry s c) (hts : ts <+: Ref.tuples s c)
    (hat : Ref.TuplesAt rom s ts k vs k')
    (h : Passed .qspec s ((cleared s c).elem .qspec) (spectrumCells c ts vs) k'' t) {i : Nat}
    (hi : ¬ Ref.OnLines s .qspec c .qspec i) : t.elem .qspec i = s.elem .qspec i := by
  refine (h.elem_of_not_mem fun x hx => hi ?_).trans (elem_cleared_of_not_onLines hi)
  obtain ⟨n, b, q, j, hn, hj, rfl, -⟩ := (mem_spectrumCells hat).1 hx
  have hlt := tuple_lt_fl hg (hts.subset (List.mem_of_getElem? hn)) hj
  exact ⟨rfl, Nat.le_add_right _ _, Nat.add_lt_add_left hlt _⟩

/-! ### The pass -/

/-- SPD without the error-resilience flag on a legal geometry clears the lines and loops. -/
theorem sat_spdCmd {p : Params} (hv : s.csr.erhcr = false) (hg : Ref.Geometry s c)
    {Q : Unit → State → Prop} {E : Stop → State → Prop}
    (h : Sat (each (spdBand p c) (s.csr.bandList c)) (cleared s c) Q E) :
    Sat (spdCmd p c) s Q E := by
  unfold spdCmd
  simp only [sat_bind, sat_get, sat_check, sat_geomCheck, hv, Bool.not_false, if_true]
  refine ⟨fun _ => ?_, fun hno => absurd hg hno⟩
  rw [sat_storeLines .qspec c (by simpa using fl_le s.csr) rfl]
  exact h

/-- From the cleared lines on, the loop over the first tuples writes their values. -/
theorem sat_spdTuples_cleared (hl : Ref.LegalRom rom) (hr : Ref.Ready s) (hg : Ref.Geometry s c)
    (hts : ts <+: Ref.tuples s c) (hat : Ref.TuplesAt rom s ts s.csr.bitpos.toNat vs k) :
    Sat (each (spdTuple (Ref.withRom rom) c) ts) (cleared s c)
      (fun _ t => Passed .qspec s ((cleared s c).elem .qspec) (spectrumCells c ts vs) k t)
      fun _ _ => False := by
  have h := sat_spdTuples (c := c) hl hr (passed_cleared s c) hat fun b q hmem j hj =>
    (tuple_lt_fl hg (hts.subset hmem) hj).trans_le (fl_le _)
  rwa [List.nil_append] at h

/-- Where every width fits and every tuple stands, SPD completes. -/
theorem runCmd_spdCmd (hl : Ref.LegalRom rom) (hr : Ref.Ready s) (hv : s.csr.erhcr = false)
    (hg : Ref.Geometry s c) (hfit : Ref.WidthsFit s c)
    (hat : Ref.TuplesAt rom s (Ref.tuples s c) s.csr.bitpos.toNat vs k) (w : Word) :
    ∃ t, runCmd w (spdCmd (Ref.withRom rom) c) s = .next t ∧
      Passed .qspec s ((cleared s c).elem .qspec) (spectrumCells c (Ref.tuples s c) vs) k t :=
  runCmd_completes hr.1 (sat_spdCmd hv hg (sat_spdBands hl hr (passed_cleared s c).consumes hfit
    (sat_spdTuples_cleared hl hr hg (List.prefix_refl _) hat)))

/-- The tuples read before the loop fails are the first ones of the channel. -/
theorem spectrumFails_isInitial {f : BlockFault} (h : Ref.SpectrumFails rom s c ts k f k') :
    ts <+: Ref.tuples s c := by
  obtain ⟨n, -, ⟨rfl, -⟩ | ⟨b, q, rest, heq, -⟩⟩ := h
  · exact tuplesOf_initial (List.take_prefix _ _)
  · exact (List.prefix_append ts _).trans (heq ▸ tuplesOf_initial (List.take_prefix n _))

/-- Where SPD's loop fails after the tuples ts, it ends in that fault with those tuples written. -/
theorem runCmd_spdCmd_fails (hl : Ref.LegalRom rom) (hr : Ref.Ready s) (hv : s.csr.erhcr = false)
    (hg : Ref.Geometry s c) (hat : Ref.TuplesAt rom s ts s.csr.bitpos.toNat vs k) {f : BlockFault}
    (hfail : Ref.SpectrumFails rom s c ts k f k') (w : Word) :
    ∃ t, Passed .qspec s ((cleared s c).elem .qspec) (spectrumCells c ts vs) k t ∧
      runCmd w (spdCmd (Ref.withRom rom) c) s =
        .next (takeFault f w (Ref.withCursor k' t)) := by
  have hrun := sat_spdTuples_cleared hl hr hg (spectrumFails_isInitial hfail) hat
  obtain ⟨n, hfit, hcase⟩ := hfail
  refine runCmd_eq_takeFault hr.1 w (sat_spdCmd hv hg ?_)
  rw [← List.take_append_drop n (s.csr.bandList c), each_append, sat_bind]
  refine sat_spdBands hl hr (passed_cleared s c).consumes hfit ?_
  obtain ⟨rfl, rfl, rfl, gb, hgb, hno⟩ | ⟨b, q, rest, heq, hbad⟩ := hcase
  · refine hrun.imp (fun _ t ht => ?_) fun _ _ he => he.elim
    obtain ⟨hlt, rfl⟩ := List.getElem?_eq_some_iff.1 hgb
    rw [List.drop_eq_getElem_cons hlt]
    exact ((raisesAt_spdBand ht hno).bind _).sat ht
  · rw [heq, each_append, sat_bind]
    refine hrun.imp (fun _ t ht => ?_) fun _ _ he => he.elim
    refine (((raisesAt_spdTuple hl hr ht hbad).bind _).sat ht).imp (fun _ _ hn => hn.elim)
      fun _ _ he => he

end

theorem exec_spd (c : Channel) (s : State) : exec (.spd c) s =
    runCmd (0x29000000#32 ||| c.bit.setWidth 32) (spdCmd (Ref.withRom Rom.hcb) c) s :=
  congrArg (fun w => runCmd w (spdCmd blockParams c) s) (opWord_eq_or (by decide) 0x29#8 c.bit)

/-- Settles O33: SPD clears the lines of its channel and is then one loop over the tuples. -/
theorem spdStoresTuples : Obligations.SpdStoresTuples := by
  refine ⟨fun c s vs k' hr hv hg hfit hat => ?_,
    fun rom c s ts vs k f k' hl hr hv hg hat hfail => ?_, exec_spd⟩
  · rw [exec_spd]
    obtain ⟨t, hrun, ht⟩ := runCmd_spdCmd legalRom_hcb hr hv hg hfit hat _
    exact ⟨t, hrun, ht.consumes.regs, ht.consumes.host, ht.csr_eq,
      ht.tuplesStored hg (List.prefix_refl _) hat,
      ht.consumes.sameExcept fun i hi => ht.elem_qspec_other hg (List.prefix_refl _) hat hi⟩
  · obtain ⟨t, ht, hrun⟩ := runCmd_spdCmd_fails hl hr hv hg hat hfail
      (0x29000000#32 ||| c.bit.setWidth 32)
    have hts := spectrumFails_isInitial hfail
    refine ⟨_, hrun, ?_, ht.consumes.faultedAt (fun i hi => ?_) f _ k'⟩
    · have hstored := ht.tuplesStored hg hts hat
      simpa only [Ref.TuplesStored, Ref.line, elem_takeFault_withCursor (sp := .qspec) (by decide)]
        using hstored
    · exact ht.elem_qspec_other hg hts hat hi

end Sys2Proof.Machine
end

section
/-! SUPPORT. The conditions of MS and IS (43_stereo.md R210 to R219): which bands the two loops
change, in terms of the right codebook, the factor of an intensity band, and the faults that end
the commands before their loops. -/

namespace Sys2Proof.Machine

open Sys2Proof

variable {s : State} {g b : Nat}

/-! ### The right codebook -/

theorem codebookOf_eq_noise (v : BitVec 4) : codebookOf v = .noise ↔ v.toNat = 13 := by
  revert v; decide

theorem codebookOf_eq_intensity2 (v : BitVec 4) : codebookOf v = .intensity2 ↔ v.toNat = 14 := by
  revert v; decide

theorem codebookOf_eq_intensity (v : BitVec 4) : codebookOf v = .intensity ↔ v.toNat = 15 := by
  revert v; decide

theorem cb_c1_eq_noise : s.cb .c1 g b = .noise ↔ Ref.rightBook s g b = 13 :=
  codebookOf_eq_noise _

theorem cb_c1_eq_intensity2 : s.cb .c1 g b = .intensity2 ↔ Ref.rightBook s g b = 14 :=
  codebookOf_eq_intensity2 _

theorem cb_c1_eq_intensity : s.cb .c1 g b = .intensity ↔ Ref.rightBook s g b = 15 :=
  codebookOf_eq_intensity _

/-! ### Which bands the loops change -/

/-- The IS loop changes the bands R215 names. -/
theorem isApplies_iff : s.isApplies (g, b) = true ↔ Ref.IsBand s g b := by
  simp only [Ref.IsBand, List.mem_cons, List.not_mem_nil, or_false, ← cb_c1_eq_intensity2,
    ← cb_c1_eq_intensity, State.isApplies]
  cases s.cb .c1 g b <;> simp

/-- The MS loop changes the bands with an MSBIT whose right codebook does not exclude them
(43_stereo.md R212). -/
theorem msApplies_iff_msbit :
    s.msApplies (g, b) = true ↔ s.msbit g b = true ∧ Ref.rightBook s g b ∉ [13, 14, 15] := by
  simp only [List.mem_cons, List.not_mem_nil, or_false, ← cb_c1_eq_noise, ← cb_c1_eq_intensity2,
    ← cb_c1_eq_intensity, State.msApplies, Bool.and_eq_true]
  cases s.cb .c1 g b <;> simp

theorem msmode_lt (r : Csr) : r.msmode < 4 := field_lt _ 1 0

/-- MSBIT where the mask mode is a legal one (10_state.md R69). -/
theorem msbit_iff (hmode : s.csr.msmode ≠ 3) : s.msbit g b = true ↔
    s.csr.msmode = 2 ∨ s.csr.msmode = 1 ∧ s.elem .msu (64 * g + b) = 1#1 := by
  have hlt := msmode_lt s.csr
  unfold State.msbit State.msu
  interval_cases s.csr.msmode <;> simp_all

theorem msApplies_iff (hmode : s.csr.msmode ≠ 3) :
    s.msApplies (g, b) = true ↔ Ref.MsBand s g b := by
  rw [msApplies_iff_msbit, msbit_iff hmode, Ref.MsBand]

/-- The codebooks of MS bands and those of IS bands exclude each other. -/
theorem not_isBand_of_rightBook (h : Ref.rightBook s g b ∉ [13, 14, 15]) : ¬ Ref.IsBand s g b :=
  fun his => h (List.mem_cons_of_mem _ his)

/-- Settles O37: the right codebook decides. -/
theorem msAndIsNeverBothApply : Obligations.MsAndIsNeverBothApply := fun _ _ _ =>
  ⟨fun hms => not_isBand_of_rightBook (msApplies_iff_msbit.1 hms).2,
    fun his hms => not_isBand_of_rightBook hms.2 (isApplies_iff.1 his)⟩

/-! ### The factor of an intensity band -/

/-- The MS-used bit as the sign rule counts it (43_stereo.md R218). -/
theorem msUsed_iff : s.msUsed blockParams (g, b) = true ↔
    s.csr.msmode = 1 ∧ s.elem .msu (64 * g + b) = 1#1 ∨
      s.csr.msmode = 2 ∧ blockParams.isInvertOnAll1 = true := by
  have hlt := msmode_lt s.csr
  unfold State.msUsed State.msu
  interval_cases s.csr.msmode <;> simp

theorem isNegative_iff (his : Ref.IsBand s g b) :
    s.isNegative blockParams (g, b) = true ↔ Ref.isSign s g b = -1 := by
  have hbook : s.cb .c1 g b = .intensity2 ↔ Ref.rightBook s g b ≠ 15 := by
    rw [cb_c1_eq_intensity2]
    simp only [Ref.IsBand, List.mem_cons, List.not_mem_nil, or_false] at his
    omega
  have hused := msUsed_iff (s := s) (g := g) (b := b)
  simp only [State.isNegative, Ref.isSign, ← hused]
  by_cases h15 : Ref.rightBook s g b = 15 <;>
    cases s.msUsed blockParams (g, b) <;> simp [hbook, h15]

/-- The factor of a band is the one of R215, with the sign of R218. -/
theorem isFactor_eq_isScale (his : Ref.IsBand s g b) :
    s.isFactor blockParams (g, b) = Ref.isScale s g b := by
  simp only [State.isFactor, Ref.isScale, isNegative_iff his]
  rfl

/-! ### The checks before the loops -/

/-- MS and IS are the stereo checks and a loop. -/
theorem exec_stereo {i : Instr} (h : i = .ms ∨ i = .is) (s : State) :
    ∃ f : Unit → Cmd Unit, exec i s = runCmd (encode i) (stereoChecks >>= f) s := by
  obtain rfl | rfl := h
  · exact ⟨_, rfl⟩
  · exact ⟨_, rfl⟩

theorem sat_stereoChecks_notPair {α : Type} {Q : α → State → Prop} {E : Stop → State → Prop}
    (hp : ¬ Ref.Pair s) (f : Unit → Cmd α) (hE : E (.raised .cmdError) s) :
    Sat (stereoChecks >>= f) s Q E := by
  rw [sat_bind, sat_stereoChecks]
  exact ⟨fun _ => hE, fun h => absurd h hp, fun h => absurd h hp⟩

theorem sat_stereoChecks_mode3 {α : Type} {Q : α → State → Prop} {E : Stop → State → Prop}
    (hp : Ref.Pair s) (hmode : s.csr.msmode = 3) (f : Unit → Cmd α)
    (hE : E (.raised .formatError) s) : Sat (stereoChecks >>= f) s Q E := by
  rw [sat_bind, sat_stereoChecks]
  exact ⟨fun h => absurd hp h, fun _ _ => hE, fun _ h => absurd hmode h⟩

/-- A pair with a legal mask mode and geometry passes the checks. -/
theorem sat_stereoChecks_ready {α : Type} {Q : α → State → Prop} {E : Stop → State → Prop}
    (h : Ref.StereoReady s) {f : Unit → Cmd α} (hf : Sat (f ()) s Q E) :
    Sat (stereoChecks >>= f) s Q E := by
  rw [sat_bind, sat_stereoChecks]
  exact ⟨fun hn => absurd h.pair hn, fun _ h3 => absurd h3 h.mode,
    fun _ _ => ⟨fun _ => hf, fun hn => absurd ⟨h.geom0, h.geom1⟩ hn⟩⟩

/-- Settles O34: the pair and the mask mode are checked before anything is changed. -/
theorem stereoFaults : Obligations.StereoFaults := by
  intro i s hi hf
  obtain ⟨f, hexec⟩ := exec_stereo hi s
  rw [hexec]
  exact ⟨fun hp => runCmd_recorded (by decide) hf
      (sat_stereoChecks_notPair hp f ⟨rfl, rfl⟩) _,
    fun hp hmode => runCmd_formatFault _ hf (sat_stereoChecks_mode3 hp hmode f ⟨rfl, rfl⟩)⟩

end Sys2Proof.Machine
end

section
/-! SUPPORT. What MS and IS make of the lines of SPEC (43_stereo.md R212, R213, R215): one line,
the lines of one band, and bands one after the other. A band's lines are lines of no other band,
so each line is remade once, from the values it had when the command was started. -/

namespace Sys2Proof.Machine

open Sys2Proof

variable {s t u : State} {c : Channel} {w : Space → Bool} {β : Type}

/-! ### The lines of a band -/

theorem mem_bandLines_iff {gb : Nat × Nat} (hgb : gb ∈ s.csr.bandList c) (hg : Ref.Geometry s c)
    {p : Nat} : p ∈ s.bandLines c gb.1 gb.2 ↔
      ∃ v i, Ref.IsLine s c gb.1 v i ∧ Ref.InBand s c gb.2 i ∧ p = s.csr.line c gb.1 v i := by
  obtain ⟨hgrp, hband⟩ := mem_bandList.1 hgb
  rw [mem_bandLines]
  constructor
  · rintro ⟨v, i, hv, hlo, hhi, rfl⟩
    have hin : Ref.InBand s c gb.2 i := ⟨hband, hlo, hhi⟩
    exact ⟨v, i, hg.isLine hgrp hv hin, hin, rfl⟩
  · rintro ⟨v, i, ⟨-, hv, -⟩, ⟨-, hlo, hhi⟩, rfl⟩
    exact ⟨v, i, hv, hlo, hhi, rfl⟩

theorem lt_of_mem_bandLines {gb : Nat × Nat} (hgb : gb ∈ s.csr.bandList c)
    (hg : Ref.Geometry s c) {p : Nat} (hp : p ∈ s.bandLines c gb.1 gb.2) : p < 1024 := by
  obtain ⟨v, i, hl, -, rfl⟩ := (mem_bandLines_iff hgb hg).1 hp
  exact hg.line_lt_1024 hl

/-- A line lies in one band only. -/
theorem band_eq_of_mem_bandLines {gb gb' : Nat × Nat} (hgb : gb ∈ s.csr.bandList c)
    (hgb' : gb' ∈ s.csr.bandList c) (hg : Ref.Geometry s c) {p : Nat}
    (hp : p ∈ s.bandLines c gb.1 gb.2) (hp' : p ∈ s.bandLines c gb'.1 gb'.2) : gb = gb' := by
  obtain ⟨v, i, hl, hin, rfl⟩ := (mem_bandLines_iff hgb hg).1 hp
  obtain ⟨v', i', hl', hin', heq⟩ := (mem_bandLines_iff hgb' hg).1 hp'
  obtain ⟨hgrp, -, rfl⟩ := hl.inj hl' heq
  exact Prod.ext hgrp (hg.band_unique hin hin')

/-- A line comes up once in its band. -/
theorem nodup_bandLines {gb : Nat × Nat} (hgb : gb ∈ s.csr.bandList c) (hg : Ref.Geometry s c) :
    (s.bandLines c gb.1 gb.2).Nodup := by
  obtain ⟨hgrp, hband⟩ := mem_bandList.1 hgb
  have hline : ∀ {v i}, v ∈ upTo 0 (s.csr.glen c gb.1) →
      i ∈ upTo (s.off c gb.2) (s.off c (gb.2 + 1)) → Ref.IsLine s c gb.1 v i := fun hv hi =>
    hg.isLine hgrp (mem_upTo.1 hv).2 ⟨hband, mem_upTo.1 hi⟩
  refine nodup_flatMap_of_inj (nodup_upTo _ _) (fun v hv => ?_) fun v hv v' hv' p hp hp' => ?_
  · exact (nodup_upTo _ _).map_on fun i hi i' hi' heq =>
      ((hline hv hi).inj (hline hv hi') heq).2.2
  · obtain ⟨i, hi, rfl⟩ := List.mem_map.1 hp
    obtain ⟨i', hi', heq⟩ := List.mem_map.1 hp'
    exact ((hline hv' hi').inj (hline hv hi) heq).2.1.symm

/-! ### Lines remade -/

/-- What a command makes of a line: the old left and right values and the new ones. -/
abbrev LineRule := F32 → F32 → F32 → F32 → Prop

/-- The butterfly, both values from the old ones (43_stereo.md R212, R213 a). -/
def msRule : LineRule := fun l r l' r' =>
  Ref.Gives (Flt.add? r l) l' ∧ Ref.Gives (Flt.sub? l r) r'

/-- The right value is the left one times the factor m; the left one stays (43_stereo.md R215). -/
def isRule (m : F32) : LineRule := fun l _ l' r' => l' = l ∧ Ref.Gives (Flt.mul? l m) r'

/-- From `s` to `t` the lines `xs` of SPEC, each named with the band it lies in, were remade by the
rule of their band, and every other element of SPEC is unchanged. -/
structure Remade (w : Space → Bool) (rule : β → LineRule) (s : State) (xs : List (β × Nat))
    (t : State) : Prop where
  touches : Touches w s t
  made : ∀ x ∈ xs, rule x.1 (Ref.line s .spec .c0 x.2) (Ref.line s .spec .c1 x.2)
    (Ref.line t .spec .c0 x.2) (Ref.line t .spec .c1 x.2)
  rest : ∀ i, (∀ x ∈ xs, i ≠ lineIx .c0 x.2 ∧ i ≠ lineIx .c1 x.2) →
    t.elem .spec i = s.elem .spec i

variable {rule : β → LineRule} {xs ys : List (β × Nat)}

theorem Remade.mono {w' : Space → Bool} (h : Remade w rule s xs t)
    (hw : ∀ sp, w sp = true → w' sp = true) : Remade w' rule s xs t :=
  ⟨h.touches.mono hw, h.made, h.rest⟩

theorem Touches.remade (h : Touches w s t) (hspec : ∀ i, t.elem .spec i = s.elem .spec i) :
    Remade w rule s [] t := ⟨h, fun _ hx => absurd hx List.not_mem_nil, fun i _ => hspec i⟩

theorem Remade.refl (w : Space → Bool) (rule : β → LineRule) (s : State) :
    Remade w rule s [] s := (Touches.refl w s).remade fun _ => rfl

theorem lineIx_ne {p q : Nat} (hp : p < 1024) (hq : q < 1024) (hne : p ≠ q) (c c' : Channel) :
    lineIx c p ≠ lineIx c' q := by
  unfold lineIx
  cases c <;> cases c' <;> simp only [Channel.num] <;> omega

theorem lineIx_c0_ne_c1 (p : Nat) : lineIx .c0 p ≠ lineIx .c1 p := by
  simp only [lineIx, Channel.num]
  omega

/-- A line that is none of those remade keeps both its values. -/
theorem Remade.line_eq (h : Remade w rule s xs t) (hx : ∀ x ∈ xs, x.2 < 1024) {p : Nat}
    (hp : p < 1024) (hne : ∀ x ∈ xs, p ≠ x.2) (c : Channel) :
    Ref.line t .spec c p = Ref.line s .spec c p :=
  h.rest _ fun x hxs => ⟨lineIx_ne hp (hx x hxs) (hne x hxs) c .c0,
    lineIx_ne hp (hx x hxs) (hne x hxs) c .c1⟩

/-- Lines remade after others are remade from their old values where no line is among both. -/
theorem Remade.trans (h : Remade w rule s xs t) (h' : Remade w rule t ys u)
    (hxs : ∀ x ∈ xs, x.2 < 1024) (hys : ∀ y ∈ ys, y.2 < 1024)
    (hne : ∀ x ∈ xs, ∀ y ∈ ys, x.2 ≠ y.2) : Remade w rule s (xs ++ ys) u where
  touches := h.touches.trans h'.touches
  made := by
    intro z hz
    obtain hz | hz := List.mem_append.1 hz
    · have hkept := h'.line_eq hys (hxs z hz) (hne z hz)
      rw [hkept .c0, hkept .c1]
      exact h.made z hz
    · have hold := h.line_eq hxs (hys z hz) fun x hx => (hne x hx z hz).symm
      rw [← hold .c0, ← hold .c1]
      exact h'.made z hz
  rest := fun i hi => (h'.rest i fun y hy => hi y (List.mem_append_right _ hy)).trans
    (h.rest i fun x hx => hi x (List.mem_append_left _ hx))

/-! ### One line -/

variable {p : Nat} {b : β}

theorem remade_singleton (h : Touches w t u)
    (hmade : rule b (Ref.line t .spec .c0 p) (Ref.line t .spec .c1 p) (Ref.line u .spec .c0 p)
      (Ref.line u .spec .c1 p))
    (hrest : ∀ i, i ≠ lineIx .c0 p → i ≠ lineIx .c1 p → u.elem .spec i = t.elem .spec i) :
    Remade w rule t [(b, p)] u where
  touches := h
  made := fun x hx => by
    obtain rfl := List.mem_singleton.1 hx
    exact hmade
  rest := fun i hi =>
    have hx := hi _ (List.mem_singleton.2 rfl)
    hrest i hx.1 hx.2

/-- The last of two writes is the one read back. -/
theorem elem_write_write (t : State) {sp : Space} (hz : sp.zeroed = false) (i j : Nat)
    (v v' : BitVec sp.width) (k : Nat) :
    ({ t with mem := (t.mem.write sp i v).write sp j v' } : State).elem sp k =
      if k = j then v' else if k = i then v else t.elem sp k := by
  rw [elem_write { t with mem := t.mem.write sp i v } hz, elem_write t hz]

theorem gives_of_eq {o : Option F32} {r v : F32} (h : r = v) (hv : Ref.Gives o v) :
    Ref.Gives o r := h ▸ hv

theorem sat_butterfly (b : β) (hp : p < 1024) (t : State) : Sat (butterfly p) t
    (fun _ u => Remade (only .spec) (fun _ => msRule) t [(b, p)] u) fun _ _ => False := by
  have h0 := lineIx_lt_size (sp := .spec) (c := .c0) rfl hp
  have h1 := lineIx_lt_size (sp := .spec) (c := .c1) rfl hp
  have hne := lineIx_c0_ne_c1 p
  unfold butterfly
  simp only [sat_bind, sat_drawing]
  rw [sat_loadLine .spec .c0 hp rfl, sat_loadLine .spec .c1 hp rfl,
    sat_storeLine .spec .c0 hp rfl, sat_storeLine .spec .c1 hp rfl]
  have helem := fun n v v' => elem_write_write { t with nanDraws := n } (sp := .spec) rfl
    (lineIx .c0 p) (lineIx .c1 p) v v'
  refine remade_singleton ((((Touches.refl _ t).nanDraws _).nanDraws _).write rfl h0 _ |>.write
    rfl h1 _) ⟨?_, ?_⟩ fun i hi0 hi1 => ?_
  · exact gives_of_eq ((helem _ _ _ _).trans ((if_neg hne).trans (if_pos rfl))) (gives_fadd _ _ _)
  · exact gives_of_eq ((helem _ _ _ _).trans (if_pos rfl)) (gives_fsub _ _ _)
  · exact (helem _ _ _ _).trans ((if_neg hi1).trans (if_neg hi0))

theorem sat_scaleLine (m : β → F32) (b : β) (hp : p < 1024) (t : State) : Sat (scaleLine (m b) p) t
    (fun _ u => Remade (only .spec) (fun b => isRule (m b)) t [(b, p)] u) fun _ _ => False := by
  have h1 := lineIx_lt_size (sp := .spec) (c := .c1) rfl hp
  unfold scaleLine
  simp only [sat_bind, sat_drawing]
  rw [sat_loadLine .spec .c0 hp rfl, sat_storeLine .spec .c1 hp rfl]
  have helem := fun n v => elem_write { t with nanDraws := n } (sp := .spec) rfl (lineIx .c1 p) v
  refine remade_singleton (((Touches.refl _ t).nanDraws _).write rfl h1 _) ⟨?_, ?_⟩
    fun i _ hi1 => (helem _ _ _).trans (if_neg hi1)
  · exact (helem _ _ _).trans (if_neg (lineIx_c0_ne_c1 p))
  · exact gives_of_eq ((helem _ _ _).trans (if_pos rfl)) (gives_fmul _ _ _)

/-- Bodies that remake one line each, for the lines of one band. -/
theorem sat_each_lines {f : Nat → Cmd Unit} {lines : List Nat} (hnd : lines.Nodup)
    (hlt : ∀ p ∈ lines, p < 1024)
    (hf : ∀ p < 1024, ∀ t, Sat (f p) t (fun _ u => Remade (only .spec) rule t [(b, p)] u)
      fun _ _ => False) (t : State) :
    Sat (each f lines) t (fun _ u => Remade (only .spec) rule t (lines.map (b, ·)) u)
      fun _ _ => False := by
  refine sat_each (I := fun done u => Remade (only .spec) rule t (done.map (b, ·)) u)
    (Remade.refl _ _ t) fun done p rest heq u hu => ?_
  subst heq
  have hdone : ∀ x ∈ done.map (b, ·), x.2 ∈ done := by simp
  refine (hf p (hlt p (by simp)) u).imp (fun _ u' hu' => ?_) fun _ _ he => he
  rw [List.map_append]
  refine hu.trans hu' (fun x hx => hlt _ (List.mem_append_left _ (hdone x hx)))
    (by simpa using hlt p (by simp)) fun x hx y hy => ?_
  obtain rfl := List.mem_singleton.1 hy
  exact fun heq => (List.nodup_append.1 hnd).2.2 _ (hdone x hx) p (by simp) heq

/-! ### The lines the loops remake -/

/-- The band's lines, each with the band, where the command changes the band at all. -/
def bandWork (s : State) (applies : Nat × Nat → Bool) (gb : Nat × Nat) :
    List ((Nat × Nat) × Nat) :=
  if applies gb then (s.bandLines .c0 gb.1 gb.2).map (gb, ·) else []

section

variable {applies : Nat × Nat → Bool} {gb : Nat × Nat} {x : (Nat × Nat) × Nat}

theorem mem_bandWork : x ∈ bandWork s applies gb ↔
    x.1 = gb ∧ applies gb = true ∧ x.2 ∈ s.bandLines .c0 gb.1 gb.2 := by
  unfold bandWork
  split
  next h => simp [Prod.ext_iff, h, and_comm, eq_comm]
  next h => simp [h]

theorem mem_work {bands : List (Nat × Nat)} : x ∈ bands.flatMap (bandWork s applies) ↔
    x.1 ∈ bands ∧ applies x.1 = true ∧ x.2 ∈ s.bandLines .c0 x.1.1 x.1.2 := by
  simp only [List.mem_flatMap, mem_bandWork]
  exact ⟨fun ⟨_, hgb, rfl, h⟩ => ⟨hgb, h⟩, fun ⟨hgb, h⟩ => ⟨_, hgb, rfl, h⟩⟩

/-- The lines a loop remakes, by group, window and line. -/
theorem mem_work_iff (hg : Ref.Geometry s .c0) {g b p : Nat} :
    ((g, b), p) ∈ (s.csr.bandList .c0).flatMap (bandWork s applies) ↔ applies (g, b) = true ∧
      ∃ v i, Ref.IsLine s .c0 g v i ∧ Ref.InBand s .c0 b i ∧ p = s.csr.line .c0 g v i := by
  rw [mem_work]
  constructor
  · rintro ⟨hgb, happ, hp⟩
    exact ⟨happ, (mem_bandLines_iff hgb hg).1 hp⟩
  · rintro ⟨happ, v, i, hl, hin, hp⟩
    have hgb : (g, b) ∈ s.csr.bandList .c0 := mem_bandList.2 ⟨hl.1, hin.1⟩
    exact ⟨hgb, happ, (mem_bandLines_iff hgb hg).2 ⟨v, i, hl, hin, hp⟩⟩

/-- Remaking one band more after the bands done. -/
theorem Remade.band {rule : Nat × Nat → LineRule} (hg : Ref.Geometry s .c0)
    {done rest : List (Nat × Nat)} (hsplit : s.csr.bandList .c0 = done ++ gb :: rest)
    (h : Remade w rule s (done.flatMap (bandWork s applies)) t)
    (h' : Remade w rule t (bandWork s applies gb) u) :
    Remade w rule s ((done ++ [gb]).flatMap (bandWork s applies)) u := by
  have hdone : ∀ gb' ∈ done, gb' ∈ s.csr.bandList .c0 := fun gb' h =>
    hsplit ▸ List.mem_append_left _ h
  have hgb : gb ∈ s.csr.bandList .c0 := hsplit ▸ by simp
  have hnot : gb ∉ done := fun hin =>
    (List.nodup_append.1 (hsplit ▸ nodup_bandList s.csr .c0)).2.2 gb hin gb List.mem_cons_self rfl
  rw [List.flatMap_append, List.flatMap_singleton]
  refine h.trans h' (fun x hx => ?_) (fun y hy => ?_) fun x hx y hy heq => ?_
  · obtain ⟨hx, -, hline⟩ := mem_work.1 hx
    exact lt_of_mem_bandLines (hdone _ hx) hg hline
  · exact lt_of_mem_bandLines hgb hg (mem_bandWork.1 hy).2.2
  · obtain ⟨hx, -, hline⟩ := mem_work.1 hx
    have hsame := band_eq_of_mem_bandLines (hdone _ hx) hgb hg hline
      (heq ▸ (mem_bandWork.1 hy).2.2)
    exact hnot (hsame ▸ hx)

end

end Sys2Proof.Machine
end

section
/-! SUPPORT. The loops of MS and IS (43_stereo.md R212 to R218): a band of each, the loop over the
bands, and what it leaves in SPEC and PRED. -/

namespace Sys2Proof.Machine

open Sys2Proof

variable {s t u : State} {w : Space → Bool}

/-! ### What the loops read is unchanged throughout -/

section

variable (h : Touches w s t)
include h

theorem Touches.bandLines (hw : Clear w) (c : Channel) (g b : Nat) :
    t.bandLines c g b = s.bandLines c g b := by
  simp only [State.bandLines, State.windowLines, h.csr, h.consumes.off hw]

theorem Touches.msApplies (hcb : w .cb = false) (hmsu : w .msu = false) :
    t.msApplies = s.msApplies := by
  funext gb
  simp only [State.msApplies, State.msbit, State.msu, State.cb, h.csr, h.elem hcb, h.elem hmsu]

theorem Touches.isApplies (hcb : w .cb = false) : t.isApplies = s.isApplies := by
  funext gb
  simp only [State.isApplies, State.cb, h.elem hcb]

theorem Touches.isNegative (hcb : w .cb = false) (hmsu : w .msu = false) (p : Params) :
    t.isNegative p = s.isNegative p := by
  funext gb
  simp only [State.isNegative, State.msUsed, State.msu, State.cb, h.csr, h.elem hcb, h.elem hmsu]

theorem Touches.isFactor (hcb : w .cb = false) (hmsu : w .msu = false) (hsf : w .sf = false)
    (p : Params) : t.isFactor p = s.isFactor p := by
  funext gb
  simp only [State.isFactor, h.isNegative hcb hmsu, State.sf, h.elem hsf]

end

/-! ### MS -/

/-- The rule of every band of MS. -/
abbrev msRules : Nat × Nat → LineRule := fun _ => msRule

theorem sat_msBand (hg : Ref.Geometry s .c0) {gb : Nat × Nat} (hgb : gb ∈ s.csr.bandList .c0)
    (h : Touches (only .spec) s t) : Sat (msBand gb) t
      (fun _ u => Remade (only .spec) msRules t (bandWork s s.msApplies gb) u)
      fun _ _ => False := by
  rw [msBand, sat_bind, sat_get, h.msApplies rfl rfl, h.bandLines clear_spec, bandWork]
  split
  · exact sat_each_lines (nodup_bandLines hgb hg) (fun _ => lt_of_mem_bandLines hgb hg)
      (fun _ => sat_butterfly gb) t
  · exact Remade.refl _ _ t

/-- The loop of MS remakes the lines of the bands MS changes. -/
theorem sat_msCmd (hr : Ref.StereoReady s) : Sat msCmd s
    (fun _ t => Remade (only .spec) msRules s
      ((s.csr.bandList .c0).flatMap (bandWork s s.msApplies)) t) fun _ _ => False := by
  refine sat_stereoChecks_ready hr (sat_bind.2 (sat_get.2 ?_))
  refine sat_each (I := fun done t => Remade (only .spec) msRules s
    (done.flatMap (bandWork s s.msApplies)) t) (Remade.refl _ _ s) fun done gb rest heq t ht => ?_
  exact (sat_msBand hr.geom0 (heq ▸ by simp) ht.touches).imp
    (fun _ u hu => ht.band hr.geom0 heq hu) fun _ _ he => he

/-- Settles O35: every line of a band MS changes is remade by the butterfly. -/
theorem msButterfly : Obligations.MsButterfly := by
  intro s hr
  obtain ⟨t, hrun, ht⟩ := runCmd_completes (w := encode .ms) hr.idle (sat_msCmd hr)
  refine ⟨t, hrun, ⟨ht.touches.regs, ht.touches.csr⟩, ht.touches.host,
    fun g v i b hl hin hms => ?_, ht.touches.consumes.sameExcept fun k hk => ?_⟩
  · exact ht.made ((g, b), _)
      ((mem_work_iff hr.geom0).2 ⟨(msApplies_iff hr.mode).2 hms, v, i, hl, hin, rfl⟩)
  · refine ht.rest k ?_
    rintro ⟨⟨g, b⟩, p⟩ hx
    obtain ⟨happ, v, i, hl, hin, rfl⟩ := (mem_work_iff hr.geom0).1 hx
    have hex : ∀ k', k' = s.csr.line .c0 g v i ∨ k' = 1024 + s.csr.line .c0 g v i → k ≠ k' :=
      fun k' hk' heq => hk ⟨rfl, g, v, i, b, hl, hin, (msApplies_iff hr.mode).1 happ, heq ▸ hk'⟩
    exact ⟨hex _ (.inl (Nat.zero_add _)), hex _ (.inr rfl)⟩

/-! ### The prediction flags -/

/-- From `s` to `t` the flags of both channels were cleared for the bands `bs`, and no other. -/
def PredCleared (s : State) (bs : List Nat) (t : State) : Prop :=
  ∀ i, t.elem .pred i = if ∃ b ∈ bs, i = b ∨ i = 64 + b then 0 else s.elem .pred i

theorem PredCleared.trans {bs bs' : List Nat} (h : PredCleared s bs t)
    (h' : PredCleared t bs' u) : PredCleared s (bs ++ bs') u := by
  intro i
  rw [h' i, h i]
  simp only [List.mem_append, or_and_right, exists_or]
  by_cases hb' : ∃ b ∈ bs', i = b ∨ i = 64 + b
  · rw [if_pos hb', if_pos (.inr hb')]
  · simp only [hb', or_false, if_false]

/-- The bands whose flags IS clears for a band of its loop. -/
def clearedBands (s : State) (gb : Nat × Nat) : List Nat :=
  if s.isApplies gb then [gb.2] else []

theorem mem_clearedBands {b : Nat} {bands : List (Nat × Nat)} :
    b ∈ bands.flatMap (clearedBands s) ↔ ∃ g, (g, b) ∈ bands ∧ s.isApplies (g, b) = true := by
  simp only [List.mem_flatMap, clearedBands]
  constructor
  · rintro ⟨⟨g, b'⟩, hgb, hb⟩
    split at hb
    next happ =>
      obtain rfl := List.mem_singleton.1 hb
      exact ⟨g, hgb, happ⟩
    next => exact absurd hb List.not_mem_nil
  · rintro ⟨g, hgb, happ⟩
    exact ⟨(g, b), hgb, by simp [happ]⟩

/-! ### IS -/

/-- The rule of each band of IS: its own factor. -/
def isRules (p : Params) (s : State) (gb : Nat × Nat) : LineRule := isRule (s.isFactor p gb)

/-- IS leaves every element of SPEC that is no right value of its lines. -/
theorem Remade.elem_of_isRules {p : Params} {xs : List ((Nat × Nat) × Nat)}
    (h : Remade w (isRules p s) s xs t) {k : Nat} (hk : ∀ x ∈ xs, k ≠ lineIx .c1 x.2) :
    t.elem .spec k = s.elem .spec k := by
  by_cases hleft : ∃ x ∈ xs, k = lineIx .c0 x.2
  · obtain ⟨x, hx, rfl⟩ := hleft
    exact (h.made x hx).1
  · exact h.rest k fun x hx => ⟨fun heq => hleft ⟨x, hx, heq⟩, hk x hx⟩

theorem clear_only2 : Clear (only2 .spec .pred) := ⟨rfl, rfl, rfl⟩

theorem sat_isBand (p : Params) (hg : Ref.Geometry s .c0) {gb : Nat × Nat}
    (hgb : gb ∈ s.csr.bandList .c0) (h : Touches (only2 .spec .pred) s t) :
    Sat (isBand p gb) t
      (fun _ u => Remade (only2 .spec .pred) (isRules p s) t (bandWork s s.isApplies gb) u ∧
        PredCleared t (clearedBands s gb) u) fun _ _ => False := by
  rw [isBand, sat_bind, sat_get, h.isApplies rfl, h.isFactor rfl rfl rfl,
    h.bandLines clear_only2, bandWork, clearedBands]
  have hband : gb.2 < 64 := (mem_bandList.1 hgb).2.trans (maxsfb_lt _ _)
  have h0 : 64 * Channel.c0.num + gb.2 < Space.pred.size := by
    simp only [Channel.num, Space.size]; omega
  have h1 : 64 * Channel.c1.num + gb.2 < Space.pred.size := by
    simp only [Channel.num, Space.size]; omega
  have hlt : ∀ q ∈ s.bandLines .c0 gb.1 gb.2, q < 1024 := fun _ => lt_of_mem_bandLines hgb hg
  split
  · rw [sat_bind, sat_store, if_pos h0, sat_bind, sat_store, if_pos h1]
    refine (sat_each_lines (rule := isRules p s) (nodup_bandLines hgb hg) hlt
      (fun _ => sat_scaleLine (s.isFactor p) gb) _).imp (fun _ u hu => ⟨?_, fun i => ?_⟩)
      fun _ _ he => he
    · have hflags := ((Touches.refl (only2 .spec .pred) t).write rfl h0 0).write rfl h1 0
      refine (hflags.remade fun i => ?_).trans (hu.mono (by simp [only, only2]))
        (by simp) (by simpa using hlt) (by simp)
      exact (elem_write_of_ne _ _ _ (by decide) _).trans (elem_write_of_ne _ _ _ (by decide) _)
    · refine (hu.touches.elem rfl i).trans ?_
      refine (elem_write_write t (sp := .pred) rfl _ _ 0 0 i).trans ?_
      simp only [Channel.num, List.mem_singleton, exists_eq_left, Nat.mul_zero, Nat.zero_add,
        Nat.mul_one]
      rw [← ite_or]
      exact if_congr or_comm rfl rfl
  · exact ⟨Remade.refl _ _ t, fun i => by simp⟩

/-- The loop of IS remakes the lines of the intensity bands and clears their flags. -/
theorem sat_isCmd (p : Params) (hr : Ref.StereoReady s) : Sat (isCmd p) s
    (fun _ t => Remade (only2 .spec .pred) (isRules p s) s
        ((s.csr.bandList .c0).flatMap (bandWork s s.isApplies)) t ∧
      PredCleared s ((s.csr.bandList .c0).flatMap (clearedBands s)) t) fun _ _ => False := by
  refine sat_stereoChecks_ready hr (sat_bind.2 (sat_get.2 ?_))
  refine sat_each (I := fun done t => Remade (only2 .spec .pred) (isRules p s) s
      (done.flatMap (bandWork s s.isApplies)) t ∧ PredCleared s (done.flatMap (clearedBands s)) t)
    ⟨Remade.refl _ _ s, fun i => by simp⟩ fun done gb rest heq t ⟨hlines, hpred⟩ => ?_
  refine (sat_isBand p hr.geom0 (heq ▸ by simp) hlines.touches).imp
    (fun _ u ⟨hlines', hpred'⟩ => ⟨hlines.band hr.geom0 heq hlines', ?_⟩) fun _ _ he => he
  rw [List.flatMap_append, List.flatMap_singleton]
  exact hpred.trans hpred'

/-- Settles O36: every line of an intensity band is remade with the band's factor. -/
theorem isRebuildsTheRightChannel : Obligations.IsRebuildsTheRightChannel := by
  intro s hr
  obtain ⟨t, hrun, hlines, hpred⟩ :=
    runCmd_completes (w := encode .is) hr.idle (sat_isCmd blockParams hr)
  refine ⟨t, hrun, ⟨hlines.touches.regs, hlines.touches.csr⟩, hlines.touches.host,
    fun g v i b hl hin his => ?_, fun g b hgrp hband his => ?_, fun sp k hk => ?_⟩
  · have hmem := (mem_work_iff hr.geom0).2 ⟨isApplies_iff.2 his, v, i, hl, hin, rfl⟩
    rw [← isFactor_eq_isScale his]
    exact (hlines.made _ hmem).2
  · have hb : b ∈ (s.csr.bandList .c0).flatMap (clearedBands s) :=
      mem_clearedBands.2 ⟨g, mem_bandList.2 ⟨hgrp, hband⟩, isApplies_iff.2 his⟩
    exact ⟨(hpred _).trans (if_pos ⟨b, hb, .inl rfl⟩), (hpred _).trans (if_pos ⟨b, hb, .inr rfl⟩)⟩
  · by_cases hspec : sp = .spec
    · subst hspec
      refine hlines.elem_of_isRules ?_
      rintro ⟨⟨g, b⟩, p⟩ hx heq
      obtain ⟨happ, v, i, hl, hin, rfl⟩ := (mem_work_iff hr.geom0).1 hx
      exact hk (.inl ⟨rfl, g, v, i, b, hl, hin, isApplies_iff.1 happ, heq⟩)
    · by_cases hp : sp = .pred
      · subst hp
        refine (hpred k).trans (if_neg ?_)
        rintro ⟨b, hb, heq⟩
        obtain ⟨g, hgb, happ⟩ := mem_clearedBands.1 hb
        obtain ⟨hgrp, hband⟩ := mem_bandList.1 hgb
        exact hk (.inr ⟨rfl, g, b, hgrp, hband, isApplies_iff.1 happ, heq⟩)
      · exact hlines.touches.elem (by simp [only2, hspec, hp]) k

end Sys2Proof.Machine
end

section
/-! SUPPORT. TNSL (44_tns.md R236): its checks in order, and the state in which the coefficients of
a slot stand in LPCBUF. -/

namespace Sys2Proof.Machine

open Sys2Proof

variable {s : State} {c : Channel} {f : BitVec 2}

/-! ### The coefficients of a slot in LPCBUF -/

/-- The coefficients of a slot are written to LPCBUF. -/
def withLpc (c : Channel) (v g : Nat) (s : State) : State :=
  { s with
    mem := s.mem.writeRun .lpcbuf 0 (lpcFrom (s.slotCoefs blockParams c v g) s.nanDraws).1
    nanDraws := (lpcFrom (s.slotCoefs blockParams c v g) s.nanDraws).2 }

section

variable {v g : Nat} (h : Ref.SlotValid s c v g)
include h

theorem lpcbuf_fits :
    0 + (lpcFrom (s.slotCoefs blockParams c v g) s.nanDraws).1.length ≤ Space.lpcbuf.size := by
  rw [(lpcFrom_slot h _).1]
  decide

theorem touches_withLpc {w : Space → Bool} (hw : w .lpcbuf = true) :
    Touches w s (withLpc c v g s) :=
  ((Touches.refl w s).writeRun hw (lpcbuf_fits h)).nanDraws _

theorem elem_withLpc (k : Nat) : (withLpc c v g s).elem .lpcbuf k =
    if k < 21 then (lpcFrom (s.slotCoefs blockParams c v g) s.nanDraws).1.getD k 0
    else s.elem .lpcbuf k := by
  refine (elem_writeRun s .lpcbuf 0 _ k).trans ?_
  simp [(lpcFrom_slot h _).1]

theorem lpcOf_withLpc : Ref.LpcOf s c v g fun k => (withLpc c v g s).elem .lpcbuf k := by
  obtain ⟨-, a, hrows, ha⟩ := lpcFrom_slot h s.nanDraws
  exact ⟨a, hrows, fun k hk => (elem_withLpc h k).trans ((if_pos (by omega)).trans (ha k hk))⟩

end

/-- The first coefficient is 1.0 (44_tns.md R234). -/
theorem Ref.LpcOf.zero {v g : Nat} {lpc : Nat → F32} (h : Ref.LpcOf s c v g lpc) :
    lpc 0 = 0x3F800000#32 := by
  obtain ⟨a, hrows, ha⟩ := h
  exact (ha 0 (Nat.zero_le _)).trans (hrows.lead _ le_rfl)

/-! ### TNSL -/

/-- The checks of TNSL for a legal slot number, in their order, and its effect. -/
theorem sat_tnslCmd {w : BitVec 3} (hf : f.toNat ≤ 2) {Q : Unit → State → Prop}
    {E : Stop → State → Prop} : Sat (tnslCmd blockParams c w f) s Q E ↔
      (s.csr.nwin c ≤ w.toNat → E (.raised .cmdError) s) ∧
      (w.toNat < s.csr.nwin c → ¬ Ref.SlotValid s c w.toNat f.toNat →
        E (.raised .formatError) s) ∧
      (w.toNat < s.csr.nwin c → Ref.SlotValid s c w.toNat f.toNat →
        Q () (withLpc c w.toNat f.toNat s)) := by
  have hlegal : decide (legalSlot f) = true := decide_eq_true hf
  simp only [tnslCmd, sat_bind, sat_get, sat_check, hlegal, if_true, decide_eq_true_eq, sat_drawing]
  by_cases hw : w.toNat < s.csr.nwin c
  · by_cases hv : Ref.SlotValid s c w.toNat f.toNat
    · rw [if_pos hw, if_pos ((slotOk_iff _ _ _ _).2 hv), sat_storeRun, if_pos (lpcbuf_fits hv)]
      simp only [not_le.2 hw, hw, hv, not_true, false_implies, true_implies, true_and]
      rfl
    · rw [if_pos hw, if_neg ((slotOk_iff _ _ _ _).not.2 hv)]
      simp [hw, hv]
  · simp [hw, not_lt.1 hw]

/-- Settles O39: a slot that passes the checks has its coefficients in LPCBUF and nothing else is
written. -/
theorem tnslComputesCoefficients : Obligations.TnslComputesCoefficients := by
  intro c w f s hidle hf hw hv
  have hlpc := lpcOf_withLpc hv
  have htouch := touches_withLpc (w := only .lpcbuf) hv rfl
  refine ⟨withLpc c w.toNat f.toNat s, runCmd_eq_next hidle ((sat_tnslCmd hf).2
    ⟨fun h => absurd hw h.not_gt, fun _ h => h hv, fun _ _ => rfl⟩),
    ⟨htouch.regs, htouch.csr⟩, htouch.host, hlpc, hlpc.zero,
    htouch.consumes.sameExcept fun k hk => ?_⟩
  exact (elem_withLpc hv k).trans (if_neg fun hlt => hk ⟨rfl, hlt⟩)

/-! ### The faults of TNSL and TNS -/

theorem slotsOk_iff : s.slotsOk c = true ↔
    ∀ v < s.csr.nwin c, ∀ g < s.tnsn c v, Ref.SlotValid s c v g := by
  simp [State.slotsOk, slotOk_iff]

/-- TNS checks the geometry and every slot in use before its walk (44_tns.md R240). -/
theorem sat_tnsCmd (hg : Ref.Geometry s c) {Q : Unit → State → Prop} {E : Stop → State → Prop} :
    Sat (tnsCmd blockParams c) s Q E ↔
      if s.slotsOk c then
        Sat (each (tnsWindow blockParams c) (upTo 0 (s.csr.nwin c))) s Q E
      else E (.raised .formatError) s := by
  simp [tnsCmd, sat_geomCheck, hg]

/-- Settles O38: TNSL and TNS check before they write. -/
theorem slotFaults : Obligations.SlotFaults := by
  intro c w f s hidle hf
  refine ⟨fun hw => ?_, fun hw hv => ?_, fun hg hw hin hv => ?_⟩
  · exact runCmd_recorded (by decide) hidle ((sat_tnslCmd hf).2
      ⟨fun _ => ⟨rfl, rfl⟩, fun h => absurd h hw.not_gt, fun h => absurd h hw.not_gt⟩) _
  · exact runCmd_formatFault _ hidle ((sat_tnslCmd hf).2
      ⟨fun h => absurd hw h.not_gt, fun _ _ => ⟨rfl, rfl⟩, fun _ h => absurd h hv⟩)
  · have hbad : ¬ s.slotsOk c = true := fun h => hv (slotsOk_iff.1 h _ hw _ hin)
    refine runCmd_formatFault _ hidle ((sat_tnsCmd hg).2 ?_)
    rw [if_neg hbad]
    exact ⟨rfl, rfl⟩

end Sys2Proof.Machine
end

section
/-! SUPPORT. TNS (44_tns.md R237 to R241): the lines of a slot, what one active slot does, the state
of the walk before each slot, and the walk. -/

namespace Sys2Proof.Machine

open Sys2Proof

variable {s t u : State} {c : Channel} {w f v g n : Nat}

/-! ### Loops over rising numbers -/

theorem eq_length_of_upTo_split {i : Nat} {done rest : List Nat}
    (h : upTo 0 n = done ++ i :: rest) : i = done.length ∧ i < n := by
  have hi : i ∈ upTo 0 n := h ▸ by simp
  have hget : (upTo 0 n)[done.length]? = some i := by simp [h]
  have hlen : done.length < n := by simpa [length_upTo] using List.getElem?_eq_some_iff.1 hget |>.1
  rw [getElem?_upTo hlen] at hget
  exact ⟨by simpa using hget.symm, (mem_upTo.1 hi).2⟩

/-- A loop over 0, …, n - 1 keeps what holds before each round. -/
theorem sat_each_upTo {m : Nat → Cmd Unit} {I : Nat → State → Prop} {E : Stop → State → Prop}
    (hI : I 0 s) (hm : ∀ i < n, ∀ t, I i t → Sat (m i) t (fun _ u => I (i + 1) u) E) :
    Sat (each m (upTo 0 n)) s (fun _ t => I n t) E := by
  have hloop := sat_each (f := m) (l := upTo 0 n) (I := fun done t => I done.length t) (E := E) hI
    fun done i rest heq t ht => by
      obtain ⟨rfl, hi⟩ := eq_length_of_upTo_split heq
      simpa using hm _ hi t ht
  simpa only [length_upTo, Nat.sub_zero] using hloop

/-- The same for a loop that carries a value. -/
theorem sat_carry_upTo {β : Type} {m : β → Nat → Cmd β} {b : β} {I : Nat → β → State → Prop}
    {E : Stop → State → Prop} (hI : I 0 b s)
    (hm : ∀ i < n, ∀ b t, I i b t → Sat (m b i) t (fun b' u => I (i + 1) b' u) E) :
    Sat (carry m b (upTo 0 n)) s (fun b' t => I n b' t) E := by
  have hloop := sat_carry (f := m) (l := upTo 0 n) (I := fun done b t => I done.length b t) (E := E)
    hI fun done i rest heq b t ht => by
      obtain ⟨rfl, hi⟩ := eq_length_of_upTo_split heq
      simpa using hm _ hi b t ht
  simpa only [length_upTo, Nat.sub_zero] using hloop

/-! ### The lines of a slot -/

/-- The number of lines of a slot's range (44_tns.md R237). -/
def slotSize (s : State) (c : Channel) (w f : Nat) : Nat :=
  Ref.slotEnd s c w f - Ref.slotStart s c w f

theorem slotTop_succ :
    Ref.slotTop s c w (f + 1) = Ref.slotTop s c w f - (s.tnsf c w f).len := by
  rw [Ref.slotTop, Finset.sum_range_succ, Ref.slotTop, Nat.sub_sub]

theorem slotTop_anti (h : g ≤ f) : Ref.slotTop s c w f ≤ Ref.slotTop s c w g :=
  Nat.sub_le_sub_left (Finset.sum_le_sum_of_subset (Finset.range_mono h)) _

theorem slotEnd_le_wl (hg : Ref.Geometry s c) : Ref.slotEnd s c w f ≤ s.csr.wl c :=
  hg.off_le (by have := hg.bands; omega)

/-- A slot's range lies below the range of every slot of its window that comes before it. -/
theorem slotEnd_le_slotStart (hg : Ref.Geometry s c) (h : g < f) :
    Ref.slotEnd s c w f ≤ Ref.slotStart s c w g := by
  have htop := slotTop_anti (s := s) (c := c) (w := w) (show g + 1 ≤ f from h)
  have hbands := hg.bands
  exact hg.off_mono (by omega) (by omega)

theorem slotLine_eq (hn : n < slotSize s c w f) :
    ∃ i, Ref.slotStart s c w f ≤ i ∧ i < Ref.slotEnd s c w f ∧
      Ref.slotLine s c w f n = w * s.csr.wl c + i := by
  unfold slotSize at hn
  refine ⟨_, ?_, ?_, rfl⟩ <;> split <;> omega

/-- No line belongs to two slots. -/
theorem slotLine_ne (hg : Ref.Geometry s c) (hne : (v, g) ≠ (w, f)) {m : Nat}
    (hm : m < slotSize s c v g) (hn : n < slotSize s c w f) :
    Ref.slotLine s c v g m ≠ Ref.slotLine s c w f n := by
  obtain ⟨i, hi, hi', hline⟩ := slotLine_eq hm
  obtain ⟨j, hj, hj', hline'⟩ := slotLine_eq hn
  have hend := slotEnd_le_wl (w := v) (f := g) hg
  have hend' := slotEnd_le_wl (w := w) (f := f) hg
  rw [hline, hline']
  rcases lt_trichotomy v w with hlt | rfl | hgt
  · have := Nat.mul_le_mul_right (s.csr.wl c) (show v + 1 ≤ w from hlt)
    rw [Nat.succ_mul] at this
    omega
  · rcases Nat.lt_or_gt_of_ne (show g ≠ f from fun h => hne (h ▸ rfl)) with hlt | hgt
    · have := slotEnd_le_slotStart (w := v) hg hlt
      omega
    · have := slotEnd_le_slotStart (w := v) hg hgt
      omega
  · have := Nat.mul_le_mul_right (s.csr.wl c) (show w + 1 ≤ v from hgt)
    rw [Nat.succ_mul] at this
    omega

/-- The lines the model runs a slot's filter over. -/
def walkLines (s : State) (c : Channel) (w f : Nat) : List Nat :=
  s.slotLines c w (s.tnsf c w f).down
    (s.slotRange c (Ref.slotTop s c w f) (Ref.slotTop s c w (f + 1)))

theorem length_walkLines : (walkLines s c w f).length = slotSize s c w f := by
  have hlen : ∀ b : Bool, ∀ q, (s.slotLines c w b q).length = q.2 - q.1 := fun b q => by
    cases b <;> simp [State.slotLines, length_upTo]
  exact hlen _ _

theorem nodup_walkLines : (walkLines s c w f).Nodup := by
  have hup : ∀ lo hi, ((upTo lo hi).map (w * s.csr.wl c + ·)).Nodup := fun lo hi =>
    (nodup_upTo lo hi).map (add_right_injective _)
  unfold walkLines State.slotLines
  dsimp only
  split
  · exact List.nodup_reverse.2 (hup _ _)
  · exact hup _ _

/-- They are the slot's lines in traversal order. -/
theorem getD_walkLines (hn : n < slotSize s c w f) :
    (walkLines s c w f).getD n 0 = Ref.slotLine s c w f n := by
  have hrange : s.slotRange c (Ref.slotTop s c w f) (Ref.slotTop s c w (f + 1)) =
      (Ref.slotStart s c w f, Ref.slotEnd s c w f) := rfl
  unfold slotSize at hn
  rw [walkLines, hrange, State.slotLines, Ref.slotLine, List.getD_eq_getElem?_getD]
  dsimp only
  split
  · rw [List.getElem?_reverse (by simpa [length_upTo] using hn), List.length_map, length_upTo,
      List.getElem?_map, getElem?_upTo (by omega)]
    simp only [Option.map_some, Option.getD_some]
    omega
  · rw [List.getElem?_map, getElem?_upTo hn]
    rfl

theorem mem_walkLines {p : Nat} :
    p ∈ walkLines s c w f ↔ ∃ n < slotSize s c w f, p = Ref.slotLine s c w f n := by
  rw [List.mem_iff_getElem]
  simp only [length_walkLines]
  have hget : ∀ n, ∀ h : n < slotSize s c w f,
      (walkLines s c w f)[n]'(by rwa [length_walkLines]) = Ref.slotLine s c w f n := fun n h => by
    rw [← getD_walkLines h, List.getD_eq_getElem]
  exact ⟨fun ⟨n, hn, hp⟩ => ⟨n, hn, hp ▸ hget n hn⟩, fun ⟨n, hn, hp⟩ => ⟨n, hn, hp ▸ hget n hn⟩⟩

/-! ### One active slot -/

/-- On the lines of a slot, `new` are the outputs of its filter over `old` (44_tns.md R239). -/
def SlotFiltered (s : State) (c : Channel) (w f : Nat) (lpc : Nat → F32) (old new : Nat → F32) :
    Prop :=
  ∀ n < slotSize s c w f, Ref.Filtered lpc (s.tnsf c w f).order (old (Ref.slotLine s c w f n))
    (fun j => if j < n then new (Ref.slotLine s c w f (n - 1 - j)) else 0)
    (new (Ref.slotLine s c w f n))

theorem SlotFiltered.congr {lpc old new old' new' : Nat → F32}
    (h : SlotFiltered s c w f lpc old new)
    (hold : ∀ n < slotSize s c w f, old' (Ref.slotLine s c w f n) = old (Ref.slotLine s c w f n))
    (hnew : ∀ n < slotSize s c w f, new' (Ref.slotLine s c w f n) = new (Ref.slotLine s c w f n)) :
    SlotFiltered s c w f lpc old' new' := by
  intro n hn
  have hpast : (fun j => if j < n then new' (Ref.slotLine s c w f (n - 1 - j)) else 0) =
      fun j => if j < n then new (Ref.slotLine s c w f (n - 1 - j)) else 0 :=
    funext fun j => if_congr Iff.rfl (hnew _ (by omega)) rfl
  rw [hold n hn, hnew n hn, hpast]
  exact h n hn

/-- An active slot of the walk from `s` takes `t` to `u`: it leaves its coefficients `lpc` in LPCBUF
and its filter's outputs on its lines. -/
structure SlotRun (s : State) (c : Channel) (w f : Nat) (lpc : Nat → F32) (t u : State) :
    Prop where
  touches : Touches (only2 .spec .lpcbuf) t u
  lpcOf : Ref.LpcOf s c w f lpc
  buffer : ∀ k < 21, u.elem .lpcbuf k = lpc k
  filtered : SlotFiltered s c w f lpc (Ref.line t .spec c) (Ref.line u .spec c)
  specFrame : ∀ i, (∀ n < slotSize s c w f, i ≠ 1024 * c.num + Ref.slotLine s c w f n) →
    u.elem .spec i = t.elem .spec i
  bufferFrame : ∀ k, 21 ≤ k → u.elem .lpcbuf k = t.elem .lpcbuf k

theorem clear_specLpcbuf : Clear (only2 .spec .lpcbuf) := ⟨rfl, rfl, rfl⟩

theorem Touches.lpcOf {wr : Space → Bool} (h : Touches wr s t) (hf : wr .tnsf = false)
    (hc : wr .tnsc = false) {lpc : Nat → F32} (hl : Ref.LpcOf t c w f lpc) :
    Ref.LpcOf s c w f lpc := by
  have hcoef : Ref.coef t c w f = Ref.coef s c w f := by
    funext k
    simp only [Ref.coef, h.tnsf hf, State.tnsc, h.elem hc]
  rwa [Ref.LpcOf, hcoef, h.tnsf hf] at hl

/-- The filter of an active slot, after its coefficients are in LPCBUF. -/
theorem sat_arFilter_slot (hg : Ref.Geometry s c) (hw : w < s.csr.nwin c)
    (hv : Ref.SlotValid s c w f) (ha : (s.tnsf c w f).order ≠ 0)
    (h : Touches (only2 .spec .lpcbuf) s t) :
    Sat (arFilter c (lpcFrom (t.slotCoefs blockParams c w f) t.nanDraws).1 (s.tnsf c w f).order
        (walkLines s c w f)) (withLpc c w f t)
      (fun _ u => ∃ lpc, SlotRun s c w f lpc t u) fun _ _ => False := by
  have hvt := h.slotValid rfl rfl hv
  have hstored := touches_withLpc (w := only2 .spec .lpcbuf) hvt rfl
  have hspec : ∀ i, (withLpc c w f t).elem .spec i = t.elem .spec i :=
    (touches_withLpc (w := only .lpcbuf) hvt rfl).elem rfl
  refine (sat_arFilter c _ (Nat.pos_of_ne_zero ha) nodup_walkLines
    (fun p hp => slotLines_lt hg hw hp) _).imp (fun _ u ⟨htouch, hframe, hfil⟩ => ?_)
    fun _ _ he => he
  have hbuf : ∀ k, u.elem .lpcbuf k = (withLpc c w f t).elem .lpcbuf k := htouch.elem rfl
  refine ⟨_, hstored.trans (htouch.mono (by simp [only, only2])),
    h.lpcOf rfl rfl (lpcFrom_slot hvt t.nanDraws).2, fun k hk => ?_, fun n hn => ?_,
    fun i hi => ?_, fun k hk => ?_⟩
  · exact (hbuf k).trans ((elem_withLpc hvt k).trans (if_pos hk))
  · have hpast : (fun j => if j < n then
          Ref.line u .spec c ((walkLines s c w f).getD (n - 1 - j) 0) else 0) =
        fun j => if j < n then Ref.line u .spec c (Ref.slotLine s c w f (n - 1 - j)) else 0 :=
      funext fun j => if_congr Iff.rfl (by rw [getD_walkLines (by omega)]) rfl
    have hout := hfil n (by rwa [length_walkLines])
    rwa [hpast, getD_walkLines hn, Ref.line, hspec] at hout
  · refine (hframe .spec i ?_).trans (hspec i)
    rintro ⟨-, p, hp, heq⟩
    obtain ⟨n, hn, rfl⟩ := mem_walkLines.1 hp
    exact hi n hn heq
  · exact (hbuf k).trans ((elem_withLpc hvt k).trans (if_neg hk.not_gt))

/-- One slot of the walk: an inactive one only uses up its span. -/
theorem sat_tnsSlot (hg : Ref.Geometry s c) (hw : w < s.csr.nwin c)
    (hv : Ref.SlotValid s c w f) (h : Touches (only2 .spec .lpcbuf) s t) :
    Sat (tnsSlot blockParams c w (Ref.slotTop s c w f) f) t
      (fun bottom u => bottom = Ref.slotTop s c w (f + 1) ∧
        if (s.tnsf c w f).order = 0 then u = t else ∃ lpc, SlotRun s c w f lpc t u)
      fun _ _ => False := by
  simp only [tnsSlot, sat_bind, sat_get, h.tnsf rfl, ← slotTop_succ, sat_ite, sat_pure, true_and]
  split
  next => trivial
  next ha =>
    rw [sat_drawing, sat_storeRun, if_pos (lpcbuf_fits (h.slotValid rfl rfl hv)),
      h.slotLines clear_specLpcbuf]
    exact sat_arFilter_slot hg hw hv ha h

/-! ### The walk -/

/-- Slot g of window v is active and comes before slot f of window w in the walk. -/
def ActiveBefore (s : State) (c : Channel) (w f v g : Nat) : Prop :=
  Ref.ActiveSlot s c v g ∧ (v < w ∨ v = w ∧ g < f)

/-- The walk from `s` is in `t` before slot f of window w; the active slots behind it had the
coefficients `lpc`. -/
structure Walked (s : State) (c : Channel) (w f : Nat) (lpc : Nat × Nat → Nat → F32) (t : State) :
    Prop where
  touches : Touches (only2 .spec .lpcbuf) s t
  lpcOf : ∀ v g, ActiveBefore s c w f v g → Ref.LpcOf s c v g (lpc (v, g))
  filtered : ∀ v g, ActiveBefore s c w f v g →
    SlotFiltered s c v g (lpc (v, g)) (Ref.line s .spec c) (Ref.line t .spec c)
  buffer : ∀ v g, ActiveBefore s c w f v g →
    (∀ v' g', ActiveBefore s c w f v' g' → v' < v ∨ v' = v ∧ g' ≤ g) →
    ∀ k < 21, t.elem .lpcbuf k = lpc (v, g) k
  specFrame : ∀ i, (∀ v g n, ActiveBefore s c w f v g → n < slotSize s c v g →
    i ≠ 1024 * c.num + Ref.slotLine s c v g n) → t.elem .spec i = s.elem .spec i
  bufferFrame : ∀ k, ¬ (k < 21 ∧ ∃ v g, ActiveBefore s c w f v g) →
    t.elem .lpcbuf k = s.elem .lpcbuf k

theorem not_activeBefore_start : ¬ ActiveBefore s c 0 0 v g := fun ⟨_, h⟩ => by omega

theorem Walked.start (s : State) (c : Channel) (lpc : Nat × Nat → Nat → F32) :
    Walked s c 0 0 lpc s where
  touches := .refl _ s
  lpcOf _ _ h := absurd h not_activeBefore_start
  filtered _ _ h := absurd h not_activeBefore_start
  buffer _ _ h := absurd h not_activeBefore_start
  specFrame _ _ := rfl
  bufferFrame _ _ := rfl

variable {lpc : Nat × Nat → Nat → F32}

/-- Two places of the walk with the same active slots behind them. -/
theorem Walked.congr (h : Walked s c w f lpc t) {w' f' : Nat}
    (hb : ActiveBefore s c w' f' = ActiveBefore s c w f) : Walked s c w' f' lpc t := by
  refine ⟨h.touches, ?_, ?_, ?_, ?_, ?_⟩ <;> rw [hb]
  exacts [h.lpcOf, h.filtered, h.buffer, h.specFrame, h.bufferFrame]

/-- Passing an inactive slot. -/
theorem Walked.inactive (h : Walked s c w f lpc t) (ha : (s.tnsf c w f).order = 0) :
    Walked s c w (f + 1) lpc t := by
  refine h.congr (funext₂ fun v g => propext (and_congr_right fun hact => ?_))
  have hne : ¬ (v = w ∧ g = f) := fun ⟨hv, hg⟩ => hact.2.2 (hv ▸ hg ▸ ha)
  omega

/-- The end of a window. -/
theorem Walked.window (h : Walked s c w (s.tnsn c w) lpc t) : Walked s c (w + 1) 0 lpc t := by
  refine h.congr (funext₂ fun v g => propext (and_congr_right fun hact => ?_))
  have hlt : v = w → g < s.tnsn c w := fun hv => hv ▸ hact.2.1
  omega

theorem activeBefore_succ (ha : Ref.ActiveSlot s c w f) :
    ActiveBefore s c w (f + 1) v g ↔ ActiveBefore s c w f v g ∨ (v, g) = (w, f) := by
  unfold ActiveBefore
  rw [Prod.mk.injEq]
  constructor
  · rintro ⟨hact, h⟩
    by_cases hsame : v = w ∧ g = f
    · exact .inr hsame
    · exact .inl ⟨hact, by omega⟩
  · rintro (⟨hact, h⟩ | ⟨rfl, rfl⟩)
    · exact ⟨hact, by omega⟩
    · exact ⟨ha, by omega⟩

theorem ActiveBefore.ne (h : ActiveBefore s c w f v g) : (v, g) ≠ (w, f) := by
  obtain ⟨-, h⟩ := h
  rw [ne_eq, Prod.mk.injEq]
  omega

/-- Passing an active slot: the slots behind keep what they have, since no line is theirs and this
slot's. -/
theorem Walked.active (hg : Ref.Geometry s c) (h : Walked s c w f lpc t)
    (ha : Ref.ActiveSlot s c w f) {l : Nat → F32} (hrun : SlotRun s c w f l t u) :
    Walked s c w (f + 1) (Function.update lpc (w, f) l) u := by
  have hold : ∀ v g, ActiveBefore s c w f v g → Function.update lpc (w, f) l (v, g) = lpc (v, g) :=
    fun v g hb => Function.update_of_ne hb.ne _ _
  have hnew : Function.update lpc (w, f) l (w, f) = l := Function.update_self _ _ _
  refine ⟨h.touches.trans hrun.touches, fun v g hb => ?_, fun v g hb => ?_, fun v g hb hlast => ?_,
    fun i hi => ?_, fun k hk => ?_⟩
  · rcases (activeBefore_succ ha).1 hb with hb | heq
    · exact hold v g hb ▸ h.lpcOf v g hb
    · obtain ⟨rfl, rfl⟩ := Prod.mk.inj heq
      rw [hnew]
      exact hrun.lpcOf
  · rcases (activeBefore_succ ha).1 hb with hb | heq
    · rw [hold v g hb]
      refine (h.filtered v g hb).congr (fun _ _ => rfl) fun m hm => hrun.specFrame _ fun n hn => ?_
      exact fun heq => slotLine_ne hg hb.ne hm hn (by omega)
    · obtain ⟨rfl, rfl⟩ := Prod.mk.inj heq
      rw [hnew]
      refine hrun.filtered.congr (fun m hm => (h.specFrame _ fun v' g' n hb' hn heq => ?_).symm)
        fun _ _ => rfl
      exact slotLine_ne hg hb'.ne hn hm (by omega)
  · have heq : (v, g) = (w, f) := by
      have hle := hlast w f ((activeBefore_succ ha).2 (.inr rfl))
      rcases (activeBefore_succ ha).1 hb with ⟨-, hlt⟩ | heq
      · omega
      · exact heq
    obtain ⟨rfl, rfl⟩ := Prod.mk.inj heq
    rw [hnew]
    exact hrun.buffer
  · refine (hrun.specFrame i fun n hn => ?_).trans (h.specFrame i fun v g n hb hn => ?_)
    · exact hi w f n ((activeBefore_succ ha).2 (.inr rfl)) hn
    · exact hi v g n ((activeBefore_succ ha).2 (.inl hb)) hn
  · have hk21 : 21 ≤ k := by
      by_contra hlt
      exact hk ⟨by omega, w, f, (activeBefore_succ ha).2 (.inr rfl)⟩
    exact (hrun.bufferFrame k hk21).trans (h.bufferFrame k fun hlt => by omega)

section

variable (hg : Ref.Geometry s c)
  (hv : ∀ w < s.csr.nwin c, ∀ f < s.tnsn c w, Ref.SlotValid s c w f)
include hg hv

theorem sat_tnsWindow (hw : w < s.csr.nwin c) (h : ∃ lpc, Walked s c w 0 lpc t) :
    Sat (tnsWindow blockParams c w) t (fun _ u => ∃ lpc, Walked s c (w + 1) 0 lpc u)
      fun _ _ => False := by
  obtain ⟨lpc, h⟩ := h
  have htnsn : t.tnsn c w = s.tnsn c w := by
    simp only [State.tnsn, h.touches.elem (sp := .tnsn) rfl]
  rw [tnsWindow, sat_bind, sat_get, h.touches.csr, htnsn, sat_bind]
  refine (sat_carry_upTo (I := fun f top t => top = Ref.slotTop s c w f ∧
    ∃ lpc, Walked s c w f lpc t) ⟨rfl, lpc, h⟩ fun f hf top t ht => ?_).imp
    (fun _ u ⟨_, lpc, hu⟩ => ⟨lpc, hu.window⟩) fun _ _ he => he
  obtain ⟨rfl, lpc, ht⟩ := ht
  refine (sat_tnsSlot hg hw (hv w hw f hf) ht.touches).imp (fun bottom u ⟨hbottom, hu⟩ =>
    ⟨hbottom, ?_⟩) fun _ _ he => he
  split at hu
  next ha => exact ⟨lpc, hu ▸ ht.inactive ha⟩
  next ha =>
    obtain ⟨l, hrun⟩ := hu
    exact ⟨_, ht.active hg ⟨hw, hf, ha⟩ hrun⟩

/-- The whole walk. -/
theorem sat_tnsCmd_walked : Sat (tnsCmd blockParams c) s
    (fun _ t => ∃ lpc, Walked s c (s.csr.nwin c) 0 lpc t) fun _ _ => False := by
  rw [sat_tnsCmd hg, if_pos (slotsOk_iff.2 hv)]
  exact sat_each_upTo (I := fun w t => ∃ lpc, Walked s c w 0 lpc t)
    ⟨fun _ _ => 0, .start s c _⟩ fun w hw t ht => sat_tnsWindow hg hv hw ht

end

theorem activeBefore_end : ActiveBefore s c (s.csr.nwin c) 0 = Ref.ActiveSlot s c :=
  funext₂ fun _ _ => propext ⟨And.left, fun h => ⟨h, .inl h.1⟩⟩

/-- Settles O40: at its end the walk has every active slot behind it. -/
theorem tnsFiltersTheSpectrum : Obligations.TnsFiltersTheSpectrum := by
  intro c s hidle hg hv
  obtain ⟨t, hrun, lpc, ht⟩ :=
    runCmd_completes (w := encode (.tns c)) hidle (sat_tnsCmd_walked hg hv)
  obtain ⟨htouch, hlpc, hfil, hbuf, hspec, hframe⟩ := ht
  rw [activeBefore_end] at hlpc hfil hbuf hspec hframe
  refine ⟨t, fun w f => lpc (w, f), hrun, ⟨htouch.regs, htouch.csr⟩, htouch.host,
    fun w f ha => ⟨hlpc w f ha, hfil w f ha⟩,
    fun w f ha hlast k hk => hbuf w f ha hlast k (Nat.lt_succ_of_le hk), fun sp k hk => ?_⟩
  by_cases hs : sp = .spec
  · subst hs
    exact hspec k fun w f n ha hn heq => hk (.inl ⟨rfl, w, f, n, ha, hn, heq⟩)
  · by_cases hl : sp = .lpcbuf
    · subst hl
      exact hframe k fun ⟨hlt, ha⟩ => hk (.inr ⟨rfl, hlt, ha⟩)
    · exact htouch.elem (by simp [only2, hs, hl]) k

end Sys2Proof.Machine
end

section
/-! SUPPORT. How near the stored value of a ROM entry is to the real number it was computed from
(00_scope.md R12, R21; log 7): one rounding, the fixed-point roots and the integer roots. -/

namespace Sys2Proof.Machine

open Sys2Proof Rom

variable {n k : ℕ} {x δ : ℝ}

/-! ### One rounding -/

/-- Rounding moves a number by a relative 2^-24, or by half of 2^-149 where it is subnormal. -/
theorem abs_roundShift_sub_le (n k : ℕ) :
    |(Flt.roundShift n (k + Flt.ulpExp n k) * 2 ^ Flt.ulpExp n k : ℝ) - n / 2 ^ k| ≤
      n / 2 ^ k / 2 ^ 24 + 1 / 2 := by
  have hnear := (Flt.roundShift_near n (k + Flt.ulpExp n k)).1
  have hlo := (Flt.ulpExp_bounds n k).1
  generalize Flt.ulpExp n k = e at *
  generalize Flt.roundShift n (k + e) = r at *
  have hreal : |2 * (n : ℝ) - 2 * (r * 2 ^ (k + e))| ≤ 2 ^ (k + e) := by exact_mod_cast hnear
  have hulp : (2 : ℝ) ^ e ≤ n / 2 ^ k / 2 ^ 23 + 1 := by
    rcases Nat.eq_zero_or_pos e with rfl | he
    · rw [pow_zero]
      linarith [show (0 : ℝ) ≤ n / 2 ^ k / 2 ^ 23 by positivity]
    · have hle : (2 : ℝ) ^ 23 * 2 ^ (k + e) ≤ n := by exact_mod_cast hlo he.ne'
      have : (2 : ℝ) ^ e ≤ n / 2 ^ k / 2 ^ 23 := by
        rw [le_div_iff₀ (by positivity), le_div_iff₀ (by positivity)]
        calc _ = (2 : ℝ) ^ 23 * 2 ^ (k + e) := by rw [pow_add]; ring
          _ ≤ n := hle
      linarith
  have hscale : |2 * (n : ℝ) - 2 * (r * 2 ^ (k + e))| =
      2 ^ k * (2 * |(r * 2 ^ e : ℝ) - n / 2 ^ k|) := by
    rw [show 2 * (n : ℝ) - 2 * (r * 2 ^ (k + e)) = -(2 ^ k * (2 * (r * 2 ^ e - n / 2 ^ k))) by
      rw [pow_add]; field_simp; ring, abs_neg, abs_mul, abs_mul, abs_pow, abs_two]
  rw [hscale, pow_add, mul_le_mul_iff_of_pos_left (by positivity)] at hreal
  linarith

/-- A non-negative number that is not too great is rounded to a finite one. -/
theorem roundMag_finite (hlt : (n : ℝ) / 2 ^ k < 2 ^ 150) :
    Flt.isFinite (BitVec.ofNat 32 (Flt.roundMag n k)) = true ∧
    (Flt.value (BitVec.ofNat 32 (Flt.roundMag n k)) : ℝ) =
      Flt.roundShift n (k + Flt.ulpExp n k) * 2 ^ Flt.ulpExp n k := by
  have hp : Flt.ulpExp n k * 2 ^ 23 + Flt.roundShift n (k + Flt.ulpExp n k) < Flt.infPattern := by
    rw [← not_le, (Flt.nearest_ulpExp_roundShift n k).infPattern_le_iff, not_le]
    exact hlt.trans (by norm_num)
  have hmag : Flt.roundMag n k =
      Flt.ulpExp n k * 2 ^ 23 + Flt.roundShift n (k + Flt.ulpExp n k) := min_eq_left hp.le
  have hp31 := Flt.roundMag_lt n k
  have hword : BitVec.ofNat 32 (Flt.roundMag n k) = Flt.withSign false (Flt.roundMag n k) := by
    simp [Flt.withSign]
  obtain ⟨hlo, hhi⟩ := Flt.ulpExp_bounds n k
  rw [hword, Flt.isFinite_iff, Flt.value_eq, Flt.neg_withSign _ hp31, Flt.mag_withSign _ hp31, hmag]
  exact ⟨hp, Flt.magUnits_pack_cast (or_iff_not_imp_left.2 fun h => Flt.le_roundShift (hlo h))
    (Flt.roundShift_le hhi)⟩

/-- A non-negative number near x, rounded, is near x. -/
theorem near_roundMag {tol : ℝ} (hx : |n / 2 ^ (149 + k) - x| ≤ δ)
    (hlt : (n : ℝ) / 2 ^ (149 + k) < 2) (htol : 2 * δ + 1 / 2 ^ 150 ≤ tol) :
    Ref.Near (BitVec.ofNat 32 (Flt.roundMag n k)) x tol := by
  have hn : (n : ℝ) / 2 ^ k = 2 ^ 149 * (n / 2 ^ (149 + k)) := by rw [pow_add]; field_simp
  obtain ⟨hfin, hval⟩ := roundMag_finite (n := n) (k := k) (by rw [hn]; norm_num; linarith)
  have hround := abs_roundShift_sub_le n k
  refine ⟨hfin, ?_⟩
  rw [← hval, hn] at hround
  generalize (Flt.value (BitVec.ofNat 32 (Flt.roundMag n k)) : ℝ) = v at *
  generalize (n : ℝ) / 2 ^ (149 + k) = y at *
  have hv : |v / 2 ^ 149 - y| ≤ y / 2 ^ 24 + 1 / 2 ^ 150 := by
    rw [show v - 2 ^ 149 * y = 2 ^ 149 * (v / 2 ^ 149 - y) by field_simp, abs_mul, abs_pow,
      abs_two] at hround
    generalize |v / 2 ^ 149 - y| = d at *
    norm_num at hround ⊢
    linarith
  have hy : y ≤ |x| + δ := by linarith [(abs_le.1 hx).2, le_abs_self x]
  have htri := abs_sub_le (v / 2 ^ 149) y x
  have hδ : 0 ≤ δ := (abs_nonneg _).trans hx
  linarith

/-- A fixed-point number near x, rounded, is near x. -/
theorem near_roundFix {X : ℕ} (hx : |(X : ℝ) / 2 ^ 640 - x| ≤ 1 / 2 ^ 64) (hx1 : x ≤ 1) :
    Ref.Near (roundFix X) x (1 / 2 ^ 50) := by
  have hN : ((2 * (X * 2 ^ 149) + 1 : ℕ) : ℝ) / 2 ^ (149 + (fracBits + 1)) =
      X / 2 ^ 640 + 1 / 2 ^ 790 := by
    rw [show 149 + (fracBits + 1) = 790 from rfl]
    push_cast
    field_simp
    norm_num
    ring
  have htiny : (1 : ℝ) / 2 ^ 790 ≤ 1 / 2 ^ 64 :=
    one_div_le_one_div_of_le (by positivity) (pow_le_pow_right₀ (by norm_num) (by norm_num))
  have htiny0 : (0 : ℝ) ≤ 1 / 2 ^ 790 := by positivity
  generalize (1 : ℝ) / 2 ^ 790 = ε at *
  generalize (X : ℝ) / 2 ^ 640 = y at *
  have hnear : |y + ε - x| ≤ 2 * (1 / 2 ^ 64) := by
    rw [add_sub_right_comm]
    exact (abs_add_le _ _).trans (by rw [abs_of_nonneg htiny0]; linarith)
  have hlt : y + ε < 2 := by
    have := (abs_le.1 hnear).2
    norm_num at this
    linarith
  exact near_roundMag (hN ▸ hnear) (hN ▸ hlt) (by norm_num)

/-! ### Integer roots -/

theorem rootBits_spec (p n b acc : ℕ) (hlo : acc ^ p ≤ n) (hhi : n < (acc + 2 ^ b) ^ p) :
    rootBits p n b acc ^ p ≤ n ∧ n < (rootBits p n b acc + 1) ^ p := by
  induction b generalizing acc with
  | zero => exact ⟨hlo, hhi⟩
  | succ b ih =>
    rw [rootBits]
    split
    next h => exact ih _ h (by rwa [Nat.add_assoc, ← Nat.two_mul, ← Nat.pow_succ'])
    next h => exact ih _ hlo (Nat.lt_of_not_le h)

/-- `iroot` is the integer root, rounded down. -/
theorem iroot_spec {p : ℕ} (hp : 0 < p) (n : ℕ) :
    iroot p n ^ p ≤ n ∧ n < (iroot p n + 1) ^ p := by
  refine rootBits_spec p n _ 0 (by rw [Nat.zero_pow hp]; exact Nat.zero_le n) ?_
  rw [Nat.zero_add, ← Nat.pow_mul]
  refine Nat.lt_log2_self.trans_le (Nat.pow_le_pow_right (by decide) ?_)
  have := Nat.lt_div_mul_add (a := Nat.log2 n) hp
  rw [Nat.succ_mul]
  exact this

/-- The square root of a number rounded down, rounded, is near the root of the number. -/
theorem near_roundRoot {y : ℝ} (hy : 0 ≤ y) (hy1 : y ≤ 1)
    (hn : (n : ℝ) ≤ y * 2 ^ 314 ∧ y * 2 ^ 314 ≤ n + 1) (hx : |√y - x| ≤ 1 / 2 ^ 53) :
    Ref.Near (roundRoot 2 n 8) x (1 / 2 ^ 50) := by
  have hroot := iroot_spec (p := 2) (by decide) n
  have hsq : (√y * 2 ^ 157) ^ 2 = y * 2 ^ 314 := by
    rw [mul_pow, Real.sq_sqrt hy, ← pow_mul]
  rw [roundRoot]
  generalize iroot 2 n = r at *
  have hr : (r : ℝ) ≤ √y * 2 ^ 157 := by
    refine le_of_sq_le_sq ?_ (by positivity)
    rw [hsq]
    exact le_trans (by exact_mod_cast hroot.1) hn.1
  have hr' : √y * 2 ^ 157 ≤ r + 1 := by
    refine le_of_sq_le_sq ?_ (by positivity)
    rw [hsq]
    exact hn.2.trans (by exact_mod_cast hroot.2)
  obtain ⟨b, hb, hb1⟩ : ∃ b : ℕ, b = (if r ^ 2 = n then 0 else 1) ∧ b ≤ 1 :=
    ⟨_, rfl, by split <;> omega⟩
  rw [← hb]
  have hb0 : (0 : ℝ) ≤ b := by positivity
  have hb1 : (b : ℝ) ≤ 1 := by exact_mod_cast hb1
  have hsqrt : √y ≤ 1 := Real.sqrt_le_one.2 hy1
  have hN : ((2 * r + b : ℕ) : ℝ) / 2 ^ (149 + (8 + 1)) = (r + b / 2) / 2 ^ 157 := by
    push_cast
    norm_num
    ring
  have hnear : |(r + b / 2) / 2 ^ 157 - √y| ≤ 1 / 2 ^ 157 := by
    rw [show (r + b / 2) / 2 ^ 157 - √y = (r + b / 2 - √y * 2 ^ 157) / 2 ^ 157 by field_simp,
      abs_div, abs_of_pos (show (0 : ℝ) < 2 ^ 157 by positivity)]
    gcongr
    rw [abs_le]
    constructor <;> linarith
  refine near_roundMag (δ := 1 / 2 ^ 157 + 1 / 2 ^ 53) ?_ ?_ (by norm_num) <;> rw [hN]
  · exact (abs_sub_le _ (√y) _).trans (add_le_add hnear hx)
  · have hone : (1 : ℝ) / 2 ^ 157 < 1 := by norm_num
    linarith [(abs_le.1 hnear).2]

end Sys2Proof.Machine
end

section
/-! SUPPORT. The sine windows and the TNS tables (44_tns.md R233; 46_filterbank.md R262, R263):
their values are fixed-point cosines. -/

namespace Sys2Proof.Machine

open Sys2Proof Rom

/-! ### Sine windows -/

/-- The fixed-point cosine a sine is taken from: sin(i·π/(2d)) for 0 ≤ i ≤ d. -/
theorem cosFix_near_sin {i d : ℕ} (hd : 0 < d) (hi : i ≤ d) :
    |(cosFix (d - i) (2 * d) : ℝ) / 2 ^ 640 - Real.sin (i * Real.pi / (2 * d))| ≤ 1 / 2 ^ 64 := by
  have hd' : (d : ℝ) ≠ 0 := by positivity
  have hcos := cosFix_near (d - i) (d := 2 * d) (by omega)
  have hangle : ((d - i : ℕ) : ℝ) * Real.pi / (2 * d : ℕ) =
      Real.pi / 2 - i * Real.pi / (2 * d) := by
    push_cast [hi]
    field_simp
  rwa [hangle, Real.cos_pi_div_two_sub] at hcos

theorem near_sineWin {m n : ℕ} (hn : n < m) :
    Ref.Near (sineWin m n) (Real.sin (Real.pi / (2 * m) * (n + 1 / 2))) (1 / 2 ^ 50) := by
  have hm : (0 : ℝ) < m := by exact_mod_cast Nat.zero_lt_of_lt hn
  have hnm : (n : ℝ) + 1 ≤ m := by exact_mod_cast hn
  have hsin := cosFix_near_sin (i := 2 * n + 1) (d := 2 * m) (by omega) (by omega)
  rw [← Nat.mul_assoc] at hsin
  have hangle : ((2 * n + 1 : ℕ) : ℝ) * Real.pi / (2 * (2 * m : ℕ)) =
      Real.pi / (2 * m) * (n + 1 / 2) := by
    push_cast
    field_simp
  have hpos : 0 ≤ Real.sin (Real.pi / (2 * m) * (n + 1 / 2)) := by
    refine Real.sin_nonneg_of_nonneg_of_le_pi (by positivity) ?_
    rw [div_mul_eq_mul_div, div_le_iff₀ (by positivity)]
    exact mul_le_mul_of_nonneg_left (by linarith) Real.pi_pos.le
  rw [hangle] at hsin
  refine near_roundFix ?_ (Real.sin_le_one _)
  rw [Nat.cast_natAbs, Int.cast_abs, ← abs_of_pos (show (0 : ℝ) < 2 ^ 640 by positivity), ← abs_div,
    ← abs_of_nonneg hpos]
  exact (abs_abs_sub_abs_le _ _).trans hsin

/-! ### TNS tables -/

/-- The index of a TNS table entry as a signed number (44_tns.md R233). -/
def tnsIndex (res cmp : Bool) (q : ℕ) : ℤ := (BitVec.ofNat (3 + res.toNat - cmp.toNat) q).toInt

/-- The denominator d of the angle x·π/d of an entry with the index x (44_tns.md R233). -/
def tnsDenom (res : Bool) (x : ℤ) : ℕ :=
  if 0 ≤ x then 2 ^ (3 + res.toNat) - 1 else 2 ^ (3 + res.toNat) + 1

/-- sin(x·π/d) in fixed point. -/
def tnsFix (res : Bool) (x : ℤ) : ℤ :=
  x.sign * cosFix (tnsDenom res x - 2 * x.natAbs) (2 * tnsDenom res x)

/-- Every index is one its denominator allows, and every stored value but the zeros is near the
fixed-point one, with room for the error of that. -/
theorem tnsTable_checked : ∀ res cmp : Bool, ∀ q < 2 ^ (3 + res.toNat - cmp.toNat),
    let x := tnsIndex res cmp q
    2 * x.natAbs ≤ tnsDenom res x ∧ Flt.isFinite (tnsrom res cmp q) = true ∧
    (x = 0 → Flt.value (tnsrom res cmp q) = 0) ∧
    (x ≠ 0 → 2 ^ 24 * |Flt.value (tnsrom res cmp q) * 2 ^ 491 - tnsFix res x| + 2 ^ 601 ≤
      |tnsFix res x|) := by decide +kernel

theorem tnsFix_near {res : Bool} {x : ℤ} (hx : 2 * x.natAbs ≤ tnsDenom res x) (h0 : x ≠ 0) :
    |(tnsFix res x : ℝ) / 2 ^ 640 - Real.sin (x * Real.pi / tnsDenom res x)| ≤ 1 / 2 ^ 64 := by
  have hd : 0 < tnsDenom res x := by omega
  have hsin := cosFix_near_sin hd hx
  have hangle : ((2 * x.natAbs : ℕ) : ℝ) * Real.pi / (2 * tnsDenom res x) =
      |(x : ℝ)| * Real.pi / tnsDenom res x := by
    rw [Nat.cast_mul, Nat.cast_natAbs, Int.cast_abs]
    push_cast
    field_simp
  rw [hangle] at hsin
  rcases lt_or_gt_of_ne h0 with hneg | hpos
  · rw [abs_of_neg (show (x : ℝ) < 0 by exact_mod_cast hneg), neg_mul, neg_div, Real.sin_neg,
      sub_neg_eq_add] at hsin
    rwa [tnsFix, Int.sign_eq_neg_one_of_neg hneg, neg_one_mul, Int.cast_neg, neg_div, ← abs_neg,
      neg_sub, sub_neg_eq_add, add_comm]
  · rw [abs_of_pos (show (0 : ℝ) < x by exact_mod_cast hpos)] at hsin
    rwa [tnsFix, Int.sign_eq_one_of_pos hpos, one_mul]

/-- A value near enough to a fixed-point number is near the number that one is near to. -/
theorem abs_sub_le_of_fix {v f : ℤ} {y : ℝ} (hf : |(f : ℝ) / 2 ^ 640 - y| ≤ 1 / 2 ^ 64)
    (hv : 2 ^ 24 * |v * 2 ^ 491 - f| + 2 ^ 601 ≤ |f|) : |(v : ℝ) / 2 ^ 149 - y| ≤ |y| / 2 ^ 24 := by
  have hpow : (2 : ℝ) ^ 640 = 2 ^ 601 * 2 ^ 39 := by rw [← pow_add]
  have hpos : (0 : ℝ) < 2 ^ 640 := by positivity
  have hscale : (v : ℝ) * 2 ^ 491 - f = 2 ^ 640 * (v / 2 ^ 149 - f / 2 ^ 640) := by field_simp
  have hfix : (f : ℝ) = 2 ^ 640 * (f / 2 ^ 640) := by field_simp
  rw [← Int.cast_le (R := ℝ)] at hv
  simp only [Int.cast_add, Int.cast_mul, Int.cast_abs, Int.cast_sub, Int.cast_pow,
    Int.cast_ofNat] at hv
  rw [hscale, abs_mul, abs_of_pos hpos] at hv
  conv_rhs at hv => rw [hfix, abs_mul, abs_of_pos hpos]
  generalize (f : ℝ) / 2 ^ 640 = g at *
  generalize (v : ℝ) / 2 ^ 149 = a at *
  have hroom : 2 ^ 24 * |a - g| + 1 / 2 ^ 39 ≤ |g| := by
    refine le_of_mul_le_mul_left ?_ hpos
    refine le_trans (le_of_eq ?_) hv
    rw [hpow]
    field_simp
  have htri := abs_sub_le a g y
  have hg := abs_sub_abs_le_abs_sub g y
  clear hscale hfix hv hpos hpow
  norm_num at hf hroom ⊢
  linarith

/-- The angle of an entry. -/
theorem tnsAngle (res : Bool) (x : ℤ) : (x : ℝ) * (Real.pi / 2) /
    (2 ^ (2 + res.toNat) + if 0 ≤ x then -(1 / 2 : ℝ) else 1 / 2) =
      x * Real.pi / tnsDenom res x := by
  have hden : (tnsDenom res x : ℝ) =
      2 * (2 ^ (2 + res.toNat) + if 0 ≤ x then -(1 / 2 : ℝ) else 1 / 2) := by
    unfold tnsDenom
    cases res <;> split <;> norm_num
  rw [hden, mul_div_assoc', div_div]

theorem near_tnsrom (res cmp : Bool) {q : ℕ} (hq : q < 2 ^ (3 + res.toNat - cmp.toNat)) :
    let x := tnsIndex res cmp q
    Ref.Near (tnsrom res cmp q) (Real.sin (x * (Real.pi / 2) /
      (2 ^ (2 + res.toNat) + if 0 ≤ x then -(1 / 2 : ℝ) else 1 / 2))) 0 := by
  intro x
  obtain ⟨hx, hfin, hzero, hchecked⟩ := tnsTable_checked res cmp q hq
  refine ⟨hfin, ?_⟩
  rw [tnsAngle]
  change 2 * x.natAbs ≤ tnsDenom res x at hx
  change x = 0 → _ at hzero
  change x ≠ 0 → 2 ^ 24 * |Flt.value (tnsrom res cmp q) * 2 ^ 491 - tnsFix res x| + 2 ^ 601 ≤
    |tnsFix res x| at hchecked
  by_cases h0 : x = 0
  · rw [hzero h0, h0]
    simp
  · rw [add_zero]
    exact abs_sub_le_of_fix (tnsFix_near hx h0) (hchecked h0)

end Sys2Proof.Machine
end

section
/-! SUPPORT. The Bessel sums of the Kaiser windows (46_filterbank.md R262; log 7): the roundings of
the fixed-point series, its truncation, and its argument. -/

namespace Sys2Proof.Machine

open Sys2Proof Rom

/-! ### The series without its roundings -/

/-- The series `besselSeries` computes, without its roundings: t + t·y/(j+1)² + …. -/
def besselSum {K : Type} [Field K] (y : K) : ℕ → ℕ → K → K
  | 0, _, _ => 0
  | fuel + 1, j, t => t + besselSum y fuel (j + 1) (t * y / ((j + 1) * (j + 1)))

theorem besselSum_sub (y : ℝ) (fuel j : ℕ) (t t' : ℝ) :
    besselSum y fuel j t - besselSum y fuel j t' = besselSum y fuel j (t - t') := by
  induction fuel generalizing j t t' with
  | zero => simp [besselSum]
  | succ f ih =>
    simp only [besselSum]
    rw [sub_mul, sub_div, ← ih]
    ring

theorem besselSum_mul (y : ℝ) (fuel j : ℕ) (a t : ℝ) :
    besselSum y fuel j (a * t) = a * besselSum y fuel j t := by
  induction fuel generalizing j t with
  | zero => simp [besselSum]
  | succ f ih =>
    simp only [besselSum]
    rw [mul_assoc, mul_div_assoc, ih]
    ring

/-- From term 20 on the terms fall by four at least; each of those before grows by 100 at most. -/
theorem besselSum_bound {y : ℝ} (h0 : 0 ≤ y) (h100 : y ≤ 100) (fuel j : ℕ) (t : ℝ) :
    |besselSum y fuel j t| ≤ 2 * 101 ^ (20 - j) * |t| := by
  induction fuel generalizing j t with
  | zero => simp only [besselSum, abs_zero]; positivity
  | succ f ih =>
    rw [besselSum]
    have hrest := ih (j + 1) (t * y / ((j + 1) * (j + 1)))
    have htri := abs_add_le t (besselSum y f (j + 1) (t * y / ((j + 1) * (j + 1))))
    have hterm : |t * y / ((j + 1) * (j + 1))| = |t| * (y / ((j + 1) * (j + 1))) := by
      rw [mul_div_assoc, abs_mul,
        abs_of_nonneg (show 0 ≤ y / (((j : ℝ) + 1) * (j + 1)) by positivity)]
    rw [hterm] at hrest
    have ht := abs_nonneg t
    rcases Nat.lt_or_ge j 20 with hj | hj
    · have hq : y / (((j : ℝ) + 1) * (j + 1)) ≤ 100 := by
        refine (div_le_self h0 ?_).trans h100
        have : (0 : ℝ) ≤ j := Nat.cast_nonneg j
        nlinarith
      have hK : (1 : ℝ) ≤ 101 ^ (20 - (j + 1)) := one_le_pow₀ (by norm_num)
      rw [show 20 - j = 20 - (j + 1) + 1 by omega, pow_succ]
      generalize (101 : ℝ) ^ (20 - (j + 1)) = K at *
      have hle : 2 * K * (|t| * (y / (((j : ℝ) + 1) * (j + 1)))) ≤ 2 * K * (|t| * 100) := by gcongr
      nlinarith
    · have hq : y / (((j : ℝ) + 1) * (j + 1)) ≤ 1 / 2 := by
        have : (20 : ℝ) ≤ j := by exact_mod_cast hj
        rw [div_le_iff₀ (by positivity)]
        nlinarith
      rw [show 20 - (j + 1) = 0 by omega, pow_zero, mul_one] at hrest
      rw [show 20 - j = 0 by omega, pow_zero, mul_one]
      have hle : |t| * (y / (((j : ℝ) + 1) * (j + 1))) ≤ |t| * (1 / 2) := by gcongr
      linarith

/-- The series is the partial sum of Σ y^i/(i!)². -/
theorem besselSum_eq_sum (y : ℝ) (fuel j : ℕ) :
    besselSum y fuel j (y ^ j / (j.factorial : ℝ) ^ 2) =
      ∑ i ∈ Finset.range fuel, y ^ (j + i) / ((j + i).factorial : ℝ) ^ 2 := by
  induction fuel generalizing j with
  | zero => simp [besselSum]
  | succ f ih =>
    have hterm : y ^ j / (j.factorial : ℝ) ^ 2 * y / ((j + 1) * (j + 1)) =
        y ^ (j + 1) / ((j + 1).factorial : ℝ) ^ 2 := by
      rw [Nat.factorial_succ]
      push_cast
      field_simp
      ring
    rw [besselSum, hterm, ih, Finset.sum_range_succ', add_comm]
    simp only [Nat.add_zero, Nat.add_assoc, Nat.add_comm 1]

/-! ### Roundings and truncation -/

/-- The roundings of the fixed-point series add up to less than 2^136 units a term. -/
theorem besselSeries_near {Y : ℕ} (h : (Y : ℝ) / 2 ^ 640 ≤ 100) (fuel j term : ℕ) :
    |(besselSeries Y fuel j term : ℝ) - besselSum ((Y : ℝ) / 2 ^ 640) fuel j (term : ℝ)| ≤
      2 ^ 136 * fuel := by
  induction fuel generalizing j term with
  | zero => simp [besselSeries, besselSum]
  | succ f ih =>
    simp only [besselSeries, besselSum]
    have h0 : (0 : ℝ) ≤ (Y : ℝ) / 2 ^ 640 := by positivity
    have hp : ((term * Y : ℕ) : ℝ) / ((2 ^ fracBits : ℕ) : ℝ) = term * ((Y : ℝ) / 2 ^ 640) := by
      rw [Nat.cast_mul, Nat.cast_pow, mul_div_assoc]; rfl
    have hfloor := natDiv_near (term * Y) (b := 2 ^ fracBits) (by positivity)
    rw [hp] at hfloor
    have hfloor' := natDiv_near (term * Y / 2 ^ fracBits) (b := (j + 1) * (j + 1)) (by positivity)
    generalize (Y : ℝ) / 2 ^ 640 = y at *
    generalize term * Y / 2 ^ fracBits = v at *
    generalize v / ((j + 1) * (j + 1)) = u at *
    have hD : (((j + 1) * (j + 1) : ℕ) : ℝ) = ((j : ℝ) + 1) * (j + 1) := by push_cast; ring
    have hD1 : (1 : ℝ) ≤ ((j : ℝ) + 1) * (j + 1) := by
      have : (0 : ℝ) ≤ j := Nat.cast_nonneg j
      nlinarith
    rw [hD] at hfloor'
    have hrest := ih (j + 1) u
    have hbound := besselSum_bound h0 h f (j + 1) (u - term * y / (((j : ℝ) + 1) * (j + 1)))
    generalize ((j : ℝ) + 1) * (j + 1) = D at *
    have hu : |(u : ℝ) - term * y / D| ≤ 2 := by
      have hlo : (v : ℝ) / D ≤ term * y / D := by gcongr; exact hfloor.1
      have hhi : term * y / D ≤ (v : ℝ) / D + 1 := by
        rw [div_add_one (by linarith : D ≠ 0)]
        gcongr
        linarith [hfloor.2]
      rw [abs_le]; constructor <;> linarith [hfloor'.1, hfloor'.2]
    have hK : 2 * (101 : ℝ) ^ (20 - (j + 1)) * 2 ≤ 2 ^ 136 := by
      have : (101 : ℝ) ^ (20 - (j + 1)) ≤ 101 ^ 20 := pow_le_pow_right₀ (by norm_num) (by omega)
      have h20 : 2 * (101 : ℝ) ^ 20 * 2 ≤ 2 ^ 136 := by norm_num
      linarith
    rw [← besselSum_sub] at hbound
    have hprop : |besselSum y f (j + 1) u - besselSum y f (j + 1) (term * y / D)| ≤ 2 ^ 136 :=
      hbound.trans ((mul_le_mul_of_nonneg_left hu (by positivity)).trans hK)
    push_cast
    rw [abs_le] at hrest hprop ⊢
    constructor <;> linarith [hrest.1, hrest.2, hprop.1, hprop.2]

theorem besselSum_eq_range (y : ℝ) (n : ℕ) :
    besselSum y n 0 1 = ∑ i ∈ Finset.range n, y ^ i / (i.factorial : ℝ) ^ 2 := by
  simpa using besselSum_eq_sum y n 0

theorem besselSum_tendsto {y k : ℝ} (hk : HasSum (fun j : ℕ => y ^ j / (j.factorial : ℝ) ^ 2) k) :
    Filter.Tendsto (fun n => besselSum y n 0 1) Filter.atTop (nhds k) := by
  simpa only [besselSum_eq_range] using hk.tendsto_sum_nat

/-- n terms of it are the sum, to twice the next term. -/
theorem besselSum_near_sum {y k : ℝ} (h0 : 0 ≤ y) (h100 : y ≤ 100)
    (hk : HasSum (fun j : ℕ => y ^ j / (j.factorial : ℝ) ^ 2) k) {n : ℕ} (hn : 20 ≤ n) :
    |besselSum y n 0 1 - k| ≤ 2 * (100 ^ n / (n.factorial : ℝ) ^ 2) := by
  have htail : ∀ f, |besselSum y n 0 1 - besselSum y (n + f) 0 1| ≤
      2 * (100 ^ n / (n.factorial : ℝ) ^ 2) := by
    intro f
    have hbound := besselSum_bound h0 h100 f n (y ^ n / (n.factorial : ℝ) ^ 2)
    rw [abs_sub_comm, besselSum_eq_range, besselSum_eq_range, Finset.sum_range_add,
      add_sub_cancel_left, ← besselSum_eq_sum]
    rw [Nat.sub_eq_zero_of_le hn, pow_zero, mul_one,
      abs_of_nonneg (show 0 ≤ y ^ n / (n.factorial : ℝ) ^ 2 by positivity)] at hbound
    exact hbound.trans (by gcongr)
  have hlim := (besselSum_tendsto hk).comp (Filter.tendsto_add_atTop_nat n)
  refine le_of_tendsto (hlim.const_sub _).abs (Filter.Eventually.of_forall fun f => ?_)
  rw [Function.comp, Nat.add_comm]
  exact htail f

/-- The 180 terms the model adds are the sum, to 2^-100. -/
theorem besselSum180_near {y k : ℝ} (h0 : 0 ≤ y) (h100 : y ≤ 100)
    (hk : HasSum (fun j : ℕ => y ^ j / (j.factorial : ℝ) ^ 2) k) :
    |besselSum y 180 0 1 - k| ≤ 1 / 2 ^ 100 := by
  refine (besselSum_near_sum h0 h100 hk (by norm_num)).trans ?_
  have hfact : 2 * 100 ^ 180 * 2 ^ 100 ≤ 1 * Nat.factorial 180 ^ 2 := by decide +kernel
  have hfact : (2 : ℝ) * 100 ^ 180 * 2 ^ 100 ≤ 1 * (Nat.factorial 180 : ℝ) ^ 2 := by
    exact_mod_cast hfact
  have hF : (0 : ℝ) < (Nat.factorial 180 : ℝ) ^ 2 := by
    exact_mod_cast pow_pos (Nat.factorial_pos _) 2
  generalize (Nat.factorial 180 : ℝ) ^ 2 = F at *
  rw [← mul_div_assoc, div_le_div_iff₀ hF (by positivity)]
  exact hfact

/-! ### The argument -/

theorem besselSum_nonneg {y : ℝ} (h0 : 0 ≤ y) (n : ℕ) : 0 ≤ besselSum y n 0 1 := by
  rw [besselSum_eq_range]
  exact Finset.sum_nonneg fun i _ => by positivity

/-- A term grows no faster than its argument times the term before. -/
theorem besselTerm_growth {a b : ℝ} (ha : 0 ≤ a) (hab : a ≤ b) (i : ℕ) :
    b ^ (i + 1) / ((i + 1).factorial : ℝ) ^ 2 - a ^ (i + 1) / ((i + 1).factorial : ℝ) ^ 2 ≤
      (b - a) * (b ^ i / (i.factorial : ℝ) ^ 2) := by
  have hb : 0 ≤ b := ha.trans hab
  have hpow := abs_pow_sub_pow_le b a (i + 1)
  rw [abs_of_nonneg hb, abs_of_nonneg ha, max_eq_left hab, abs_of_nonneg (sub_nonneg.2 hab),
    Nat.add_sub_cancel] at hpow
  have hi : (1 : ℝ) ≤ ((i + 1 : ℕ) : ℝ) := by exact_mod_cast Nat.le_add_left 1 i
  have hP : 0 ≤ (b - a) * b ^ i := mul_nonneg (sub_nonneg.2 hab) (by positivity)
  rw [← sub_div, Nat.factorial_succ, Nat.cast_mul, mul_pow, ← mul_div_assoc,
    div_le_div_iff₀ (by positivity) (by positivity)]
  generalize ((i + 1 : ℕ) : ℝ) = m at *
  have hF : (0 : ℝ) ≤ (i.factorial : ℝ) ^ 2 := by positivity
  calc (b ^ (i + 1) - a ^ (i + 1)) * (i.factorial : ℝ) ^ 2
      ≤ ((b - a) * b ^ i * m) * (i.factorial : ℝ) ^ 2 := by
        refine mul_le_mul_of_nonneg_right ((le_abs_self _).trans (hpow.trans_eq ?_)) hF
        ring
    _ ≤ ((b - a) * b ^ i * m ^ 2) * (i.factorial : ℝ) ^ 2 := by
        refine mul_le_mul_of_nonneg_right (mul_le_mul_of_nonneg_left ?_ hP) hF
        nlinarith
    _ = _ := by ring

/-- The sum grows no faster than its argument times itself. -/
theorem besselSum_growth {a b : ℝ} (ha : 0 ≤ a) (hab : a ≤ b) (n : ℕ) :
    0 ≤ besselSum b n 0 1 - besselSum a n 0 1 ∧
    besselSum b n 0 1 - besselSum a n 0 1 ≤ (b - a) * besselSum b n 0 1 := by
  have hb : 0 ≤ b := ha.trans hab
  rw [besselSum_eq_range, besselSum_eq_range, ← Finset.sum_sub_distrib]
  refine ⟨Finset.sum_nonneg fun i _ => sub_nonneg.2 (by gcongr), ?_⟩
  rcases n with _ | n
  · simp
  · rw [Finset.sum_range_succ', Finset.sum_range_succ, mul_add, Finset.mul_sum, pow_zero, pow_zero,
      sub_self, add_zero]
    exact le_add_of_le_of_nonneg (Finset.sum_le_sum fun i _ => besselTerm_growth ha hab i)
      (mul_nonneg (sub_nonneg.2 hab) (by positivity))

/-- Arguments near to each other have sums near to each other, relative to either. -/
theorem besselSum_near {a b : ℝ} (ha : 0 ≤ a) (hb : 0 ≤ b) (hab : |a - b| ≤ 1 / 2) (n : ℕ) :
    |besselSum a n 0 1 - besselSum b n 0 1| ≤ 2 * |a - b| * besselSum b n 0 1 := by
  have hb0 := besselSum_nonneg hb n
  rcases le_total a b with hle | hle
  · obtain ⟨h1, h2⟩ := besselSum_growth ha hle n
    rw [abs_sub_comm, abs_of_nonneg h1, abs_sub_comm a, abs_of_nonneg (sub_nonneg.2 hle)]
    linarith
  · obtain ⟨h1, h2⟩ := besselSum_growth hb hle n
    rw [abs_of_nonneg (sub_nonneg.2 hle)] at hab
    rw [abs_of_nonneg h1, abs_of_nonneg (sub_nonneg.2 hle)]
    have hsmall : besselSum a n 0 1 ≤ 2 * besselSum b n 0 1 := by nlinarith [besselSum_nonneg ha n]
    nlinarith [sub_nonneg.2 hle]

end Sys2Proof.Machine
end

section
/-! SUPPORT. The Kaiser-Bessel-derived windows (46_filterbank.md R262, R263): the values k(p), their
sums and the root of their ratio; and the tables of WINL, WINS and TNSROM together. -/

namespace Sys2Proof.Machine

open Sys2Proof Rom

/-! ### The values k(p) -/

/-- The square of half the argument of I0 in k(p) (46_filterbank.md R262). -/
noncomputable def kaiserArg (m α p : ℕ) : ℝ := (Real.pi * α) ^ 2 * (p / m * (1 - p / m))

/-- Two quotients rounded down, the second by a fixed-point one. -/
theorem floor_floor_near (a : ℕ) {d : ℕ} (hd : 0 < d) :
    |((a / d / 2 ^ fracBits : ℕ) : ℝ) / 2 ^ 640 - (a : ℝ) / d / 2 ^ 640 / 2 ^ 640| ≤
      1 / 2 ^ 80 := by
  have hfb : ((2 ^ fracBits : ℕ) : ℝ) = 2 ^ 640 := by rw [Nat.cast_pow]; rfl
  obtain ⟨hlo, hhi⟩ := natDiv_near a hd
  obtain ⟨hlo', hhi'⟩ := natDiv_near (a / d) (b := 2 ^ fracBits) (by positivity)
  rw [hfb] at hlo' hhi'
  generalize a / d / 2 ^ fracBits = u at *
  generalize a / d = v at *
  clear hfb
  generalize (a : ℝ) / d = x at *
  have hP : (2 : ℝ) ^ 81 ≤ 2 ^ 640 := pow_le_pow_right₀ (by norm_num) (by norm_num)
  generalize (2 : ℝ) ^ 640 = P at *
  have hP1 : 1 ≤ P := le_trans (by norm_num) hP
  have hx : x / P ≤ v / P + 1 := by
    rw [div_add_one (by linarith : P ≠ 0)]
    gcongr
    linarith
  have hx' : v / P ≤ x / P := by gcongr
  rw [← sub_div, abs_div, abs_of_pos (show 0 < P by linarith), div_le_iff₀ (by linarith)]
  refine (abs_le.2 ⟨by linarith, by linarith⟩ : |(u : ℝ) - x / P| ≤ 2).trans ?_
  norm_num at hP ⊢
  linarith

section

variable {m α p : ℕ} (hm : 0 < m) (hp : p ≤ m)
include hm hp

theorem kaiserRatio_bounds : 0 ≤ (p : ℝ) / m * (1 - p / m) ∧ (p : ℝ) / m * (1 - p / m) ≤ 1 / 4 := by
  have hm' : (0 : ℝ) < m := by exact_mod_cast hm
  have hle : (p : ℝ) / m ≤ 1 := (div_le_one hm').2 (by exact_mod_cast hp)
  have h0 : (0 : ℝ) ≤ p / m := by positivity
  generalize (p : ℝ) / m = x at *
  exact ⟨mul_nonneg h0 (by linarith), by nlinarith [sq_nonneg (2 * x - 1)]⟩

/-- k(p) as a power series of that square. -/
theorem hasSum_kaiser {k : ℕ → ℝ} (hk : Ref.IsKaiser m α k) :
    HasSum (fun j : ℕ => kaiserArg m α p ^ j / (j.factorial : ℝ) ^ 2) (k p) := by
  have hm' : (m : ℝ) ≠ 0 := by positivity
  have hratio : 1 - ((2 * (p : ℝ) - m) / m) ^ 2 = 4 * (p / m * (1 - p / m)) := by
    field_simp
    ring
  have hsqrt : 0 ≤ 1 - ((2 * (p : ℝ) - m) / m) ^ 2 := by
    rw [hratio]
    linarith [(kaiserRatio_bounds hm hp).1]
  convert hk p hp using 3 with j
  rw [pow_mul, div_pow, mul_pow _ (√_), Real.sq_sqrt hsqrt, hratio, kaiserArg]
  congr 1
  ring

/-- The argument of the model's series is that square to 2^-58. -/
theorem kaiserArg_near (hα : α ≤ 6) :
    |((piFix * α * (piFix * α) * (p * (m - p)) / (m * m) / 2 ^ fracBits : ℕ) : ℝ) / 2 ^ 640 -
      kaiserArg m α p| ≤ 1 / 2 ^ 58 := by
  obtain ⟨hc0, hc4⟩ := kaiserRatio_bounds hm hp
  have hα' : (α : ℝ) ≤ 6 := by exact_mod_cast hα
  have hfloor := floor_floor_near (piFix * α * (piFix * α) * (p * (m - p))) (d := m * m)
    (by positivity)
  have hpi := piFix_near
  have hratio : ((piFix * α * (piFix * α) * (p * (m - p)) : ℕ) : ℝ) / (m * m : ℕ) / 2 ^ 640 /
      2 ^ 640 = (piFix / 2 ^ 640 * α) ^ 2 * (p / m * (1 - p / m)) := by
    have hm' : (m : ℝ) ≠ 0 := by positivity
    generalize (2 : ℝ) ^ 640 = P
    push_cast [hp]
    field_simp
  rw [hratio] at hfloor
  rw [kaiserArg]
  generalize ((_ : ℕ) : ℝ) / 2 ^ 640 = y at hfloor ⊢
  generalize (p : ℝ) / m * (1 - p / m) = c at *
  generalize (piFix : ℝ) / 2 ^ 640 = π' at *
  have hπ : |(π' * α) ^ 2 * c - (Real.pi * α) ^ 2 * c| ≤ 1 / 2 ^ 59 := by
    have hsum : |π' + Real.pi| ≤ 9 := by
      rw [abs_le] at hpi ⊢
      norm_num at hpi
      constructor <;> linarith [Real.pi_pos, Real.pi_lt_four]
    have hα2 : (α : ℝ) ^ 2 ≤ 6 ^ 2 := pow_le_pow_left₀ (Nat.cast_nonneg α) hα' 2
    have hαc : (α : ℝ) ^ 2 * c ≤ 6 ^ 2 * (1 / 4) := mul_le_mul hα2 hc4 hc0 (by norm_num)
    rw [show (π' * α) ^ 2 * c - (Real.pi * α) ^ 2 * c =
      (π' - Real.pi) * ((π' + Real.pi) * (α ^ 2 * c)) by ring, abs_mul, abs_mul,
      abs_of_nonneg (show 0 ≤ (α : ℝ) ^ 2 * c by positivity)]
    calc |π' - Real.pi| * (|π' + Real.pi| * (α ^ 2 * c)) ≤
          1 / 2 ^ 66 * (9 * (6 ^ 2 * (1 / 4))) := by gcongr
      _ ≤ 1 / 2 ^ 59 := by norm_num
  have htri := abs_sub_le y ((π' * α) ^ 2 * c) ((Real.pi * α) ^ 2 * c)
  norm_num at hfloor hπ ⊢
  linarith

theorem kaiserArg_bounds (hα : α ≤ 6) : 0 ≤ kaiserArg m α p ∧ kaiserArg m α p ≤ 99 := by
  obtain ⟨hc0, hc4⟩ := kaiserRatio_bounds hm hp
  have hα' : (α : ℝ) ≤ 6 := by exact_mod_cast hα
  have hpi : Real.pi * α ≤ 3.15 * 6 :=
    mul_le_mul Real.pi_lt_d2.le hα' (Nat.cast_nonneg α) (by norm_num)
  have hsq : (Real.pi * α) ^ 2 ≤ (3.15 * 6) ^ 2 := pow_le_pow_left₀ (by positivity) hpi 2
  refine ⟨mul_nonneg (by positivity) hc0, ?_⟩
  refine (mul_le_mul hsq hc4 hc0 (by norm_num)).trans (by norm_num)

/-- The model's k(p) is the sum of 180 terms of its series, to a relative 2^-57 and 2^-80. -/
theorem kaiser_near_besselSum (hα : α ≤ 6) :
    |(kaiser m α p : ℝ) / 2 ^ 640 - besselSum (kaiserArg m α p) 180 0 1| ≤
      1 / 2 ^ 57 * besselSum (kaiserArg m α p) 180 0 1 + 1 / 2 ^ 80 := by
  obtain ⟨hy0, hy⟩ := kaiserArg_bounds hm hp hα
  have harg := kaiserArg_near hm hp hα
  rw [kaiser]
  generalize piFix * α * (piFix * α) * (p * (m - p)) / (m * m) / 2 ^ fracBits = Y at *
  generalize kaiserArg m α p = y at *
  have hY0 : (0 : ℝ) ≤ (Y : ℝ) / 2 ^ 640 := by positivity
  have hY : (Y : ℝ) / 2 ^ 640 ≤ 100 := by
    generalize (Y : ℝ) / 2 ^ 640 = y' at *
    linarith [(abs_le.1 harg).2]
  have hround := besselSeries_near hY 180 0 (2 ^ fracBits)
  have hshift := besselSum_near hY0 hy0 (harg.trans (by norm_num)) 180
  have hfb : ((2 ^ fracBits : ℕ) : ℝ) = 2 ^ 640 * 1 := by rw [Nat.cast_pow, mul_one]; rfl
  rw [hfb, besselSum_mul] at hround
  clear hfb
  have hP : (2 : ℝ) ^ 560 * 2 ^ 80 = 2 ^ 640 := by rw [← pow_add]
  have hQ : (2 : ℝ) ^ 144 ≤ 2 ^ 560 := pow_le_pow_right₀ (by norm_num) (by norm_num)
  have hP0 : (0 : ℝ) < 2 ^ 640 := by positivity
  have hT0 := besselSum_nonneg hy0 180
  generalize besselSeries Y 180 0 (2 ^ fracBits) = S at *
  generalize besselSum ((Y : ℝ) / 2 ^ 640) 180 0 1 = T' at *
  generalize (Y : ℝ) / 2 ^ 640 = y' at *
  generalize besselSum y 180 0 1 = T at *
  generalize (2 : ℝ) ^ 640 = P at *
  generalize (2 : ℝ) ^ 560 = Q at *
  have hS : |(S : ℝ) / P - T'| ≤ 1 / 2 ^ 80 := by
    rw [show (S : ℝ) / P - T' = (S - P * T') / P by field_simp, abs_div, abs_of_pos hP0,
      div_le_iff₀ hP0]
    refine hround.trans ?_
    rw [← hP]
    norm_num at hQ ⊢
    linarith
  have hT : |T' - T| ≤ 2 * (1 / 2 ^ 58) * T := hshift.trans (by gcongr)
  have htri := abs_sub_le ((S : ℝ) / P) T' T
  norm_num at hS hT ⊢
  linarith

/-- The model's k(p) is the real one to a relative 2^-55. -/
theorem kaiser_near (hα : α ≤ 6) {k : ℕ → ℝ} (hk : Ref.IsKaiser m α k) :
    |(kaiser m α p : ℝ) / 2 ^ 640 - k p| ≤ 1 / 2 ^ 55 * k p ∧ 1 ≤ k p := by
  have hsum := hasSum_kaiser hm hp hk
  obtain ⟨hy0, hy⟩ := kaiserArg_bounds hm hp hα
  have hone : 1 ≤ k p := by
    simpa using le_hasSum hsum 0 fun j _ => by positivity
  have htrunc := besselSum180_near hy0 (hy.trans (by norm_num)) hsum
  have hfix := kaiser_near_besselSum hm hp hα
  generalize besselSum (kaiserArg m α p) 180 0 1 = T at *
  generalize (kaiser m α p : ℝ) / 2 ^ 640 = K at *
  have hT := (abs_le.1 htrunc).2
  have htri := abs_sub_le K T (k p)
  refine ⟨?_, hone⟩
  norm_num at htrunc hfix hT ⊢
  linarith

end

/-! ### The sums of the k(p) -/

theorem getD_prefixSums {l : List ℕ} {n : ℕ} (hn : n < l.length) (acc d : ℕ) :
    (prefixSums acc l).getD n d = acc + ∑ i ∈ Finset.range (n + 1), l.getD i 0 := by
  induction l generalizing acc n with
  | nil => simp at hn
  | cons k l ih =>
    rw [prefixSums]
    rcases n with _ | n
    · simp
    · rw [List.getD_cons_succ, ih (by simpa using hn), Finset.sum_range_succ' _ (n + 1)]
      simp only [List.getD_cons_succ, List.getD_cons_zero]
      omega

theorem getD_kaiserSums {m n : ℕ} (α : ℕ) (hn : n ≤ m) (d : ℕ) :
    (kaiserSums m α).toArray.getD n d = ∑ p ∈ Finset.range (n + 1), kaiser m α p := by
  have hlen : n < ((List.range (m + 1)).map (kaiser m α)).length := by
    rw [List.length_map, List.length_range]
    omega
  rw [Array.getD_eq_getD_getElem?, List.getElem?_toArray, ← List.getD_eq_getElem?_getD, kaiserSums,
    getD_prefixSums hlen, Nat.zero_add]
  refine Finset.sum_congr rfl fun p hp => ?_
  have hp := Finset.mem_range.1 hp
  rw [List.getD_eq_getElem?_getD, List.getElem?_map, List.getElem?_range (by omega)]
  rfl

/-- Their sums keep the relative error. -/
theorem kaiserSum_near {m n α : ℕ} (hm : 0 < m) (hn : n ≤ m) (hα : α ≤ 6) {k : ℕ → ℝ}
    (hk : Ref.IsKaiser m α k) :
    |((∑ p ∈ Finset.range (n + 1), kaiser m α p : ℕ) : ℝ) / 2 ^ 640 -
      ∑ p ∈ Finset.range (n + 1), k p| ≤ 1 / 2 ^ 55 * ∑ p ∈ Finset.range (n + 1), k p := by
  rw [Nat.cast_sum, Finset.sum_div, ← Finset.sum_sub_distrib, Finset.mul_sum]
  refine (Finset.abs_sum_le_sum_abs _ _).trans (Finset.sum_le_sum fun p hp => ?_)
  have hp := Finset.mem_range.1 hp
  exact (kaiser_near hm (by omega) hα hk).1

/-! ### The windows -/

/-- The root of a ratio whose parts are known to a relative δ, where it is 1 at most. -/
theorem sqrt_ratio_near {a b x y δ : ℝ} (hx : 0 ≤ x) (hxy : x ≤ y) (hy : 0 < y) (hδ : 0 ≤ δ)
    (hδ4 : δ ≤ 1 / 4) (ha : |a - x| ≤ δ * x) (hb : |b - y| ≤ δ * y) :
    |√(a / b) - √(x / y)| ≤ 3 * δ := by
  obtain ⟨ha1, ha2⟩ := abs_le.1 ha
  obtain ⟨hb1, hb2⟩ := abs_le.1 hb
  have hb0 : 0 < b := by nlinarith
  have hr0 := Real.sqrt_nonneg (x / y)
  have hr1 : √(x / y) ≤ 1 := Real.sqrt_le_one.2 ((div_le_one hy).2 hxy)
  have hrsq : √(x / y) ^ 2 * y = x := by rw [Real.sq_sqrt (by positivity)]; field_simp
  generalize √(x / y) = r at *
  have hup : √(a / b) ≤ r * (1 + 3 * δ) := by
    refine Real.sqrt_le_iff.2 ⟨by positivity, ?_⟩
    rw [div_le_iff₀ hb0]
    calc a ≤ (1 + δ) * x := by linarith
      _ ≤ (1 + 3 * δ) ^ 2 * (1 - δ) * x := by
        refine mul_le_mul_of_nonneg_right ?_ hx
        nlinarith [mul_nonneg hδ hδ, mul_nonneg (mul_nonneg hδ hδ) hδ]
      _ = (r * (1 + 3 * δ)) ^ 2 * ((1 - δ) * y) := by rw [← hrsq]; ring
      _ ≤ (r * (1 + 3 * δ)) ^ 2 * b := by gcongr; linarith
  have hlo : r * (1 - 3 * δ) ≤ √(a / b) := by
    refine Real.le_sqrt_of_sq_le ?_
    rw [le_div_iff₀ hb0]
    calc (r * (1 - 3 * δ)) ^ 2 * b ≤ (r * (1 - 3 * δ)) ^ 2 * ((1 + δ) * y) := by gcongr; linarith
      _ = (1 - 3 * δ) ^ 2 * (1 + δ) * x := by rw [← hrsq]; ring
      _ ≤ (1 - δ) * x := by
        refine mul_le_mul_of_nonneg_right ?_ hx
        nlinarith [mul_nonneg hδ hδ, mul_nonneg (mul_nonneg hδ hδ) hδ]
      _ ≤ a := by linarith
  rw [abs_le]
  constructor <;> nlinarith

theorem near_kbdWin {m n α : ℕ} (hn : n < m) (hα : α ≤ 6) {k : ℕ → ℝ} (hk : Ref.IsKaiser m α k) :
    Ref.Near (kbdWin (kaiserSums m α).toArray m n)
      (√((∑ p ∈ Finset.range (n + 1), k p) / ∑ p ∈ Finset.range (m + 1), k p)) (1 / 2 ^ 50) := by
  have hm : 0 < m := Nat.zero_lt_of_lt hn
  have hone : ∀ p ∈ Finset.range (m + 1), 1 ≤ k p := fun p hp =>
    (kaiser_near hm (Nat.lt_succ_iff.1 (Finset.mem_range.1 hp)) hα hk).2
  have hsub : Finset.range (n + 1) ⊆ Finset.range (m + 1) := Finset.range_mono (by omega)
  have hx : 0 ≤ ∑ p ∈ Finset.range (n + 1), k p :=
    Finset.sum_nonneg fun p hp => zero_le_one.trans (hone p (hsub hp))
  have hxy := Finset.sum_le_sum_of_subset_of_nonneg hsub
    fun p hp _ => zero_le_one.trans (hone p hp)
  have hy : 0 < ∑ p ∈ Finset.range (m + 1), k p :=
    Finset.sum_pos (fun p hp => one_pos.trans_le (hone p hp)) ⟨0, by simp⟩
  have ha := kaiserSum_near hm hn.le hα hk
  have hb := kaiserSum_near hm le_rfl hα hk
  have hle : ∑ p ∈ Finset.range (n + 1), kaiser m α p ≤ ∑ p ∈ Finset.range (m + 1), kaiser m α p :=
    Finset.sum_le_sum_of_subset hsub
  rw [kbdWin, getD_kaiserSums α hn.le, getD_kaiserSums α le_rfl]
  generalize ∑ p ∈ Finset.range (n + 1), kaiser m α p = a at *
  generalize ∑ p ∈ Finset.range (m + 1), kaiser m α p = b at *
  generalize ∑ p ∈ Finset.range (m + 1), k p = y at *
  have hb0 : 0 < b := by
    refine Nat.pos_of_ne_zero fun h => ?_
    rw [h, Nat.cast_zero, zero_div, zero_sub, abs_neg, abs_of_pos hy] at hb
    norm_num at hb
    linarith
  have hnear := sqrt_ratio_near hx hxy hy (by positivity) (by norm_num) ha hb
  rw [div_div_div_cancel_right₀ (by positivity)] at hnear
  have hfloor := natDiv_near (a * 2 ^ (2 * (149 + 8))) hb0
  rw [Nat.cast_mul, Nat.cast_pow, Nat.cast_ofNat, mul_div_right_comm] at hfloor
  exact near_roundRoot (by positivity) (div_le_one_of_le₀ (by exact_mod_cast hle) (by positivity))
    hfloor (hnear.trans (by norm_num))

/-- The windows of length m and parameter α. -/
theorem isWindow {m α : ℕ} (hα : α ≤ 6) {w : Bool → ℕ → F32} (hsine : ∀ n, w false n = sineWin m n)
    (hkbd : ∀ n, w true n = kbdWin (kaiserSums m α).toArray m n) : Ref.IsWindow m α w where
  sine n hn := by
    rw [hsine]
    exact near_sineWin hn
  kaiser k hk n hn := by
    rw [hkbd]
    exact near_kbdWin hn hα hk

/-! ### The tables -/

/-- The values of the short Kaiser-Bessel-derived windows that round to 1 (46_filterbank.md
R263). -/
theorem wins_eq_one :
    (∀ n < 128, wins .long1024 true n = 0x3F800000#32 ↔ 125 ≤ n) ∧
    (∀ n < 120, wins .small960 true n = 0x3F800000#32 ↔ 118 ≤ n) := by
  decide +kernel

/-- Settles O60: the windows are within their fixed-point errors and one rounding, and every entry
of TNSROM is checked against the fixed-point sine. -/
theorem tablesHoldTheirFormulas : Obligations.TablesHoldTheirFormulas := by
  refine ⟨?_, ?_, ?_, ?_, wins_eq_one.1, wins_eq_one.2, fun res cmp q hq => near_tnsrom res cmp hq⟩
  · exact isWindow (m := 1024) (α := 4) (by decide) (fun _ => rfl) fun _ => rfl
  · exact isWindow (m := 960) (α := 4) (by decide) (fun _ => rfl) fun _ => rfl
  · exact isWindow (m := 128) (α := 6) (by decide) (fun _ => rfl) fun _ => rfl
  · exact isWindow (m := 120) (α := 6) (by decide) (fun _ => rfl) fun _ => rfl

end Sys2Proof.Machine
end

section
/-! SUPPORT. The power and gain tables (45_invquant.md R253, R254; 43_stereo.md R217): an integer
root with a last bit that says whether it is inexact is rounded as the real root would be, and a
real number binary32 holds is rounded to itself. -/

namespace Sys2Proof.Machine

open Sys2Proof Rom

/-! ### Roots -/

/-- Twice a number strictly between r and r + 1 is on the same side of every multiple of 2^t as
2 · r + 1, since t ≥ 1 makes those even; so the two differ in no comparison with a midpoint. -/
theorem twice_lt_of_inexact {r t : ℕ} {y : ℝ} (ht : 1 ≤ t) (hlo : r < y) (hhi : y < r + 1)
    (a b : ℕ) :
    ((a + b : ℝ) ≤ 2 * ((2 * r + 1 : ℕ) / 2 ^ (t + 1)) → a + b < 2 * (y / 2 ^ t)) ∧
    (2 * ((2 * r + 1 : ℕ) / 2 ^ (t + 1)) ≤ (a + b : ℝ) → 2 * (y / 2 ^ t) < a + b) := by
  have hpos : (0 : ℝ) < 2 ^ t := by positivity
  have hhalf : 2 * (((2 * r + 1 : ℕ) : ℝ) / 2 ^ (t + 1)) = (2 * r + 1 : ℕ) / 2 ^ t := by
    rw [pow_succ]
    field_simp
  have heven : (a + b) * 2 ^ t = 2 * ((a + b) * 2 ^ (t - 1)) := by
    rw [Nat.mul_left_comm, ← pow_succ', Nat.sub_add_cancel ht]
  rw [hhalf, ← mul_div_assoc, le_div_iff₀ hpos, div_le_iff₀ hpos, lt_div_iff₀ hpos,
    div_lt_iff₀ hpos]
  constructor <;> intro h
  · have hnat : (a + b) * 2 ^ t ≤ 2 * r + 1 := by exact_mod_cast h
    have hle : (((a + b) * 2 ^ t : ℕ) : ℝ) ≤ (2 * r : ℕ) := Nat.cast_le.2 (by omega)
    push_cast at hle
    linarith
  · have hnat : 2 * r + 1 ≤ (a + b) * 2 ^ t := by exact_mod_cast h
    have hle : ((2 * (r + 1) : ℕ) : ℝ) ≤ ((a + b) * 2 ^ t : ℕ) := Nat.cast_le.2 (by omega)
    push_cast at hle
    linarith

/-- So a number strictly between r and r + 1 is rounded as r + 1/2 is. -/
theorem Flt.Nearest.of_inexact {r t p : ℕ} {y : ℝ} (ht : 1 ≤ t) (hlo : r < y) (hhi : y < r + 1)
    (h : Nearest ((2 * r + 1 : ℕ) / 2 ^ (t + 1)) p) : Nearest (y / 2 ^ t) p where
  above q hq :=
    have hlt := (twice_lt_of_inexact ht hlo hhi _ _).1 (h.above q hq).1
    ⟨hlt.le, fun he => absurd he hlt.ne⟩
  below q hq :=
    have hlt := (twice_lt_of_inexact ht hlo hhi _ _).2 (h.below q hq).1
    ⟨hlt.le, fun he => absurd he hlt.ne⟩

/-- The number `roundRoot` gives to `roundMag` is rounded as the real root is. -/
theorem nearest_root {p n t q : ℕ} {y : ℝ} (hp : 0 < p) (ht : 1 ≤ t) (hy : 0 ≤ y) (hn : y ^ p = n)
    (h : Flt.Nearest ((2 * iroot p n + if iroot p n ^ p = n then 0 else 1 : ℕ) / 2 ^ (t + 1)) q) :
    Flt.Nearest (y / 2 ^ t) q := by
  obtain ⟨hlo, hhi⟩ := iroot_spec hp n
  generalize iroot p n = r at *
  split at h
  next hexact =>
    have hyr : y = r := by
      rw [← pow_left_inj₀ hy (Nat.cast_nonneg r) hp.ne', hn]
      exact_mod_cast hexact.symm
    rw [add_zero, Nat.cast_mul, Nat.cast_ofNat, pow_succ', mul_div_mul_left _ _ two_ne_zero] at h
    exact hyr ▸ h
  next hinexact =>
    refine h.of_inexact ht ?_ ?_
    · refine lt_of_pow_lt_pow_left₀ p hy ?_
      rw [hn]
      exact_mod_cast lt_of_le_of_ne hlo hinexact
    · refine lt_of_pow_lt_pow_left₀ p (by positivity) ?_
      rw [hn]
      exact_mod_cast hhi

theorem ofNat_eq_withSign (n : ℕ) : BitVec.ofNat 32 n = Flt.withSign false n := by
  simp [Flt.withSign]

theorem neg_roundRoot (p n t : ℕ) : Flt.neg (roundRoot p n t) = false := by
  rw [roundRoot, ofNat_eq_withSign, Flt.neg_withSign _ (Flt.roundMag_lt _ _)]

/-- `roundRoot` is the real root rounded. -/
theorem roundedReal_roundRoot {p n t : ℕ} {x : ℝ} (hp : 0 < p) (ht : 1 ≤ t) (hx : 0 ≤ x)
    (hn : (x * 2 ^ (149 + t)) ^ p = n) : Ref.RoundedReal x (roundRoot p n t) := by
  rw [roundRoot, ofNat_eq_withSign, Flt.roundMag]
  refine Flt.Nearest.roundedReal (s := false) ?_ (abs_of_nonneg hx)
  have hscale : |x * 2 ^ 149| = x * 2 ^ (149 + t) / 2 ^ t := by
    rw [abs_of_nonneg (by positivity), pow_add]
    field_simp
  rw [hscale]
  exact nearest_root hp ht (by positivity) hn (Flt.nearest_ulpExp_roundShift _ _)

/-! ### The tables -/

theorem roundedReal_pow43 (m : ℕ) : Ref.RoundedReal ((m : ℝ) ^ (4 / 3 : ℝ)) (pow43 m) := by
  refine roundedReal_roundRoot (by decide) (by decide) (by positivity) ?_
  have hcube : ((m : ℝ) ^ (4 / 3 : ℝ)) ^ 3 = (m : ℝ) ^ 4 := by
    rw [← Real.rpow_mul_natCast (Nat.cast_nonneg m)]
    norm_num
  rw [mul_pow, hcube, ← pow_mul, mul_comm (149 + 8) 3, Nat.cast_mul, Nat.cast_pow, Nat.cast_pow,
    Nat.cast_ofNat]

theorem neg_exp2Quarter (n : ℤ) : Flt.neg (exp2Quarter n) = false := by
  unfold exp2Quarter
  split
  · decide
  split
  · decide
  · exact neg_roundRoot _ _ _

/-- A number from 2^128 on is rounded to infinity. -/
theorem roundedReal_infinity {x : ℝ} (hx : 2 ^ 128 ≤ x) :
    Ref.RoundedReal x (BitVec.ofNat 32 Flt.infPattern) := by
  have hinf : Flt.isFinite (BitVec.ofNat 32 Flt.infPattern) = false := by decide
  refine ⟨fun h => absurd h (by simp [hinf]), iff_of_true hinf ?_, fun _ => by decide⟩
  exact (le_trans (by norm_num) hx).trans (le_abs_self x)

/-- A number below half the least magnitude is rounded to zero. -/
theorem roundedReal_zero {x : ℝ} (hx : 0 ≤ x) (hlt : x < 1 / 2 ^ 150) : Ref.RoundedReal x 0 := by
  refine Flt.Nearest.roundedReal (s := false) (p := 0) ⟨fun q hq => absurd hq q.not_lt_zero,
    fun q hq => ⟨?_, fun _ => rfl⟩⟩ (abs_of_nonneg hx)
  have hone : (1 : ℝ) ≤ Flt.magUnits q := by
    exact_mod_cast Nat.succ_le_of_lt (Flt.magUnits_strictMono hq)
  rw [abs_of_nonneg (by positivity), Flt.magUnits_zero, Nat.cast_zero, zero_add]
  norm_num at hlt ⊢
  linarith

/-- The number whose fourth root `exp2Quarter` takes. -/
theorem quarter_power_pow_four {n : ℤ} (hn : -660 ≤ n) :
    ((2 : ℝ) ^ ((n : ℝ) / 4) * 2 ^ (149 + 16)) ^ 4 = (2 ^ (n + 4 * (149 + 16)).toNat : ℕ) := by
  obtain ⟨j, hj⟩ : ∃ j : ℕ, n + 4 * (149 + 16) = j := ⟨(n + 660).toNat, by omega⟩
  have hcast : (n : ℝ) + 660 = j := by exact_mod_cast hj
  rw [hj, Int.toNat_natCast, mul_pow, ← Real.rpow_mul_natCast zero_le_two, ← pow_mul,
    ← Real.rpow_natCast, ← Real.rpow_add two_pos, Nat.cast_pow, Nat.cast_ofNat,
    ← Real.rpow_natCast, ← hcast]
  congr 1
  push_cast
  ring

theorem roundedReal_exp2Quarter (n : ℤ) :
    Ref.RoundedReal ((2 : ℝ) ^ ((n : ℝ) / 4)) (exp2Quarter n) := by
  unfold exp2Quarter
  split
  case isTrue hbig =>
    refine roundedReal_infinity ?_
    rw [← Real.rpow_natCast]
    have : (512 : ℝ) ≤ n := by exact_mod_cast hbig
    exact Real.rpow_le_rpow_of_exponent_le one_le_two (by push_cast; linarith)
  split
  case isTrue hsmall =>
    refine roundedReal_zero (by positivity) ?_
    have : (n : ℝ) < -640 := by exact_mod_cast hsmall
    rw [one_div, ← Real.rpow_natCast, ← Real.rpow_neg zero_le_two]
    exact Real.rpow_lt_rpow_of_exponent_lt one_lt_two (by push_cast; linarith)
  case isFalse hbig hsmall =>
    refine roundedReal_roundRoot (by decide) (by decide) (by positivity) ?_
    exact quarter_power_pow_four (by omega)

/-! ### Exact values -/

theorem value_pack {m e : ℕ} (hm : m < 2 ^ 24) (hpack : e = 0 ∨ 2 ^ 23 ≤ m) (he : e ≤ 253) :
    Flt.isFinite (Flt.withSign false (e * 2 ^ 23 + m)) = true ∧
    Flt.value (Flt.withSign false (e * 2 ^ 23 + m)) = m * 2 ^ e := by
  have hlt : e * 2 ^ 23 + m < Flt.infPattern := by
    unfold Flt.infPattern
    omega
  have hp31 : e * 2 ^ 23 + m < 2 ^ 31 := hlt.trans (by decide)
  rw [Flt.isFinite_iff, Flt.value_eq, Flt.neg_withSign _ hp31, Flt.mag_withSign _ hp31,
    Flt.magUnits_pack hpack hm.le]
  exact ⟨hlt, by simp⟩

/-- binary32 holds m · 2^e, in units of 2^-149, for every m of 24 bits: a small m is doubled until
it has 24, or e is 0. -/
theorem exists_value_eq {m e : ℕ} (hm : m < 2 ^ 24) (he : e ≤ 253) :
    ∃ c, Flt.isFinite c = true ∧ Flt.value c = m * 2 ^ e := by
  induction e generalizing m with
  | zero => exact ⟨_, value_pack hm (.inl rfl) he⟩
  | succ e ih =>
    rcases Nat.lt_or_ge m (2 ^ 23) with hlt | hge
    · obtain ⟨c, hfin, hval⟩ := ih (m := 2 * m) (by omega) (by omega)
      exact ⟨c, hfin, by rw [hval]; push_cast; ring⟩
    · exact ⟨_, value_pack hm (.inr hge) he⟩

/-- Finite numbers lie below the rounding threshold. -/
theorem abs_value_lt {c : F32} (hc : Flt.isFinite c = true) :
    |(Flt.value c : ℝ) / 2 ^ 149| < (2 ^ 25 - 1) * 2 ^ 103 := by
  have hle : Flt.magUnits (Flt.mag c) ≤ (2 ^ 24 - 1) * 2 ^ 253 := by
    rw [← Flt.magUnits_greatest]
    exact Flt.magUnits_strictMono.monotone (Nat.le_sub_one_of_lt ((Flt.isFinite_iff c).1 hc))
  have hreal : (Flt.magUnits (Flt.mag c) : ℝ) ≤ ((2 ^ 24 - 1) * 2 ^ 253 : ℕ) := by
    exact_mod_cast hle
  rw [abs_div, Flt.abs_value, abs_pow, abs_two, div_lt_iff₀ (by positivity)]
  exact hreal.trans_lt (by norm_num)

/-- A real number that binary32 holds is rounded to itself. -/
theorem Ref.RoundedReal.value_eq {x : ℝ} {c r : F32} (h : RoundedReal x r)
    (hc : Flt.isFinite c = true) (hx : x = Flt.value c / 2 ^ 149) : Flt.value r = Flt.value c := by
  have hfin : Flt.isFinite r = true := by
    rw [← Bool.not_eq_false, h.overflow, not_le, hx]
    exact abs_value_lt hc
  have hle := (h.nearest hfin c hc).1
  rw [hx, sub_self, abs_zero, abs_nonpos_iff, sub_eq_zero, div_left_inj' (by positivity)] at hle
  exact_mod_cast hle.symm

theorem value_pow43_cube {k : ℕ} (hk : k ^ 4 < 2 ^ 24) :
    Flt.value (pow43 (k ^ 3)) = k ^ 4 * 2 ^ 149 := by
  obtain ⟨c, hfin, hval⟩ := exists_value_eq hk (e := 149) (by decide)
  rw [(roundedReal_pow43 (k ^ 3)).value_eq hfin, hval, Nat.cast_pow]
  rw [hval, Nat.cast_pow, ← Real.rpow_natCast_mul (Nat.cast_nonneg k),
    show ((3 : ℕ) : ℝ) * (4 / 3) = (4 : ℕ) by norm_num, Real.rpow_natCast]
  norm_num

theorem value_exp2Quarter_four_mul {n : ℤ} (hlo : -149 ≤ n) (hhi : n ≤ 127) :
    Flt.value (exp2Quarter (4 * n)) = 2 ^ (n + 149).toNat := by
  obtain ⟨j, hj⟩ : ∃ j : ℕ, n + 149 = j := ⟨(n + 149).toNat, by omega⟩
  obtain ⟨c, hfin, hval⟩ := exists_value_eq (m := 2 ^ min j 23) (e := j - 23)
    (Nat.pow_lt_pow_right (by decide) (by omega)) (by omega)
  have hpow : Flt.value c = 2 ^ j := by
    rw [hval, Nat.cast_pow, Nat.cast_ofNat, ← pow_add, show min j 23 + (j - 23) = j by omega]
  rw [hj, Int.toNat_natCast, ← hpow]
  refine (roundedReal_exp2Quarter _).value_eq hfin ?_
  have hn : (((4 * n : ℤ) : ℝ) / 4) = (j : ℝ) - (149 : ℕ) := by
    obtain rfl : n = j - 149 := by omega
    push_cast
    ring
  rw [hn, hpow, Real.rpow_sub two_pos, Real.rpow_natCast, Real.rpow_natCast]
  push_cast
  rfl

/-- Settles O49: POW43 is an integer cube root rounded, and binary32 holds the fourth powers. -/
theorem powerTableMapsCubesExactly : Obligations.PowerTableMapsCubesExactly :=
  ⟨fun m => ⟨roundedReal_pow43 m, neg_roundRoot _ _ _⟩, fun _ => value_pow43_cube⟩

/-- Settles O50: both tables are 2^(n/4) rounded, EXP2Q at n and ISROM at -n. -/
theorem gainTablesHoldExactPowers : Obligations.GainTablesHoldExactPowers := by
  have hexp2q : ∀ n, blockParams.exp2q n = exp2Quarter n := fun n =>
    congrArg exp2Quarter (sub_zero n)
  have hisrom : ∀ n, blockParams.isrom n = exp2Quarter (-n) := fun _ => rfl
  simp only [Obligations.GainTablesHoldExactPowers, hexp2q, hisrom, neg_neg, neg_exp2Quarter,
    true_and]
  refine ⟨fun n => ⟨roundedReal_exp2Quarter n, ?_⟩, fun n hlo hhi => ?_⟩
  · simpa using roundedReal_exp2Quarter (-n)
  · exact ⟨value_exp2Quarter_four_mul hlo hhi, value_exp2Quarter_four_mul hlo hhi⟩

end Sys2Proof.Machine
end

section
/-! SUPPORT. The inverse quantizer (45_invquant.md R250 to R252): what IQ may leave on a line, the
lines it writes, and its loops over lines, bands and windows. What a line becomes does not depend
on SPEC, so nothing is asked of the order in which lines are written. -/

namespace Sys2Proof.Machine

open Sys2Proof

variable {s s₀ t u : State} {c : Channel} {α : Type} {g w i b p : ℕ} {ps qs : List ℕ}
  {v : F32}

/-! ### The sign -/

theorem Flt.fneg_fneg (a : F32) : Flt.fneg (Flt.fneg a) = a :=
  Flt.eq_of_neg_mag (by simp) (by simp)

/-- Settles O42: the product is of the magnitude, and one of q and -q is negative. -/
theorem dequantizerIsOdd : Obligations.DequantizerIsOdd := by
  intro p q sf k hq
  simp only [deq, Int.natAbs_neg, and_true]
  rcases Int.lt_or_gt_of_ne hq with hneg | hpos
  · rw [if_neg (by omega), if_pos hneg, Flt.fneg_fneg]
  · rw [if_pos (by omega), if_neg (by omega)]

/-! ### What a line becomes -/

/-- Deq gives the number of the rule, or a NaN (45_invquant.md R250). -/
def IsDequantized (q sf : ℤ) (v : F32) : Prop :=
  ∃ r, Ref.Gives (Flt.mul? (blockParams.pow43 q.natAbs) (blockParams.exp2q sf)) r ∧
    v = if q < 0 then Flt.fneg r else r

theorem isDequantized_deq (q sf : ℤ) (k : ℕ) : IsDequantized q sf (deq blockParams q sf k).1 :=
  ⟨_, gives_fmul _ _ k, rfl⟩

/-- What IQ may write on line (g, w, i): the dequantized integer in a spectral band, +0.0 outside
the spectral and the noise bands (45_invquant.md R251, R252). -/
structure IqValue (s : State) (c : Channel) (g w i : ℕ) (v : F32) : Prop where
  spectral : ∀ b bk, Ref.InBand s c b i → s.cb c g b = .spectral bk →
    IsDequantized (Ref.line s .qspec c (s.csr.line c g w i)).toInt (s.sf c g b) v
  zero : (∀ b, Ref.InBand s c b i → (∀ bk, s.cb c g b ≠ .spectral bk) ∧ s.cb c g b ≠ .noise) →
    v = 0

/-- What IQ may write at index p of its channel. -/
def IqValueAt (s : State) (c : Channel) (p : ℕ) (v : F32) : Prop :=
  ∀ g w i, Ref.IsLine s c g w i → p = s.csr.line c g w i → IqValue s c g w i v

/-- An index is that of one line only. -/
theorem IqValue.valueAt (hl : Ref.IsLine s c g w i) (h : IqValue s c g w i v) :
    IqValueAt s c (s.csr.line c g w i) v := by
  intro g' w' i' hl' heq
  obtain ⟨rfl, rfl, rfl⟩ := hl.inj hl' heq
  exact h

theorem iqValue_spectral (hg : Ref.Geometry s c) {bk : SpecBook} (hin : Ref.InBand s c b i)
    (hcb : s.cb c g b = .spectral bk)
    (hv : IsDequantized (Ref.line s .qspec c (s.csr.line c g w i)).toInt (s.sf c g b) v) :
    IqValue s c g w i v where
  spectral _ _ hin' _ := hg.band_unique hin hin' ▸ hv
  zero hno := absurd hcb ((hno b hin).1 bk)

theorem iqValue_zero (h : ∀ b, Ref.InBand s c b i → ∀ bk, s.cb c g b ≠ .spectral bk) :
    IqValue s c g w i 0 where
  spectral b bk hin hcb := absurd hcb (h b hin bk)
  zero _ := rfl

/-! ### Lines written -/

/-- From `s` to `t` a part of IQ, started in `s₀`, wrote the lines `ps` of its channel in SPEC and
nothing else. -/
structure IqWrote (s₀ : State) (c : Channel) (s : State) (ps : List ℕ) (t : State) : Prop where
  touches : Touches (only .spec) s t
  value : ∀ p ∈ ps, IqValueAt s₀ c p (Ref.line t .spec c p)
  rest : ∀ k, (∀ p ∈ ps, k ≠ lineIx c p) → t.elem .spec k = s.elem .spec k

theorem IqWrote.refl (s₀ : State) (c : Channel) (s : State) : IqWrote s₀ c s [] s :=
  ⟨.refl _ s, fun _ h => absurd h List.not_mem_nil, fun _ _ => rfl⟩

/-- A line written twice has the value of the second time. -/
theorem IqWrote.trans (h : IqWrote s₀ c s ps t) (h' : IqWrote s₀ c t qs u) :
    IqWrote s₀ c s (ps ++ qs) u where
  touches := h.touches.trans h'.touches
  value p hp := by
    by_cases hq : p ∈ qs
    · exact h'.value p hq
    · have hkept : Ref.line u .spec c p = Ref.line t .spec c p :=
        h'.rest _ fun q hqs heq => hq (Nat.add_left_cancel heq ▸ hqs)
      exact hkept ▸ h.value p ((List.mem_append.1 hp).resolve_right hq)
  rest k hk := (h'.rest k fun q hq => hk q (List.mem_append_right _ hq)).trans
    (h.rest k fun q hq => hk q (List.mem_append_left _ hq))

/-- A loop whose rounds write lines. -/
theorem sat_each_iqWrote {f : α → Cmd Unit} {work : α → List ℕ} {l : List α}
    (hs : Touches (only .spec) s₀ s)
    (hf : ∀ a ∈ l, ∀ t, Touches (only .spec) s₀ t →
      Sat (f a) t (fun _ u => IqWrote s₀ c t (work a) u) fun _ _ => False) :
    Sat (each f l) s (fun _ t => IqWrote s₀ c s (l.flatMap work) t) fun _ _ => False := by
  refine sat_each (I := fun done t => IqWrote s₀ c s (done.flatMap work) t) (.refl s₀ c s)
    fun done a rest heq t ht => ?_
  refine (hf a (heq ▸ by simp) t (hs.trans ht.touches)).imp (fun _ u hu => ?_) fun _ _ he => he
  rw [List.flatMap_append, List.flatMap_singleton]
  exact ht.trans hu

/-! ### One line, one run of lines -/

/-- Writing one line, after drawing NaN patterns. -/
theorem iqWrote_write (hp : p < 1024) (n : ℕ) (hv : IqValueAt s₀ c p v) :
    IqWrote s₀ c t [p] { t with nanDraws := n, mem := t.mem.write .spec (lineIx c p) v } := by
  have helem := elem_write { t with nanDraws := n } (sp := .spec) rfl (lineIx c p) v
  have htouch := (Touches.refl (only .spec) t).nanDraws n
  refine ⟨htouch.write (sp := .spec) rfl (lineIx_lt_size rfl hp) v, fun q hq => ?_,
    fun k hk => (helem k).trans (if_neg (hk p (List.mem_singleton.2 rfl)))⟩
  obtain rfl := List.mem_singleton.1 hq
  rw [Ref.line]
  exact ((helem _).trans (if_pos rfl)).symm ▸ hv

theorem sat_deqLine (hp : p < 1024) {sf : ℤ} (ht : Touches (only .spec) s₀ t)
    (hv : ∀ v, IsDequantized (Ref.line s₀ .qspec c p).toInt sf v → IqValueAt s₀ c p v) :
    Sat (deqLine blockParams c sf p) t (fun _ u => IqWrote s₀ c t [p] u) fun _ _ => False := by
  have hq : Ref.line t .qspec c p = Ref.line s₀ .qspec c p := ht.elem rfl _
  rw [deqLine, sat_bind, sat_loadLine .qspec c hp rfl, sat_bind, sat_drawing,
    sat_storeLine .spec c hp rfl, hq]
  exact iqWrote_write hp _ (hv _ (isDequantized_deq _ _ _))

theorem line_writeRun {q : ℕ} {vs : List F32} : Ref.line
    { t with mem := t.mem.writeRun .spec (lineIx c q) vs } .spec c p =
      if q ≤ p ∧ p < q + vs.length then vs.getD (p - q) 0 else Ref.line t .spec c p := by
  rw [Ref.line, elem_writeRun, lineIx, Nat.add_sub_add_left]
  exact if_congr (by omega) rfl rfl

/-- The indices of the lines lo … hi - 1 of a window. -/
def lineRun (s : State) (c : Channel) (g w lo hi : ℕ) : List ℕ :=
  (upTo lo hi).map (s.csr.line c g w)

theorem mem_lineRun {lo hi : ℕ} :
    p ∈ lineRun s c g w lo hi ↔ ∃ i, lo ≤ i ∧ i < hi ∧ p = s.csr.line c g w i := by
  simp only [lineRun, List.mem_map, mem_upTo, and_assoc, eq_comm]

theorem mem_lineRun_iff {lo hi : ℕ} : p ∈ lineRun s c g w lo hi ↔
    s.csr.line c g w lo ≤ p ∧ p < s.csr.line c g w lo + (hi - lo) := by
  rw [mem_lineRun]
  constructor
  · rintro ⟨i, hlo, hhi, rfl⟩
    unfold Csr.line
    omega
  · rintro ⟨hlo, hhi⟩
    refine ⟨lo + (p - s.csr.line c g w lo), by omega, by omega, ?_⟩
    rw [line_add]
    omega

/-- Zeroing a run of lines. -/
theorem sat_zeroLines (hg : Ref.Geometry s₀ c) (hgr : g < s₀.csr.ngrp c)
    (hw : w < s₀.csr.glen c g) {lo hi : ℕ} (hlo : lo ≤ s₀.csr.wl c) (hhi : hi ≤ s₀.csr.wl c)
    (ht : Touches (only .spec) s₀ t)
    (hv : ∀ p ∈ lineRun s₀ c g w lo hi, IqValueAt s₀ c p 0) :
    Sat (zeroLines c g w lo hi) t
      (fun _ u => IqWrote s₀ c t (lineRun s₀ c g w lo hi) u) fun _ _ => False := by
  have hfits := hg.lineRun_le hgr hw hlo hhi
  have hlen : (List.replicate (hi - lo) (0 : BitVec Space.spec.width)).length = hi - lo :=
    List.length_replicate
  rw [zeroLines, sat_bind, sat_get, ht.csr, sat_storeLines .spec c (hlen.symm ▸ hfits) rfl]
  refine ⟨(Touches.refl _ t).writeRun rfl (lineRun_le rfl (hlen.symm ▸ hfits)), fun p hp => ?_,
    fun k hk => ?_⟩
  · have hzero : ∀ k, (List.replicate (hi - lo) (0 : BitVec Space.spec.width)).getD k 0 = 0 := by
      simp
    rw [line_writeRun, if_pos (hlen.symm ▸ mem_lineRun_iff.1 hp), hzero]
    exact hv p hp
  · rw [elem_writeRun, hlen, if_neg]
    rintro ⟨hle, hlt⟩
    unfold lineIx at hle hlt
    exact hk (k - 1024 * c.num) (mem_lineRun_iff.2 (by omega)) (by unfold lineIx; omega)

/-! ### Lines in no band -/

/-- A line below the end of the first n bands lies in a band. -/
theorem exists_inBand (hg : Ref.Geometry s c) {n : ℕ} (hn : n ≤ s.csr.maxsfb c)
    (hi : i < s.off c n) : ∃ b, Ref.InBand s c b i := by
  induction n with
  | zero =>
    rw [hg.start] at hi
    exact absurd hi i.not_lt_zero
  | succ n ih =>
    rcases Nat.lt_or_ge i (s.off c n) with hlt | hge
    · exact ih (by omega) hlt
    · exact ⟨n, hn, hge, hi⟩

/-- A line from the last band's end on lies in no band. -/
theorem not_inBand_of_le (hg : Ref.Geometry s c) (h : s.off c (s.csr.maxsfb c) ≤ i) :
    ¬ Ref.InBand s c b i := fun hin =>
  hin.2.2.not_ge ((hg.off_mono hin.1 hg.bands).trans h)

/-! ### Bands, windows, the command -/

/-- The lines IQ writes for a band in a window. -/
def iqBandLines (s : State) (c : Channel) (gw : ℕ × ℕ) (b : ℕ) : List ℕ :=
  if s.cb c gw.1 b = .noise then [] else lineRun s c gw.1 gw.2 (s.off c b) (s.off c (b + 1))

/-- The lines IQ writes in a window: those of its bands and those above the last band. -/
def iqWindowLines (s : State) (c : Channel) (gw : ℕ × ℕ) : List ℕ :=
  (upTo 0 (s.csr.maxsfb c)).flatMap (iqBandLines s c gw) ++
    lineRun s c gw.1 gw.2 (s.off c (s.csr.maxsfb c)) (s.csr.wl c)

section

variable (hg : Ref.Geometry s₀ c) {gw : ℕ × ℕ} (hgw : gw ∈ s₀.csr.windowList c)
  (ht : Touches (only .spec) s₀ t)
include hg hgw ht

/-- Dequantizing the lines of a spectral band. -/
theorem sat_spectralLines (hb : b < s₀.csr.maxsfb c) {bk : SpecBook}
    (hcb : s₀.cb c gw.1 b = .spectral bk) :
    Sat (each (deqLine blockParams c (s₀.sf c gw.1 b))
        (lineRun s₀ c gw.1 gw.2 (s₀.off c b) (s₀.off c (b + 1)))) t
      (fun _ u => IqWrote s₀ c t (lineRun s₀ c gw.1 gw.2 (s₀.off c b) (s₀.off c (b + 1))) u)
      fun _ _ => False := by
  obtain ⟨hgr, hw⟩ := mem_windowList.1 hgw
  have hloop := sat_each_iqWrote (f := deqLine blockParams c (s₀.sf c gw.1 b))
    (work := fun p => [p]) ht fun p hp u hu => by
      obtain ⟨i, hlo, hhi, rfl⟩ := mem_lineRun.1 hp
      have hin : Ref.InBand s₀ c b i := ⟨hb, hlo, hhi⟩
      have hl := hg.isLine hgr hw hin
      exact sat_deqLine (hg.line_lt_1024 hl) hu fun v hv =>
        (iqValue_spectral hg hin hcb hv).valueAt hl
  rwa [List.flatMap_singleton'] at hloop

/-- Zeroing the lines of a band that is not spectral. -/
theorem sat_zeroBand (hb : b < s₀.csr.maxsfb c) (hcb : ∀ bk, s₀.cb c gw.1 b ≠ .spectral bk) :
    Sat (zeroLines c gw.1 gw.2 (s₀.off c b) (s₀.off c (b + 1))) t
      (fun _ u => IqWrote s₀ c t (lineRun s₀ c gw.1 gw.2 (s₀.off c b) (s₀.off c (b + 1))) u)
      fun _ _ => False := by
  obtain ⟨hgr, hw⟩ := mem_windowList.1 hgw
  have hmax := hg.bands
  refine sat_zeroLines hg hgr hw (hg.off_le (by omega)) (hg.off_le (by omega)) ht fun p hp => ?_
  obtain ⟨i, hlo, hhi, rfl⟩ := mem_lineRun.1 hp
  have hin : Ref.InBand s₀ c b i := ⟨hb, hlo, hhi⟩
  exact (iqValue_zero fun b' hin' => hg.band_unique hin hin' ▸ hcb).valueAt (hg.isLine hgr hw hin)

theorem sat_iqBand (hb : b < s₀.csr.maxsfb c) : Sat (iqBand blockParams c gw b) t
    (fun _ u => IqWrote s₀ c t (iqBandLines s₀ c gw b) u) fun _ _ => False := by
  have hsf : t.sf c gw.1 b = s₀.sf c gw.1 b := by simp only [State.sf, ht.elem (sp := .sf) rfl]
  rw [iqBand, sat_bind, sat_get, State.windowLines, ht.consumes.cb clear_spec,
    ht.consumes.off clear_spec, hsf, ht.csr, iqBandLines]
  cases hcb : s₀.cb c gw.1 b with
  | spectral bk => exact sat_spectralLines hg hgw ht hb hcb
  | noise => exact IqWrote.refl s₀ c t
  | zero | reserved | intensity2 | intensity => exact sat_zeroBand hg hgw ht hb (by simp [hcb])

theorem sat_iqWindow : Sat (iqWindow blockParams c gw) t
    (fun _ u => IqWrote s₀ c t (iqWindowLines s₀ c gw) u) fun _ _ => False := by
  obtain ⟨hgr, hw⟩ := mem_windowList.1 hgw
  rw [iqWindow, sat_bind, sat_get, ht.csr, ht.consumes.off clear_spec, sat_bind]
  refine (sat_each_iqWrote ht fun b hb u hu => sat_iqBand hg hgw hu (mem_upTo.1 hb).2).imp
    (fun _ u hu => ?_) fun _ _ he => he
  refine (sat_zeroLines hg hgr hw (hg.off_le hg.bands) le_rfl (ht.trans hu.touches)
    fun p hp => ?_).imp (fun _ v hv => hu.trans hv) fun _ _ he => he
  obtain ⟨i, hlo, hhi, rfl⟩ := mem_lineRun.1 hp
  exact (iqValue_zero fun b hin => absurd hin (not_inBand_of_le hg hlo)).valueAt ⟨hgr, hw, hhi⟩

end

theorem sat_iqCmd (hg : Ref.Geometry s c) : Sat (iqCmd blockParams c) s
    (fun _ t => IqWrote s c s ((s.csr.windowList c).flatMap (iqWindowLines s c)) t)
    fun _ _ => False := by
  rw [iqCmd, sat_bind, sat_geomCheck]
  refine ⟨fun _ => ?_, fun h => absurd hg h⟩
  rw [sat_bind, sat_get]
  exact sat_each_iqWrote (.refl _ s) fun gw hgw t ht => sat_iqWindow hg hgw ht

/-! ### Which lines IQ writes -/

theorem mem_iqBandLines {gw : ℕ × ℕ} : p ∈ iqBandLines s c gw b ↔ s.cb c gw.1 b ≠ .noise ∧
    ∃ i, s.off c b ≤ i ∧ i < s.off c (b + 1) ∧ p = s.csr.line c gw.1 gw.2 i := by
  rw [iqBandLines, ← mem_lineRun]
  split
  next h => simp [h]
  next h => simp [h]

/-- In a window IQ writes the lines that lie in no noise band. -/
theorem mem_iqWindowLines (hg : Ref.Geometry s c) {gw : ℕ × ℕ} (hgw : gw ∈ s.csr.windowList c) :
    p ∈ iqWindowLines s c gw ↔ ∃ i, Ref.IsLine s c gw.1 gw.2 i ∧
      (∀ b, Ref.InBand s c b i → s.cb c gw.1 b ≠ .noise) ∧ p = s.csr.line c gw.1 gw.2 i := by
  obtain ⟨hgr, hw⟩ := mem_windowList.1 hgw
  simp only [iqWindowLines, List.mem_append, List.mem_flatMap, mem_iqBandLines, mem_lineRun,
    mem_upTo]
  constructor
  · rintro (⟨b, ⟨-, hb⟩, hcb, i, hlo, hhi, rfl⟩ | ⟨i, hlo, hhi, rfl⟩)
    · have hin : Ref.InBand s c b i := ⟨hb, hlo, hhi⟩
      exact ⟨i, hg.isLine hgr hw hin, fun b' hin' => hg.band_unique hin hin' ▸ hcb, rfl⟩
    · exact ⟨i, ⟨hgr, hw, hhi⟩, fun b hin => absurd hin (not_inBand_of_le hg hlo), rfl⟩
  · rintro ⟨i, hl, hno, rfl⟩
    rcases Nat.lt_or_ge i (s.off c (s.csr.maxsfb c)) with hlt | hge
    · obtain ⟨b, hin⟩ := exists_inBand hg le_rfl hlt
      exact .inl ⟨b, ⟨Nat.zero_le _, hin.1⟩, hno b hin, i, hin.2.1, hin.2.2, rfl⟩
    · exact .inr ⟨i, hge, hl.2.2, rfl⟩

/-- IQ writes the lines that lie in no noise band. -/
theorem mem_iqLines (hg : Ref.Geometry s c) :
    p ∈ (s.csr.windowList c).flatMap (iqWindowLines s c) ↔ ∃ g w i, Ref.IsLine s c g w i ∧
      (∀ b, Ref.InBand s c b i → s.cb c g b ≠ .noise) ∧ p = s.csr.line c g w i := by
  rw [List.mem_flatMap]
  constructor
  · rintro ⟨gw, hgw, hp⟩
    exact ⟨gw.1, gw.2, (mem_iqWindowLines hg hgw).1 hp⟩
  · rintro ⟨g, w, i, hl, h⟩
    have hgw : (g, w) ∈ s.csr.windowList c := mem_windowList.2 ⟨hl.1, hl.2.1⟩
    exact ⟨(g, w), hgw, (mem_iqWindowLines hg hgw).2 ⟨i, hl, h⟩⟩

/-- Settles O41: IQ writes every line that lies in no noise band, and with the value of its band. -/
theorem iqDequantizes : Obligations.IqDequantizes := by
  intro c s hidle hg
  obtain ⟨t, hrun, htouch, hvalue, hrest⟩ :=
    runCmd_completes (w := encode (.iq c)) hidle (sat_iqCmd hg)
  have hmade : ∀ g w i, Ref.IsLine s c g w i → (∀ b, Ref.InBand s c b i → s.cb c g b ≠ .noise) →
      IqValue s c g w i (Ref.line t .spec c (s.csr.line c g w i)) := fun g w i hl hno =>
    hvalue _ ((mem_iqLines hg).2 ⟨g, w, i, hl, hno, rfl⟩) g w i hl rfl
  refine ⟨t, hrun, ⟨htouch.regs, htouch.csr⟩, htouch.host, fun g w i b bk hl hin hcb => ?_,
    fun g w i hl hno => ?_, htouch.consumes.sameExcept fun k hk => hrest k fun p hp heq => hk ?_⟩
  · refine (hmade g w i hl fun b' hin' => ?_).spectral b bk hin hcb
    rw [← hg.band_unique hin hin', hcb]
    simp
  · exact (hmade g w i hl fun b hin => (hno b hin).2).zero hno
  · obtain ⟨g, w, i, hl, hno, rfl⟩ := (mem_iqLines hg).1 hp
    have hlt := hg.line_lt hl
    refine ⟨⟨rfl, heq ▸ Nat.le_add_right _ _, heq ▸ Nat.add_lt_add_left hlt _⟩,
      fun g' w' i' b hl' hin hcb heq' => ?_⟩
    obtain ⟨rfl, rfl, rfl⟩ := hl.inj hl' (Nat.add_left_cancel (heq.symm.trans heq'))
    exact hno b hin hcb

end Sys2Proof.Machine
end

section
/-! SUPPORT. FB (46_filterbank.md R264 to R270): the lines the transforms take, what a frame's
values say of the products and sums they are made of whatever NaN patterns were drawn, and the
state FB leaves. -/

namespace Sys2Proof.Machine

open Sys2Proof

variable {p : Params} {s t : State} {c : Channel} {q : Csr} {n w m k : ℕ}

/-! ### The inputs and outputs of the transforms -/

theorem lines_spec (s : State) (c : Channel) :
    s.lines .spec c = Ref.spectrum s c 0 s.csr.fl := by
  simp only [State.lines, Ref.spectrum, upTo_zero, Nat.zero_add]
  rfl

theorem lines_getD (sp : Space) (hn : n < s.csr.fl) :
    (s.lines sp c).getD n 0 = Ref.line s sp c n := by
  rw [List.getD_eq_getElem?_getD, State.lines, List.getElem?_map, getElem?_upTo (by omega),
    Nat.zero_add]
  rfl

/-- The lines of short window w. -/
theorem take_drop_spectrum (hw : w < 8) :
    ((Ref.spectrum s c 0 s.csr.fl).drop (w * s.csr.sl)).take s.csr.sl =
      Ref.spectrum s c (w * s.csr.sl) s.csr.sl := by
  have hfit : (w + 1) * s.csr.sl ≤ s.csr.fl :=
    (Nat.mul_le_mul_right _ hw).trans (Nat.mul_div_le s.csr.fl 8)
  rw [Nat.succ_mul] at hfit
  refine List.ext_getElem ?_ fun i _ _ => ?_
  · simp only [Ref.spectrum, List.length_take, List.length_drop, List.length_map,
      List.length_range]
    omega
  · simp [Ref.spectrum]

theorem length_imdct (m : ℕ) (xs : List F32) : (Rom.imdct m xs).length = 2 * m := by
  unfold Rom.imdct
  dsimp only
  split <;> simp

theorem length_imdctL (q : Csr) (xs : List F32) :
    (blockParams.imdctL q.frameLen xs).length = 2 * q.fl := length_imdct _ xs

theorem length_imdctS (q : Csr) (xs : List F32) :
    (blockParams.imdctS q.frameLen xs).length = 2 * q.sl := length_imdct _ xs

/-- Output n of short window w is output w·2·SL + n of the eight transforms in a row. -/
theorem shortTransforms_getElem? (s : State) (c : Channel) (hw : w < 8) (hn : n < 2 * s.csr.sl) :
    (shortTransforms blockParams s.csr (Ref.spectrum s c 0 s.csr.fl))[w * (2 * s.csr.sl) + n]? =
      some ((blockParams.imdctS s.csr.frameLen
        (Ref.spectrum s c (w * s.csr.sl) s.csr.sl)).getD n none) := by
  have hrows : shortTransforms blockParams s.csr (Ref.spectrum s c 0 s.csr.fl) =
      (List.range 8).flatMap fun w => (List.range (2 * s.csr.sl)).map fun n =>
        (blockParams.imdctS s.csr.frameLen
          (Ref.spectrum s c (w * s.csr.sl) s.csr.sl)).getD n none := by
    rw [shortTransforms, upTo_zero]
    refine List.flatMap_congr fun w hw => ?_
    rw [take_drop_spectrum (List.mem_range.1 hw)]
    refine List.ext_getElem (by simp [length_imdctS]) fun i hi _ => ?_
    simp [List.getElem?_eq_getElem hi]
  rw [hrows]
  exact getElem?_rows _ hw hn

/-! ### Products and sums -/

/-- Each position's value is drawn from some number on. -/
theorem exists_draws_mapDraw (f : ℕ → ℕ → F32 × ℕ) (m k : ℕ) : ∃ K : ℕ → ℕ, ∀ n < m,
    (mapDraw f (upTo 0 m) k).1.getD n 0 = (f n (K n)).1 := by
  choose! K hK using fun n (hn : n < m) => mapDraw_upTo f 0 m k n hn
  exact ⟨K, fun n hn => by rw [hK n hn, Nat.zero_add]⟩

/-- What holds of a position's value whatever pattern is drawn for it holds of it in the list. -/
theorem mapDraw_upTo_induct {f : ℕ → ℕ → F32 × ℕ} (P : F32 → Prop) (hn : n < m)
    (h : ∀ k', P (f n k').1) : P ((mapDraw f (upTo 0 m) k).1.getD n 0) := by
  obtain ⟨K, hK⟩ := exists_draws_mapDraw f m k
  exact hK n hn ▸ h (K n)

/-- A sum with a result, or with another that gives the same: where it is a NaN, both are. -/
theorem add?_congr_of_gives {o : Option F32} {x x' : F32} (hx : Ref.Gives o x)
    (hx' : Ref.Gives o x') (a : F32) : Flt.add? a x = Flt.add? a x' := by
  cases o with
  | some v => rw [show x = v from hx, show x' = v from hx']
  | none =>
    rw [(Flt.add?_eq_none_iff a x).2 (.inr (.inl hx)),
      (Flt.add?_eq_none_iff a x').2 (.inr (.inl hx'))]

/-- TOUT at a position of a long frame (46_filterbank.md R268). -/
def OverlapAdded (old : F32) (u : Piece) (z r : F32) : Prop :=
  match u with
  | .zero => r = old
  | .copy => Ref.Gives (Flt.add? old z) r
  | .mul w => ∃ x, Ref.Gives (Flt.mul? z w) x ∧ Ref.Gives (Flt.add? old x) r

/-- The new overlap at a position of a long frame (46_filterbank.md R268). -/
def IsNewTail (u : Piece) (z r : F32) : Prop :=
  match u with
  | .zero => r = 0
  | .copy => r = z
  | .mul w => Ref.Gives (Flt.mul? z w) r

theorem overlapAdded_overlapAdd (old : F32) (u : Piece) (z : F32) (k : ℕ) :
    OverlapAdded old u z (overlapAdd old u z k).1 := by
  cases u with
  | zero => rfl
  | copy => exact gives_fadd _ _ k
  | mul w => exact ⟨_, gives_fmul z w k, gives_fadd _ _ _⟩

theorem isNewTail_newTail (u : Piece) (z : F32) (k : ℕ) : IsNewTail u z (newTail u z k).1 := by
  cases u with
  | zero => rfl
  | copy => rfl
  | mul w => exact gives_fmul z w k

/-- x is the product of the two factors: the number, or some NaN. -/
def IsProduct (y : F32 × F32) (x : F32) : Prop := Ref.Gives (Flt.mul? y.1 y.2) x

/-- The product of the two factors, where it is a NaN the pattern of draw number k. -/
def product (y : F32 × F32) (k : ℕ) : F32 := (fmul y.1 y.2 k).1

theorem isProduct_product (y : F32 × F32) (k : ℕ) : IsProduct y (product y k) :=
  gives_fmul y.1 y.2 k

/-- Which NaN a product is makes no difference to a sum. -/
theorem added_addContributions {cs : List (F32 × F32)} {xs : List F32}
    (h : List.Forall₂ IsProduct cs xs) (acc : F32) (k : ℕ) :
    Ref.Added acc xs (addContributions cs acc k).1 := by
  induction h generalizing acc k with
  | nil => rfl
  | @cons y x cs xs hx _ ih =>
    refine ⟨(fadd acc (product y k) (fmul y.1 y.2 k).2).1, ?_, ih _ _⟩
    rw [add?_congr_of_gives hx (isProduct_product y k)]
    exact gives_fadd _ _ _

/-! ### The state FB leaves -/

theorem line_writeRun_self (t : State) (sp : Space) (c : Channel) {vs : List (BitVec sp.width)}
    (hn : n < vs.length) :
    Ref.line { t with mem := t.mem.writeRun sp (lineIx c 0) vs } sp c n = vs.getD n 0 := by
  have h := elem_writeRun t sp (lineIx c 0) vs (1024 * c.num + n)
  rw [lineIx, Nat.add_zero, if_pos ⟨Nat.le_add_right _ _, Nat.add_lt_add_left hn _⟩,
    Nat.add_sub_cancel_left] at h
  exact h

theorem getLsbD_setPrevShape (q : Csr) (c : Channel) (v : Bool) {j : ℕ} (hj : j < 32) :
    (q.setPrevShape c v).pshape.getLsbD j = if j = c.num then v else q.pshape.getLsbD j := by
  have hbit : (1#32 <<< c.num).getLsbD j = decide (j = c.num) := by
    cases c <;> revert j <;> decide
  have hkeep : (q.pshape &&& ~~~(1#32 <<< c.num)).getLsbD j =
      (q.pshape.getLsbD j && !decide (j = c.num)) := by
    rw [BitVec.getLsbD_and, BitVec.getLsbD_not, hbit, decide_eq_true hj, Bool.true_and]
  cases v with
  | false =>
    change (q.pshape &&& ~~~(1#32 <<< c.num)).getLsbD j = _
    rw [hkeep]
    split <;> simp [*]
  | true =>
    change (q.pshape &&& ~~~(1#32 <<< c.num) ||| 1#32 <<< c.num).getLsbD j = _
    rw [BitVec.getLsbD_or, hkeep, hbit]
    split <;> simp [*]

/-- `t` is `s` with a frame's values for TOUT and OVL of channel c written, and its shape. -/
structure Synthesized (s : State) (c : Channel) (tout ovl : List F32) (t : State) : Prop where
  regs : t.regs = s.regs
  host : t.host = s.host
  csr : t.csr = s.csr.setPrevShape c (s.csr.wshape c)
  tout : ∀ n < s.csr.fl, Ref.line t .tout c n = tout.getD n 0
  ovl : ∀ n < s.csr.fl, Ref.line t .ovl c n = ovl.getD n 0
  rest : Ref.SameExcept s t fun sp k => Ref.OnLines s .tout c sp k ∨ Ref.OnLines s .ovl c sp k

/-- What changes in the registers is PSHAPE of the channel. -/
theorem Synthesized.shape {tout ovl : List F32} (h : Synthesized s c tout ovl t) :
    t.csr = { s.csr with pshape := t.csr.pshape } ∧
    ∀ j < 32, t.csr.pshape.getLsbD j =
      if j = c.num then s.csr.wshape c else s.csr.pshape.getLsbD j := by
  rw [h.csr]
  exact ⟨rfl, fun j hj => getLsbD_setPrevShape _ _ _ hj⟩

/-- Writing the lines of channel c of a space leaves everything else. -/
theorem sameExcept_writeRun (sp : Space) {vs : List (BitVec sp.width)} (hl : vs.length = s.csr.fl)
    (t : State) : Ref.SameExcept t
      { t with mem := t.mem.writeRun sp (lineIx c 0) vs } (Ref.OnLines s sp c) := by
  intro sp' i hi
  by_cases hsp : sp' = sp
  · subst hsp
    rw [elem_writeRun, if_neg]
    rintro ⟨hlo, hhi⟩
    exact hi ⟨rfl, hlo, hl ▸ hhi⟩
  · exact elem_writeRun_of_ne t _ vs hsp i

theorem sat_fbCmd (p : Params) (c : Channel) (s : State) :
    Sat (fbCmd p c) s (fun _ t => Synthesized s c (fbFrame p c s s.nanDraws).1.1
      (fbFrame p c s s.nanDraws).1.2 t) fun _ _ => False := by
  obtain ⟨hout, htail⟩ := length_fbFrame p c s s.nanDraws
  have hfl := fl_le s.csr
  rw [fbCmd, sat_bind, sat_get, sat_bind, sat_drawing, sat_bind,
    sat_storeLines .tout c (by omega) rfl, sat_bind, sat_storeLines .ovl c (by omega) rfl,
    sat_modify]
  generalize fbFrame p c s s.nanDraws = r at *
  refine ⟨rfl, rfl, rfl, fun n hn => ?_, fun n hn => ?_, fun sp k hk => ?_⟩
  · exact (elem_writeRun_of_ne _ _ _ (by decide) _).trans
      (line_writeRun_self { s with nanDraws := r.2 } .tout c (hout ▸ hn))
  · exact line_writeRun_self
      { s with nanDraws := r.2, mem := s.mem.writeRun .tout (lineIx c 0) r.1.1 } .ovl c (htail ▸ hn)
  · rw [not_or] at hk
    exact (sameExcept_writeRun .ovl htail
      { s with nanDraws := r.2, mem := s.mem.writeRun .tout (lineIx c 0) r.1.1 } sp k hk.2).trans
        (sameExcept_writeRun .tout hout { s with nanDraws := r.2 } sp k hk.1)

theorem execFb_completes (hidle : s.csr.fault = none) : ∃ t, exec (.fb c) s = .next t ∧
    Synthesized s c (fbFrame blockParams c s s.nanDraws).1.1
      (fbFrame blockParams c s s.nanDraws).1.2 t :=
  runCmd_completes (w := encode (.fb c)) hidle (sat_fbCmd blockParams c s)

/-! ### A long frame -/

/-- The values of a long frame: with the outputs z of the transform, each is made by its piece of
the window (46_filterbank.md R265, R268). -/
theorem longFrame_values (s : State) (c : Channel) (k : ℕ) : ∃ z : ℕ → F32,
    (∀ n < 2 * s.csr.fl, Ref.Gives ((blockParams.imdctL s.csr.frameLen
      (Ref.spectrum s c 0 s.csr.fl)).getD n none) (z n)) ∧
    ∀ n < s.csr.fl,
      OverlapAdded (Ref.line s .ovl c n)
        (risePiece blockParams s.csr (s.csr.wseq c) (s.csr.prevShape c) n) (z n)
        ((longFrame blockParams s.csr c (s.lines .spec c) (s.lines .ovl c) k).1.1.getD n 0) ∧
      IsNewTail (fallPiece blockParams s.csr (s.csr.wseq c) (s.csr.wshape c) n)
        (z (s.csr.fl + n))
        ((longFrame blockParams s.csr c (s.lines .spec c) (s.lines .ovl c) k).1.2.getD n 0) := by
  refine ⟨fun n => (transform (blockParams.imdctL s.csr.frameLen (s.lines .spec c)) k).1.getD n 0,
    fun n hn => ?_, fun n hn => ⟨?_, ?_⟩⟩
  · rw [← lines_spec]
    exact gives_transform _ k n (by rwa [length_imdctL])
  · rw [← lines_getD .ovl hn]
    exact mapDraw_upTo_induct (OverlapAdded _ _ _) hn fun _ => overlapAdded_overlapAdd _ _ _ _
  · exact mapDraw_upTo_induct (IsNewTail _ _) hn fun _ => isNewTail_newTail _ _ _

theorem fbFrame_long (h : s.csr.wseq c ≠ .eightShort) (k : ℕ) : fbFrame p c s k =
    longFrame p s.csr c (s.lines .spec c) (s.lines .ovl c) k := by
  rw [fbFrame, if_neg]
  simpa [Csr.short] using h

/-- Settles O43: every position has its piece of the window, and the statement spells the pieces
out. -/
theorem fbSynthesizesALongFrame : Obligations.FbSynthesizesALongFrame := by
  intro c s hidle hseq
  obtain ⟨t, hrun, ht⟩ := execFb_completes (c := c) hidle
  rw [fbFrame_long hseq] at ht
  obtain ⟨z, hz, hval⟩ := longFrame_values s c s.nanDraws
  refine ⟨t, z, hrun, ht.regs, ht.host, hz, fun n hn => ?_, fun m hm => ?_, ht.shape.1, ht.shape.2,
    ht.rest⟩
  · have hout := (hval n hn).1
    rw [← ht.tout n hn] at hout
    cases hw : s.csr.wseq c with
    | eightShort => exact absurd hw hseq
    | onlyLong | longStart =>
      rw [if_neg (by decide)]
      rwa [hw] at hout
    | longStop =>
      rw [hw] at hout
      rw [if_pos rfl]
      unfold risePiece at hout
      dsimp only at hout
      split_ifs at hout ⊢ <;> exact hout
  · have htail := (hval m hm).2
    rw [← ht.ovl m hm] at htail
    cases hw : s.csr.wseq c with
    | eightShort => exact absurd hw hseq
    | onlyLong | longStop =>
      rw [if_neg (by decide)]
      rwa [hw] at htail
    | longStart =>
      rw [hw] at htail
      rw [if_pos rfl]
      unfold fallPiece at htail
      dsimp only at htail
      split_ifs at htail ⊢ <;> exact htail

/-! ### A short frame -/

/-- The rising half of short window w at n, an output and its window factor
(46_filterbank.md R267). -/
def shortRise (p : Params) (q : Csr) (c : Channel) (z : List F32) (w n : ℕ) : F32 × F32 :=
  (z.getD (w * (2 * q.sl) + n) 0,
    p.wins q.frameLen (if w = 0 then q.prevShape c else q.wshape c) n)

/-- The falling half of short window w at n (46_filterbank.md R267). -/
def shortFall (p : Params) (q : Csr) (c : Channel) (z : List F32) (w n : ℕ) : F32 × F32 :=
  (z.getD (w * (2 * q.sl) + (q.sl + n)) 0,
    p.wins q.frameLen (q.wshape c) (q.sl - 1 - n))

/-- What holds of each windowed value laid at position t holds of the values t receives, in
order. -/
theorem forall₂_received {P : F32 × F32 → F32 → Prop} {z : List F32} {r f : ℕ → ℕ → F32} {t : ℕ}
    (hr : ∀ w < 8, ∀ n < q.sl, t = q.flat + w * q.sl + n → P (shortRise p q c z w n) (r w n))
    (hf : ∀ w < 8, ∀ n < q.sl, t = q.flat + (w + 1) * q.sl + n →
      P (shortFall p q c z w n) (f w n)) :
    List.Forall₂ P (contributions p q c z t) (Ref.received q r f t) := by
  unfold contributions Ref.received
  split
  case isTrue => exact .nil
  case isFalse hin =>
    have hsl : 0 < q.sl := by rw [sl_eq]; split <;> decide
    have hn : (t - q.flat) % q.sl < q.sl := Nat.mod_lt _ hsl
    have hj : (t - q.flat) / q.sl < 9 := (Nat.div_lt_iff_lt_mul hsl).2 (by omega)
    have ht := Nat.div_add_mod' (t - q.flat) q.sl
    generalize (t - q.flat) / q.sl = j at *
    generalize (t - q.flat) % q.sl = n at *
    refine List.rel_append ?_ ?_
    · split
      case isTrue h =>
        exact .cons (hf _ (by omega) n hn (by rw [Nat.sub_add_cancel h]; omega)) .nil
      case isFalse => exact .nil
    · split
      case isTrue => exact .cons (hr j (by omega) n hn (by omega)) .nil
      case isFalse => exact .nil

/-- The new overlap at a position of a short frame that receives xs (46_filterbank.md R268). -/
def IsShortTail (xs : List F32) (v : F32) : Prop :=
  match xs with
  | [] => v = 0
  | x :: xs => Ref.Added x xs v

/-- A value that is stored as it is, is the very pattern drawn for it. -/
theorem isShortTail_sumContributions {cs : List (F32 × F32)} {xs : List F32} {k : ℕ}
    (h : List.Forall₂ (fun y x => x = product y k) cs xs) :
    IsShortTail xs (sumContributions cs k).1 := by
  cases h with
  | nil => rfl
  | @cons y x cs xs hx hxs =>
    subst hx
    exact added_addContributions (hxs.imp fun y x hx => hx ▸ isProduct_product y k) _ _

/-- The values of a short frame: with the outputs z of the transforms and the windowed values r
and f, each is the sum of what its position receives (46_filterbank.md R267, R268). The patterns
of r and f that are NaNs are those drawn at their positions of the new overlap. -/
theorem shortFrame_values (s : State) (c : Channel) (k : ℕ) :
    ∃ (z : List F32) (r f : ℕ → ℕ → F32),
      (∀ w < 8, ∀ n < 2 * s.csr.sl, Ref.Gives ((blockParams.imdctS s.csr.frameLen
        (Ref.spectrum s c (w * s.csr.sl) s.csr.sl)).getD n none)
          (z.getD (w * (2 * s.csr.sl) + n) 0)) ∧
      (∀ w n, IsProduct (shortRise blockParams s.csr c z w n) (r w n) ∧
        IsProduct (shortFall blockParams s.csr c z w n) (f w n)) ∧
      ∀ n < s.csr.fl,
        Ref.Added (Ref.line s .ovl c n) (Ref.received s.csr r f n)
          ((shortFrame blockParams s.csr c (s.lines .spec c) (s.lines .ovl c) k).1.1.getD n 0) ∧
        IsShortTail (Ref.received s.csr r f (s.csr.fl + n))
          ((shortFrame blockParams s.csr c (s.lines .spec c) (s.lines .ovl c) k).1.2.getD n 0) := by
  rw [lines_spec, shortFrame]
  dsimp only
  generalize hzs : shortTransforms blockParams s.csr (Ref.spectrum s c 0 s.csr.fl) = zs
  generalize (mapDraw _ _ (transform zs k).2).2 = k₁
  obtain ⟨K, hK⟩ := exists_draws_mapDraw (fun m => sumContributions
    (contributions blockParams s.csr c (transform zs k).1 (s.csr.fl + m))) s.csr.fl k₁
  have hprod : ∀ w n, IsProduct (shortRise blockParams s.csr c (transform zs k).1 w n)
      (product (shortRise blockParams s.csr c (transform zs k).1 w n)
        (K (s.csr.flat + w * s.csr.sl + n - s.csr.fl))) ∧
    IsProduct (shortFall blockParams s.csr c (transform zs k).1 w n)
      (product (shortFall blockParams s.csr c (transform zs k).1 w n)
        (K (s.csr.flat + (w + 1) * s.csr.sl + n - s.csr.fl))) := fun w n =>
    ⟨isProduct_product _ _, isProduct_product _ _⟩
  refine ⟨(transform zs k).1, _, _, fun w hw n hn => ?_, hprod, fun n hn => ⟨?_, ?_⟩⟩
  · have hget := hzs ▸ shortTransforms_getElem? s c hw hn
    have hgives := gives_transform zs k _ (List.getElem?_eq_some_iff.1 hget).1
    rwa [List.getD_eq_getElem?_getD, hget] at hgives
  · rw [← lines_getD .ovl hn]
    exact mapDraw_upTo_induct (Ref.Added _ _) hn fun _ => added_addContributions
      (forall₂_received (fun w _ n _ _ => (hprod w n).1) fun w _ n _ _ => (hprod w n).2) _ _
  · rw [hK n hn]
    refine isShortTail_sumContributions (forall₂_received (fun w _ i _ ht => ?_)
      fun w _ i _ ht => ?_) <;> rw [← ht, Nat.add_sub_cancel_left]

theorem fbFrame_short (h : s.csr.wseq c = .eightShort) (k : ℕ) : fbFrame p c s k =
    shortFrame p s.csr c (s.lines .spec c) (s.lines .ovl c) k := by
  rw [fbFrame, if_pos]
  simpa [Csr.short] using h

/-- Settles O44: every position has the sum of what it receives. -/
theorem fbSynthesizesAShortFrame : Obligations.FbSynthesizesAShortFrame := by
  intro c s hidle hseq
  obtain ⟨t, hrun, ht⟩ := execFb_completes (c := c) hidle
  rw [fbFrame_short hseq] at ht
  obtain ⟨z, r, f, hz, hrf, hval⟩ := shortFrame_values s c s.nanDraws
  refine ⟨t, fun w n => z.getD (w * (2 * s.csr.sl) + n) 0, r, f, hrun, ht.regs, ht.host, hz,
    fun w _ n _ => hrf w n, fun n hn => ?_, fun m hm => ?_, ht.shape.1, ht.shape.2, ht.rest⟩
  · rw [ht.tout n hn]
    exact (hval n hn).1
  · rw [ht.ovl m hm]
    have htail := (hval m hm).2
    cases hrec : Ref.received s.csr r f (s.csr.fl + m) <;> rwa [hrec] at htail

end Sys2Proof.Machine
end

section
/-! SUPPORT. The default transform (46_filterbank.md R264; logs 7, 8): each output is one rounding
of the sum of the inputs with fixed-point cosines, and the symmetries of these cosines. -/

namespace Sys2Proof.Machine

open Sys2Proof Rom

variable {m n d j j' : ℕ} {xs : List F32} {t : ℤ}

/-! ### An output as a sum -/

/-- The sum that output n of the transform of xs rounds, in units of 2^-(149 + 640)/m. -/
def imdctSum (m : ℕ) (xs : List F32) (n : ℕ) : ℤ := ∑ k ∈ Finset.range m,
  Flt.value (xs.getD k 0) * cosFix ((2 * n + m + 1) * (2 * k + 1)) (4 * m)

theorem foldl_range_add (g : ℕ → ℤ) (m : ℕ) :
    (List.range m).foldl (fun t k => t + g k) 0 = ∑ k ∈ Finset.range m, g k := by
  induction m with
  | zero => rfl
  | succ m ih => simp [List.range_succ, ih, Finset.sum_range_succ]

theorem lineValues_map_range (f : ℕ → F32) (m : ℕ) : lineValues ((List.range m).map f) =
    ((List.range m).map fun k => (k, Flt.value (f k))).filter fun p => p.2 != 0 := by
  rw [lineValues]
  congr 1
  refine List.ext_getElem (by simp) fun i _ _ => ?_
  simp

theorem cosFix_mod (j d : ℕ) : cosFix (j % (2 * d)) d = cosFix j d := by
  simp only [cosFix, Nat.mod_mod]

theorem cosTable_getD (hm : 0 < m) (j : ℕ) :
    (cosTable m).getD (j % (8 * m)) 0 = cosFix j (4 * m) := by
  have hlt : j % (8 * m) < 8 * m := Nat.mod_lt _ (by omega)
  have hget : (cosTable m).getD (j % (8 * m)) 0 = cosFix (j % (8 * m)) (4 * m) := by
    simp [cosTable, Array.getD_eq_getD_getElem?, hlt]
  rw [hget, ← cosFix_mod j, ← Nat.mul_assoc]

/-- The inputs that are zero add nothing. -/
theorem imdctOut_eq (hm : 0 < m) (xs : List F32) (n : ℕ) :
    imdctOut m (cosTable m) (lineValues ((List.range m).map fun k => xs.getD k 0)) n =
      roundSum (imdctSum m xs n) m := by
  rw [imdctOut, lineValues_map_range, List.foldl_filter, List.foldl_map, imdctSum,
    ← foldl_range_add]
  simp only [cosTable_getD hm]
  congr 2
  funext t k
  split
  next => rfl
  next h => rw [show Flt.value (xs.getD k 0) = 0 by simpa using h, zero_mul, add_zero]

theorem map_getD_range (hlen : xs.length = m) :
    ((List.range m).map fun k => xs.getD k 0) = xs := by
  refine List.ext_getElem (by simp [hlen]) fun i _ hi => ?_
  simp [hi]

theorem imdct_of_finite (hm : 0 < m) (hlen : xs.length = m)
    (hfin : ∀ x ∈ xs, Flt.isFinite x = true) (hn : n < 2 * m) :
    (imdct m xs)[n]? = some (some (roundSum (imdctSum m xs n) m)) := by
  unfold imdct
  dsimp only
  rw [if_pos (by rwa [map_getD_range hlen, List.all_eq_true]), List.getElem?_map,
    List.getElem?_range hn, Option.map_some, imdctOut_eq hm]

theorem imdct_of_not_finite (hlen : xs.length = m) (h : ∃ x ∈ xs, Flt.isFinite x = false)
    (hn : n < 2 * m) : (imdct m xs)[n]? = some none := by
  unfold imdct
  dsimp only
  rw [map_getD_range hlen, if_neg]
  · simp [hn]
  · obtain ⟨x, hx, hfin⟩ := h
    rw [List.all_eq_true]
    exact fun hall => by simp [hall x hx] at hfin

/-! ### One rounding of a sum -/

/-- The magnitude pattern of a sum rounded. -/
def sumMag (t : ℤ) (m : ℕ) : ℕ := Flt.roundMag (stickyDiv t.natAbs m) (fracBits + 1)

theorem sumMag_lt (t : ℤ) (m : ℕ) : sumMag t m < 2 ^ 31 := Flt.roundMag_lt _ _

theorem roundSum_eq (t : ℤ) (m : ℕ) : roundSum t m =
    if sumMag t m = 0 then 0 else Flt.withSign (decide (t < 0)) (sumMag t m) := rfl

theorem sumMag_zero (m : ℕ) : sumMag 0 m = 0 := by
  rw [sumMag, show stickyDiv (0 : ℤ).natAbs m = 0 by simp [stickyDiv], Flt.roundMag_zero]

theorem mag_roundSum (t : ℤ) (m : ℕ) : Flt.mag (roundSum t m) = sumMag t m := by
  rw [roundSum_eq]
  split
  next h => rw [h]; rfl
  next => exact Flt.mag_withSign _ (sumMag_lt t m)

theorem neg_roundSum (t : ℤ) (m : ℕ) :
    Flt.neg (roundSum t m) = (decide (t < 0) && sumMag t m != 0) := by
  rw [roundSum_eq]
  split
  next h => rw [h, bne_self_eq_false, Bool.and_false]; rfl
  next h => rw [Flt.neg_withSign _ (sumMag_lt t m)]; simp [h]

theorem roundSum_eq_zero_iff (t : ℤ) (m : ℕ) : roundSum t m = 0 ↔ sumMag t m = 0 := by
  rw [← mag_roundSum]
  refine ⟨fun h => by rw [h]; rfl, fun h => Flt.eq_of_neg_mag ?_ (by rw [h]; rfl)⟩
  rw [neg_roundSum, ← mag_roundSum, h, bne_self_eq_false, Bool.and_false]
  rfl

theorem roundSum_zero (m : ℕ) : roundSum 0 m = 0 := (roundSum_eq_zero_iff 0 m).2 (sumMag_zero m)

/-- The opposite sum: the number negated, a zero being +0.0 (log 8). -/
theorem roundSum_neg (t : ℤ) (m : ℕ) :
    roundSum (-t) m = if roundSum t m = 0 then 0 else Flt.fneg (roundSum t m) := by
  have hmag : sumMag (-t) m = sumMag t m := by rw [sumMag, Int.natAbs_neg, sumMag]
  split
  next h => rwa [roundSum_eq_zero_iff, hmag, ← roundSum_eq_zero_iff]
  next h =>
    rw [roundSum_eq_zero_iff] at h
    have ht : t ≠ 0 := by rintro rfl; exact h (sumMag_zero m)
    refine Flt.eq_of_neg_mag ?_ (by rw [Flt.mag_fneg, mag_roundSum, mag_roundSum, hmag])
    rw [Flt.neg_fneg, neg_roundSum, neg_roundSum, hmag, bne_iff_ne.2 h, Bool.and_true,
      Bool.and_true, ← decide_not]
    exact decide_eq_decide.2 (by omega)

/-! ### The symmetries -/

/-- Two residues whose sum has the residue r. -/
theorem add_eq_of_add_mod {a a' r N : ℕ} (ha : a < N) (ha' : a' < N) (h : (a + a') % N = r) :
    a + a' = r ∨ a + a' = r + N := by
  rcases Nat.lt_or_ge (a + a') N with hlt | hge
  · exact .inl (by rwa [Nat.mod_eq_of_lt hlt] at h)
  · rw [Nat.mod_eq_sub_mod hge, Nat.mod_eq_of_lt (by omega)] at h
    exact .inr (by omega)

/-- cos(2π - x) = cos x. -/
theorem cosFix_of_add_mod (hd : 0 < d) (h : (j + j') % (2 * d) = 0) :
    cosFix j' d = cosFix j d := by
  have hj := Nat.mod_lt j (show 0 < 2 * d by omega)
  have hj' := Nat.mod_lt j' (show 0 < 2 * d by omega)
  rw [Nat.add_mod] at h
  unfold cosFix
  dsimp only
  generalize j % (2 * d) = a at *
  generalize j' % (2 * d) = a' at *
  have hsum := add_eq_of_add_mod hj hj' h
  have hfold : (if d < a' then 2 * d - a' else a') = if d < a then 2 * d - a else a := by
    split <;> split <;> omega
  rw [hfold]

/-- cos(π - x) = -cos x; an odd multiple of π/(4m) is no zero of the cosine. -/
theorem cosFix_of_add_mod_eq (hm : 0 < m) (h : (j + j') % (2 * (4 * m)) = 4 * m)
    (hodd : j % 2 = 1) : cosFix j' (4 * m) = -cosFix j (4 * m) := by
  have hj := Nat.mod_lt j (show 0 < 2 * (4 * m) by omega)
  have hj' := Nat.mod_lt j' (show 0 < 2 * (4 * m) by omega)
  rw [Nat.add_mod] at h
  rw [← Nat.mod_mod_of_dvd j (Dvd.intro (4 * m) rfl)] at hodd
  unfold cosFix
  dsimp only
  generalize j % (2 * (4 * m)) = a at *
  generalize j' % (2 * (4 * m)) = a' at *
  have hsum := add_eq_of_add_mod hj hj' h
  obtain ⟨b, hb⟩ : ∃ b, b = if 4 * m < a then 2 * (4 * m) - a else a := ⟨_, rfl⟩
  have hfold : (if 4 * m < a' then 2 * (4 * m) - a' else a') = 4 * m - b := by
    split <;> split at hb <;> omega
  have hle : b ≤ 4 * m ∧ 2 * b ≠ 4 * m := by split at hb <;> omega
  rw [hfold, ← hb]
  rcases Nat.lt_or_ge (4 * m) (2 * b) with hlt | hge
  · rw [if_pos hlt, if_neg (by omega), neg_neg]
  · rw [if_neg (Nat.not_lt.2 hge), if_pos (by omega), Nat.sub_sub_self hle.1]

/-- z[M - 1 - n] is -z[n], before it is rounded (46_filterbank.md R264). -/
theorem imdctSum_mirror_first (hm : 0 < m) (heven : m % 2 = 0) (xs : List F32) (hn : n < m) :
    imdctSum m xs (m - 1 - n) = -imdctSum m xs n := by
  rw [imdctSum, imdctSum, ← Finset.sum_neg_distrib]
  refine Finset.sum_congr rfl fun k _ => ?_
  rw [cosFix_of_add_mod_eq hm (j := (2 * n + m + 1) * (2 * k + 1)), mul_neg]
  · rw [← Nat.add_mul, show 2 * n + m + 1 + (2 * (m - 1 - n) + m + 1) = 4 * m by omega,
      Nat.mul_succ, ← Nat.mul_assoc, Nat.mul_comm (4 * m) 2, Nat.mul_add_mod,
      Nat.mod_eq_of_lt (by omega)]
  · rw [Nat.mul_mod, show (2 * n + m + 1) % 2 = 1 by omega, show (2 * k + 1) % 2 = 1 by omega]

/-- z[2M - 1 - n] is z[M + n], before it is rounded (46_filterbank.md R264). -/
theorem imdctSum_mirror_second (hm : 0 < m) (xs : List F32) (hn : n < m) :
    imdctSum m xs (2 * m - 1 - n) = imdctSum m xs (m + n) := by
  rw [imdctSum, imdctSum]
  refine Finset.sum_congr rfl fun k _ => ?_
  rw [cosFix_of_add_mod (show 0 < 4 * m by omega) (j := (2 * (m + n) + m + 1) * (2 * k + 1))]
  rw [← Nat.add_mul,
    show 2 * (m + n) + m + 1 + (2 * (2 * m - 1 - n) + m + 1) = 2 * (4 * m) by omega,
    Nat.mul_mod_right]

/-! ### How near an output is -/

/-- The sign of a sum, as a factor. -/
def sumSign (t : ℤ) : ℝ := if t < 0 then -1 else 1

theorem abs_sumSign (t : ℤ) : |sumSign t| = 1 := by
  unfold sumSign
  split <;> simp

theorem sumSign_mul_natAbs (t : ℤ) : sumSign t * (t.natAbs : ℝ) = t := by
  rw [sumSign, Nat.cast_natAbs, Int.cast_abs]
  split
  next h => rw [abs_of_neg (by exact_mod_cast h)]; ring
  next h => rw [abs_of_nonneg (by exact_mod_cast not_lt.1 h), one_mul]

/-- The signed number a sum's output is rounded from, in units of 2^-149. -/
noncomputable def sumReal (t : ℤ) (m : ℕ) : ℝ :=
  sumSign t * (stickyDiv t.natAbs m / 2 ^ (fracBits + 1))

theorem abs_sumReal (t : ℤ) (m : ℕ) :
    |sumReal t m| = stickyDiv t.natAbs m / 2 ^ (fracBits + 1) := by
  rw [sumReal, abs_mul, abs_sumSign, one_mul, abs_of_nonneg (by positivity)]

/-- The last bit that stands for the rest of a division is at most a unit off. -/
theorem stickyDiv_near (n : ℕ) (hm : 0 < m) : |(stickyDiv n m : ℝ) - 2 * (n / m)| ≤ 1 := by
  have hm' : (0 : ℝ) < m := by exact_mod_cast hm
  have hdiv : (n : ℝ) / m = (n / m : ℕ) + (n % m : ℕ) / m := by
    rw [div_eq_iff hm'.ne', add_mul, div_mul_cancel₀ _ hm'.ne']
    exact_mod_cast (Nat.div_add_mod' n m).symm
  have hlt : ((n % m : ℕ) : ℝ) / m < 1 := by
    rw [div_lt_one hm']
    exact_mod_cast Nat.mod_lt n hm
  have hnonneg : (0 : ℝ) ≤ (n % m : ℕ) / m := by positivity
  rw [hdiv, stickyDiv]
  split
  next h => simp [h]
  next => push_cast; rw [abs_le]; constructor <;> linarith

theorem sumReal_zero (m : ℕ) : sumReal 0 m = 0 := by simp [sumReal, stickyDiv]

theorem sumReal_near (t : ℤ) (hm : 0 < m) : |sumReal t m - t / m / 2 ^ 640| ≤ 1 / 2 ^ 641 := by
  have hdiff : sumReal t m - t / m / 2 ^ 640 =
      sumSign t * ((stickyDiv t.natAbs m - 2 * (t.natAbs / m)) / 2 ^ 641) := by
    rw [sumReal, show fracBits + 1 = 641 from rfl, pow_succ (2 : ℝ) 640]
    conv_lhs => rw [← sumSign_mul_natAbs t]
    generalize (2 : ℝ) ^ 640 = P
    ring
  rw [hdiff, abs_mul, abs_sumSign, one_mul, abs_div,
    abs_of_pos (show (0 : ℝ) < 2 ^ 641 by positivity)]
  gcongr
  exact stickyDiv_near t.natAbs hm

/-- A finite magnitude that was rounded, over the reals. -/
theorem magUnits_roundMag {n k : ℕ} (h : Flt.roundMag n k < Flt.infPattern) :
    (Flt.magUnits (Flt.roundMag n k) : ℝ) =
      Flt.roundShift n (k + Flt.ulpExp n k) * 2 ^ Flt.ulpExp n k := by
  obtain ⟨hlo, hhi⟩ := Flt.ulpExp_bounds n k
  have hpack : Flt.roundMag n k = Flt.ulpExp n k * 2 ^ 23 + Flt.roundShift n (k + Flt.ulpExp n k) :=
    min_eq_left (by unfold Flt.roundMag at h; dsimp only at h; omega)
  rw [hpack]
  exact Flt.magUnits_pack_cast (or_iff_not_imp_left.2 fun h => Flt.le_roundShift (hlo h))
    (Flt.roundShift_le hhi)

theorem value_roundSum (t : ℤ) (m : ℕ) : (Flt.value (roundSum t m) : ℝ) =
    sumSign t * Flt.magUnits (sumMag t m) := by
  rw [sumSign, Flt.value_eq, neg_roundSum, mag_roundSum]
  by_cases h : sumMag t m = 0
  · simp [h]
  · by_cases ht : t < 0 <;> simp [h, ht]

theorem roundSum_near (h : Flt.isFinite (roundSum t m) = true) :
    |(Flt.value (roundSum t m) : ℝ) - sumReal t m| ≤ |sumReal t m| / 2 ^ 24 + 1 / 2 := by
  rw [Flt.isFinite_iff, mag_roundSum] at h
  rw [abs_sumReal, value_roundSum, sumReal, ← mul_sub, abs_mul, abs_sumSign, one_mul, sumMag,
    magUnits_roundMag h]
  exact abs_roundShift_sub_le _ _

theorem roundSum_infinite (h : Flt.isFinite (roundSum t m) = false) :
    Flt.isInf (roundSum t m) = true ∧ (2 ^ 25 - 1) * 2 ^ 252 ≤ |sumReal t m| ∧
      (Flt.neg (roundSum t m) = true ↔ sumReal t m < 0) := by
  have hmag : sumMag t m = Flt.infPattern := by
    rw [← Bool.not_eq_true, Flt.isFinite_iff, mag_roundSum] at h
    exact le_antisymm (min_le_right _ _) (not_lt.1 h)
  have hbig : (2 ^ 25 - 1) * 2 ^ 252 ≤ |sumReal t m| := by
    rw [abs_sumReal, ← (Flt.nearest_ulpExp_roundShift _ _).infPattern_le_iff]
    exact min_eq_right_iff.1 hmag
  refine ⟨by rw [Flt.isInf_iff, mag_roundSum, hmag], hbig, ?_⟩
  have hpos : (0 : ℝ) < stickyDiv t.natAbs m / 2 ^ (fracBits + 1) := by
    rw [← abs_sumReal]
    exact lt_of_lt_of_le (by norm_num) hbig
  rw [neg_roundSum, hmag, sumReal, sumSign]
  by_cases ht : t < 0
  · simpa [ht, Flt.infPattern] using hpos
  · simpa [ht, Flt.infPattern] using hpos.le

/-! ### The reference transform -/

/-- The mean magnitude of the inputs, in units of 2^-149. -/
noncomputable def meanMag (m : ℕ) (xs : List F32) : ℝ :=
  (∑ k ∈ Finset.range m, |(Flt.value (xs.getD k 0) : ℝ)|) / m

/-- The angle of a term. -/
theorem imdctAngle (hm : 0 < m) (n k : ℕ) :
    2 * Real.pi / (2 * m) * (n + (m + 1) / 2) * (k + 1 / 2) =
      ((2 * n + m + 1) * (2 * k + 1) : ℕ) * Real.pi / (4 * m : ℕ) := by
  have hm' : (m : ℝ) ≠ 0 := by positivity
  push_cast
  field_simp
  ring

/-- The sum is near the reference's, by how near the cosines are (log 7). -/
theorem imdctSum_near (hm : 0 < m) {z : ℝ} (hz : Ref.IsTransform m xs n z) :
    |(imdctSum m xs n : ℝ) / m / 2 ^ 640 - 2 ^ 149 * z| ≤ meanMag m xs / 2 ^ 64 := by
  have hm' : (0 : ℝ) < m := by exact_mod_cast hm
  have hdiff : (imdctSum m xs n : ℝ) / m / 2 ^ 640 - 2 ^ 149 * z =
      (∑ k ∈ Finset.range m, (Flt.value (xs.getD k 0) : ℝ) *
        (cosFix ((2 * n + m + 1) * (2 * k + 1)) (4 * m) / 2 ^ 640 -
          Real.cos (((2 * n + m + 1) * (2 * k + 1) : ℕ) * Real.pi / (4 * m : ℕ)))) / m := by
    rw [hz, imdctSum]
    simp only [imdctAngle hm, mul_sub, Finset.sum_sub_distrib, sub_div]
    congr 1
    · push_cast
      rw [div_right_comm, Finset.sum_div]
      simp only [mul_div_assoc]
    · rw [← mul_assoc, Finset.mul_sum, Finset.sum_div]
      refine Finset.sum_congr rfl fun k _ => ?_
      field_simp
  rw [hdiff, abs_div, abs_of_pos hm', meanMag]
  refine (div_le_div_of_nonneg_right ?_ hm'.le).trans_eq (div_right_comm _ _ _)
  rw [Finset.sum_div]
  refine (Finset.abs_sum_le_sum_abs _ _).trans (Finset.sum_le_sum fun k _ => ?_)
  rw [abs_mul]
  exact (mul_le_mul_of_nonneg_left (cosFix_near _ (by omega)) (abs_nonneg _)).trans_eq
    (mul_one_div _ _)

theorem meanMag_nonneg (m : ℕ) (xs : List F32) : 0 ≤ meanMag m xs := by
  unfold meanMag
  positivity

/-- Where the sum is not 0 some input is not, and the magnitudes add up to a unit at least. -/
theorem one_le_meanMag (hm : 0 < m) (h : imdctSum m xs n ≠ 0) : 1 ≤ m * meanMag m xs := by
  have hm' : (m : ℝ) ≠ 0 := by positivity
  rw [meanMag, mul_div_cancel₀ _ hm']
  obtain ⟨k, hk, hne⟩ := Finset.exists_ne_zero_of_sum_ne_zero h
  have hval : 1 ≤ |Flt.value (xs.getD k 0)| := Int.one_le_abs (left_ne_zero_of_mul hne)
  have hone : (1 : ℝ) ≤ |(Flt.value (xs.getD k 0) : ℝ)| := by exact_mod_cast hval
  exact hone.trans (Finset.single_le_sum (f := fun k => |(Flt.value (xs.getD k 0) : ℝ)|)
    (fun _ _ => abs_nonneg _) hk)

/-- Of finite inputs the mean is below 2^128. -/
theorem meanMag_le (hm : 0 < m) (hlen : xs.length = m) (hfin : ∀ x ∈ xs, Flt.isFinite x = true) :
    meanMag m xs ≤ 2 ^ 24 * 2 ^ 253 := by
  have hm' : (0 : ℝ) < m := by exact_mod_cast hm
  rw [meanMag, div_le_iff₀ hm']
  refine (Finset.sum_le_card_nsmul _ _ (2 ^ 24 * 2 ^ 253) fun k hk => ?_).trans_eq ?_
  · have hk : k < xs.length := hlen ▸ Finset.mem_range.1 hk
    have hlt := (Flt.isFinite_iff _).1 (hfin _ (List.getElem_mem hk))
    rw [List.getD_eq_getElem _ _ hk, Flt.abs_value]
    refine (Flt.magUnits_lt_cast hlt).le.trans_eq ?_
    rw [Flt.magUnits_infPattern]
    norm_num
  · rw [Finset.card_range, nsmul_eq_mul, mul_comm]

/-- What an output is rounded from is near the reference's number. -/
theorem sumReal_near_reference (hm : 0 < m) (hm1024 : m ≤ 1024) {z : ℝ}
    (hz : Ref.IsTransform m xs n z) :
    |sumReal (imdctSum m xs n) m - 2 ^ 149 * z| ≤ meanMag m xs / 2 ^ 60 := by
  have hmean := meanMag_nonneg m xs
  have hcos := imdctSum_near hm hz
  have hlast : |sumReal (imdctSum m xs n) m - imdctSum m xs n / m / 2 ^ 640| ≤
      meanMag m xs / 2 ^ 64 := by
    by_cases h0 : imdctSum m xs n = 0
    · rw [h0, sumReal_zero]
      simp only [Int.cast_zero, zero_div, sub_zero, abs_zero]
      positivity
    · refine (sumReal_near _ hm).trans ?_
      have hone := one_le_meanMag hm h0
      have hpow : (2 : ℝ) ^ 641 = 2 ^ 567 * 2 ^ 10 * 2 ^ 64 := by rw [← pow_add, ← pow_add]
      have hm' : (m : ℝ) ≤ 2 ^ 10 := by norm_num; exact_mod_cast hm1024
      have hbig : (1 : ℝ) ≤ 2 ^ 567 := one_le_pow₀ (by norm_num)
      rw [hpow, ← div_div]
      gcongr
      rw [div_le_iff₀ (by positivity)]
      calc (1 : ℝ) ≤ m * meanMag m xs := hone
        _ ≤ 2 ^ 10 * meanMag m xs := by gcongr
        _ ≤ meanMag m xs * (2 ^ 567 * 2 ^ 10) := by
          rw [mul_comm, ← mul_assoc, mul_right_comm]
          exact le_mul_of_one_le_right (by positivity) hbig
  have htri := abs_sub_le (sumReal (imdctSum m xs n) m) (imdctSum m xs n / m / 2 ^ 640)
    (2 ^ 149 * z)
  norm_num at hlast hcos ⊢
  linarith

/-- A finite output is the reference's number to one rounding and the error of the cosines. -/
theorem roundSum_near_reference (hm : 0 < m) (hm1024 : m ≤ 1024) {z : ℝ}
    (hz : Ref.IsTransform m xs n z)
    (h : Flt.isFinite (roundSum (imdctSum m xs n) m) = true) :
    |(Flt.value (roundSum (imdctSum m xs n) m) : ℝ) / 2 ^ 149 - z| ≤ |z| / 2 ^ 24 + 1 / 2 ^ 150 +
      (∑ k ∈ Finset.range m, |(Flt.value (xs.getD k 0) : ℝ)| / 2 ^ 149) / m / 2 ^ 58 := by
  have hmean := meanMag_nonneg m xs
  have href := sumReal_near_reference hm hm1024 hz
  have hround := roundSum_near h
  have hsum : (∑ k ∈ Finset.range m, |(Flt.value (xs.getD k 0) : ℝ)| / 2 ^ 149) / m =
      meanMag m xs / 2 ^ 149 := by rw [← Finset.sum_div, div_right_comm, meanMag]
  have hscale : (Flt.value (roundSum (imdctSum m xs n) m) : ℝ) / 2 ^ 149 - z =
      (Flt.value (roundSum (imdctSum m xs n) m) - 2 ^ 149 * z) / 2 ^ 149 := by field_simp
  have habs : |(2 : ℝ) ^ 149 * z| = 2 ^ 149 * |z| := by rw [abs_mul, abs_pow, abs_two]
  have htri := abs_sub_le (Flt.value (roundSum (imdctSum m xs n) m) : ℝ)
    (sumReal (imdctSum m xs n) m) (2 ^ 149 * z)
  have hsize := abs_sub_abs_le_abs_sub (sumReal (imdctSum m xs n) m) (2 ^ 149 * z)
  rw [hsum, hscale, abs_div, abs_pow, abs_two, div_le_iff₀ (by positivity)]
  rw [habs] at hsize
  generalize |sumReal (imdctSum m xs n) m| = S at *
  norm_num at *
  linarith

/-- An output that is not finite has a number so great that the error of the cosines changes
neither its sign nor its size. -/
theorem roundSum_infinite_reference (hm : 0 < m) (hm1024 : m ≤ 1024) (hlen : xs.length = m)
    (hfin : ∀ x ∈ xs, Flt.isFinite x = true) {z : ℝ} (hz : Ref.IsTransform m xs n z)
    (h : Flt.isFinite (roundSum (imdctSum m xs n) m) = false) :
    Flt.isInf (roundSum (imdctSum m xs n) m) = true ∧ 2 ^ 127 ≤ |z| ∧
      (Flt.neg (roundSum (imdctSum m xs n) m) = true ↔ z < 0) := by
  obtain ⟨hinf, hbig, hneg⟩ := roundSum_infinite h
  have href := sumReal_near_reference hm hm1024 hz
  have hmean := meanMag_le hm hlen hfin
  rw [hneg]
  generalize sumReal (imdctSum m xs n) m = x at *
  have hnear : |x - 2 ^ 149 * z| ≤ 2 ^ 217 := by norm_num at *; linarith
  obtain ⟨hlo, hhi⟩ := abs_le.1 hnear
  refine ⟨hinf, ?_, ?_⟩
  · have hsize := abs_sub_abs_le_abs_sub x (2 ^ 149 * z)
    rw [abs_mul, abs_pow, abs_two] at hsize
    norm_num at *
    linarith
  · rcases abs_cases x with ⟨habs, hx⟩ | ⟨habs, hx⟩ <;> rw [habs] at hbig
    · refine iff_of_false (not_lt.2 hx) (not_lt.2 ?_)
      norm_num at *
      linarith
    · refine iff_of_true hx ?_
      norm_num at *
      linarith

/-! ### The statement -/

/-- An input that is a zero of either sign adds nothing. -/
theorem imdctSum_of_zeros (hlen : xs.length = m)
    (h : ∀ x ∈ xs, x = 0x00000000#32 ∨ x = 0x80000000#32) (n : ℕ) : imdctSum m xs n = 0 := by
  refine Finset.sum_eq_zero fun k hk => ?_
  have hk : k < xs.length := hlen ▸ Finset.mem_range.1 hk
  rw [List.getD_eq_getElem _ _ hk]
  have hval : Flt.value xs[k] = 0 := by
    rcases h _ (List.getElem_mem hk) with hx | hx <;> rw [hx] <;> decide
  rw [hval, zero_mul]

/-- Settles O45: an output is its sum rounded, the sum is near the reference's, and its
symmetries are the cosine's. -/
theorem transformSymmetries : Obligations.TransformSymmetries := by
  intro m xs hmem hlen
  have hlengths : ∀ m ∈ [1024, 960, 128, 120], 0 < m ∧ m ≤ 1024 ∧ m % 2 = 0 := by decide
  obtain ⟨hm, hm1024, heven⟩ := hlengths m hmem
  refine ⟨fun hfin n hn => ⟨_, imdct_of_finite hm hlen hfin hn, fun z hz => ⟨
      roundSum_near_reference hm hm1024 hz,
      roundSum_infinite_reference hm hm1024 hlen hfin hz⟩⟩,
    fun hfin n hn => ?_, fun hzero n hn => ?_, fun h n hn => imdct_of_not_finite hlen h hn⟩
  · refine ⟨_, _, _, _, imdct_of_finite hm hlen hfin (by omega),
      imdct_of_finite hm hlen hfin (by omega), imdct_of_finite hm hlen hfin (by omega),
      imdct_of_finite hm hlen hfin (by omega), ?_, ?_⟩
    · rw [imdctSum_mirror_first hm heven xs (by omega), roundSum_neg]
    · rw [imdctSum_mirror_second hm xs (by omega)]
  · have hfin : ∀ x ∈ xs, Flt.isFinite x = true := fun x hx => by
      rcases hzero x hx with rfl | rfl <;> decide
    rw [imdct_of_finite hm hlen hfin hn, imdctSum_of_zeros hlen hzero, roundSum_zero]

end Sys2Proof.Machine
end

section
/-! SUPPORT. Reset and control (47_control.md R290 to R292; 60_exceptions.md R313, R315;
70_reset_and_hazards.md R341 to R343): what hardware reset and SRST leave, and what a step does
while a fault is pending. -/

namespace Sys2Proof.Machine

open Sys2Proof

variable {i : Instr} {s t : State} {w : Word} {a : HostAccess}

/-! ### Reset values -/

theorem hostReadReg_of_reset (hregs : s.regs = Results.reset) (hcsr : s.csr = Csr.reset) (n : Nat) :
    hostReadReg s n = 0#32 := by
  unfold hostReadReg
  rw [hregs, hcsr]
  split <;> rfl

/-- A space of numbers with nothing listed is +0.0 in every element. -/
theorem elem_of_nothing_listed {sp : Space} (hz : sp.zeroed = true) (h : s.mem.cells sp = [])
    (k : Nat) : s.elem sp k = 0 := by
  rw [State.elem, Mem.read, h, unlisted_of_zeroed hz]
  rfl

theorem reset_cells (sp : Space) : State.reset.mem.cells sp = [] := by
  cases sp <;> rfl

theorem streamReset_cells_of_zeroed {sp : Space} (hz : sp.zeroed = true) (s : State) :
    (streamReset s).mem.cells sp = [] := by
  rw [streamReset_cells, if_pos hz]

theorem streamReset_cells_of_not_zeroed {sp : Space} (hz : ¬ sp.zeroed = true) (s : State) :
    (streamReset s).mem.cells sp = s.mem.cells sp := by
  rw [streamReset_cells, if_neg hz]

/-- Settles O51: the registers by evaluation, the spaces because nothing is listed. -/
theorem resetState : Obligations.ResetState := by
  have hzero : ∀ {sp : Space}, sp.zeroed = true → ∀ k, State.reset.elem sp k = 0 := fun hz =>
    elem_of_nothing_listed hz (reset_cells _)
  exact ⟨hostReadReg_of_reset rfl rfl, fun k _ => ⟨hzero rfl k, hzero rfl k⟩,
    fun k _ => hzero rfl k, rfl⟩

/-! ### SRST and FRST -/

theorem zeroed_iff (sp : Space) :
    sp.zeroed = true ↔ sp = .ovl ∨ sp = .tout ∨ sp = .lpcbuf := by
  cases sp <;> decide

/-- Settles O15: SRST gives the registers their reset values and unlists the spaces of numbers. -/
theorem srstResetsTheStream : Obligations.SrstResetsTheStream := by
  refine ⟨decode_encode (i := .srst) rfl, fun s => ⟨streamReset s, rfl, rfl,
    hostReadReg_of_reset rfl rfl, rfl, rfl, fun k _ => ?_, fun k _ => ?_, fun sp k hsp => ?_⟩⟩
  · exact ⟨elem_of_nothing_listed rfl rfl k, elem_of_nothing_listed rfl rfl k⟩
  · exact elem_of_nothing_listed rfl rfl k
  · exact read_of_cells_eq (streamReset_cells_of_not_zeroed (mt (zeroed_iff sp).1 hsp) s) k

/-- Settles O16: SRST leaves a space of numbers as reset does, and no other space changed. -/
theorem srstAgainstReset : Obligations.SrstAgainstReset := by
  rintro s t ⟨⟩
  refine ⟨rfl, rfl, fun sp => ?_⟩
  split
  next hz =>
    exact fun k => read_of_cells_eq
      ((streamReset_cells_of_zeroed hz s).trans (reset_cells sp).symm) k
  next hz => exact streamReset_cells_of_not_zeroed hz s

theorem frameStart_of_unsupportedProfile (h : s.csr.fault = some .unsupportedProfile) :
    frameStart s = s := by
  simp [frameStart, Csr.clearsOnFrameStart, h]

theorem frameStart_of_ne_unsupportedProfile (h : s.csr.fault ≠ some .unsupportedProfile) :
    frameStart s = { s with csr := { s.csr with
      fault := none, finfo := 0#32, fpos := 0#32, bitpos := 0#32 } } := by
  have hclears : s.csr.clearsOnFrameStart = true := bne_iff_ne.2 h
  exact if_pos hclears

/-- Settles O14: by whether UnsupportedProfile is pending. -/
theorem frstStartsAFrame : Obligations.FrstStartsAFrame := by
  refine ⟨decode_encode (i := .frst) rfl, fun s => congrArg Host.Outcome.next ?_⟩
  split
  next h => exact frameStart_of_unsupportedProfile h
  next h => exact frameStart_of_ne_unsupportedProfile h

/-! ### While a fault is pending -/

/-- Settles O6: step answers at once where the list is empty. -/
theorem stepWaitsForTheHost : Obligations.StepWaitsForTheHost := by
  intro s h
  unfold step
  rw [h]

theorem exec_of_pending (hf : s.csr.fault ≠ none) (hfrst : i ≠ .frst) (hsrst : i ≠ .srst) :
    exec i s = .next s := by
  cases i with
  | frst => exact absurd rfl hfrst
  | srst => exact absurd rfl hsrst
  | _ => exact runCmd_refused hf

/-- Every word but those of FRST and SRST is refused, whether it is legal or not. -/
theorem command_of_pending (hf : s.csr.fault ≠ none) (hfrst : w ≠ encode .frst)
    (hsrst : w ≠ encode .srst) : command w s = .next s := by
  unfold command
  split
  next i hd =>
    have hw := (encode_of_decode hd).2
    exact exec_of_pending hf (by rintro rfl; exact hfrst hw.symm)
      (by rintro rfl; exact hsrst hw.symm)
  next => exact runCmd_refused hf

theorem hostWrite_setFault (r : Csr) (f : Option BlockFault) (n : Nat) (w : Word) :
    ({ r with fault := f } : Csr).hostWrite n w = { r.hostWrite n w with fault := f } := by
  unfold Csr.hostWrite
  split <;> rfl

/-- An access that issues no command does the same whatever fault is pending, and leaves it. -/
theorem access_setFault (hne : ∀ w, a ≠ .writeReg 0 w) (h : access a s = .next t)
    (f : Option BlockFault) :
    access a { s with csr := { s.csr with fault := f } } =
      .next { t with csr := { t.csr with fault := f } } := by
  cases a with
  | readReg n => cases h; rfl
  | readMem sp k =>
    simp only [access, hostAccess] at h ⊢
    split at h
    next hk => cases h; exact if_pos hk
    next => cases h
  | writeMem sp k v =>
    simp only [access, hostAccess] at h ⊢
    split at h
    next hm => cases h; exact if_pos hm
    next => cases h
  | writeReg n w =>
    cases n with
    | zero => exact absurd rfl (hne w)
    | succ n =>
      simp only [access, hostAccess, hostWrite_setFault] at h ⊢
      split at h
      next hm => cases h; exact if_pos hm
      next => cases h

theorem access_fault (hne : ∀ w, a ≠ .writeReg 0 w) (h : access a s = .next t) :
    t.csr.fault = s.csr.fault := by
  have hsame : access a s = .next { t with csr := { t.csr with fault := s.csr.fault } } :=
    access_setFault hne h s.csr.fault
  rw [h] at hsame
  injection hsame with ht
  rw [ht]

/-- Settles O8: every command is refused but the two of R313, and an access that issues none does
not look at the fault. -/
theorem pendingFaultRefusesCommands : Obligations.PendingFaultRefusesCommands := by
  refine ⟨fun s w rest hs hf hfrst hsrst => ?_, fun s t a f hne h => access_setFault hne h f⟩
  rw [step_of_host hs]
  exact command_of_pending (s := { s with host := rest }) hf hfrst hsrst

theorem command_frst (s : State) : command (encode .frst) s = .next (frameStart s) :=
  command_of_decode (decode_encode (i := .frst) rfl) s

theorem command_changes_fault (hf : s.csr.fault ≠ none) (h : command w s = .next t)
    (hne : t.csr.fault ≠ s.csr.fault) :
    w = encode .frst ∧ t = frameStart s ∨ w = encode .srst := by
  by_cases hfrst : w = encode .frst
  · subst hfrst
    rw [command_frst] at h
    cases h
    exact .inl ⟨rfl, rfl⟩
  · by_contra hno
    rw [command_of_pending hf hfrst fun hsrst => hno (.inr hsrst)] at h
    cases h
    exact hne rfl

/-- A step that changes the pending fault made the host's write of FRST or SRST to CMD. -/
theorem step_changes_fault (hf : s.csr.fault ≠ none) (h : step s = .next t)
    (hne : t.csr.fault ≠ s.csr.fault) :
    ∃ rest, s.host = .writeReg 0 (encode .frst) :: rest ∧ t = frameStart { s with host := rest } ∨
      s.host = .writeReg 0 (encode .srst) :: rest := by
  cases hs : s.host with
  | nil =>
    rw [stepWaitsForTheHost s hs] at h
    cases h
    exact absurd rfl hne
  | cons a rest =>
    rw [step_of_host hs] at h
    by_cases hcmd : ∃ w, a = .writeReg 0 w
    · obtain ⟨w, rfl⟩ := hcmd
      obtain ⟨rfl, rfl⟩ | rfl := command_changes_fault (s := { s with host := rest }) hf h hne
      · exact ⟨rest, .inl ⟨rfl, rfl⟩⟩
      · exact ⟨rest, .inr rfl⟩
    · exact absurd (access_fault (not_exists.1 hcmd) h) hne

/-- Settles O17: to clear a fault is to change it. -/
theorem onlyControlClearsAFault : Obligations.OnlyControlClearsAFault := by
  intro s t h hf ht
  obtain ⟨rest, ⟨hfrst, -⟩ | hsrst⟩ := step_changes_fault hf h (ht ▸ hf.symm)
  · exact ⟨rest, .inl hfrst⟩
  · exact ⟨rest, .inr hsrst⟩

/-! ### UnsupportedProfile -/

/-- A body that starts with a check the state fails raises its fault at once. -/
theorem runCmd_check_recorded {f : BlockFault} (hf : f ≠ .formatError) {ok : State → Bool}
    (hs : s.csr.fault = none) (hok : ok s = false) (g : State → Unit → Cmd Unit) (w : Word) :
    runCmd w (get >>= fun s => check (ok s) f >>= g s) s = .next (Ref.recorded f w s) := by
  refine runCmd_recorded hf hs ?_ w
  rw [sat_bind, sat_get, sat_bind, sat_check, hok]
  exact ⟨rfl, rfl⟩

/-- Settles O29: the flag is checked first, and of the two words that change a pending fault FRST
leaves this one. -/
theorem unsupportedProfileIsFatal : Obligations.UnsupportedProfileIsFatal := by
  refine ⟨fun c s hs => ⟨fun hflag => ?_, fun hflag => ?_⟩, fun s hs => ⟨?_, streamReset s, rfl,
    rfl⟩, fun s t hs h ht => ?_⟩
  · rw [exec_sfd]
    exact runCmd_check_recorded (ok := fun s => !s.csr.errvlc) (by decide) hs
      (by simp [Csr.errvlc, hflag]) _ _
  · rw [exec_spd]
    exact runCmd_check_recorded (ok := fun s => !s.csr.erhcr) (by decide) hs
      (by simp [Csr.erhcr, hflag]) _ _
  · exact congrArg Host.Outcome.next (frameStart_of_unsupportedProfile hs)
  · obtain ⟨rest, ⟨-, rfl⟩ | hsrst⟩ := step_changes_fault (by simp [hs]) h (hs ▸ ht)
    · rw [frameStart_of_unsupportedProfile (s := { s with host := rest }) hs] at ht
      exact absurd hs ht
    · exact ⟨rest, hsrst⟩

end Sys2Proof.Machine
end

section
/-! SUPPORT. Faults (60_exceptions.md R304, R311, R312): in which state each command raises one. A
command other than HSF, HSP, SFD and SPD checks before it changes anything, and its own lemmas say
that it completes where its checks pass. These four may have read far into the stream, and ILEN may
be any word here, so the lemmas about ready states do not apply: their bodies are followed from any
state, for the elements each part writes and the faults it raises, of which `Keeps` says nothing. -/

namespace Sys2Proof.Machine

open Sys2Proof

variable {i : Instr} {s t u : State} {α β : Type} {out : Space → Nat → Prop} {f : BlockFault}

/-! ### Parts of a body that read the stream -/

/-- From `s` to `t` the stream has been read and elements of `out` written, nothing else. -/
structure Decoded (out : Space → Nat → Prop) (s t : State) : Prop where
  regs : t.regs = s.regs
  csr : t.csr = { s.csr with bitpos := t.csr.bitpos }
  host : t.host = s.host
  elem : Ref.SameExcept s t out

/-- A part of a body that reads the stream and writes elements of `out`, whatever state it is run
from and however it ends, and whose faults are that the stream ends and that it is malformed. -/
def Decodes (out : Space → Nat → Prop) (m : Cmd α) : Prop :=
  ∀ s, Sat m s (fun _ t => Decoded out s t) fun e t =>
    Decoded out s t ∧ ∀ f, e = .raised f → f = .endOfStream ∨ f = .formatError

theorem Decoded.refl (out : Space → Nat → Prop) (s : State) : Decoded out s s :=
  ⟨rfl, rfl, rfl, fun _ _ _ => rfl⟩

theorem Decoded.trans (h : Decoded out s t) (h' : Decoded out t u) : Decoded out s u where
  regs := h'.regs.trans h.regs
  csr := h'.csr.trans (by rw [h.csr])
  host := h'.host.trans h.host
  elem sp k hk := (h'.elem sp k hk).trans (h.elem sp k hk)

theorem decodes_pure (a : α) : Decodes out (pure a) := .refl out

theorem decodes_get : Decodes out get := .refl out

theorem decodes_formatError : Decodes out (raise .formatError : Cmd α) := fun s =>
  ⟨.refl out s, fun _ h => by cases h; exact .inr rfl⟩

theorem decodes_noElement (sp : Space) (k : Nat) :
    Decodes out (throw (.noElement sp k) : Cmd α) := fun s => ⟨.refl out s, nofun⟩

theorem decodes_ite {p : Prop} [Decidable p] {m m' : Cmd α} (h : Decodes out m)
    (h' : Decodes out m') : Decodes out (if p then m else m') := by
  split
  · exact h
  · exact h'

theorem decodes_check (ok : Bool) : Decodes out (check ok .formatError) :=
  decodes_ite (decodes_pure ()) decodes_formatError

theorem decodes_bind {m : Cmd β} {g : β → Cmd α} (h : Decodes out m)
    (hg : ∀ b, Decodes out (g b)) : Decodes out (m >>= g) := fun s => by
  rw [sat_bind]
  exact (h s).imp (fun b t ht => (hg b t).imp (fun _ _ => ht.trans)
    fun _ _ he => ⟨ht.trans he.1, he.2⟩) fun _ _ => id

theorem decodes_map {m : Cmd β} (g : β → α) (h : Decodes out m) : Decodes out (g <$> m) :=
  fun s => by
    rw [sat_map]
    exact h s

theorem decodes_each {g : β → Cmd Unit} {l : List β} (hg : ∀ b ∈ l, Decodes out (g b)) :
    Decodes out (each g l) := fun s =>
  sat_each_keeps (.refl out s) fun b hb t ht => (hg b hb t).imp (fun _ _ => ht.trans)
    fun _ _ he => ⟨ht.trans he.1, he.2⟩

theorem decodes_carry {g : α → β → Cmd α} {l : List β} (hg : ∀ b ∈ l, ∀ a, Decodes out (g a b))
    (a : α) : Decodes out (carry g a l) := fun s =>
  sat_carry_keeps (I := fun _ t => Decoded out s t) (.refl out s) fun b hb a t ht =>
    (hg b hb a t).imp (fun _ _ => ht.trans) fun _ _ he => ⟨ht.trans he.1, he.2⟩

theorem decodes_store {sp : Space} (hz : sp.zeroed = false) {k : Nat} (hk : out sp k)
    (v : BitVec sp.width) : Decodes out (store sp k v) := fun s => by
  rw [sat_store]
  split
  · refine ⟨rfl, rfl, rfl, fun sp' j hj => elem_write_other s hz v ?_⟩
    rintro ⟨rfl, rfl⟩
    exact hj hk
  · exact ⟨.refl out s, nofun⟩

theorem decodes_storeLine {sp : Space} {c : Channel} (hz : sp.zeroed = false)
    (hout : ∀ k < 1024, out sp (lineIx c k)) (k : Nat) (v : BitVec sp.width) :
    Decodes out (storeLine sp c k v) := by
  unfold storeLine
  split
  next hk => exact decodes_store hz (hout k hk) v
  next => exact decodes_noElement _ _

theorem decodes_storeRun {sp : Space} {base : Nat} {vs : List (BitVec sp.width)}
    (hout : ∀ k, base ≤ k → k < base + vs.length → out sp k) :
    Decodes out (storeRun sp base vs) := fun s => by
  rw [sat_storeRun]
  split
  · refine ⟨rfl, rfl, rfl, fun sp' j hj => ?_⟩
    by_cases hsp : sp' = sp
    · subst hsp
      exact (elem_writeRun s sp' base vs j).trans (if_neg fun h => hj (hout j h.1 h.2))
    · exact elem_writeRun_of_ne s base vs hsp j
  · exact ⟨.refl out s, nofun⟩

theorem decodes_readBits (n : Nat) : Decodes out (readBits n) := fun s => by
  rw [sat_readBits]
  split
  · exact ⟨.refl out s, fun _ h => by cases h; exact .inl rfl⟩
  · split
    · exact ⟨rfl, rfl, rfl, fun _ _ _ => rfl⟩
    · exact ⟨.refl out s, nofun⟩

/-! ### The Huffman decoder -/

theorem decodes_huffDecode (p : Params) (b : Book) : Decodes out (huffDecode p b) := by
  have key : ∀ left len acc, Decodes out (huffLoop (p.hcb b) left len acc) := by
    intro left
    induction left with
    | zero => exact fun _ _ => decodes_formatError
    | succ left ih =>
      intro len acc
      refine decodes_bind (decodes_readBits 1) fun v => ?_
      cases symbolOf (p.hcb b) (len + 1) (2 * acc + v) with
      | some sym => exact decodes_pure _
      | none => exact ih _ _
  exact key _ _ _

theorem decodes_signBits (vs : List Int) : Decodes out (signBits vs) := by
  induction vs with
  | nil => exact decodes_pure _
  | cons v vs ih =>
    have hrest : ∀ x : Int, Decodes out (signBits vs >>= fun rest => pure (x :: rest)) := fun _ =>
      decodes_bind ih fun _ => decodes_pure _
    exact decodes_ite (hrest v) (decodes_bind (decodes_readBits 1) fun _ => hrest _)

theorem decodes_escapePrefix (left n : Nat) : Decodes out (escapePrefix left n) := by
  induction left generalizing n with
  | zero =>
    exact decodes_bind (decodes_readBits 1) fun _ =>
      decodes_ite decodes_formatError (decodes_pure _)
  | succ left ih =>
    exact decodes_bind (decodes_readBits 1) fun _ => decodes_ite (ih _) (decodes_pure _)

theorem decodes_escape (p : Params) : Decodes out (escape p) :=
  decodes_bind (decodes_escapePrefix _ _) fun _ =>
    decodes_bind (decodes_readBits _) fun _ => decodes_pure _

theorem decodes_escapes (p : Params) (vs : List Int) : Decodes out (escapes p vs) := by
  induction vs with
  | nil => exact decodes_pure _
  | cons v vs ih =>
    have hrest : ∀ x : Int, Decodes out (escapes p vs >>= fun rest => pure (x :: rest)) := fun _ =>
      decodes_bind ih fun _ => decodes_pure _
    exact decodes_ite (decodes_bind (decodes_escape p) fun _ => hrest _) (hrest v)

theorem decodes_huffSpec (p : Params) (b : SpecBook) : Decodes out (huffSpec p b) := by
  have hend : ∀ v, Decodes out (if b = .b11 then escapes p v else pure v) := fun v =>
    decodes_ite (decodes_escapes p v) (decodes_pure v)
  refine decodes_bind (decodes_huffDecode p _) fun sym => ?_
  exact decodes_ite (decodes_bind (decodes_pure _) hend) (decodes_bind (decodes_signBits _) hend)

/-! ### The bands of the passes -/

/-- A band of an accepted geometry has its scale factor in its channel's half of SF. -/
theorem faultLeaves_bandIx (c : Channel) {g b : Nat} (hg : g < 8) (hb : b < 64) :
    Ref.faultLeaves (.sfd c) .sf (bandIx c g b) := by
  unfold bandIx
  exact ⟨rfl, by omega, by omega⟩

theorem decodes_sfdBand (p : Params) (c : Channel) {gb : Nat × Nat} (hg : gb.1 < 8)
    (hb : gb.2 < 64) (k : SfCounters) :
    Decodes (Ref.faultLeaves (.sfd c)) (sfdBand p c k gb) := by
  have hd : Decodes (Ref.faultLeaves (.sfd c)) (sfDelta p) :=
    decodes_bind (decodes_huffDecode p _) fun _ => decodes_pure _
  have hst : ∀ (v : Int) (k' : SfCounters), Decodes (Ref.faultLeaves (.sfd c))
      (storeSf c gb v >>= fun _ => pure k') := fun _ _ =>
    decodes_bind (decodes_store rfl (faultLeaves_bandIx c hg hb) _) fun _ => decodes_pure _
  refine decodes_bind decodes_get fun s => ?_
  cases s.cb c gb.1 gb.2 with
  | zero => exact hst _ _
  | intensity2 | intensity => exact decodes_bind hd fun _ => hst _ _
  | noise =>
    exact decodes_ite
      (decodes_bind (decodes_map _ (decodes_readBits _)) fun _ => hst _ _)
      (decodes_bind hd fun _ => hst _ _)
  | spectral | reserved =>
    exact decodes_bind hd fun _ => decodes_bind (decodes_check _) fun _ => hst _ _

theorem faultLeaves_lineIx (c : Channel) {k : Nat} (hk : k < 1024) :
    Ref.faultLeaves (.spd c) .qspec (lineIx c k) := by
  unfold lineIx
  exact ⟨rfl, by omega, by omega⟩

theorem decodes_spdBand (p : Params) (c : Channel) (gb : Nat × Nat) :
    Decodes (Ref.faultLeaves (.spd c)) (spdBand p c gb) := by
  refine decodes_bind decodes_get fun s => ?_
  cases s.cb c gb.1 gb.2 with
  | spectral b =>
    refine decodes_bind (decodes_check _) fun _ =>
      decodes_each fun w _ => decodes_each fun k _ => ?_
    refine decodes_bind (decodes_huffSpec p b) fun v =>
      decodes_bind decodes_get fun _ => decodes_each fun _ _ => ?_
    exact decodes_storeLine rfl (fun _ => faultLeaves_lineIx c) _ _
  | _ => exact decodes_pure _

theorem decodes_clearLines (c : Channel) (n : Nat) : Decodes (Ref.faultLeaves (.spd c))
    (storeLines .qspec c 0 (List.replicate n 0)) := by
  unfold storeLines
  split
  next hn =>
    rw [List.length_replicate] at hn
    refine decodes_storeRun fun k hlo hhi => ?_
    rw [List.length_replicate] at hhi
    unfold lineIx at hlo hhi
    exact ⟨rfl, by omega, by omega⟩
  next => exact decodes_noElement _ _

/-! ### In which state a fault is raised -/

/-- The command `i`, started in `s`, may raise `f` in the state `u` (60_exceptions.md R312). -/
structure RaisedIn (i : Instr) (s : State) (f : BlockFault) (u : State) : Prop where
  decoded : Decoded (Ref.faultLeaves i) s u
  cursor : Ref.faultMovesCursor i = false → u.csr.bitpos = s.csr.bitpos
  early : f = .cmdError ∨ f = .unsupportedProfile → u = s

/-- Run from `s`, the body `m` of `i` raises a fault only where `i` may, and ends normally with none
recorded. -/
def Raises (i : Instr) (m : Cmd Unit) (s : State) : Prop :=
  Sat m s (fun _ t => t.csr.fault = s.csr.fault) fun e u => ∀ f, e = .raised f → RaisedIn i s f u

/-- A fault may always be raised before anything is changed. -/
theorem RaisedIn.refl (i : Instr) (s : State) (f : BlockFault) : RaisedIn i s f s :=
  ⟨.refl _ s, fun _ => rfl, fun _ => rfl⟩

theorem Decoded.fault (h : Decoded out s t) : t.csr.fault = s.csr.fault := by rw [h.csr]

theorem Decoded.raisedIn (h : Decoded (Ref.faultLeaves i) s u)
    (hi : Ref.faultMovesCursor i = true) (hf : f = .endOfStream ∨ f = .formatError) :
    RaisedIn i s f u where
  decoded := h
  cursor hno := by simp [hi] at hno
  early := by rintro (rfl | rfl) <;> simp at hf

/-- A body that reads the stream and then puts its value into the result registers. -/
theorem raises_decodeThen {m : Cmd α} {g : α → Cmd Unit} (hm : Decodes (Ref.faultLeaves i) m)
    (hi : Ref.faultMovesCursor i = true)
    (hg : ∀ a u, Sat (g a) u (fun _ t => t.csr = u.csr) fun _ _ => False) (s : State) :
    Raises i (m >>= g) s := by
  unfold Raises
  rw [sat_bind]
  refine (hm s).imp (fun a u hu => (hg a u).imp (fun _ t ht => ?_) fun _ _ => False.elim)
    fun e u ⟨hu, he⟩ f hef => hu.raisedIn hi (he f hef)
  rw [ht]
  exact hu.fault

theorem Decodes.raises {m : Cmd Unit} (hm : Decodes (Ref.faultLeaves i) m)
    (hi : Ref.faultMovesCursor i = true) (s : State) : Raises i m s :=
  (hm s).imp (fun _ _ => Decoded.fault) fun _ _ ⟨hu, he⟩ f hef => hu.raisedIn hi (he f hef)

/-- A body that always ends normally raises nothing. -/
theorem raises_of_completes {m : Cmd Unit} {Q : State → Prop}
    (hm : Sat m s (fun _ t => Q t) fun _ _ => False)
    (hq : ∀ t, Q t → t.csr.fault = s.csr.fault) : Raises i m s :=
  hm.imp (fun _ => hq) fun _ _ => False.elim

theorem raises_of_touches {m : Cmd Unit} {w : Space → Bool} {Q : State → Prop}
    (hm : Sat m s (fun _ t => Q t) fun _ _ => False) (hq : ∀ t, Q t → Touches w s t) :
    Raises i m s :=
  raises_of_completes hm fun t ht => by rw [(hq t ht).csr]

theorem raises_checkThen {ok : Bool} {e : BlockFault} {g : Unit → Cmd Unit}
    (hg : ok = true → Raises i (g ()) s) : Raises i (check ok e >>= g) s := by
  unfold Raises
  rw [sat_bind, sat_check]
  split
  next hok => exact hg hok
  next => exact fun f _ => .refl i s f

theorem raises_geomCheckThen {c : Channel} {g : Unit → Cmd Unit}
    (hg : Ref.Geometry s c → Raises i (g ()) s) : Raises i (geomCheck c >>= g) s := by
  unfold Raises
  rw [sat_bind, sat_geomCheck]
  exact ⟨hg, fun _ f _ => .refl i s f⟩

/-! ### Command by command -/

/-- A field is taken whole or not at all: EndOfStream comes before any change. -/
theorem raises_peekThen (n : Nat) {g : Nat → Cmd Unit}
    (hg : ∀ v, Sat (g v) s (fun _ t => t.csr.fault = s.csr.fault) fun _ _ => False) :
    Raises i (peekBits n >>= g) s := by
  unfold Raises
  rw [sat_bind, sat_peekBits]
  split
  · exact fun f _ => .refl i s f
  · split
    · exact (hg _).imp (fun _ _ => id) fun _ _ => False.elim
    · exact nofun

theorem raises_readThen (n : Nat) (g : Nat → Word) (s : State) :
    Raises i (readBits n >>= fun v => setRes0 (g v)) s := by
  rw [readBits, bind_assoc]
  refine raises_peekThen n fun v => ?_
  simp only [sat_bind, sat_modify, sat_pure, sat_setRes0]
  rfl

theorem raises_balCmd (s : State) : Raises i balCmd s := by
  unfold Raises
  rw [sat_balCmd]
  split
  · rfl
  · split
    · exact fun f _ => .refl i s f
    · rfl

theorem raises_blfCmd (s : State) : Raises i blfCmd s := by
  rw [Raises, blfCmd, sat_bind, sat_get, sat_setRes0]

theorem raises_hspCmd (p : Params) (cb : BitVec 4) (s : State) :
    Raises (.hsp cb) (hspCmd p cb) s := by
  unfold hspCmd
  cases codebookOf cb with
  | spectral b =>
    exact raises_decodeThen (decodes_huffSpec p b) rfl
      (fun _ _ => (sat_setResAll _ _ _ _).2 rfl) s
  | _ => exact fun f _ => .refl _ s f

theorem raises_sfdCmd (p : Params) (c : Channel) (s : State) : Raises (.sfd c) (sfdCmd p c) s := by
  refine raises_checkThen fun _ => raises_geomCheckThen fun hg => ?_
  refine raises_decodeThen (decodes_carry (fun gb hgb => ?_) _) rfl
    (fun _ _ => (sat_pure _).2 rfl) s
  obtain ⟨hgroup, hband⟩ := mem_bandList.1 hgb
  exact decodes_sfdBand p c (hg.group_lt hgroup) (hband.trans (maxsfb_lt _ _))

theorem raises_spdCmd (p : Params) (c : Channel) (s : State) : Raises (.spd c) (spdCmd p c) s := by
  refine raises_checkThen fun _ => raises_geomCheckThen fun _ => ?_
  exact (decodes_bind (decodes_clearLines c _) fun _ =>
    decodes_each fun gb _ => decodes_spdBand p c gb).raises rfl s

/-- MS and IS raise their faults in the checks before their loops. -/
theorem raises_stereo {g : Unit → Cmd Unit} (hs : s.csr.fault = none)
    (hr : Ref.StereoReady s → Raises i (stereoChecks >>= g) s) :
    Raises i (stereoChecks >>= g) s := by
  by_cases hready : Ref.StereoReady s
  · exact hr hready
  · unfold Raises
    rw [sat_bind, sat_stereoChecks]
    exact ⟨fun _ f _ => .refl i s f, fun _ _ f _ => .refl i s f, fun hp hmode =>
      ⟨fun hg => absurd ⟨hs, hp, hmode, hg.1, hg.2⟩ hready, fun _ f _ => .refl i s f⟩⟩

theorem raises_tnslCmd (c : Channel) (w : BitVec 3) (g : BitVec 2) (s : State) :
    Raises i (tnslCmd blockParams c w g) s := by
  by_cases hg : g.toNat ≤ 2
  · exact (sat_tnslCmd hg).2 ⟨fun _ f _ => .refl i s f, fun _ _ f _ => .refl i s f,
      fun _ _ => rfl⟩
  · exact raises_checkThen fun hlegal => absurd (of_decide_eq_true hlegal) hg

theorem raises_tnsCmd (c : Channel) (s : State) : Raises i (tnsCmd blockParams c) s := by
  by_cases hg : Ref.Geometry s c
  · by_cases hv : s.slotsOk c = true
    · exact raises_of_touches (sat_tnsCmd_walked hg (slotsOk_iff.1 hv)) fun _ ⟨_, ht⟩ => ht.touches
    · unfold Raises
      rw [sat_tnsCmd hg, if_neg hv]
      exact fun f _ => .refl i s f
  · exact sat_geomCheck_rejected hg _ fun f _ => .refl i s f

theorem raises_iqCmd (c : Channel) (s : State) : Raises i (iqCmd blockParams c) s := by
  by_cases hg : Ref.Geometry s c
  · exact raises_of_touches (sat_iqCmd hg) fun _ ht => ht.touches
  · exact sat_geomCheck_rejected hg _ fun f _ => .refl i s f

theorem raises_fbCmd (c : Channel) (s : State) : Raises i (fbCmd blockParams c) s :=
  raises_of_completes (sat_fbCmd blockParams c s) fun t ht => by rw [ht.csr]; rfl

/-! ### Fault entry -/

/-- A command that leaves a fault recorded raised it where it may. -/
theorem Raises.takeFault {m : Cmd Unit} {w : Word} (hm : Raises i m s) (h : runCmd w m s = .next t)
    (hs : s.csr.fault = none) (ht : t.csr.fault = some f) :
    ∃ u, RaisedIn i s f u ∧ t = takeFault f w u := by
  refine runCmd_next (P := fun t => t.csr.fault = some f → ∃ u, RaisedIn i s f u ∧
    t = Machine.takeFault f w u) h (absurd hs) (fun _ => hm.imp (fun _ t hsame ht => ?_) ?_) ht
  · rw [hsame, hs] at ht
    cases ht
  · rintro e u he f' rfl ⟨⟩
    exact ⟨u, he f rfl, rfl⟩

theorem exec_takeFault (h : exec i s = .next t) (hs : s.csr.fault = none)
    (ht : t.csr.fault = some f) : ∃ u, RaisedIn i s f u ∧ t = takeFault f (encode i) u := by
  cases i with
  | frst =>
    cases h
    rw [frameStart_of_ne_unsupportedProfile (by simp [hs])] at ht
    cases ht
  | srst => cases h; cases ht
  | brd n | brds n =>
    exact (raises_checkThen fun _ => raises_readThen _ _ s).takeFault h hs ht
  | brb => exact (raises_readThen _ _ s).takeFault h hs ht
  | bpk n =>
    exact (raises_checkThen fun _ => raises_peekThen _ fun _ =>
      (sat_setRes0 _).2 rfl).takeFault h hs ht
  | bal => exact (raises_balCmd s).takeFault h hs ht
  | blf => exact (raises_blfCmd s).takeFault h hs ht
  | hsf =>
    exact (raises_decodeThen (decodes_huffDecode _ _) rfl
      (fun _ _ => (sat_setRes0 _).2 rfl) s).takeFault h hs ht
  | hsp cb => exact (raises_hspCmd _ cb s).takeFault h hs ht
  | sfd c => exact (raises_sfdCmd _ c s).takeFault h hs ht
  | spd c => exact (raises_spdCmd _ c s).takeFault h hs ht
  | ms =>
    exact (raises_stereo hs fun hr => raises_of_touches (sat_msCmd hr)
      fun _ hu => hu.touches).takeFault h hs ht
  | is =>
    exact (raises_stereo hs fun hr => raises_of_touches (sat_isCmd _ hr)
      fun _ hu => hu.1.touches).takeFault h hs ht
  | tnsl c w g => exact (raises_tnslCmd c w g s).takeFault h hs ht
  | tns c => exact (raises_tnsCmd c s).takeFault h hs ht
  | iq c => exact (raises_iqCmd c s).takeFault h hs ht
  | fb c => exact (raises_fbCmd c s).takeFault h hs ht

/-- Fault entry changes no element but those of TOUT, by FormatError. -/
theorem elem_takeFault {sp : Space} (h : ¬ (sp = .tout ∧ f = .formatError)) (w : Word) (s : State)
    (k : Nat) : (takeFault f w s).elem sp k = s.elem sp k := by
  by_cases hf : f = .formatError
  · exact read_of_cells_eq (takeFault_cells_of_ne f w s fun hsp => h ⟨hsp, hf⟩) k
  · rw [State.elem, takeFault_mem_of_ne hf]
    rfl

/-- A faulting command has written no space of numbers. -/
theorem not_faultLeaves_of_zeroed {sp : Space} (hz : sp.zeroed = true) (i : Instr) (k : Nat) :
    ¬ Ref.faultLeaves i sp k := by
  cases i with
  | sfd c => rintro ⟨rfl, -⟩; cases hz
  | spd c => rintro ⟨rfl, -⟩; cases hz
  | _ => exact id

/-- Settles O12: the body has written no register but BITPOS and neither TOUT nor OVL; the rest is
what fault entry does. -/
theorem faultEntry : Obligations.FaultEntry := by
  intro i s t f h hs ht
  obtain ⟨u, ⟨hu, -, -⟩, rfl⟩ := exec_takeFault h hs ht
  refine ⟨hu.regs, hu.host, ?_, ?_, fun hf k => ?_, fun k => ?_⟩
  · simp only [takeFault, Csr.setFault]
    rw [hu.csr]
  · rintro rfl k -
    exact read_setCells_nil u.mem rfl k
  · exact (elem_takeFault (fun hne => hf hne.2) _ u k).trans
      (hu.elem _ k (not_faultLeaves_of_zeroed rfl i k))
  · exact (elem_takeFault (by simp) _ u k).trans (hu.elem _ k (not_faultLeaves_of_zeroed rfl i k))

/-- Settles O13: what the body left where it raised the fault, with TOUT cleared by FormatError. -/
theorem faultLeavesBehind : Obligations.FaultLeavesBehind := by
  intro i s t f h hs ht
  obtain ⟨u, ⟨hu, hcursor, hearly⟩, rfl⟩ := exec_takeFault h hs ht
  refine ⟨fun sp k hk => ?_, hcursor, fun hf => ?_⟩
  · rw [not_or] at hk
    exact (elem_takeFault hk.1 _ u k).trans (hu.elem sp k hk.2)
  · obtain rfl := hearly hf
    exact takeFault_eq_recorded (by rcases hf with rfl | rfl <;> decide) _ u

end Sys2Proof.Machine
end
